-- ==== Sys2Proof/Word.lean ====
section
/-! DEFINITION. The two word types of CORE: bytes (pixels, probabilities, bytes of `CBUF`) and the
32-bit words of commands and registers (spec 10_state.md R21, 30_encoding.md R101). -/

namespace Sys2Proof

/-- Eight bits: a pixel, a probability, a byte of `CBUF`, a field of a command word. -/
abbrev Byte := BitVec 8

/-- Thirty-two bits: a command word, an argument, result or control register. -/
abbrev Word := BitVec 32

end Sys2Proof
end

