-- ==== Sys2Proof/Machine/TableValues.lean ====
section
/-! DEFINITION. The given values of the general-knowledge tables: the numbers that the spec prints
(00_scope.md R10, R15; 93_implementation_defined.md section 2). Each is the default of the field of
`GeneralTables` (Config.lean) that bears its name, and nothing else reads it. -/

namespace Sys2Proof

/-- The six multipliers of a segment (46_inverse_transform_dequant.md R332). -/
inductive Multiplier where
  | y1dc
  | y1ac
  | y2dc
  | y2ac
  | uvdc
  | uvac
  deriving DecidableEq, Repr

namespace Given

/-- The ten trees, by id (40_range_decoder.md R139, R140). -/
def trees : List (List Int) := [
  [2, 4, 0, -1, -2, -3],
  [-4, 2, 4, 6, 0, -1, -2, -3],
  [0, 2, 4, 6, -1, -2, -3, -4],
  [0, 2, -1, 4, -2, -3],
  [0, 2, -1, 4, -2, 6, 8, 12, -3, 10, -5, -6, -4, 14, -7, 16, -8, -9],
  [-5, 2, -6, 4, -7, 6, -8, -9],
  [-3, 2, -2, 4, 0, -1],
  [0, 2, -1, 4, -2, -3],
  [2, 8, 4, 6, 0, -1, -2, -3, 10, 12, -4, -5, -6, -7],
  [-11, 2, 0, 4, -1, 6, 8, 12, -2, 10, -3, -4, 14, 16, -5, -6, 18, 20, -7, -8, -9, -10]]

/-- Keyframe luma-mode probabilities (41_mode_decoder.md R164). -/
def kfYmodeProbs : List Byte := [145, 156, 163, 128]

/-- Keyframe chroma-mode probabilities (R168). -/
def kfUvmodeProbs : List Byte := [142, 114, 183]

/-- Interframe sub-mode probabilities (R167). -/
def bmodeProbs : List Byte := [120, 90, 79, 133, 87, 85, 80, 111, 151]

/-- `IMPLIED[mode]`: the number of the sub-mode that a 16x16 mode counts as, by the mode's number (R173). -/
def implied : List Nat := [0, 2, 3, 1]

/-- Default interframe luma-mode probabilities (48_frame_control_host.md R409). -/
def ymodeDefault : List Byte := [112, 86, 140, 37]

/-- Default interframe chroma-mode probabilities (R409). -/
def uvmodeDefault : List Byte := [162, 101, 204]

/-- `MAP[literal]` of the reference updates (R417). -/
def refMap : List Nat := [0, 2, 3, 0]

/-- The weights of the neighbours above, left and above-left (42_motion_predictor.md R195). -/
def neighbourWeights : List Nat := [2, 2, 1]

/-- `MODE_CONTEXTS[count][level]` (42_motion_predictor.md R198). -/
def modeContexts : List (List Byte) :=
  [[7, 1, 1, 143], [14, 18, 14, 107], [135, 64, 57, 68], [60, 56, 128, 65],
   [159, 134, 128, 34], [234, 188, 128, 28]]

/-- `MV_DEFAULT[d][i]` (R204); `d = 0` is the row (y) component. -/
def mvDefault : List (List Byte) :=
  [[162, 128, 225, 146, 172, 147, 214, 39, 156, 128, 129, 132, 75, 145, 178, 206, 239, 254, 254],
   [164, 128, 204, 170, 119, 235, 140, 230, 228, 128, 130, 130, 74, 148, 180, 203, 236, 254, 254]]

/-- `PART[shape][b]` (R205). -/
def splitPart : List (List Nat) :=
  [[0, 0, 0, 0, 0, 0, 0, 0, 1, 1, 1, 1, 1, 1, 1, 1],
   [0, 0, 1, 1, 0, 0, 1, 1, 0, 0, 1, 1, 0, 0, 1, 1],
   [0, 0, 1, 1, 0, 0, 1, 1, 2, 2, 3, 3, 2, 2, 3, 3],
   [0, 1, 2, 3, 4, 5, 6, 7, 8, 9, 10, 11, 12, 13, 14, 15]]

/-- `FIRST[shape]`: the first sub-block of each partition, in partition order; its length is `NPART[shape]`
(R205). -/
def splitFirst : List (List Nat) :=
  [[0, 8], [0, 2], [0, 2, 8, 10], [0, 1, 2, 3, 4, 5, 6, 7, 8, 9, 10, 11, 12, 13, 14, 15]]

/-- `SPLIT_PROBS` (R206). -/
def splitProbs : List Byte := [110, 111, 150]

/-- `SUBMV_PROBS[ctx]` (R207). -/
def submvProbs : List (List Byte) := [[147, 136, 18], [106, 145, 1], [179, 121, 1], [223, 1, 34], [208, 1, 1]]

/-- `BANDS[i]` (43_coefficient_decoder.md R234). -/
def bands : List Nat := [0, 1, 2, 3, 6, 4, 5, 6, 6, 6, 6, 6, 6, 6, 6, 7]

/-- Base and extra-bit probabilities of CAT1 to CAT6 (R236). -/
def categories : List (Nat × List Byte) := [
  (5, [159]),
  (7, [165, 145]),
  (11, [173, 148, 140]),
  (19, [176, 155, 140, 135]),
  (35, [180, 157, 141, 134, 130]),
  (67, [254, 254, 243, 230, 196, 177, 153, 140, 133, 130, 129])]

/-- `ZIGZAG[i]` (R237). -/
def zigzag : List Nat := [0, 1, 4, 8, 5, 2, 3, 6, 9, 12, 13, 10, 7, 11, 14, 15]

/-- The multiplier of each plane type: at position 0, and after it (R238). Type 0 starts at position 1, so
that its first entry is not used. -/
def factors : List (Multiplier × Multiplier) :=
  [(.y1ac, .y1ac), (.y2dc, .y2ac), (.uvdc, .uvac), (.y1dc, .y1ac)]

/-- `ia` of each block: its index into `NZ_ABOVE[MBX]` (R239). -/
def nzAbove : List Nat :=
  [0, 1, 2, 3, 0, 1, 2, 3, 0, 1, 2, 3, 0, 1, 2, 3, 4, 5, 4, 5, 6, 7, 6, 7, 8]

/-- `il` of each block: its index into `NZ_LEFT` (R239). -/
def nzLeft : List Nat :=
  [0, 0, 0, 0, 1, 1, 1, 1, 2, 2, 2, 2, 3, 3, 3, 3, 4, 4, 5, 5, 6, 6, 7, 7, 8]

/-- `SIX[f]`: taps at offsets -2 to +3 (45_inter_motion_compensator.md R302). -/
def sixTaps : List (List Int) :=
  [[0, 0, 128, 0, 0, 0], [0, -6, 123, 12, -1, 0], [2, -11, 108, 36, -8, 1], [0, -9, 93, 50, -6, 0],
   [3, -16, 77, 77, -16, 3], [0, -6, 50, 93, -9, 0], [1, -8, 36, 108, -11, 2], [0, -1, 12, 123, -6, 0]]

/-- `BIL[f]`: taps at offsets 0 and +1 (R303). -/
def bilinearTaps : List (List Int) := [[128, 0], [112, 16], [96, 32], [80, 48], [64, 64], [48, 80], [32, 96], [16, 112]]

/-- `DCQ[q]` (46_inverse_transform_dequant.md R331). -/
def dcq : List Nat :=
  [4, 5, 6, 7, 8, 9, 10, 10, 11, 12, 13, 14, 15, 16, 17, 17,
   18, 19, 20, 20, 21, 21, 22, 22, 23, 23, 24, 25, 25, 26, 27, 28] ++
  [29, 30, 31, 32, 33, 34, 35, 36, 37, 37, 38, 39, 40, 41, 42, 43,
   44, 45, 46, 46, 47, 48, 49, 50, 51, 52, 53, 54, 55, 56, 57, 58] ++
  [59, 60, 61, 62, 63, 64, 65, 66, 67, 68, 69, 70, 71, 72, 73, 74,
   75, 76, 76, 77, 78, 79, 80, 81, 82, 83, 84, 85, 86, 87, 88, 89] ++
  [91, 93, 95, 96, 98, 100, 101, 102, 104, 106, 108, 110, 112, 114, 116, 118,
   122, 124, 126, 128, 130, 132, 134, 136, 138, 140, 143, 145, 148, 151, 154, 157]

/-- `ACQ[q]` (R331). -/
def acq : List Nat :=
  [4, 5, 6, 7, 8, 9, 10, 11, 12, 13, 14, 15, 16, 17, 18, 19,
   20, 21, 22, 23, 24, 25, 26, 27, 28, 29, 30, 31, 32, 33, 34, 35] ++
  [36, 37, 38, 39, 40, 41, 42, 43, 44, 45, 46, 47, 48, 49, 50, 51,
   52, 53, 54, 55, 56, 57, 58, 60, 62, 64, 66, 68, 70, 72, 74, 76] ++
  [78, 80, 82, 84, 86, 88, 90, 92, 94, 96, 98, 100, 102, 104, 106, 108,
   110, 112, 114, 116, 119, 122, 125, 128, 131, 134, 137, 140, 143, 146, 149, 152] ++
  [155, 158, 161, 164, 167, 170, 173, 177, 181, 185, 189, 193, 197, 201, 205, 209,
   213, 217, 221, 225, 229, 234, 239, 245, 249, 254, 259, 264, 269, 274, 279, 284]

/-- The byte of `LF_MODE_DELTA` for a macroblock of reference 0, by the mode's number; none is an adjustment
of 0 (47_loop_filter.md R362). -/
def intraDelta : List (Option Nat) :=
  [none, none, none, none, some 0, none, none, none, none, none]

/-- The same for a macroblock of reference 1, 2 or 3 (R362). The table has no row for B_PRED there; that delta
is the free value `Config.freeModeDelta`, and the entry is not used. -/
def interDelta : List (Option Nat) :=
  [none, none, none, none, none, some 1, some 2, some 2, some 2, some 3]

/-- The levels from which the high-edge-variance threshold is one more, on a keyframe (R364). -/
def hevKey : List Nat := [15, 40]

/-- The same on an interframe (R364). -/
def hevInter : List Nat := [15, 20, 40]

/-- The taps of the normal macroblock-edge filter, from the edge outwards (R373). -/
def edgeTaps : List Int := [27, 18, 9]

end Given

end Sys2Proof
end

