-- ==== Sys2Proof/Config.lean ====
section
/-! DEFINITION. What the spec leaves open, as constants without a value: the four open probability
tables (spec 00_scope.md R10, 92_eei_decisions.md section OPEN), the allocator's answer (20_memory.md
R88), the RES registers after a failed `FC_HEADER` or `FC_FRAME` (60_exceptions.md R452, U3), the mode
delta that 47_loop_filter.md R362 does not give, the bytes of `CBUF` that the host has not given, and
those it has changed under a decoder that reads them (20_memory.md R71). No proof can see a value of any
of them. And, as a configuration record, the tables that the spec supplies from general knowledge
(00_scope.md R15), each with its given value of Machine/TableValues.lean as its default. -/

namespace Sys2Proof

/-- The four open tables, as the argument that the header parser and the keyframe sub-mode decoder
take (R10: "the model takes them as arguments"). -/
structure OpenTables where
  /-- `COEF_PROBS_DEFAULT[t][b][c][n]`. -/
  coefDefault : Nat → Nat → Nat → Nat → Byte
  /-- `COEF_UPDATE_PROBS[t][b][c][n]`. -/
  coefUpdate : Nat → Nat → Nat → Nat → Byte
  /-- `KF_BMODE_PROBS[above][left][node]`. -/
  kfBmode : Nat → Nat → Nat → Byte
  /-- `MV_UPDATE_PROBS[d][i]`. -/
  mvUpdate : Nat → Nat → Byte

/-- FREE VALUE. The default token probabilities (R10, R409). -/
opaque Config.coefProbsDefault : Nat → Nat → Nat → Nat → Byte

/-- FREE VALUE. The gate probabilities of the token updates (R10, R420). -/
opaque Config.coefUpdateProbs : Nat → Nat → Nat → Nat → Byte

/-- FREE VALUE. The keyframe sub-mode probabilities (R10, R166). -/
opaque Config.kfBmodeProbs : Nat → Nat → Nat → Byte

/-- FREE VALUE. The gate probabilities of the vector-probability updates (R10, R424). -/
opaque Config.mvUpdateProbs : Nat → Nat → Byte

/-- The tables that the spec supplies from general knowledge, each a field of the configuration with the
given value as its default (R10, R15: "a model should treat every general-knowledge table as a configuration
field whose given value is the default"). -/
structure GeneralTables where
  /-- The ten trees, by id (40_range_decoder.md R139, R140). -/
  trees : List (List Int) := Given.trees
  /-- Keyframe luma-mode probabilities (41_mode_decoder.md R164). -/
  kfYmodeProbs : List Byte := Given.kfYmodeProbs
  /-- Keyframe chroma-mode probabilities (R168). -/
  kfUvmodeProbs : List Byte := Given.kfUvmodeProbs
  /-- Interframe sub-mode probabilities (R167). -/
  bmodeProbs : List Byte := Given.bmodeProbs
  /-- `IMPLIED[mode]`: the number of the sub-mode that a 16x16 mode counts as, by the mode's number (R173). -/
  implied : List Nat := Given.implied
  /-- Default interframe luma-mode probabilities (48_frame_control_host.md R409). -/
  ymodeDefault : List Byte := Given.ymodeDefault
  /-- Default interframe chroma-mode probabilities (R409). -/
  uvmodeDefault : List Byte := Given.uvmodeDefault
  /-- `MAP[literal]` of the reference updates (R417). -/
  refMap : List Nat := Given.refMap
  /-- The weights of the neighbours above, left and above-left (42_motion_predictor.md R195). -/
  neighbourWeights : List Nat := Given.neighbourWeights
  /-- `MODE_CONTEXTS[count][level]` (42_motion_predictor.md R198). -/
  modeContexts : List (List Byte) := Given.modeContexts
  /-- `MV_DEFAULT[d][i]` (R204); `d = 0` is the row (y) component. -/
  mvDefault : List (List Byte) := Given.mvDefault
  /-- `PART[shape][b]` (R205). -/
  splitPart : List (List Nat) := Given.splitPart
  /-- `FIRST[shape]`: the first sub-block of each partition, in partition order; its length is `NPART[shape]`
  (R205). -/
  splitFirst : List (List Nat) := Given.splitFirst
  /-- `SPLIT_PROBS` (R206). -/
  splitProbs : List Byte := Given.splitProbs
  /-- `SUBMV_PROBS[ctx]` (R207). -/
  submvProbs : List (List Byte) := Given.submvProbs
  /-- `BANDS[i]` (43_coefficient_decoder.md R234). -/
  bands : List Nat := Given.bands
  /-- Base and extra-bit probabilities of CAT1 to CAT6 (R236). -/
  categories : List (Nat × List Byte) := Given.categories
  /-- `ZIGZAG[i]` (R237). -/
  zigzag : List Nat := Given.zigzag
  /-- The multiplier of each plane type: at position 0, and after it (R238). Type 0 starts at position 1, so
  that its first entry is not used. -/
  factors : List (Multiplier × Multiplier) := Given.factors
  /-- `ia` of each block: its index into `NZ_ABOVE[MBX]` (R239). -/
  nzAbove : List Nat := Given.nzAbove
  /-- `il` of each block: its index into `NZ_LEFT` (R239). -/
  nzLeft : List Nat := Given.nzLeft
  /-- `SIX[f]`: taps at offsets -2 to +3 (45_inter_motion_compensator.md R302). -/
  sixTaps : List (List Int) := Given.sixTaps
  /-- `BIL[f]`: taps at offsets 0 and +1 (R303). -/
  bilinearTaps : List (List Int) := Given.bilinearTaps
  /-- `DCQ[q]` (46_inverse_transform_dequant.md R331). -/
  dcq : List Nat := Given.dcq
  /-- `ACQ[q]` (R331). -/
  acq : List Nat := Given.acq
  /-- The byte of `LF_MODE_DELTA` for a macroblock of reference 0, by the mode's number; none is an adjustment
  of 0 (47_loop_filter.md R362). -/
  intraDelta : List (Option Nat) := Given.intraDelta
  /-- The same for a macroblock of reference 1, 2 or 3 (R362). The table has no row for B_PRED there; that
  delta is the free value `Config.freeModeDelta`, and the entry is not used. -/
  interDelta : List (Option Nat) := Given.interDelta
  /-- The levels from which the high-edge-variance threshold is one more, on a keyframe (R364). -/
  hevKey : List Nat := Given.hevKey
  /-- The same on an interframe (R364). -/
  hevInter : List Nat := Given.hevInter
  /-- The taps of the normal macroblock-edge filter, from the edge outwards (R373). -/
  edgeTaps : List Int := Given.edgeTaps
  deriving DecidableEq, Repr, Inhabited

/-- A setting of the tables. Every definition of a unit that reads a table, and every meaning, takes one
as an argument (R15); where none is given, Lean supplies the derived one, whose tables are the given
values. -/
abbrev Configured := Inhabited GeneralTables

/-- The tables that are set. -/
def Config.tables [Configured] : GeneralTables := default

/-- The open tables of this hardware. -/
def Config.openTables : OpenTables where
  coefDefault := Config.coefProbsDefault
  coefUpdate := Config.coefUpdateProbs
  kfBmode := Config.kfBmodeProbs
  mvUpdate := Config.mvUpdateProbs

/-- FREE VALUE. The allocator's answer to its `n`-th request, where the host has not given one
beforehand (R88: "one oracle bit per size change"). -/
opaque Config.allocGrants : Nat → Bool

/-- FREE VALUE. What `RES[i]` holds after the `n`-th failed `FC_HEADER` or `FC_FRAME` (R452 (3), U3). -/
opaque Config.freeResult : Nat → Nat → Word

/-- FREE VALUE. The mode delta of a macroblock of reference 1, 2 or 3 whose mode is B_PRED: the table
of 47_loop_filter.md R362 has no row for it. Its arguments are the reference and `LF_MODE_DELTA`. -/
opaque Config.freeModeDelta : Nat → Word → Int

/-- FREE VALUE. The byte of `CBUF` at an address for which the host has given none (R71). -/
opaque Config.freeCbufByte : Nat → Byte

/-- FREE VALUE. The byte that a range decoder instance sees at a place of its buffer after the host has
changed the buffer under it, by the number of the change (R71, R496, U14: "any value"). -/
opaque Config.freeChangedByte : Nat → Nat → Byte

end Sys2Proof
end

