-- ==== Sys2Proof/Machine/Bits.lean ====
section
/-! DEFINITION. Bit fields, signed bytes and the integer arithmetic of the pseudocode (spec
00_scope.md R11, R12). -/

namespace Sys2Proof.Machine

/-- The bits of a field of `len` bits at bit `lo`, shifted to place. -/
def fieldMask (lo len : Nat) : Word := (BitVec.ofNat 32 (2 ^ len - 1)) <<< lo

/-- `w[lo + len - 1 : lo]` as a number (R11). -/
def field (w : Word) (lo len : Nat) : Nat := (w.extractLsb' lo len).toNat

/-- `w` with the field of `len` bits at bit `lo` replaced by the low bits of `v`. -/
def setField (w : Word) (lo len v : Nat) : Word :=
  (w &&& ~~~(fieldMask lo len)) ||| ((BitVec.ofNat 32 v <<< lo) &&& fieldMask lo len)

/-- One bit of a word. -/
def bitAt (w : Word) (i : Nat) : Bool := w.getLsbD i

/-- `sext_8` of byte `i` of a word (R12). -/
def sbyte (w : Word) (i : Nat) : Int := (w.extractLsb' (8 * i) 8).toInt

/-- `clamp(v, lo, hi) = max(lo, min(hi, v))` (R12). -/
def clamp (v lo hi : Int) : Int := max lo (min hi v)

/-- `clamp255(v)` (R12). -/
def clamp255 (v : Int) : Int := clamp v 0 255

/-- `v >> n`, the arithmetic shift: the floor of `v / 2^n`, for negative `v` as well (R12). -/
def asr (v : Int) (n : Nat) : Int := v / (2 : Int) ^ n

/-- A pixel from an integer, clamped to 0..255. -/
def toPix (v : Int) : Byte := BitVec.ofInt 8 (clamp255 v)

/-- A pixel as an integer. -/
def pixInt (b : Byte) : Int := (b.toNat : Int)

/-- 1 for true, 0 for false. -/
def boolNat (b : Bool) : Nat := if b then 1 else 0

/-- 1 for true, 0 for false, as a register value. -/
def boolWord (b : Bool) : Word := if b then 1 else 0

end Sys2Proof.Machine
end

