-- ==== Sys2Proof/Machine/State.lean ====
section
/-! DEFINITION. The state of one decoder instance (spec 10_state.md R20 to R59), the host's side of the
command interface (30_encoding.md R100, 20_memory.md R83, R88), and the state after reset. Plain data.

Every memory of 20_memory.md R70 is a `Memory`: a list of (address, element) pairs. What an unlisted
address holds is said at each field: either the element "0" (where R59 gives 0) or nothing
("unspecified", R59), and then a use of the element is a model fault (93_implementation_defined.md U1,
U2). -/

namespace Sys2Proof.Machine

/-- A sparse memory: pairs of an address and its element, addresses strictly rising (`Memory.wf`,
Machine/Ops.lean). At `α = Byte` it is a list of `Host.Cell`. -/
abbrev Memory (α : Type) := List (Nat × α)

/-! ## Named values -/

/-- Macroblock modes, numbered 0 to 9 (R18). -/
inductive MbMode where
  | dcPred | vPred | hPred | tmPred | bPred | zero | nearest | near | new | split
  deriving DecidableEq, Repr

/-- Reference tags, numbered 0 to 3 (R17); `current` also means "intra". -/
inductive RefTag where
  | current | previous | golden | altref
  deriving DecidableEq, Repr

/-- Chroma modes, numbered 0 to 3 (R18). -/
inductive UvMode where
  | dcPred | vPred | hPred | tmPred
  deriving DecidableEq, Repr

/-- 4x4 sub-modes, numbered 0 to 9 (R18). -/
inductive BMode where
  | dc | tm | ve | he | ld | rd | vr | vl | hd | hu
  deriving DecidableEq, Repr

/-- Split shapes, numbered 0 to 3 (R18): 16x8, 8x16, 8x8, 4x4. -/
inductive SplitShape where
  | halves16x8 | halves8x16 | quarters8x8 | sixteen4x4
  deriving DecidableEq, Repr

/-- The error codes of R451, numbered 1 to 13 in this order. -/
inductive ErrCode where
  | illegalCmd | rdUninit | badMbpos | structTruncated | structStartcode | badProfile | badSize
  | structPartition | stateNoKeyframe | stateNoRef | alloc | badOperand | sequence
  deriving DecidableEq, Repr

/-- The response to the last command (R100): none before the first command after power-on. -/
inductive Response where
  | none
  | ok
  | error (code : ErrCode)
  deriving DecidableEq, Repr

/-- What the host can do between two responses (R83, R100, R110, R71): present a command word, write
an argument register directly, write a byte of `CBUF`. -/
inductive HostEvent where
  | command (word : Word)
  | writeArg (i : Fin 4) (v : Word)
  | writeCbuf (addr : Word) (b : Byte)
  deriving DecidableEq, Repr

/-! ## Records -/

/-- One range decoder instance (R22). `size` is the register the spec calls `end`, the length of the
buffer in bytes. `changed` is the model's own: the number of the last change that the host has made to
the buffer since the instance was started on it, none where it has made none (20_memory.md R71, U14;
notes/assumptions/25.md). -/
structure Rd where
  value : BitVec 16
  range : BitVec 8
  bitCount : BitVec 3
  cursor : Word
  base : Word
  size : Word
  valid : Bool
  changed : Option Nat
  deriving DecidableEq, Repr

/-- A motion vector in quarter luma pixels (R191). -/
structure Mv where
  x : BitVec 16
  y : BitVec 16
  deriving DecidableEq, Repr

/-- One macroblock record (R49). -/
structure MbRec where
  skip : Bool
  mode : MbMode
  ref : RefTag
  mv : Mv
  bmv : Vector Mv 16
  split : SplitShape
  uvmode : UvMode
  bmode : Vector BMode 16
  deriving DecidableEq, Repr

/-- The candidate registers (R53). -/
structure Cand where
  best : Mv
  nearest : Mv
  near : Mv
  cnt : Vector (BitVec 3) 4
  deriving DecidableEq, Repr

/-- The six multipliers of one segment (R48), unsigned numbers. -/
structure DqRec where
  y1dc : Nat
  y1ac : Nat
  y2dc : Nat
  y2ac : Nat
  uvdc : Nat
  uvac : Nat
  deriving DecidableEq, Repr

/-- The loop-filter parameters of one macroblock (R55). -/
structure LfpRec where
  level : Nat
  ilimit : Nat
  hev : Nat
  inner : Bool
  deriving DecidableEq, Repr

/-- One frame-buffer slot: its three planes (R56). The address of pixel `(x, y)` is `pixKey x y`
(Machine/Ops.lean); an unlisted pixel is unspecified. -/
structure Frame where
  y : Memory Byte
  u : Memory Byte
  v : Memory Byte
  deriving DecidableEq, Repr

/-- The preserved border (R57), pixels addressed by column; an unlisted pixel is unspecified. -/
structure Topb where
  valid : Bool
  row : BitVec 11
  y : Memory Byte
  u : Memory Byte
  v : Memory Byte
  deriving DecidableEq, Repr

/-! ## Why a step can stop -/

/-- Why the machine stops: a command USED an item that is still unspecified (R59, R481; U1, U2: "the
model stops with a model-level fault, which is not a hardware error code"). Every one is SAFE: the
hardware goes on with a value no source fixes. -/
inductive Fault where
  /-- Raised by MD, MP, CD and `FC_RDPROB`: an entry of `PROB` or `PROB_SAVED` that nothing has
  written is used as a probability or read by the host. Safe. -/
  | probUnspecified
  /-- Raised by `CD_BLOCK` and `CD_MB`: a multiplier of a segment for which `IT_DQSETUP` has not run.
  Safe. -/
  | dqUnspecified
  /-- Raised by `LF_MB` and `LF_ROW`: an `LFP` record that `LF_PARAMS` has not written. Safe. -/
  | lfpUnspecified
  /-- Raised by IP, MC, IT, LF and `FC_ROWEND`: a pixel of a slot or of `TOPB` that nothing has
  written. Safe. -/
  | pixelUnspecified
  deriving DecidableEq, Repr

/-- Why the model has no answer. -/
inductive Refusal where
  /-- Raised by `exec` for an instruction that has no meaning yet (none). Safe. -/
  | notModelled (mnemonic : String)
  deriving DecidableEq, Repr

/-- How a command ends without completing: the error response of R452, or a model fault. -/
inductive Stop where
  | raise (code : ErrCode)
  | fault (f : Fault)
  deriving DecidableEq, Repr

/-! ## The state -/

/-- The state of one decoder instance and of the host's side of its interface. -/
structure State where
  /-- `ARG0..ARG3` (R21). -/
  args : Vector Word 4
  /-- `RES0..RES3` (R21). -/
  res : Vector Word 4
  /-- The nine range decoder instances (R22). -/
  rd : Vector Rd 9
  /-- The control registers (R29 to R45). `CR2` is derived from `CR1` and not stored (R32). -/
  cr : Vector Word 44
  /-- The current probability context (R46, R47), addresses 0 to 1107; unlisted: unspecified. -/
  prob : Memory Byte
  /-- The committed copy (R46); unlisted: unspecified. -/
  probSaved : Memory Byte
  /-- The dequantiser table by segment (R48); unlisted: unspecified. -/
  dq : Memory DqRec
  /-- The macroblock array by `mbKey` (R49); unlisted: the all-zero record. -/
  mbinfo : Memory MbRec
  /-- The segment map by `mbKey` (R50); unlisted: 0. -/
  segmap : Memory (BitVec 2)
  /-- `NZ_ABOVE` by macroblock column (R51), nine flags; unlisted: all 0. -/
  nzAbove : Memory (Vector Bool 9)
  /-- `NZ_LEFT` (R51). -/
  nzLeft : Vector Bool 9
  /-- `COEF[b][i]` at address `16 * b + i` (R52); unlisted: 0. -/
  coef : Memory Int
  /-- `CAND` (R53). -/
  cand : Cand
  /-- `LFP` by macroblock column (R55); unlisted: unspecified. -/
  lfp : Memory LfpRec
  /-- The four frame-buffer slots (R56). -/
  fb : Vector Frame 4
  /-- The preserved border (R57). -/
  topb : Topb
  /-- The compressed-frame buffer (R70, R71); unlisted: a free byte. -/
  cbuf : Memory Byte
  /-- The response to the last command (R100). -/
  response : Response
  /-- What the host does next, in order (R83, R86). An input of the model. -/
  hostq : List HostEvent
  /-- The allocator's answers to its next requests (R88). An input of the model. -/
  allocAnswers : List Bool
  /-- The model's own: how many requests the allocator has had. -/
  allocCount : Nat
  /-- The model's own: how many times RES has been left unspecified (R452, U3). -/
  freeCount : Nat
  /-- The model's own: how many changes the host has made to `CBUF` (20_memory.md R71, U14). -/
  changeCount : Nat
  deriving DecidableEq, Repr

/-! ## Reset -/

/-- The zero vector. -/
def Mv.zero : Mv := ⟨0, 0⟩

/-- The sentinel and reset record: every field 0 (R49). -/
def MbRec.zero : MbRec where
  skip := false
  mode := .dcPred
  ref := .current
  mv := Mv.zero
  bmv := Vector.replicate 16 Mv.zero
  split := .halves16x8
  uvmode := .dcPred
  bmode := Vector.replicate 16 .dc

/-- A range decoder instance after reset: `valid = 0` (R25). The six other registers are unspecified
there and nothing reads them while `valid = 0`; the model puts 0 (DESIGN CHOICE, notes/assumptions/2.md). -/
def Rd.reset : Rd := ⟨0, 0, 0, 0, 0, 0, false, none⟩

/-- The candidate registers after reset (R53). -/
def Cand.reset : Cand := ⟨Mv.zero, Mv.zero, Mv.zero, Vector.replicate 4 0⟩

/-- A slot with every pixel unspecified (R56). -/
def Frame.empty : Frame := ⟨[], [], []⟩

/-- The preserved border after reset: `valid = 0`, pixels unspecified, `row` unspecified in R57 and 0
here (DESIGN CHOICE, notes/assumptions/2.md). -/
def Topb.reset : Topb := ⟨false, 0, [], [], []⟩

/-- The nine flags all 0 (R51). -/
def nzZero : Vector Bool 9 := Vector.replicate 9 false

/-- The state after power-on and reset (R59, R480): the table of R59, no command pending, no response
given, nothing known of `CBUF` and of the allocator. -/
def State.reset : State where
  args := Vector.replicate 4 0
  res := Vector.replicate 4 0
  rd := Vector.replicate 9 Rd.reset
  cr := (Vector.replicate 44 0).setIfInBounds 18 0x7777
  prob := []
  probSaved := []
  dq := []
  mbinfo := []
  segmap := []
  nzAbove := []
  nzLeft := nzZero
  coef := []
  cand := Cand.reset
  lfp := []
  fb := Vector.replicate 4 Frame.empty
  topb := Topb.reset
  cbuf := []
  response := .none
  hostq := []
  allocAnswers := []
  allocCount := 0
  freeCount := 0
  changeCount := 0

end Sys2Proof.Machine
end

