-- ==== Sys2Proof/Machine/Ops.lean ====
section
/-! DEFINITION. The named operations over memories and registers, and the one operation by which a
command ends in an error (spec 60_exceptions.md R452). -/

namespace Sys2Proof.Machine

/-! ## Sparse memories (20_memory.md R70) -/

/-- The element listed at an address, if any. -/
def Memory.find {α : Type} (m : Memory α) (k : Nat) : Option α :=
  match m with
  | [] => none
  | p :: rest => if p.1 = k then some p.2 else Memory.find rest k

/-- List an element at an address, in place of the one that was there. -/
def Memory.set {α : Type} (m : Memory α) (k : Nat) (v : α) : Memory α :=
  match m with
  | [] => [(k, v)]
  | p :: rest =>
    if k < p.1 then (k, v) :: p :: rest
    else if k = p.1 then (k, v) :: rest
    else p :: Memory.set rest k v

/-- Unlist an address. -/
def Memory.erase {α : Type} (m : Memory α) (k : Nat) : Memory α := m.filter (fun p => p.1 != k)

/-- The element at an address of a memory whose unlisted addresses hold `d`. -/
def Memory.get {α : Type} (m : Memory α) (d : α) (k : Nat) : α := (Memory.find m k).getD d

/-- Write to a memory whose unlisted addresses hold `d`: an element equal to `d` is not listed. -/
def Memory.put {α : Type} [DecidableEq α] (m : Memory α) (d : α) (k : Nat) (v : α) : Memory α :=
  if v = d then Memory.erase m k else Memory.set m k v

/-- Write several elements, the last of the list first. -/
def Memory.setAll {α : Type} (m : Memory α) (ps : List (Nat × α)) : Memory α :=
  ps.foldr (fun p acc => Memory.set acc p.1 p.2) m

/-- Write several elements of a memory whose unlisted addresses hold `d`, the last of the list
first. -/
def Memory.putAll {α : Type} [DecidableEq α] (m : Memory α) (d : α) (ps : List (Nat × α)) :
    Memory α :=
  ps.foldr (fun p acc => Memory.put acc d p.1 p.2) m

/-- The canonical form of a memory: addresses strictly rising. -/
abbrev Memory.wf {α : Type} (m : Memory α) : Prop := m.Pairwise (fun p q => p.1 < q.1)

/-- The canonical form of a memory whose unlisted addresses hold `d`: no entry equal to `d`. -/
abbrev Memory.wfD {α : Type} (d : α) (m : Memory α) : Prop := Memory.wf m ∧ ∀ p ∈ m, p.2 ≠ d

/-- The address of macroblock `(mx, my)` in `MBINFO` and `SEGMAP`. -/
def mbKey (mx my : Nat) : Nat := my * 2048 + mx

/-- The address of pixel `(x, y)` in a plane. -/
def pixKey (x y : Nat) : Nat := y * 16384 + x

/-- The address of `COEF[b][i]` (10_state.md R52). -/
def coefKey (b i : Nat) : Nat := b * 16 + i

/-! ## The numbers of the named values (00_scope.md R17, R18; 60_exceptions.md R451) -/

/-- The number of a macroblock mode. -/
def MbMode.num : MbMode → Nat
  | .dcPred => 0 | .vPred => 1 | .hPred => 2 | .tmPred => 3 | .bPred => 4
  | .zero => 5 | .nearest => 6 | .near => 7 | .new => 8 | .split => 9

/-- The macroblock mode of a tree leaf; the trees of MD and MP have no leaf outside 0 to 9. -/
def MbMode.ofNum : Nat → MbMode
  | 0 => .dcPred | 1 => .vPred | 2 => .hPred | 3 => .tmPred | 4 => .bPred
  | 5 => .zero | 6 => .nearest | 7 => .near | 8 => .new | _ => .split

/-- The number of a reference tag. -/
def RefTag.num : RefTag → Nat
  | .current => 0 | .previous => 1 | .golden => 2 | .altref => 3

/-- The number of a chroma mode. -/
def UvMode.num : UvMode → Nat
  | .dcPred => 0 | .vPred => 1 | .hPred => 2 | .tmPred => 3

/-- The chroma mode of a leaf of tree 3. -/
def UvMode.ofNum : Nat → UvMode
  | 0 => .dcPred | 1 => .vPred | 2 => .hPred | _ => .tmPred

/-- The number of a 4x4 sub-mode. -/
def BMode.num : BMode → Nat
  | .dc => 0 | .tm => 1 | .ve => 2 | .he => 3 | .ld => 4
  | .rd => 5 | .vr => 6 | .vl => 7 | .hd => 8 | .hu => 9

/-- The 4x4 sub-mode of a leaf of tree 4. -/
def BMode.ofNum : Nat → BMode
  | 0 => .dc | 1 => .tm | 2 => .ve | 3 => .he | 4 => .ld
  | 5 => .rd | 6 => .vr | 7 => .vl | 8 => .hd | _ => .hu

/-- The number of a split shape. -/
def SplitShape.num : SplitShape → Nat
  | .halves16x8 => 0 | .halves8x16 => 1 | .quarters8x8 => 2 | .sixteen4x4 => 3

/-- The split shape of a leaf of tree 6. -/
def SplitShape.ofNum : Nat → SplitShape
  | 0 => .halves16x8 | 1 => .halves8x16 | 2 => .quarters8x8 | _ => .sixteen4x4

/-- The code of an error (60_exceptions.md R451). -/
def ErrCode.num : ErrCode → Nat
  | .illegalCmd => 1 | .rdUninit => 2 | .badMbpos => 3 | .structTruncated => 4
  | .structStartcode => 5 | .badProfile => 6 | .badSize => 7 | .structPartition => 8
  | .stateNoKeyframe => 9 | .stateNoRef => 10 | .alloc => 11 | .badOperand => 12 | .sequence => 13

/-! ## Argument and result registers (10_state.md R21) -/

/-- `ARG[i]`. -/
def State.arg (s : State) (i : Nat) : Word := s.args[i]?.getD 0

/-- `ARG[i] <- v`. -/
def State.setArg (s : State) (i : Nat) (v : Word) : State :=
  { s with args := s.args.setIfInBounds i v }

/-- `RES[i]`. -/
def State.result (s : State) (i : Nat) : Word := s.res[i]?.getD 0

/-- `RES[i] <- v`. -/
def State.setRes (s : State) (i : Nat) (v : Word) : State :=
  { s with res := s.res.setIfInBounds i v }

/-! ## Control registers (10_state.md R29 to R45) -/

/-- The stored word of a control register. -/
def State.crRaw (s : State) (i : Nat) : Word := s.cr[i]?.getD 0

/-- Replace the stored word of a control register. -/
def State.setCr (s : State) (i : Nat) (v : Word) : State :=
  { s with cr := s.cr.setIfInBounds i v }

/-- Replace one field of a control register. -/
def State.setCrField (s : State) (i lo len v : Nat) : State :=
  s.setCr i (setField (s.crRaw i) lo len v)

/-- A field of a control register. -/
def State.crField (s : State) (i lo len : Nat) : Nat := field (s.crRaw i) lo len

/-- One bit of a control register. -/
def State.crBit (s : State) (i bit : Nat) : Bool := bitAt (s.crRaw i) bit

/-- Width or height in macroblocks of a size field: `(n + 15) >> 4` (R32). -/
def mbCount (pixels : Nat) : Nat := (pixels + 15) / 16

/-- `MB_W` for a value of `CR1` (R32). -/
def sizeMbW (frmSize : Word) : Nat := mbCount (field frmSize 0 14)

/-- `MB_H` for a value of `CR1` (R32). -/
def sizeMbH (frmSize : Word) : Nat := mbCount (field frmSize 16 14)

/-- `MB_W` (R32). -/
def State.mbW (s : State) : Nat := sizeMbW (s.crRaw 1)

/-- `MB_H` (R32). -/
def State.mbH (s : State) : Nat := sizeMbH (s.crRaw 1)

/-- Two 11-bit numbers in the places of `MBX` and `MBY` of `CR19`, and of `MB_W` and `MB_H` of
`CR2`. -/
def posWord (x y : Nat) : Word := setField (setField 0 0 11 x) 16 11 y

/-- What a read of control register `i` gives; `CR2` is derived (R32). -/
def State.readCr (s : State) (i : Nat) : Word :=
  if i = 2 then posWord s.mbW s.mbH else s.crRaw i

/-- The writable bits of each control register: the bits that R27 to R45 name, and none of the
read-only `CR2` and `CR16` and of the reserved registers (R29). -/
def crMask : Nat → Word
  | 0 => 0x7F
  | 1 => 0xFFFFFFFF
  | 3 => 0xF
  | 4 => 0xFFFFFFFF
  | 5 => 0xFFFFFFFF
  | 6 => 0x7FF
  | 7 => 0xFFFFFFFF
  | 8 => 0xFFFFFFFF
  | 9 => 0x3
  | 10 => 0x7F
  | 11 => 0xFFFFFFFF
  | 12 => 0xFF
  | 13 => 0xFF
  | 14 => 0x1
  | 17 => 0x3
  | 18 => 0x7777
  | 19 => 0x07FF07FF
  | n => if (20 ≤ n ∧ n ≤ 28) ∨ (32 ≤ n ∧ n ≤ 40) then 0xFFFFFFFF else 0

/-- What the host's write of control register `i` does to it (R29, R43): `CR2` and `CR16` ignore
it, every other register keeps the bits it has. -/
def State.writeCr (s : State) (i : Nat) (v : Word) : State :=
  if i = 2 ∨ i = 16 then s else s.setCr i (v &&& crMask i)

/-! ## Sequencing (10_state.md R27) -/

/-- `MBX`. -/
def State.mbx (s : State) : Nat := s.crField 19 0 11

/-- `MBY`. -/
def State.mby (s : State) : Nat := s.crField 19 16 11

/-- `MBPOS <- (x, y)`. -/
def State.setMbpos (s : State) (x y : Nat) : State := s.setCr 19 (posWord x y)

/-- `MBPOS` is inside the frame (60_exceptions.md R457). -/
def State.posOk (s : State) : Bool := s.mbx < s.mbW && s.mby < s.mbH

/-! ## Range decoder instances (10_state.md R22) -/

/-- `RD[k]`. -/
def State.rdAt (s : State) (k : Nat) : Rd := s.rd[k]?.getD Rd.reset

/-- Replace `RD[k]`. -/
def State.setRd (s : State) (k : Nat) (r : Rd) : State := { s with rd := s.rd.setIfInBounds k r }

/-- `RD[k].valid`. -/
def State.rdValid (s : State) (k : Nat) : Bool := (s.rdAt k).valid

/-- `RD[k].valid <- 0` for every instance (10_state.md R24). -/
def State.invalidateRd (s : State) : State :=
  { s with rd := s.rd.map (fun r => { r with valid := false }) }

/-! ## Roles and pixels (10_state.md R45, R56) -/

/-- The slot that a role field names: 0 to 3, and none for 7 and for the illegal 4 to 6. -/
def slotOf (f : Nat) : Option Nat := if f ≤ 3 then some f else none

/-- The slot with the CUR role. -/
def State.curSlot (s : State) : Option Nat := slotOf (s.crField 18 0 3)

/-- The place in `CR18` of the role that reference `ref` names: PREV, GOLD, ALT for 1, 2, 3. -/
def roleLow (ref : Nat) : Nat := 4 * ref

/-- The slot of reference `ref`, 1 to 3. -/
def State.refSlot (s : State) (ref : Nat) : Option Nat := slotOf (s.crField 18 (roleLow ref) 3)

/-- One plane of a slot: 0 is Y, 1 is U, 2 is V. -/
def Frame.plane (f : Frame) (p : Nat) : Memory Byte :=
  if p = 0 then f.y else if p = 1 then f.u else f.v

/-- Replace one plane of a slot. -/
def Frame.setPlane (f : Frame) (p : Nat) (m : Memory Byte) : Frame :=
  if p = 0 then { f with y := m } else if p = 1 then { f with u := m } else { f with v := m }

/-- A plane of slot `slot`. -/
def State.plane (s : State) (slot p : Nat) : Memory Byte := (s.fb[slot]?.getD Frame.empty).plane p

/-- Replace a plane of slot `slot`. -/
def State.setPlane (s : State) (slot p : Nat) (m : Memory Byte) : State :=
  { s with fb := s.fb.setIfInBounds slot ((s.fb[slot]?.getD Frame.empty).setPlane p m) }

/-- Every pixel of slot `slot` unspecified (10_state.md R56, U2). -/
def State.clearSlot (s : State) (slot : Nat) : State :=
  { s with fb := s.fb.setIfInBounds slot Frame.empty }

/-- `PIX(slot, p, x, y)`; none where it is unspecified (00_scope.md R13). -/
def State.pix (s : State) (slot p x y : Nat) : Option Byte :=
  Memory.find (s.plane slot p) (pixKey x y)

/-- Columns of plane `p`: 16 or 8 for each macroblock (10_state.md R56). -/
def State.planeW (s : State) (p : Nat) : Nat := if p = 0 then 16 * s.mbW else 8 * s.mbW

/-- Rows of plane `p`. -/
def State.planeH (s : State) (p : Nat) : Nat := if p = 0 then 16 * s.mbH else 8 * s.mbH

/-- The pixels of a block of `w` columns and `h` rows at `(x0, y0)`, with their addresses, in raster
order; `f r c` is the pixel in row `r`, column `c` of the block. -/
def blockPixels (x0 y0 w h : Nat) (f : Nat → Nat → Byte) : List (Nat × Byte) :=
  (List.range h).flatMap fun r => (List.range w).map fun c => (pixKey (x0 + c) (y0 + r), f r c)

/-- Write a block of pixels into plane `p` of slot `slot`. -/
def State.writeBlock (s : State) (slot p x0 y0 w h : Nat) (f : Nat → Nat → Byte) : State :=
  s.setPlane slot p (Memory.setAll (s.plane slot p) (blockPixels x0 y0 w h f))

/-! ## Per-macroblock memories (10_state.md R49 to R55) -/

/-- The record of macroblock `(mx, my)`, both inside the frame. -/
def State.mbRec (s : State) (mx my : Nat) : MbRec := Memory.get s.mbinfo MbRec.zero (mbKey mx my)

/-- Replace a record. -/
def State.setMbRec (s : State) (mx my : Nat) (r : MbRec) : State :=
  { s with mbinfo := Memory.put s.mbinfo MbRec.zero (mbKey mx my) r }

/-- `cur`: the record at `MBPOS`. -/
def State.cur (s : State) : MbRec := s.mbRec s.mbx s.mby

/-- Replace `cur`. -/
def State.setCur (s : State) (r : MbRec) : State := s.setMbRec s.mbx s.mby r

/-- `above`: the record of the macroblock above, the sentinel in the first row (R49). -/
def State.aboveMb (s : State) : MbRec :=
  if s.mby = 0 then MbRec.zero else s.mbRec s.mbx (s.mby - 1)

/-- `left`: the record of the macroblock to the left, the sentinel in the first column. -/
def State.leftMb (s : State) : MbRec :=
  if s.mbx = 0 then MbRec.zero else s.mbRec (s.mbx - 1) s.mby

/-- `aboveleft`: the sentinel in the first row or column. -/
def State.aboveLeftMb (s : State) : MbRec :=
  if s.mbx = 0 ∨ s.mby = 0 then MbRec.zero else s.mbRec (s.mbx - 1) (s.mby - 1)

/-- The segment id of the current macroblock (R50). -/
def State.segment (s : State) : BitVec 2 := Memory.get s.segmap 0 (mbKey s.mbx s.mby)

/-- Set the segment id of the current macroblock. -/
def State.setSegment (s : State) (v : BitVec 2) : State :=
  { s with segmap := Memory.put s.segmap 0 (mbKey s.mbx s.mby) v }

/-- `COEF[b][i]` (R52). -/
def State.coefAt (s : State) (b i : Nat) : Int := Memory.get s.coef 0 (coefKey b i)

/-- `COEF[b][i] <- v`. -/
def State.setCoef (s : State) (b i : Nat) (v : Int) : State :=
  { s with coef := Memory.put s.coef 0 (coefKey b i) v }

/-- An entry of `PROB`; none where it is unspecified (R47). -/
def State.probAt (s : State) (i : Nat) : Option Byte := Memory.find s.prob i

/-- Write an entry of `PROB`. -/
def State.setProb (s : State) (i : Nat) (v : Byte) : State := { s with prob := Memory.set s.prob i v }

/-- A byte of `CBUF` (20_memory.md R71); a byte that the host has not written is a free value. -/
def cbufByte (cbuf : Memory Byte) (addr : Word) : Byte :=
  (Memory.find cbuf addr.toNat).getD (Config.freeCbufByte addr.toNat)

/-! ## How a command ends (30_encoding.md R100, 60_exceptions.md R452) -/

/-- The result of a command's work: a value, or the way it stops. -/
abbrev Res (α : Type) := Except Stop α

/-- A check: where it fails the command raises the error. -/
def require (b : Bool) (c : ErrCode) : Res Unit := if b then .ok () else .error (.raise c)

/-- A value that must be specified: where it is not the model stops with a fault (70 R481). -/
def need {α : Type} (o : Option α) (f : Fault) : Res α :=
  match o with
  | some a => .ok a
  | none => .error (.fault f)

/-- The slot of a role, or the error of a role that holds none (60_exceptions.md R455). -/
def needSlot (o : Option Nat) : Res Nat :=
  match o with
  | some n => .ok n
  | none => .error (.raise .stateNoRef)

/-- `STATUS.ERR <- code` if it is 0 (R452 (1)). -/
def State.noteError (s : State) (c : ErrCode) : State :=
  if s.crField 16 4 4 = 0 then s.setCrField 16 4 4 c.num else s

/-- `raise`, the one way in which a command fails (R452): `STATUS.ERR` if it is 0, and the response;
no other state changes. There is no handler and nothing to return from (R450, R466, R467). -/
def State.raise (s : State) (c : ErrCode) : State :=
  { s.noteError c with response := .error c }

/-- The end of a command that began in `s`: its effect and `OK`, or an error, or a model fault. -/
def finish (s : State) (r : Res State) : Host.Outcome State Fault Refusal :=
  match r with
  | .ok t => .next { t with response := .ok }
  | .error (.raise c) => .next (s.raise c)
  | .error (.fault f) => .fault f

/-- All elements of a list that must be specified. -/
def collect {α : Type} (f : Fault) : List (Option α) → Res (List α)
  | [] => .ok []
  | o :: rest => do
    let a ← need o f
    let as ← collect f rest
    .ok (a :: as)

end Sys2Proof.Machine
end

