-- ==== Sys2Proof/Machine/Tables.lean ====
section
/-! DEFINITION. The accessors of the configuration's general-knowledge tables (00_scope.md R10, R15): the
units read every table through them. -/

namespace Sys2Proof

namespace Machine

variable [Configured]

/-! ## The ten trees (40_range_decoder.md R139, R140) -/

/-- The tree with a given id, 0 to 9 (R140). -/
def treeOf (n : Nat) : List Int := Config.tables.trees[n]?.getD []
/-- Tree 0, `SEGMENT_TREE`. -/
def segmentTree : List Int := treeOf 0
/-- Tree 1, `KF_YMODE_TREE`. -/
def kfYmodeTree : List Int := treeOf 1
/-- Tree 2, `YMODE_TREE`. -/
def ymodeTree : List Int := treeOf 2
/-- Tree 3, `UVMODE_TREE`. -/
def uvmodeTree : List Int := treeOf 3
/-- Tree 4, `BMODE_TREE`. -/
def bmodeTree : List Int := treeOf 4
/-- Tree 5, `MVREF_TREE`. -/
def mvrefTree : List Int := treeOf 5
/-- Tree 6, `SPLIT_TREE`. -/
def splitTree : List Int := treeOf 6
/-- Tree 7, `SUBMVREF_TREE`. -/
def submvrefTree : List Int := treeOf 7
/-- Tree 8, `SMALL_MV_TREE`. -/
def smallMvTree : List Int := treeOf 8
/-- Tree 9, `TOKEN_TREE`. -/
def tokenTree : List Int := treeOf 9

/-! ## Fixed probabilities of the mode decoder -/

/-- Keyframe luma-mode probabilities (R164). -/
def kfYmodeProbs : List Byte := Config.tables.kfYmodeProbs
/-- Keyframe chroma-mode probabilities (R168). -/
def kfUvmodeProbs : List Byte := Config.tables.kfUvmodeProbs
/-- Interframe sub-mode probabilities (R167). -/
def bmodeProbs : List Byte := Config.tables.bmodeProbs
/-- Default interframe luma-mode probabilities (R409). -/
def ymodeDefault : List Byte := Config.tables.ymodeDefault
/-- Default interframe chroma-mode probabilities (R409). -/
def uvmodeDefault : List Byte := Config.tables.uvmodeDefault

/-- `IMPLIED[n]`: the number of the sub-mode that the 16x16 mode of number `n` counts as (R173). -/
def impliedNum (n : Nat) : Nat := Config.tables.implied[n]?.getD 0

/-! ## Motion predictor -/

/-- The weight of neighbour 0 (above), 1 (left) or 2 (above-left) (R195). -/
def neighbourWeight (i : Nat) : Nat := Config.tables.neighbourWeights[i]?.getD 0

/-- `MODE_CONTEXTS[count][level]` (R198). -/
def modeContexts : List (List Byte) := Config.tables.modeContexts
/-- `MV_DEFAULT[d][i]` (R204). -/
def mvDefault : List (List Byte) := Config.tables.mvDefault
/-- `PART[shape][b]` (R205). -/
def splitPart : List (List Nat) := Config.tables.splitPart
/-- `FIRST[shape]` (R205). -/
def splitFirst : List (List Nat) := Config.tables.splitFirst
/-- `SPLIT_PROBS` (R206). -/
def splitProbs : List Byte := Config.tables.splitProbs
/-- `SUBMV_PROBS[ctx]` (R207). -/
def submvProbs : List (List Byte) := Config.tables.submvProbs

/-! ## Coefficient decoder -/

/-- `BANDS[i]` (R234). -/
def bands : List Nat := Config.tables.bands
/-- `ZIGZAG[i]` (R237). -/
def zigzag : List Nat := Config.tables.zigzag
/-- Base and extra-bit probabilities of CAT1 to CAT6, tokens 5 to 10 (R236). -/
def tokenCategory (tok : Nat) : Nat × List Byte := Config.tables.categories[tok - 5]?.getD (0, [])

/-- The multipliers of a plane type, at position 0 and after it (R238). -/
def factorsOf (t : Nat) : Multiplier × Multiplier := Config.tables.factors[t]?.getD (.y1dc, .y1ac)
/-- `ia` of a block: its index into `NZ_ABOVE[MBX]` (R239). -/
def nzAboveIndex (b : Nat) : Nat := Config.tables.nzAbove[b]?.getD 8
/-- `il` of a block: its index into `NZ_LEFT` (R239). -/
def nzLeftIndex (b : Nat) : Nat := Config.tables.nzLeft[b]?.getD 8

/-! ## Inter motion compensator -/

/-- `SIX[f]` (R302): taps at offsets -2 to +3. -/
def sixTaps : List (List Int) := Config.tables.sixTaps
/-- `BIL[f]` (R303): taps at offsets 0 and +1. -/
def bilinearTaps : List (List Int) := Config.tables.bilinearTaps

/-! ## Dequantiser -/

/-- `DCQ[q]` (R331). -/
def dcq : List Nat := Config.tables.dcq
/-- `ACQ[q]` (R331). -/
def acq : List Nat := Config.tables.acq

/-! ## Loop filter -/

/-- The byte of `LF_MODE_DELTA` for the mode of number `n`, with reference 0 or with another (R362). -/
def modeDeltaByte (intra : Bool) (n : Nat) : Option Nat :=
  ((if intra then Config.tables.intraDelta else Config.tables.interDelta)[n]?).join
/-- The levels at which the high-edge-variance threshold steps up, by the frame class (R364). -/
def hevSteps (key : Bool) : List Nat := if key then Config.tables.hevKey else Config.tables.hevInter
/-- Tap `i` of the normal macroblock-edge filter (R373). -/
def edgeTap (i : Nat) : Int := Config.tables.edgeTaps[i]?.getD 0

end Machine

end Sys2Proof
end

