-- ==== Sys2Proof/Machine/Flags.lean ====
section
/-! DEFINITION. The flags of CORE (spec 10_state.md R28): the bits of `STATUS` and the nz flags. There
are no condition codes. -/

namespace Sys2Proof.Machine

variable [Configured]

/-! ## STATUS (10_state.md R43) -/

/-- `STATUS.KEYFRAME_SEEN`. -/
def State.keyframeSeen (s : State) : Bool := s.crBit 16 0

/-- `STATUS.VISIBLE`. -/
def State.visible (s : State) : Bool := s.crBit 16 1

/-- `STATUS.ERR`. -/
def State.errFlag (s : State) : Nat := s.crField 16 4 4

/-- `STATUS.KEYFRAME_SEEN <- 1`. -/
def State.setKeyframeSeen (s : State) : State := s.setCrField 16 0 1 1

/-- `STATUS.VISIBLE <- v`. -/
def State.setVisible (s : State) (v : Bool) : State := s.setCrField 16 1 1 (boolNat v)

/-- `STATUS.ERR <- 0` (60_exceptions.md R452 (4)). -/
def State.clearErr (s : State) : State := s.setCrField 16 4 4 0

/-! ## The nz flags (10_state.md R51, 43_coefficient_decoder.md R235, R239) -/

/-- The nine flags above the macroblock at `MBPOS`. -/
def State.nzAboveCur (s : State) : Vector Bool 9 := Memory.get s.nzAbove nzZero s.mbx

/-- `NZ_ABOVE[MBX][ia]` for block `b`. -/
def State.nzAboveOf (s : State) (b : Nat) : Bool := s.nzAboveCur[nzAboveIndex b]?.getD false

/-- `NZ_LEFT[il]` for block `b`. -/
def State.nzLeftOf (s : State) (b : Nat) : Bool := s.nzLeft[nzLeftIndex b]?.getD false

/-- The context of a block's first token: the sum of the two flags (R235). -/
def State.firstCtx (s : State) (b : Nat) : Nat := boolNat (s.nzAboveOf b) + boolNat (s.nzLeftOf b)

/-- Both flags of a block set to its `nz` (R239). -/
def State.setNz (s : State) (b : Nat) (nz : Bool) : State :=
  { s with
    nzAbove := Memory.put s.nzAbove nzZero s.mbx (s.nzAboveCur.setIfInBounds (nzAboveIndex b) nz)
    nzLeft := s.nzLeft.setIfInBounds (nzLeftIndex b) nz }

/-- The first eight flags 0 and the ninth, the luma-DC block's, kept or 0. -/
def nzClear (keepDc : Bool) (v : Vector Bool 9) : Vector Bool 9 :=
  if keepDc then nzZero.setIfInBounds 8 (v[8]?.getD false) else nzZero

/-- A macroblock has a luma-DC block when its mode is neither B_PRED nor SPLIT (R239). -/
def hasY2 (m : MbMode) : Bool :=
  match m with
  | .bPred => false
  | .split => false
  | _ => true

end Sys2Proof.Machine
end

