-- ==== Sys2Proof/Machine/Operands.lean ====
section
/-! DEFINITION. What the ARG and RES registers carry: packed vectors, positions, sizes, limits and
probabilities (spec 20_memory.md R76 and the **Operands** lines of the 4N_ files). -/

namespace Sys2Proof.Machine

/-! ## Vectors (42_motion_predictor.md R191, 20_memory.md R76) -/

/-- A vector in a register: `x` in bits 15:0, `y` in bits 31:16. -/
def packMv (m : Mv) : Word := m.y ++ m.x

/-- The vector in a register. -/
def unpackMv (w : Word) : Mv := ⟨w.extractLsb' 0 16, w.extractLsb' 16 16⟩

/-- The sum of two vectors, each component modulo 2^16 (R191). -/
def Mv.add (m n : Mv) : Mv := ⟨m.x + n.x, m.y + n.y⟩

/-- Both components negated, modulo 2^16 (R191, R192). -/
def Mv.neg (m : Mv) : Mv := ⟨-m.x, -m.y⟩

/-! ## Positions, sizes and limits -/

/-- The column of a pixel position, bits 15:0 (R308, R372). -/
def posX (w : Word) : Nat := field w 0 16

/-- The row of a pixel position, bits 31:16. -/
def posY (w : Word) : Nat := field w 16 16

/-- The width of a block size, bits 7:0 of `ARG2` (R308). -/
def sizeW (w : Word) : Nat := field w 0 8

/-- The height of a block size, bits 15:8. -/
def sizeH (w : Word) : Nat := field w 8 8

/-- The limits of an edge filter (R370): `E`, `I`, `T`. -/
structure Limits where
  e : Nat
  i : Nat
  t : Nat
  deriving DecidableEq, Repr

/-- The limits in `ARG2`: `E` in bits 7:0, `I` in bits 15:8, `T` in bits 23:16 (R372, R374). -/
def unpackLimits (w : Word) : Limits := ⟨field w 0 8, field w 8 8, field w 16 8⟩

/-! ## Probabilities -/

/-- `P[i]` of `RD_TREE`: one per byte of `ARG0`, `ARG1`, `ARG2` (40_range_decoder.md R135). -/
def State.argProb (s : State) (i : Nat) : Byte := (s.arg (i / 4)).extractLsb' (8 * (i % 4)) 8

/-- The probabilities of a fixed table, one for each node of its tree. -/
def tableProb (l : List Byte) (i : Nat) : Res Byte := .ok (l[i]?.getD 0)

/-- The probabilities in `PROB` from an offset on (10_state.md R47). -/
def State.probs (s : State) (base i : Nat) : Res Byte := need (s.probAt (base + i)) .probUnspecified

/-! ## The probability context's layout (10_state.md R47) -/

/-- The number of entries of a probability context. -/
def probSize : Nat := 1108
/-- `token[t][b][c][0]`. -/
def tokenIndex (t b c : Nat) : Nat := ((t * 8 + b) * 3 + c) * 11
/-- `mvc[d][0]`. -/
def mvcIndex (d : Nat) : Nat := 1056 + 19 * d
/-- `ymode[0]`. -/
def ymodeIndex : Nat := 1094
/-- `uvmode[0]`. -/
def uvmodeIndex : Nat := 1098
/-- `segid[0]`. -/
def segidIndex : Nat := 1101
/-- `mbskip`. -/
def mbskipIndex : Nat := 1104
/-- `intra`. -/
def intraIndex : Nat := 1105
/-- `last`. -/
def lastIndex : Nat := 1106
/-- `golden`. -/
def goldenIndex : Nat := 1107

/-! ## Buffers -/

/-- A buffer of `CBUF` may not end past address 2^32 (R131, R429). -/
def bufferOk (base length : Word) : Bool := base.toNat + length.toNat ≤ 2 ^ 32

end Sys2Proof.Machine
end

