-- ==== Sys2Proof/Machine/Ranges.lean ====
section
/-! DEFINITION. The ranges of the operand fields of a command word (spec 30_encoding.md R104, R107):
one predicate per kind of field. WellFormed.lean and the meanings both use them, so that what is
well-formed and what is not refused with `ERR_BAD_OPERAND` are said once. -/

namespace Sys2Proof.Machine

variable [Configured]

/-- A range decoder instance, 0 to 8 (R104). -/
def okInstance (k : Byte) : Bool := k.toNat ≤ 8

/-- The length of an unsigned literal, 0 to 32 (R133). -/
def okLiteral (n : Byte) : Bool := n.toNat ≤ 32

/-- The length of a signed literal, 0 to 31 (R134). -/
def okSignedLiteral (n : Byte) : Bool := n.toNat ≤ 31

/-- A tree id 0 to 9 and a start index that is even and inside the tree (R135). -/
def okTree (tree start : Byte) : Bool :=
  tree.toNat ≤ 9 && start.toNat % 2 == 0 && start.toNat < (treeOf tree.toNat).length

/-- A plane type and a block number that fit each other (R240): type 1 the luma-DC block 24, type 2
the chroma blocks 16 to 23, types 0 and 3 the luma blocks 0 to 15. -/
def okTypeBlock (type block : Byte) : Bool :=
  match type.toNat with
  | 0 => block.toNat ≤ 15
  | 1 => block.toNat == 24
  | 2 => 16 ≤ block.toNat && block.toNat ≤ 23
  | 3 => block.toNat ≤ 15
  | _ => false

/-- A luma sub-block, 0 to 15 (R276). -/
def okSubBlock (block : Byte) : Bool := block.toNat ≤ 15

/-- A reference tag that names a role, 1 to 3 (R306). -/
def okRefTag (ref : Byte) : Bool := 1 ≤ ref.toNat && ref.toNat ≤ 3

/-- A chroma plane, 1 or 2 (R309). -/
def okChromaPlane (plane : Byte) : Bool := 1 ≤ plane.toNat && plane.toNat ≤ 2

/-- A segment, 0 to 3 (R332). -/
def okSegment (seg : Byte) : Bool := seg.toNat ≤ 3

/-- A plane and a block of it: 0 to 15 in plane 0, 0 to 3 in planes 1 and 2 (R339). -/
def okPlaneBlock (plane block : Byte) : Bool :=
  plane.toNat ≤ 2 && block.toNat ≤ (if plane.toNat = 0 then 15 else 3)

/-- The simple filter's plane, 0 only, and a direction 0 or 1 (R372). -/
def okSimpleEdge (plane dir : Byte) : Bool := plane.toNat == 0 && dir.toNat ≤ 1

/-- The normal filters' plane 0 to 2 and a direction 0 or 1 (R374, R375). -/
def okNormalEdge (plane dir : Byte) : Bool := plane.toNat ≤ 2 && dir.toNat ≤ 1

/-- A control register number, 0 to 43 (R439, R440). -/
def okControl (reg : Byte) : Bool := reg.toNat ≤ 43

/-- A copy of the probability context, 0 or 1 (R446). -/
def okCopy (copy : Byte) : Bool := copy.toNat ≤ 1

/-- An argument register number, 0 to 3 (R110). -/
def okArgIndex (index : Byte) : Bool := index.toNat ≤ 3

end Sys2Proof.Machine
end

