-- ==== Sys2Proof/Machine/RangeDecoder.lean ====
section
/-! DEFINITION. The range decoder unit RD (spec 40_range_decoder.md R130 to R143). -/

namespace Sys2Proof.Machine

variable [Configured]

/-! ## One instance -/

/-- The byte that an instance sees at its cursor: that of `CBUF`, and any value once the host has changed
the buffer under the instance (20_memory.md R71, R496; U14). -/
def Rd.byte (cbuf : Memory Byte) (r : Rd) : Byte :=
  match r.changed with
  | none => cbufByte cbuf (r.base + r.cursor)
  | some n => Config.freeChangedByte n r.cursor.toNat

/-- `next_byte(k)`: the next byte of the buffer, or the fill byte 0x00 past its end (R136). -/
def nextByte (cbuf : Memory Byte) (r : Rd) : Byte × Rd :=
  if r.cursor < r.size then (r.byte cbuf, { r with cursor := r.cursor + 1 }) else (0, r)

/-- One turn of the renormalisation loop of R132: a shift, and a byte after every eighth. -/
def renormStep (cbuf : Memory Byte) (r : Rd) : Rd :=
  let t : Rd := { r with value := r.value <<< 1, range := r.range <<< 1, bitCount := r.bitCount + 1 }
  if t.bitCount = 0 then
    let (b, u) := nextByte cbuf t
    { u with value := u.value ||| b.setWidth 16 }
  else t

/-- The renormalisation loop of R132; it runs at most seven times (R137 (c)). -/
def renorm (cbuf : Memory Byte) : Nat → Rd → Rd
  | 0, r => r
  | n + 1, r => if r.range.toNat < 128 then renorm cbuf n (renormStep cbuf r) else r

/-- `split` of R132. -/
def splitOf (r : Rd) (p : Byte) : Nat := 1 + ((r.range.toNat - 1) * p.toNat) / 256

/-- `read_bool(k, p)` (R132). -/
def readBool (cbuf : Memory Byte) (p : Byte) (r : Rd) : Bool × Rd :=
  let split := splitOf r p
  if 256 * split ≤ r.value.toNat then
    (true, renorm cbuf 7
      { r with range := r.range - BitVec.ofNat 8 split, value := r.value - BitVec.ofNat 16 (256 * split) })
  else (false, renorm cbuf 7 { r with range := BitVec.ofNat 8 split })

/-- `read_literal(k, n)`, most significant bit first, after the bits already read (R133). -/
def readLitFrom (cbuf : Memory Byte) (v : Nat) : Nat → Rd → Nat × Rd
  | 0, r => (v, r)
  | n + 1, r =>
    let (b, r') := readBool cbuf 128 r
    readLitFrom cbuf (2 * v + boolNat b) n r'

/-- `read_literal(k, n)` (R133). -/
def readLit (cbuf : Memory Byte) (n : Nat) (r : Rd) : Nat × Rd := readLitFrom cbuf 0 n r

/-- `read_signed_literal(k, n)`: the sign is read also after a zero magnitude (R134). -/
def readSlit (cbuf : Memory Byte) (n : Nat) (r : Rd) : Int × Rd :=
  let (m, r1) := readLit cbuf n r
  let (s, r2) := readBool cbuf 128 r1
  (if s then -(m : Int) else (m : Int), r2)

/-- The walk of `read_tree` (R135). Each turn goes to a larger index, so the length of the tree is
enough turns; a probability is asked for only where its node is reached. -/
def readTreeFrom (cbuf : Memory Byte) (T : List Int) (P : Nat → Res Byte) :
    Nat → Nat → Rd → Res (Nat × Rd)
  | 0, _, r => .ok (0, r)
  | n + 1, i, r => do
    let p ← P (i / 2)
    let (b, r') := readBool cbuf p r
    let e := T[i + boolNat b]?.getD 0
    if e ≤ 0 then .ok ((-e).toNat, r') else readTreeFrom cbuf T P n e.toNat r'

/-- `read_tree(k, T, P, start)` (R135). -/
def readTree (cbuf : Memory Byte) (T : List Int) (P : Nat → Res Byte) (start : Nat) (r : Rd) :
    Res (Nat × Rd) :=
  readTreeFrom cbuf T P T.length start r

/-- `RD_INIT` of a buffer (R131). -/
def rdStart (cbuf : Memory Byte) (base size : Word) : Rd :=
  let r0 : Rd :=
    { value := 0, range := 255, bitCount := 0, cursor := 0, base := base, size := size, valid := true
      changed := none }
  let (b0, r1) := nextByte cbuf r0
  let (b1, r2) := nextByte cbuf r1
  { r2 with value := b0 ++ b1 }

/-! ## The same on the machine's instances -/

/-- `read_bool(k, p)`. -/
def State.getBool (s : State) (k : Nat) (p : Byte) : Bool × State :=
  let (b, r) := readBool s.cbuf p (s.rdAt k)
  (b, s.setRd k r)

/-- `read_literal(k, n)`. -/
def State.getLit (s : State) (k n : Nat) : Nat × State :=
  let (v, r) := readLit s.cbuf n (s.rdAt k)
  (v, s.setRd k r)

/-- `read_signed_literal(k, n)`. -/
def State.getSlit (s : State) (k n : Nat) : Int × State :=
  let (v, r) := readSlit s.cbuf n (s.rdAt k)
  (v, s.setRd k r)

/-- `read_tree(k, T, P, start)`. -/
def State.getTree (s : State) (k : Nat) (T : List Int) (P : Nat → Res Byte) (start : Nat) :
    Res (Nat × State) := do
  let (v, r) ← readTree s.cbuf T P start (s.rdAt k)
  .ok (v, s.setRd k r)

/-- `read_bool(k, p)` where the probability must be specified. -/
def State.getBoolAt (s : State) (k : Nat) (p : Res Byte) : Res (Bool × State) := do
  let q ← p
  .ok (s.getBool k q)

/-! ## The five commands -/

/-- `RD_INIT k` (R131). -/
def execRdInit (k : Byte) (s : State) : Host.Outcome State Fault Refusal :=
  finish s do
    require (okInstance k) .badOperand
    require (bufferOk (s.arg 0) (s.arg 1)) .badOperand
    .ok (s.setRd k.toNat (rdStart s.cbuf (s.arg 0) (s.arg 1)))

/-- `RD_BOOL p k` (R132). -/
def execRdBool (p k : Byte) (s : State) : Host.Outcome State Fault Refusal :=
  finish s do
    require (okInstance k) .badOperand
    require (s.rdValid k.toNat) .rdUninit
    let (b, t) := s.getBool k.toNat p
    .ok (t.setRes 0 (boolWord b))

/-- `RD_LIT n k` (R133). -/
def execRdLit (n k : Byte) (s : State) : Host.Outcome State Fault Refusal :=
  finish s do
    require (okLiteral n && okInstance k) .badOperand
    require (s.rdValid k.toNat) .rdUninit
    let (v, t) := s.getLit k.toNat n.toNat
    .ok (t.setRes 0 (BitVec.ofNat 32 v))

/-- `RD_SLIT n k` (R134). -/
def execRdSlit (n k : Byte) (s : State) : Host.Outcome State Fault Refusal :=
  finish s do
    require (okSignedLiteral n && okInstance k) .badOperand
    require (s.rdValid k.toNat) .rdUninit
    let (v, t) := s.getSlit k.toNat n.toNat
    .ok (t.setRes 0 (BitVec.ofInt 32 v))

/-- `RD_TREE tree start k`, probabilities from the ARG registers (R135). -/
def execRdTree (tree start k : Byte) (s : State) : Host.Outcome State Fault Refusal :=
  finish s do
    require (okTree tree start && okInstance k) .badOperand
    require (s.rdValid k.toNat) .rdUninit
    let (v, t) ← s.getTree k.toNat (treeOf tree.toNat) (fun i => .ok (s.argProb i)) start.toNat
    .ok (t.setRes 0 (BitVec.ofNat 32 v))

end Sys2Proof.Machine
end

