-- ==== Sys2Proof/Machine/MotionPredictor.lean ====
section
/-! DEFINITION. The motion predictor unit MP (spec 42_motion_predictor.md R190 to R214). It reads its
bools from instance 0 and works on the macroblock at `MBPOS`. A meaning is its checks (R190) and a
body; composites call the bodies after their own checks. -/

namespace Sys2Proof.Machine

variable [Configured]

/-! ## Vectors -/

/-- `bias(r)` (R192). -/
def State.bias (s : State) (r : RefTag) : Bool :=
  match r with
  | .current => false
  | .previous => false
  | .golden => s.crBit 13 5
  | .altref => s.crBit 13 6

/-- A neighbour's vector, negated where the sign biases differ (R192). -/
def State.biasedMv (s : State) (e : MbRec) : Mv :=
  if s.bias e.ref != s.bias s.cur.ref then e.mv.neg else e.mv

/-- `clampmv` (R193); the bounds are plain integers. -/
def State.clampMv (s : State) (m : Mv) : Mv where
  x := BitVec.ofInt 16
    (clamp m.x.toInt (-64 * s.mbx - 64) (64 * ((s.mbW : Int) - 1 - s.mbx) + 64))
  y := BitVec.ofInt 16
    (clamp m.y.toInt (-64 * s.mby - 64) (64 * ((s.mbH : Int) - 1 - s.mby) + 64))

/-! ## Candidate search (R195, R196) -/

/-- The bins of the search: `nm[0..3]`, `cnt[0..3]` and `idx`. -/
structure Bins where
  nm : Vector Mv 4
  cnt : Vector Nat 4
  idx : Nat
  deriving DecidableEq, Repr

/-- The bins before the first neighbour. -/
def Bins.start : Bins := ⟨Vector.replicate 4 Mv.zero, Vector.replicate 4 0, 0⟩

/-- `nm[i]`. -/
def Bins.mvAt (b : Bins) (i : Nat) : Mv := b.nm[i]?.getD Mv.zero

/-- `cnt[i]`. -/
def Bins.cntAt (b : Bins) (i : Nat) : Nat := b.cnt[i]?.getD 0

/-- `cnt[i] <- cnt[i] + w`. -/
def Bins.bump (b : Bins) (i w : Nat) : Bins := { b with cnt := b.cnt.setIfInBounds i (b.cntAt i + w) }

/-- One neighbour `e` of weight `w`, its vector `v` already corrected for the sign bias. -/
def Bins.scan (b : Bins) (e : MbRec) (v : Mv) (w : Nat) (first : Bool) : Bins :=
  if e.ref = .current then b
  else if e.mv = Mv.zero then b.bump 0 w
  else
    let c : Bins :=
      if first || v != b.mvAt b.idx then
        { b with idx := b.idx + 1, nm := b.nm.setIfInBounds (b.idx + 1) v }
      else b
    c.bump c.idx w

/-- The line commented `third equals first`. -/
def Bins.mergeThird (b : Bins) : Bins :=
  if 0 < b.cntAt 3 ∧ b.mvAt 3 = b.mvAt 1 then b.bump 1 (neighbourWeight 2) else b

/-- `cnt[3]` reused for the count of SPLIT neighbours. -/
def Bins.countSplit (b : Bins) (above left aboveLeft : MbMode) : Bins :=
  { b with
    cnt := b.cnt.setIfInBounds 3
      (neighbourWeight 0 * boolNat (above == .split) + neighbourWeight 1 * boolNat (left == .split) +
        neighbourWeight 2 * boolNat (aboveLeft == .split)) }

/-- Bins 1 and 2 exchanged where the second is strictly heavier. -/
def Bins.sortTwo (b : Bins) : Bins :=
  if b.cntAt 1 < b.cntAt 2 then
    { b with
      cnt := (b.cnt.setIfInBounds 1 (b.cntAt 2)).setIfInBounds 2 (b.cntAt 1)
      nm := (b.nm.setIfInBounds 1 (b.mvAt 2)).setIfInBounds 2 (b.mvAt 1) }
  else b

/-- The bins after the whole search of R196. -/
def State.searchBins (s : State) : Bins :=
  let b1 := Bins.start.scan s.aboveMb (s.biasedMv s.aboveMb) (neighbourWeight 0) true
  let b2 := b1.scan s.leftMb (s.biasedMv s.leftMb) (neighbourWeight 1) false
  let b3 := b2.scan s.aboveLeftMb (s.biasedMv s.aboveLeftMb) (neighbourWeight 2) false
  (b3.mergeThird.countSplit s.aboveMb.mode s.leftMb.mode s.aboveLeftMb.mode).sortTwo

/-- `CAND` of a search: the three clamped vectors and the counts. -/
def State.candOf (s : State) (b : Bins) : Cand where
  best := s.clampMv (if b.cntAt 0 ≤ b.cntAt 1 then b.mvAt 1 else Mv.zero)
  nearest := s.clampMv (b.mvAt 1)
  near := s.clampMv (b.mvAt 2)
  cnt := b.cnt.map (BitVec.ofNat 3)

/-- `CAND.cnt[i]`. -/
def Cand.cntAt (c : Cand) (i : Nat) : Nat := (c.cnt[i]?.getD 0).toNat

/-- The four counts packed one per byte: `RES3` of `MP_NEAR`. -/
def Cand.packCnt (c : Cand) : Word :=
  BitVec.ofNat 8 (c.cntAt 3) ++ BitVec.ofNat 8 (c.cntAt 2) ++
    (BitVec.ofNat 8 (c.cntAt 1) ++ BitVec.ofNat 8 (c.cntAt 0))

/-- The work of `MP_NEAR` (R196). -/
def mpNear (s : State) : State :=
  let c := s.candOf s.searchBins
  ((((({ s with cand := c }).setRes 0 (packMv c.best)).setRes 1 (packMv c.nearest)).setRes 2
    (packMv c.near)).setRes 3 c.packCnt)

/-! ## Mode and vectors -/

/-- `p[k] = MODE_CONTEXTS[CAND.cnt[k]][k]` (R198); a count is at most 5. -/
def Cand.modeProb (c : Cand) (k : Nat) : Byte := ((modeContexts[c.cntAt k]?.getD [])[k]?).getD 0

/-- The work of `MP_MODE` (R199). -/
def mpMode (s : State) : Res State := do
  let (v, t) ← s.getTree 0 mvrefTree (fun k => .ok (s.cand.modeProb k)) 0
  .ok ((t.setCur { t.cur with mode := MbMode.ofNum v }).setRes 0 (BitVec.ofNat 32 v))

/-- The bits of a long-form magnitude in a list of positions, added up (R202). -/
def State.mvBits (s : State) (p : Nat → Res Byte) : List Nat → Nat → Res (Nat × State)
  | [], a => .ok (a, s)
  | i :: rest, a => do
    let (b, t) ← s.getBoolAt 0 (p (9 + i))
    State.mvBits t p rest (a + boolNat b * 2 ^ i)

/-- A long-form magnitude: bits 0, 1, 2, then 9 down to 4, then bit 3 unless it is implied (R202). -/
def State.mvLong (s : State) (p : Nat → Res Byte) : Res (Nat × State) := do
  let (a, t) ← s.mvBits p [0, 1, 2, 9, 8, 7, 6, 5, 4] 0
  if a / 16 = 0 then .ok (a + 8, t)
  else
    let (b, u) ← t.getBoolAt 0 (p 12)
    .ok (a + boolNat b * 8, u)

/-- A component's magnitude (R202). -/
def State.mvMagnitude (s : State) (p : Nat → Res Byte) : Res (Nat × State) := do
  let (long, t) ← s.getBoolAt 0 (p 0)
  if long then t.mvLong p else t.getTree 0 smallMvTree (fun n => p (2 + n)) 0

/-- `read_mv_component(p)` (R202): the sign is read only for a non-zero magnitude. -/
def State.mvComponent (s : State) (p : Nat → Res Byte) : Res (Int × State) := do
  let (a, t) ← s.mvMagnitude p
  if a = 0 then .ok (0, t)
  else
    let (neg, u) ← t.getBoolAt 0 (p 1)
    .ok (if neg then -(a : Int) else (a : Int), u)

/-- A vector delta, the vertical component first (R203). -/
def State.readMv (s : State) : Res (Mv × State) := do
  let (dy, t) ← s.mvComponent (s.probs (mvcIndex 0))
  let (dx, u) ← t.mvComponent (t.probs (mvcIndex 1))
  .ok (⟨BitVec.ofInt 16 dx, BitVec.ofInt 16 dy⟩, u)

/-- The work of `MP_READMV` (R203). -/
def mpReadmv (s : State) : Res State := do
  let (d, t) ← s.readMv
  .ok (t.setRes 0 (packMv d))

/-! ## Split motion (R205 to R211) -/

/-- `bmv[i]` of a record. -/
def MbRec.bmvAt (r : MbRec) (i : Nat) : Mv := r.bmv[i]?.getD Mv.zero

/-- The vector to the left of sub-block `k` (R209). -/
def State.leftSub (s : State) (k : Nat) : Mv :=
  if k % 4 = 0 then s.leftMb.bmvAt (k + 3) else s.cur.bmvAt (k - 1)

/-- The vector above sub-block `k` (R209). -/
def State.aboveSub (s : State) (k : Nat) : Mv :=
  if k < 4 then s.aboveMb.bmvAt (k + 12) else s.cur.bmvAt (k - 4)

/-- The context of a sub-vector from its left and above neighbours (R207). -/
def subCtx (l a : Mv) : Nat :=
  if l = a then (if a = Mv.zero then 4 else 3)
  else if a = Mv.zero then 2
  else if l = Mv.zero then 1
  else 0

/-- One sub-vector: its choice (R208) and the delta where the choice is NEW4X4. -/
def State.readSub (s : State) (l a : Mv) : Res (Mv × State) := do
  let (c, t) ← s.getTree 0 submvrefTree (tableProb (submvProbs[subCtx l a]?.getD [])) 0
  if c = 0 then .ok (l, t)
  else if c = 1 then .ok (a, t)
  else if c = 2 then .ok (Mv.zero, t)
  else
    let (d, u) ← t.readMv
    .ok (u.cand.best.add d, u)

/-- `PART[shape][b]` (R205). -/
def partOf (shape b : Nat) : Nat := ((splitPart[shape]?.getD [])[b]?).getD 0

/-- `v` into every sub-block of partition `n` (R210). -/
def fillPart (shape n : Nat) (v : Mv) (bmv : Vector Mv 16) : Vector Mv 16 :=
  Vector.ofFn fun b : Fin 16 => if partOf shape b = n then v else bmv[b]

/-- One partition: `n` is its number, `k` its first sub-block (R211). -/
def splitStep (shape : Nat) (s : State) (p : Nat × Nat) : Res State := do
  let (v, t) ← s.readSub (s.leftSub p.1) (s.aboveSub p.1)
  .ok (t.setCur { t.cur with bmv := fillPart shape p.2 v t.cur.bmv })

/-- The work of `MP_SPLIT` (R211). -/
def mpSplit (s : State) : Res State := do
  let (v, t) ← s.getTree 0 splitTree (tableProb splitProbs) 0
  let t1 := t.setCur { t.cur with split := SplitShape.ofNum v }
  let t2 ← ((splitFirst[v]?.getD []).zipIdx).foldlM (splitStep v) t1
  .ok ((t2.setCur { t2.cur with mv := t2.cur.bmvAt 15 }).setRes 0 (BitVec.ofNat 32 v))

/-- One vector for the whole macroblock: `mv`, all sixteen `bmv`, and shape 0 (R214). -/
def State.setWholeMv (s : State) (v : Mv) : State :=
  s.setCur { s.cur with mv := v, bmv := Vector.replicate 16 v, split := .halves16x8 }

/-- The vector or vectors of the macroblock, by its mode (R200, R214); `MP_MODE` has just written one
of the five motion modes. -/
def mpVector (s : State) : Res State :=
  match s.cur.mode with
  | .nearest => .ok (s.setWholeMv s.cand.nearest)
  | .near => .ok (s.setWholeMv s.cand.near)
  | .new => do
    let (d, t) ← s.readMv
    .ok ((t.setRes 0 (packMv d)).setWholeMv (t.cand.best.add d))
  | .split => mpSplit s
  | .zero => .ok (s.setWholeMv Mv.zero)
  | .dcPred | .vPred | .hPred | .tmPred | .bPred => .ok (s.setWholeMv s.cur.mv)

/-- The work of `MP_MB` (R214). -/
def mpMb (s : State) : Res State := do
  let t ← mpMode (mpNear s)
  let u ← mpVector t
  .ok ((u.setRes 0 (packMv u.cur.mv)).setRes 1 (BitVec.ofNat 32 u.cur.mode.num))

/-! ## The six commands -/

/-- `MP_NEAR` (R196). -/
def execMpNear (s : State) : Host.Outcome State Fault Refusal :=
  finish s do
    require s.posOk .badMbpos
    .ok (mpNear s)

/-- `MP_MODE` (R199). -/
def execMpMode (s : State) : Host.Outcome State Fault Refusal :=
  finish s do
    require s.posOk .badMbpos
    require (s.rdValid 0) .rdUninit
    mpMode s

/-- `MP_READMV` (R203). -/
def execMpReadmv (s : State) : Host.Outcome State Fault Refusal :=
  finish s do
    require s.posOk .badMbpos
    require (s.rdValid 0) .rdUninit
    mpReadmv s

/-- `MP_SPLIT` (R211). -/
def execMpSplit (s : State) : Host.Outcome State Fault Refusal :=
  finish s do
    require s.posOk .badMbpos
    require (s.rdValid 0) .rdUninit
    mpSplit s

/-- `MP_CLAMP` (R194). -/
def execMpClamp (s : State) : Host.Outcome State Fault Refusal :=
  finish s do
    require s.posOk .badMbpos
    .ok (s.setRes 0 (packMv (s.clampMv (unpackMv (s.arg 0)))))

/-- `MP_MB` (R214). -/
def execMpMb (s : State) : Host.Outcome State Fault Refusal :=
  finish s do
    require s.posOk .badMbpos
    require (s.rdValid 0) .rdUninit
    mpMb s

end Sys2Proof.Machine
end

