-- ==== Sys2Proof/Machine/ModeDecoder.lean ====
section
/-! DEFINITION. The macroblock mode decoder unit MD (spec 41_mode_decoder.md R160 to R174). It reads
its bools from instance 0 and works on the macroblock at `MBPOS`. -/

namespace Sys2Proof.Machine

variable [Configured]

/-- The two checks of every MD command (R160). -/
def mdCheck (s : State) : Res Unit := do
  require s.posOk .badMbpos
  require (s.rdValid 0) .rdUninit

/-- `seg(MBX, MBY)` (R174). -/
def State.seg (s : State) : Nat := if s.crBit 3 0 then s.segment.toNat else 0

/-- The segment id read and stored, where the map is updating (R162). -/
def readSegid (s : State) : Res State :=
  if s.crBit 3 0 && s.crBit 3 1 then do
    let (v, t) ← s.getTree 0 segmentTree (s.probs segidIndex) 0
    .ok (t.setSegment (BitVec.ofNat 2 v))
  else .ok s

/-- The work of `MD_SEGID` (R162). -/
def mdSegid (s : State) : Res State := do
  let t ← readSegid s
  .ok (t.setRes 0 (BitVec.ofNat 32 t.seg))

/-- The skip flag of the macroblock: a bool where skip coding is enabled, else 0 (R163). -/
def readSkip (s : State) : Res (Bool × State) :=
  if s.crBit 14 0 then s.getBoolAt 0 (s.probs mbskipIndex 0) else .ok (false, s)

/-- The work of `MD_SKIP` (R163). -/
def mdSkip (s : State) : Res State := do
  let (b, t) ← readSkip s
  .ok ((t.setCur { t.cur with skip := b }).setRes 0 (boolWord b))

/-- `IMPLIED[mode]` (R173). -/
def impliedBMode (m : MbMode) : BMode := BMode.ofNum (impliedNum m.num)

/-- A record made intra: reference 0, zero vectors, shape 0 (R164, R165). -/
def MbRec.intra (r : MbRec) (m : MbMode) : MbRec :=
  { r with mode := m, ref := .current, mv := Mv.zero, bmv := Vector.replicate 16 Mv.zero
           split := .halves16x8 }

/-- The sub-modes after `MD_YMODE_KF`: the implied ones unless the mode is B_PRED (R164). -/
def keyBModes (m : MbMode) (old : Vector BMode 16) : Vector BMode 16 :=
  if m = .bPred then old else Vector.replicate 16 (impliedBMode m)

/-- The work of `MD_YMODE_KF` (R164). -/
def mdYmodeKf (s : State) : Res State := do
  let (v, t) ← s.getTree 0 kfYmodeTree (tableProb kfYmodeProbs) 0
  let m := MbMode.ofNum v
  .ok ((t.setCur { t.cur.intra m with bmode := keyBModes m t.cur.bmode }).setRes 0 (BitVec.ofNat 32 v))

/-- The work of `MD_YMODE_IF` (R165). -/
def mdYmodeIf (s : State) : Res State := do
  let (v, t) ← s.getTree 0 ymodeTree (s.probs ymodeIndex) 0
  .ok ((t.setCur (t.cur.intra (MbMode.ofNum v))).setRes 0 (BitVec.ofNat 32 v))

/-- `bmode[i]` of a record. -/
def MbRec.bmodeAt (r : MbRec) (i : Nat) : BMode := r.bmode[i]?.getD .dc

/-- `A` of R166: the sub-mode above sub-block `b`. -/
def State.aboveBMode (s : State) (b : Nat) : BMode :=
  if b < 4 then s.aboveMb.bmodeAt (12 + b) else s.cur.bmodeAt (b - 4)

/-- `L` of R166: the sub-mode to the left of sub-block `b`. -/
def State.leftBMode (s : State) (b : Nat) : BMode :=
  if b % 4 = 0 then s.leftMb.bmodeAt (b + 3) else s.cur.bmodeAt (b - 1)

/-- `cur.bmode[b] <- m`. -/
def State.setBMode (s : State) (b : Nat) (m : BMode) : State :=
  s.setCur { s.cur with bmode := s.cur.bmode.setIfInBounds b m }

/-- One sub-mode, its probabilities being those of `P` in the state before it is read. -/
def bmodeStep (P : State → Nat → Nat → Res Byte) (s : State) (b : Nat) : Res State := do
  let (v, t) ← s.getTree 0 bmodeTree (P s b) 0
  .ok (t.setBMode b (BMode.ofNum v))

/-- `KF_BMODE_PROBS[A][L][0..8]` for sub-block `b` (R166). -/
def keyBModeProbs (T : OpenTables) (s : State) (b n : Nat) : Res Byte :=
  .ok (T.kfBmode (s.aboveBMode b).num (s.leftBMode b).num n)

/-- The work of `MD_BMODES_KF` (R166). -/
def mdBmodesKf (T : OpenTables) (s : State) : Res State :=
  (List.range 16).foldlM (bmodeStep (keyBModeProbs T)) s

/-- The work of `MD_BMODES_IF` (R167). -/
def mdBmodesIf (s : State) : Res State :=
  (List.range 16).foldlM (bmodeStep fun _ _ => tableProb bmodeProbs) s

/-- A chroma mode, with the probabilities `P` (R168, R169). -/
def mdUvmode (P : Nat → Res Byte) (s : State) : Res State := do
  let (v, t) ← s.getTree 0 uvmodeTree P 0
  .ok ((t.setCur { t.cur with uvmode := UvMode.ofNum v }).setRes 0 (BitVec.ofNat 32 v))

/-- The work of `MD_UVMODE_KF` (R168). -/
def mdUvmodeKf (s : State) : Res State := mdUvmode (tableProb kfUvmodeProbs) s

/-- The work of `MD_UVMODE_IF` (R169). -/
def mdUvmodeIf (s : State) : Res State := mdUvmode (s.probs uvmodeIndex) s

/-- The reference of an interframe macroblock: one, two or three bools (R170). -/
def State.readRef (s : State) : Res (RefTag × State) := do
  let (inter, t) ← s.getBoolAt 0 (s.probs intraIndex 0)
  if !inter then .ok (.current, t)
  else do
    let (notLast, u) ← t.getBoolAt 0 (t.probs lastIndex 0)
    if !notLast then .ok (.previous, u)
    else do
      let (alt, w) ← u.getBoolAt 0 (u.probs goldenIndex 0)
      .ok (if alt then .altref else .golden, w)

/-- The work of `MD_REF` (R170). -/
def mdRef (s : State) : Res State := do
  let (r, t) ← s.readRef
  .ok ((t.setCur { t.cur with ref := r }).setRes 0 (BitVec.ofNat 32 r.num))

/-- The sub-modes of a keyframe macroblock, where its mode is B_PRED (R171). -/
def mdSubKf (T : OpenTables) (s : State) : Res State :=
  if s.cur.mode = .bPred then mdBmodesKf T s else .ok s

/-- The intra modes of a keyframe macroblock (R171). -/
def mdIntraKf (T : OpenTables) (s : State) : Res State := do
  let t ← mdYmodeKf s
  let u ← mdSubKf T t
  mdUvmodeKf u

/-- The sub-modes of an interframe macroblock, where its mode is B_PRED (R171). -/
def mdSubIf (s : State) : Res State := if s.cur.mode = .bPred then mdBmodesIf s else .ok s

/-- The intra modes of an interframe macroblock (R171). -/
def mdIntraIf (s : State) : Res State := do
  let t ← mdYmodeIf s
  let u ← mdSubIf t
  mdUvmodeIf u

/-- The reference, then the intra modes or the motion of an interframe macroblock (R171). -/
def mdInterframe (s : State) : Res State := do
  let t ← mdRef s
  if t.cur.ref = .current then mdIntraIf t else mpMb t

/-- The modes and vectors, by the frame class (R171). -/
def mdModes (T : OpenTables) (s : State) : Res State :=
  if s.crBit 0 0 then mdIntraKf T s else mdInterframe s

/-- The work of `MD_MB` (R171). -/
def mdMb (T : OpenTables) (s : State) : Res State := do
  let t ← mdSegid s
  let u ← mdSkip t
  let w ← mdModes T u
  .ok ((((w.setRes 0 (BitVec.ofNat 32 w.cur.mode.num)).setRes 1 (BitVec.ofNat 32 w.cur.ref.num)).setRes
    2 (boolWord w.cur.skip)).setRes 3 (BitVec.ofNat 32 w.seg))

/-! ## The ten commands -/

/-- `MD_SEGID` (R162). -/
def execMdSegid (s : State) : Host.Outcome State Fault Refusal :=
  finish s do
    mdCheck s
    mdSegid s

/-- `MD_SKIP` (R163). -/
def execMdSkip (s : State) : Host.Outcome State Fault Refusal :=
  finish s do
    mdCheck s
    mdSkip s

/-- `MD_YMODE_KF` (R164). -/
def execMdYmodeKf (s : State) : Host.Outcome State Fault Refusal :=
  finish s do
    mdCheck s
    mdYmodeKf s

/-- `MD_YMODE_IF` (R165). -/
def execMdYmodeIf (s : State) : Host.Outcome State Fault Refusal :=
  finish s do
    mdCheck s
    mdYmodeIf s

/-- `MD_BMODES_KF` with given open tables (R166). -/
def mdBmodesKfCmd (T : OpenTables) (s : State) : Host.Outcome State Fault Refusal :=
  finish s do
    mdCheck s
    mdBmodesKf T s

/-- `MD_BMODES_KF` (R166). -/
def execMdBmodesKf (s : State) : Host.Outcome State Fault Refusal := mdBmodesKfCmd Config.openTables s

/-- `MD_BMODES_IF` (R167). -/
def execMdBmodesIf (s : State) : Host.Outcome State Fault Refusal :=
  finish s do
    mdCheck s
    mdBmodesIf s

/-- `MD_UVMODE_KF` (R168). -/
def execMdUvmodeKf (s : State) : Host.Outcome State Fault Refusal :=
  finish s do
    mdCheck s
    mdUvmodeKf s

/-- `MD_UVMODE_IF` (R169). -/
def execMdUvmodeIf (s : State) : Host.Outcome State Fault Refusal :=
  finish s do
    mdCheck s
    mdUvmodeIf s

/-- `MD_REF` (R170). -/
def execMdRef (s : State) : Host.Outcome State Fault Refusal :=
  finish s do
    mdCheck s
    mdRef s

/-- `MD_MB` with given open tables (R171). -/
def mdMbCmd (T : OpenTables) (s : State) : Host.Outcome State Fault Refusal :=
  finish s do
    mdCheck s
    mdMb T s

/-- `MD_MB` (R171). -/
def execMdMb (s : State) : Host.Outcome State Fault Refusal := mdMbCmd Config.openTables s

end Sys2Proof.Machine
end

