-- ==== Sys2Proof/Machine/CoefDecoder.lean ====
section
/-! DEFINITION. The coefficient decoder unit CD (spec 43_coefficient_decoder.md R230 to R247). -/

namespace Sys2Proof.Machine

variable [Configured]

/-- The token EOB (R232). -/
def tokenEob : Nat := 11

/-- The extra bits of a category, most significant first, after the bits already read (R236). -/
def State.extraBits (s : State) (k : Nat) : List Byte → Nat → Nat × State
  | [], e => (e, s)
  | q :: rest, e =>
    let (b, t) := s.getBool k q
    State.extraBits t k rest (2 * e + boolNat b)

/-- The magnitude of a non-zero token (R236). -/
def State.tokenMagnitude (s : State) (k tok : Nat) : Nat × State :=
  if tok ≤ 4 then (tok, s)
  else
    let (e, t) := s.extraBits k (tokenCategory tok).2 0
    ((tokenCategory tok).1 + e, t)

/-- A multiplier of a record. -/
def DqRec.get (d : DqRec) (m : Multiplier) : Nat :=
  match m with
  | .y1dc => d.y1dc
  | .y1ac => d.y1ac
  | .y2dc => d.y2dc
  | .y2ac => d.y2ac
  | .uvdc => d.uvdc
  | .uvac => d.uvac

/-- The multiplier of position `i` in plane type `t` (R238). -/
def DqRec.factor (d : DqRec) (t i : Nat) : Nat :=
  d.get (if i = 0 then (factorsOf t).1 else (factorsOf t).2)

/-- `DQ[s]` for the segment of the current macroblock; a use of a record that `IT_DQSETUP` has not
written is a model fault (U1). -/
def State.dqCur (s : State) : Res DqRec := need (Memory.find s.dq s.seg) .dqUnspecified

/-- A non-zero token of position `i`: magnitude, sign, dequantised and stored in its place (R236 to
R238). The magnitude is returned. -/
def State.storeToken (s : State) (t b k i tok : Nat) : Res (Nat × State) := do
  let (m, u) := s.tokenMagnitude k tok
  let (neg, w) := u.getBool k 128
  let d ← w.dqCur
  let v : Int := if neg then -(m : Int) else (m : Int)
  .ok (m, w.setCoef b (zigzag[i]?.getD 0) (v * (d.factor t i : Int)))

/-- The loop of `CD_BLOCK` (R240): from position `i`, with context `ctx` and the tree walk's first
index `start`. The position at which it stops is returned. There are at most sixteen turns. -/
def cdLoop (t b k : Nat) : Nat → State → Nat → Nat → Nat → Res (Nat × State)
  | 0, s, i, _, _ => .ok (i, s)
  | n + 1, s, i, ctx, start =>
    if 16 ≤ i then .ok (i, s)
    else do
      let (tok, u) ← s.getTree k tokenTree (s.probs (tokenIndex t (bands[i]?.getD 0) ctx)) start
      if tok = tokenEob then .ok (i, u)
      else if tok = 0 then cdLoop t b k n u (i + 1) 0 2
      else do
        let (m, w) ← u.storeToken t b k i tok
        cdLoop t b k n w (i + 1) (if m = 1 then 1 else 2) 0

/-- The first position of a plane type (R238). -/
def firstPos (t : Nat) : Nat := if t = 0 then 1 else 0

/-- One block: its tokens, and its flags (R240). -/
def cdTokens (t b k : Nat) (s : State) : Res (Nat × State) := do
  let (i, u) ← cdLoop t b k 16 s (firstPos t) (s.firstCtx b) 0
  .ok (i, u.setNz b (decide (firstPos t < i)))

/-- The work of `CD_BLOCK` (R240). -/
def cdBlock (t b k : Nat) (s : State) : Res State := do
  let (i, u) ← cdTokens t b k s
  .ok ((u.setRes 0 (BitVec.ofNat 32 i)).setRes 1 (boolWord (decide (firstPos t < i))))

/-- One block of `CD_MB`: `CD_BLOCK`, `any` gathering the `nz` that it leaves in `RES1` (R242; 30_encoding.md
R104: a composite is its sequence). -/
def cdMbStep (k : Nat) (acc : Bool × State) (tb : Nat × Nat) : Res (Bool × State) := do
  let u ← cdBlock tb.1 tb.2 k acc.2
  .ok (acc.1 || u.result 1 == 1, u)

/-- The blocks of a macroblock in the order of the stream, with their plane types (R239, R242). -/
def mbBlocks (y2 : Bool) : List (Nat × Nat) :=
  (if y2 then [(1, 24)] else []) ++ (List.range 16).map (fun b => (if y2 then 0 else 3, b)) ++
    (List.range 8).map (fun b => (2, 16 + b))

/-- Every entry of `COEF` 0 (R52). -/
def State.clearCoef (s : State) : State := { s with coef := [] }

/-- The work of `CD_MB` (R242); the retroactive skip is R243. -/
def cdMb (k : Nat) (s : State) : Res State := do
  let (any, t) ← (mbBlocks (hasY2 s.cur.mode)).foldlM (cdMbStep k) (false, s.clearCoef)
  let u := if any then t else t.setCur { t.cur with skip := true }
  .ok (u.setRes 0 (boolWord any))

/-- The work of `CD_SKIPMB` (R244). -/
def cdSkipmb (s : State) : State :=
  let keepDc := !hasY2 s.cur.mode
  State.setRes
    { s with
      coef := []
      nzAbove := Memory.put s.nzAbove nzZero s.mbx (nzClear keepDc s.nzAboveCur)
      nzLeft := nzClear keepDc s.nzLeft } 0 0

/-! ## The three commands -/

/-- `CD_BLOCK type block k` (R240). -/
def execCdBlock (type block k : Byte) (s : State) : Host.Outcome State Fault Refusal :=
  finish s do
    require (okTypeBlock type block && okInstance k) .badOperand
    require s.posOk .badMbpos
    require (s.rdValid k.toNat) .rdUninit
    cdBlock type.toNat block.toNat k.toNat s

/-- `CD_MB k` (R242). -/
def execCdMb (k : Byte) (s : State) : Host.Outcome State Fault Refusal :=
  finish s do
    require (okInstance k) .badOperand
    require s.posOk .badMbpos
    require (s.rdValid k.toNat) .rdUninit
    cdMb k.toNat s

/-- `CD_SKIPMB` (R244). -/
def execCdSkipmb (s : State) : Host.Outcome State Fault Refusal :=
  finish s do
    require s.posOk .badMbpos
    .ok (cdSkipmb s)

end Sys2Proof.Machine
end

