-- ==== Sys2Proof/Machine/InterMotion.lean ====
section
/-! DEFINITION. The inter motion compensator unit MC (spec 45_inter_motion_compensator.md R300 to
R315). `src` is the reference slot, `dst` the CUR slot. -/

namespace Sys2Proof.Machine

variable [Configured]

/-! ## Interpolation (R300 to R304) -/

/-- `CR0.PROFILE`. -/
def State.profile (s : State) : Nat := s.crField 0 1 3

/-- An interpolation filter: its taps by the fraction in eighths of a pixel, and the offset of the
first tap. -/
structure Kernel where
  six : Bool
  deriving DecidableEq, Repr

/-- The filter kind of a profile (R300): six-tap for 0, bilinear otherwise. -/
def State.kernel (s : State) : Kernel := ⟨s.profile == 0⟩

/-- The taps for a fraction (R302, R303). -/
def Kernel.taps (k : Kernel) (f : Nat) : List Int := (if k.six then sixTaps else bilinearTaps)[f]?.getD []

/-- The offset of the first tap. -/
def Kernel.first (k : Kernel) : Int := if k.six then -2 else 0

/-- `REF(s, p, x, y)`: the pixel at clamped coordinates (R301, 20_memory.md R78). -/
def State.refPix (s : State) (slot p : Nat) (x y : Int) : Res Int := do
  let b ← need (s.pix slot p (clamp x 0 ((s.planeW p : Int) - 1)).toNat
    (clamp y 0 ((s.planeH p : Int) - 1)).toNat) .pixelUnspecified
  .ok (pixInt b)

/-- The weighted sum of the values that a filter's taps stand on. A tap of weight 0 uses no value. -/
def tapSum : List Int → (Nat → Res Int) → Res Int
  | [], _ => .ok 0
  | w :: ws, f =>
    if w = 0 then tapSum ws (fun i => f (i + 1))
    else do
      let v ← f 0
      let rest ← tapSum ws (fun i => f (i + 1))
      .ok (w * v + rest)

/-- The rounding of a filter's sum; the clamp changes nothing for the bilinear filter, whose weights
are positive (R304). -/
def roundTap (v : Int) : Int := clamp255 (asr (v + 64) 7)

/-- The horizontal pass at one place (R304): column `x`, row `y` of the source, fraction `fx`. -/
def State.tapRow (s : State) (slot p : Nat) (fx : Nat) (x y : Int) : Res Int := do
  let v ← tapSum (s.kernel.taps fx) fun t => s.refPix slot p (x + s.kernel.first + t) y
  .ok (roundTap v)

/-- One pixel of `PREDICT` (R304): the vertical pass over the horizontal one, at source position
`(x, y)` plus the fractions. -/
def State.tapPixel (s : State) (slot p : Nat) (fx fy : Nat) (x y : Int) : Res Byte := do
  let v ← tapSum (s.kernel.taps fy) fun t => s.tapRow slot p fx x (y + s.kernel.first + t)
  .ok (toPix (roundTap v))

/-- All results of a list of works. -/
def allOk {α : Type} : List (Res α) → Res (List α)
  | [] => .ok []
  | r :: rest => do
    let a ← r
    let as ← allOk rest
    .ok (a :: as)

/-- A place in a reference plane: an integer position and a fraction in eighths (R305). -/
structure SubPos where
  xi : Int
  yi : Int
  fx : Nat
  fy : Nat
  deriving DecidableEq, Repr

/-- A block to predict: its first column and row, its width and height. -/
structure Block where
  x : Nat
  y : Nat
  w : Nat
  h : Nat
  deriving DecidableEq, Repr

/-- `PREDICT` of a whole block, in raster order (R304). -/
def State.predictBlock (s : State) (src p : Nat) (at_ : SubPos) (w h : Nat) : Res (List Byte) :=
  allOk ((List.range (w * h)).map fun n =>
    s.tapPixel src p at_.fx at_.fy (at_.xi + (n % w : Nat)) (at_.yi + (n / w : Nat)))

/-- Predict a block of plane `p` into slot `dst` from a place in slot `src`. -/
def mcBlock (src dst p : Nat) (at_ : SubPos) (b : Block) (s : State) : Res State := do
  let px ← s.predictBlock src p at_ b.w b.h
  .ok (s.writeBlock dst p b.x b.y b.w b.h fun r c => px[r * b.w + c]?.getD 0)

/-! ## Vectors to places (R305, R307) -/

/-- The place a luma vector points to, from quarter pixels (R305). -/
def lumaPos (v : Mv) (b : Block) : SubPos where
  xi := b.x + asr v.x.toInt 2
  yi := b.y + asr v.y.toInt 2
  fx := (v.x.toInt % 4).toNat * 2
  fy := (v.y.toInt % 4).toNat * 2

/-- The place a chroma vector points to, from eighth pixels (R305). -/
def chromaPos (ux uy : Int) (b : Block) : SubPos where
  xi := b.x + asr ux 3
  yi := b.y + asr uy 3
  fx := (ux % 8).toNat
  fy := (uy % 8).toNat

/-- `u & ~7` in profile 3, and in 4 to 7, which act as 3 (R300, R307). -/
def State.fullPixel (s : State) (u : Int) : Int := if 3 ≤ s.profile then 8 * asr u 3 else u

/-- `S / 4` rounded to nearest, halves away from zero (R307). -/
def quarterSum (sum : Int) : Int := if 0 ≤ sum then asr (sum + 2) 2 else asr (sum + 1) 2

/-- The sum of one component over the four luma sub-blocks of chroma block `j` (R307). -/
def subSum (r : MbRec) (j : Nat) (comp : Mv → Int) : Int :=
  let k := 8 * (j / 2) + 2 * (j % 2)
  comp (r.bmvAt k) + comp (r.bmvAt (k + 1)) + comp (r.bmvAt (k + 4)) + comp (r.bmvAt (k + 5))

/-! ## Blocks of a macroblock (R310, R314) -/

/-- One luma block (R308). -/
def mcLuma (src dst : Nat) (v : Mv) (b : Block) (s : State) : Res State :=
  mcBlock src dst 0 (lumaPos v b) b s

/-- One chroma block (R309). -/
def mcChroma (src dst p : Nat) (ux uy : Int) (b : Block) (s : State) : Res State :=
  mcBlock src dst p (chromaPos ux uy b) b s

/-- The luma blocks of a split macroblock (R310): the index of the vector, the offset and the size. -/
def splitBlocks (sh : SplitShape) : List (Nat × Block) :=
  match sh with
  | .halves16x8 => [(0, ⟨0, 0, 16, 8⟩), (8, ⟨0, 8, 16, 8⟩)]
  | .halves8x16 => [(0, ⟨0, 0, 8, 16⟩), (2, ⟨8, 0, 8, 16⟩)]
  | .quarters8x8 => [(0, ⟨0, 0, 8, 8⟩), (2, ⟨8, 0, 8, 8⟩), (8, ⟨0, 8, 8, 8⟩), (10, ⟨8, 8, 8, 8⟩)]
  | .sixteen4x4 => (List.range 16).map fun b => (b, ⟨4 * (b % 4), 4 * (b / 4), 4, 4⟩)

/-- A block at an offset from a position. -/
def Block.shift (b : Block) (x y : Nat) : Block := { b with x := x + b.x, y := y + b.y }

/-- One luma block of a split macroblock. -/
def mcSplitLuma (src dst : Nat) (s : State) (e : Nat × Block) : Res State :=
  mcLuma src dst (s.cur.bmvAt e.1) (e.2.shift (16 * s.mbx) (16 * s.mby)) s

/-- The two chroma blocks `j` of a split macroblock (R314). -/
def mcSplitChroma (src dst : Nat) (s : State) (j : Nat) : Res State := do
  let ux := s.fullPixel (quarterSum (subSum s.cur j (fun m => m.x.toInt)))
  let uy := s.fullPixel (quarterSum (subSum s.cur j (fun m => m.y.toInt)))
  let b : Block := ⟨8 * s.mbx + 4 * (j % 2), 8 * s.mby + 4 * (j / 2), 4, 4⟩
  let t ← mcChroma src dst 1 ux uy b s
  mcChroma src dst 2 ux uy b t

/-- A macroblock with one vector (R314). -/
def mcWhole (src dst : Nat) (s : State) : Res State := do
  let ux := s.fullPixel s.cur.mv.x.toInt
  let uy := s.fullPixel s.cur.mv.y.toInt
  let b : Block := ⟨8 * s.mbx, 8 * s.mby, 8, 8⟩
  let t ← mcLuma src dst s.cur.mv ⟨16 * s.mbx, 16 * s.mby, 16, 16⟩ s
  let u ← mcChroma src dst 1 ux uy b t
  mcChroma src dst 2 ux uy b u

/-- The work of `MC_MB` (R314). -/
def mcMb (src dst : Nat) (s : State) : Res State :=
  if s.cur.mode = .split then do
    let t ← (splitBlocks s.cur.split).foldlM (mcSplitLuma src dst) s
    (List.range 4).foldlM (mcSplitChroma src dst) t
  else mcWhole src dst s

/-! ## The three commands -/

/-- A size of `MC_LUMA`: 4, 8 or 16 (R308). -/
def okLumaSize (n : Nat) : Bool := n == 4 || n == 8 || n == 16

/-- A size of `MC_CHROMA`: 4 or 8 (R309). -/
def okChromaSize (n : Nat) : Bool := n == 4 || n == 8

/-- The destination block in `ARG1` and `ARG2` (R308). -/
def State.argBlock (s : State) : Block := ⟨posX (s.arg 1), posY (s.arg 1), sizeW (s.arg 2), sizeH (s.arg 2)⟩

/-- A block lies inside plane `p` (R308). -/
def State.insidePlane (s : State) (p : Nat) (b : Block) : Bool :=
  b.x + b.w ≤ s.planeW p && b.y + b.h ≤ s.planeH p

/-- `MC_LUMA ref` (R308). -/
def execMcLuma (ref : Byte) (s : State) : Host.Outcome State Fault Refusal :=
  finish s do
    require (okRefTag ref) .badOperand
    require (okLumaSize s.argBlock.w && okLumaSize s.argBlock.h && s.insidePlane 0 s.argBlock) .badOperand
    let src ← needSlot (s.refSlot ref.toNat)
    let dst ← needSlot s.curSlot
    mcLuma src dst (unpackMv (s.arg 0)) s.argBlock s

/-- `MC_CHROMA ref plane` (R309). -/
def execMcChroma (ref plane : Byte) (s : State) : Host.Outcome State Fault Refusal :=
  finish s do
    require (okRefTag ref && okChromaPlane plane) .badOperand
    require (okChromaSize s.argBlock.w && okChromaSize s.argBlock.h &&
      s.insidePlane plane.toNat s.argBlock) .badOperand
    let src ← needSlot (s.refSlot ref.toNat)
    let dst ← needSlot s.curSlot
    mcChroma src dst plane.toNat (unpackMv (s.arg 0)).x.toInt (unpackMv (s.arg 0)).y.toInt s.argBlock s

/-- `MC_MB` (R314). -/
def execMcMb (s : State) : Host.Outcome State Fault Refusal :=
  finish s do
    require s.posOk .badMbpos
    require (s.cur.ref != .current) .badOperand
    let src ← needSlot (s.refSlot s.cur.ref.num)
    let dst ← needSlot s.curSlot
    mcMb src dst s

end Sys2Proof.Machine
end

