-- ==== Sys2Proof/Machine/InverseTransform.lean ====
section
/-! DEFINITION. The inverse transform and dequantiser unit IT (spec 46_inverse_transform_dequant.md
R330 to R343). -/

namespace Sys2Proof.Machine

variable [Configured]

/-! ## Multipliers (R331 to R333) -/

/-- `clamp(x, 0, 127)`. -/
def clampQ (v : Int) : Int := clamp v 0 127

/-- `segq(s)` (R333). -/
def State.segq (s : State) (seg : Nat) : Int :=
  let base : Int := s.crField 10 0 7
  let v := sbyte (s.crRaw 4) seg
  clampQ (if !s.crBit 3 0 then base else if s.crBit 3 3 then v else base + v)

/-- `DCQ[cl(x)]`. -/
def dcqAt (v : Int) : Nat := dcq[(clampQ v).toNat]?.getD 0

/-- `ACQ[cl(x)]`. -/
def acqAt (v : Int) : Nat := acq[(clampQ v).toNat]?.getD 0

/-- The six multipliers of a segment (R332). -/
def State.dqOf (s : State) (seg : Nat) : DqRec :=
  let q := s.segq seg
  let delta0 := s.crRaw 11
  let delta1 := s.crRaw 12
  { y1dc := dcqAt (q + sbyte delta0 0)
    y1ac := acqAt q
    y2dc := 2 * dcqAt (q + sbyte delta0 1)
    y2ac := max 8 (acqAt (q + sbyte delta0 2) * 155 / 100)
    uvdc := min 132 (dcqAt (q + sbyte delta0 3))
    uvac := acqAt (q + sbyte delta1 0) }

/-- The work of `IT_DQSETUP` (R332). -/
def itDqsetup (seg : Nat) (s : State) : State := { s with dq := Memory.set s.dq seg (s.dqOf seg) }

/-! ## One-dimensional passes -/

/-- Four numbers: a row or a column. -/
structure Quad where
  a : Int
  b : Int
  c : Int
  d : Int
  deriving DecidableEq, Repr

/-- Entry 0 to 3 of four numbers. -/
def Quad.at (q : Quad) (i : Nat) : Int :=
  match i with
  | 0 => q.a
  | 1 => q.b
  | 2 => q.c
  | _ => q.d

/-- One pass of the inverse Walsh-Hadamard transform, before rounding (R335). -/
def whtPass (c : Quad) : Quad :=
  let a1 := c.a + c.d
  let b1 := c.b + c.c
  let c1 := c.b - c.c
  let d1 := c.a - c.d
  ⟨a1 + b1, c1 + d1, a1 - b1, d1 - c1⟩

/-- `m1` (R337): `sqrt(2) * cos(pi/8)` in 16-bit fixed point. -/
def mulCos (x : Int) : Int := x + asr (x * 20091) 16

/-- `m2` (R337): `sqrt(2) * sin(pi/8)`. -/
def mulSin (x : Int) : Int := asr (x * 35468) 16

/-- One pass of the inverse DCT, before rounding (R337). -/
def idctPass (c : Quad) : Quad :=
  let a1 := c.a + c.c
  let b1 := c.a - c.c
  let c1 := mulSin c.b - mulCos c.d
  let d1 := mulCos c.b + mulSin c.d
  ⟨a1 + d1, b1 + c1, b1 - c1, a1 - d1⟩

/-- Both passes of a transform, vertical then horizontal, in raster order: `pass` is its
one-dimensional form and `round` the rounding of its outputs (R335, R337). -/
def transform (pass : Quad → Quad) (round : Int) (c : Nat → Int) : List Int :=
  let col (i : Nat) : Quad := pass ⟨c i, c (4 + i), c (8 + i), c (12 + i)⟩
  let c0 := col 0
  let c1 := col 1
  let c2 := col 2
  let c3 := col 3
  (List.range 4).flatMap fun r =>
    let o := pass ⟨c0.at r, c1.at r, c2.at r, c3.at r⟩
    [asr (o.a + round) 3, asr (o.b + round) 3, asr (o.c + round) 3, asr (o.d + round) 3]

/-- `WHT` (R335). -/
def wht (c : Nat → Int) : List Int := transform whtPass 3 c

/-- `IDCT` (R337). -/
def idct (c : Nat → Int) : List Int := transform idctPass 4 c

/-! ## The luma-DC block and the residual -/

/-- The work of `IT_WHT` (R336). -/
def itWht (s : State) : State :=
  let o := wht (s.coefAt 24)
  { s with
    coef := Memory.putAll s.coef 0 ((List.range 16).map fun i => (coefKey i 0, o[i]?.getD 0)) }

/-- The block of `COEF` of block `b` of plane `p` (R341). -/
def coefBlock (p b : Nat) : Nat := if p = 0 then b else 16 + 4 * (p - 1) + b

/-- The first column of block `b` of plane `p` of the macroblock at `MBPOS` (R341). -/
def State.blockX (s : State) (p b : Nat) : Nat :=
  if p = 0 then 16 * s.mbx + 4 * (b % 4) else 8 * s.mbx + 4 * (b % 2)

/-- The first row of block `b` of plane `p` of the macroblock at `MBPOS` (R341). -/
def State.blockY (s : State) (p b : Nat) : Nat :=
  if p = 0 then 16 * s.mby + 4 * (b / 4) else 8 * s.mby + 4 * (b / 2)

/-- The sixteen pixels of a 4x4 block, in raster order. -/
def State.blockPix (s : State) (slot p x0 y0 : Nat) : Res (List Byte) :=
  collect .pixelUnspecified ((List.range 16).map fun i => s.pix slot p (x0 + i % 4) (y0 + i / 4))

/-- A residual added to sixteen pixels (R340). -/
def addResidual (px : List Byte) (o : List Int) (i : Nat) : Byte :=
  toPix (pixInt (px[i]?.getD 0) + o[i]?.getD 0)

/-- The work of `IT_IDCT_ADD` in slot `slot` (R339). -/
def itIdctAdd (slot p b : Nat) (s : State) : Res State := do
  let x0 := s.blockX p b
  let y0 := s.blockY p b
  let px ← s.blockPix slot p x0 y0
  let o := idct (s.coefAt (coefBlock p b))
  .ok (s.writeBlock slot p x0 y0 4 4 fun r c => addResidual px o (4 * r + c))

/-- The blocks that `IT_MB` adds, as plane and block (R342). -/
def residualBlocks (m : MbMode) : List (Nat × Nat) :=
  (if m = .bPred then [] else (List.range 16).map (fun b => (0, b))) ++
    (List.range 4).map (fun b => (1, b)) ++ (List.range 4).map (fun b => (2, b))

/-- The work of `IT_MB` in slot `slot` (R342). -/
def itMb (slot : Nat) (s : State) : Res State :=
  let t := if hasY2 s.cur.mode then itWht s else s
  (residualBlocks s.cur.mode).foldlM (fun u pb => itIdctAdd slot pb.1 pb.2 u) t

/-! ## The four commands -/

/-- `IT_DQSETUP segment` (R332). -/
def execItDqsetup (segment : Byte) (s : State) : Host.Outcome State Fault Refusal :=
  finish s do
    require (okSegment segment) .badOperand
    .ok (itDqsetup segment.toNat s)

/-- `IT_WHT` (R336). -/
def execItWht (s : State) : Host.Outcome State Fault Refusal :=
  finish s (.ok (itWht s))

/-- `IT_IDCT_ADD plane block` (R339). -/
def execItIdctAdd (plane block : Byte) (s : State) : Host.Outcome State Fault Refusal :=
  finish s do
    require (okPlaneBlock plane block) .badOperand
    require s.posOk .badMbpos
    let slot ← needSlot s.curSlot
    itIdctAdd slot plane.toNat block.toNat s

/-- `IT_MB` (R342). -/
def execItMb (s : State) : Host.Outcome State Fault Refusal :=
  finish s do
    require s.posOk .badMbpos
    let slot ← needSlot s.curSlot
    itMb slot s

end Sys2Proof.Machine
end

