-- ==== Sys2Proof/Machine/IntraPredictor.lean ====
section
/-! DEFINITION. The intra predictor unit IP (spec 44_intra_predictor.md R260 to R289). A predictor
computes the pixels of a block, by row and column, from the neighbours it reads; a body writes them
into the CUR slot `slot`. -/

namespace Sys2Proof.Machine

variable [Configured]

/-! ## Neighbour pixels (R261, R262, R275) -/

/-- Plane `p` of `TOPB`. -/
def Topb.plane (t : Topb) (p : Nat) : Memory Byte :=
  if p = 0 then t.y else if p = 1 then t.u else t.v

/-- The macroblock's size in plane `p`. -/
def mbSize (p : Nat) : Nat := if p = 0 then 16 else 8

/-- `NB(p, x, y)` for the macroblock row at `MBPOS` (R261); the order of the cases matters. -/
def State.nb (s : State) (slot p : Nat) (x y : Int) : Option Byte :=
  if y < 0 then some 127
  else if x < 0 then some 129
  else if y < mbSize p * s.mby then Memory.find (s.topb.plane p) (min x.toNat (s.planeW p - 1))
  else s.pix slot p x.toNat y.toNat

/-- Several neighbours, all of which must be specified. -/
def State.nbs (s : State) (slot p : Nat) (at_ : List (Int × Int)) : Res (List Byte) :=
  collect .pixelUnspecified (at_.map fun q => s.nb slot p q.1 q.2)

/-- The first column of the macroblock in plane `p`. -/
def State.mbX (s : State) (p : Nat) : Nat := mbSize p * s.mbx

/-- The first row of the macroblock in plane `p`. -/
def State.mbY (s : State) (p : Nat) : Nat := mbSize p * s.mby

/-- Where `A[c]` is. -/
def State.aboveAt (s : State) (p c : Nat) : Int × Int := ((s.mbX p : Int) + c, (s.mbY p : Int) - 1)

/-- Where `L[r]` is. -/
def State.leftAt (s : State) (p r : Nat) : Int × Int := ((s.mbX p : Int) - 1, (s.mbY p : Int) + r)

/-- Where `P` is. -/
def State.cornerAt (s : State) (p : Nat) : Int × Int := ((s.mbX p : Int) - 1, (s.mbY p : Int) - 1)

/-- `A[0..]`, the row above the macroblock. -/
def State.aboveRow (s : State) (slot p : Nat) : Res (List Byte) :=
  s.nbs slot p ((List.range (mbSize p)).map (s.aboveAt p))

/-- `L[0..]`, the column to the left of the macroblock. -/
def State.leftCol (s : State) (slot p : Nat) : Res (List Byte) :=
  s.nbs slot p ((List.range (mbSize p)).map (s.leftAt p))

/-- The pixel of a list, as a number. -/
def pxAt (l : List Byte) (i : Nat) : Nat := (l[i]?.getD 0).toNat

/-- The sum of the pixels of a list. -/
def pxSum (l : List Byte) : Nat := (l.map (·.toNat)).sum

/-! ## Whole-macroblock predictors (R264 to R272) -/

/-- The predicted pixels of a block, by row and column. -/
abbrev Pred := Nat → Nat → Byte

/-- The DC predictor: the average of the sides that exist, 128 when neither does (R264, R269). -/
def predDc (s : State) (slot p : Nat) : Res Pred := do
  let n := mbSize p
  if 0 < s.mby then
    if 0 < s.mbx then do
      let a ← s.aboveRow slot p
      let l ← s.leftCol slot p
      .ok fun _ _ => BitVec.ofNat 8 ((pxSum a + pxSum l + n) / (2 * n))
    else do
      let a ← s.aboveRow slot p
      .ok fun _ _ => BitVec.ofNat 8 ((pxSum a + n / 2) / n)
  else if 0 < s.mbx then do
    let l ← s.leftCol slot p
    .ok fun _ _ => BitVec.ofNat 8 ((pxSum l + n / 2) / n)
  else .ok fun _ _ => 128

/-- The vertical predictor (R265, R270). -/
def predV (s : State) (slot p : Nat) : Res Pred := do
  let a ← s.aboveRow slot p
  .ok fun _ c => a[c]?.getD 0

/-- The horizontal predictor (R266, R271). -/
def predH (s : State) (slot p : Nat) : Res Pred := do
  let l ← s.leftCol slot p
  .ok fun r _ => l[r]?.getD 0

/-- The TM predictor (R267, R272). -/
def predTm (s : State) (slot p : Nat) : Res Pred := do
  let a ← s.aboveRow slot p
  let l ← s.leftCol slot p
  let k ← need (s.nb slot p (s.cornerAt p).1 (s.cornerAt p).2) .pixelUnspecified
  .ok fun r c => toPix ((pxAt l r : Int) + pxAt a c - pixInt k)

/-- The predictor of a mode: `IP_Y16` and `IP_UV8` number them alike (00_scope.md R18). -/
def predOf (m : UvMode) (s : State) (slot p : Nat) : Res Pred :=
  match m with
  | .dcPred => predDc s slot p
  | .vPred => predV s slot p
  | .hPred => predH s slot p
  | .tmPred => predTm s slot p

/-- Predict the macroblock's pixels in plane `p`. -/
def ipFill (m : UvMode) (slot p : Nat) (s : State) : Res State := do
  let f ← predOf m s slot p
  .ok (s.writeBlock slot p (s.mbX p) (s.mbY p) (mbSize p) (mbSize p) f)

/-- The work of `IP_Y16` with a mode. -/
def ipY16 (m : UvMode) (slot : Nat) (s : State) : Res State := ipFill m slot 0 s

/-- The work of `IP_UV8` with a mode: both chroma planes (R268). -/
def ipUv8 (m : UvMode) (slot : Nat) (s : State) : Res State := do
  let t ← ipFill m slot 1 s
  ipFill m slot 2 t

/-! ## 4x4 predictors (R273 to R286) -/

/-- The first column of sub-block `b`. -/
def State.subX (s : State) (b : Nat) : Nat := 16 * s.mbx + 4 * (b % 4)

/-- The first row of sub-block `b`. -/
def State.subY (s : State) (b : Nat) : Nat := 16 * s.mby + 4 * (b / 4)

/-- Where `A[j]` of sub-block `b` is, `j = 0..7`: above-right of the right column is in the row above
the macroblock (R275). -/
def State.subAboveAt (s : State) (b j : Nat) : Int × Int :=
  if 4 ≤ j ∧ b % 4 = 3 then ((s.subX b : Int) + j, (16 * s.mby : Int) - 1)
  else ((s.subX b : Int) + j, (s.subY b : Int) - 1)

/-- Where `L[j]` of sub-block `b` is. -/
def State.subLeftAt (s : State) (b j : Nat) : Int × Int := ((s.subX b : Int) - 1, (s.subY b : Int) + j)

/-- Where `E[i]` of sub-block `b` is: `L[3]` up to `L[0]`, `P`, `A[0]` to `A[3]` (R273). -/
def State.subEdgeAt (s : State) (b i : Nat) : Int × Int :=
  if i < 4 then s.subLeftAt b (3 - i)
  else if i = 4 then ((s.subX b : Int) - 1, (s.subY b : Int) - 1)
  else s.subAboveAt b (i - 5)

/-- `A[0 .. n-1]` of sub-block `b`. -/
def State.subAbove (s : State) (slot b n : Nat) : Res (List Byte) :=
  s.nbs slot 0 ((List.range n).map (s.subAboveAt b))

/-- `L[0..3]` of sub-block `b`. -/
def State.subLeft (s : State) (slot b : Nat) : Res (List Byte) :=
  s.nbs slot 0 ((List.range 4).map (s.subLeftAt b))

/-- `E[lo .. lo+n-1]` of sub-block `b`. -/
def State.subEdge (s : State) (slot b lo n : Nat) : Res (List Byte) :=
  s.nbs slot 0 ((List.range n).map fun i => s.subEdgeAt b (lo + i))

/-- `avg2` (R273). -/
def avg2 (x y : Nat) : Nat := (x + y + 1) / 2

/-- `avg3` (R273). -/
def avg3 (x y z : Nat) : Nat := (x + 2 * y + z + 2) / 4

/-- A block given by its four rows. -/
def predRows (rows : List (List Nat)) : Pred :=
  fun i j => BitVec.ofNat 8 ((rows[i]?.getD [])[j]?.getD 0)

/-- B_DC (R277). -/
def y4Dc (s : State) (slot b : Nat) : Res Pred := do
  let a ← s.subAbove slot b 4
  let l ← s.subLeft slot b
  .ok fun _ _ => BitVec.ofNat 8 ((pxSum a + pxSum l + 4) / 8)

/-- B_TM (R278). -/
def y4Tm (s : State) (slot b : Nat) : Res Pred := do
  let a ← s.subAbove slot b 4
  let l ← s.subLeft slot b
  let k ← s.subEdge slot b 4 1
  .ok fun i j => toPix ((pxAt l i : Int) + pxAt a j - pxAt k 0)

/-- B_VE (R279): `e` is `P, A[0], .., A[4]`. -/
def y4Ve (s : State) (slot b : Nat) : Res Pred := do
  let k ← s.subEdge slot b 4 1
  let a ← s.subAbove slot b 5
  let e := pxAt (k ++ a)
  .ok fun _ j => BitVec.ofNat 8 (avg3 (e j) (e (j + 1)) (e (j + 2)))

/-- B_HE (R280): `e` is `P, L[0], .., L[3], L[3]`. -/
def y4He (s : State) (slot b : Nat) : Res Pred := do
  let k ← s.subEdge slot b 4 1
  let l ← s.subLeft slot b
  let e := pxAt (k ++ l ++ [l[3]?.getD 0])
  .ok fun i _ => BitVec.ofNat 8 (avg3 (e i) (e (i + 1)) (e (i + 2)))

/-- B_LD (R281): `A[7]` stands for the missing `A[8]`. -/
def y4Ld (s : State) (slot b : Nat) : Res Pred := do
  let a ← s.subAbove slot b 8
  let e := pxAt (a ++ [a[7]?.getD 0])
  .ok fun i j => BitVec.ofNat 8 (avg3 (e (i + j)) (e (i + j + 1)) (e (i + j + 2)))

/-- B_RD (R282). -/
def y4Rd (s : State) (slot b : Nat) : Res Pred := do
  let l ← s.subEdge slot b 0 9
  let e := pxAt l
  .ok fun i j => BitVec.ofNat 8 (avg3 (e (3 + j - i)) (e (4 + j - i)) (e (5 + j - i)))

/-- B_VR (R283): `e i` is `E[i]`. -/
def y4Vr (s : State) (slot b : Nat) : Res Pred := do
  let l ← s.subEdge slot b 1 8
  let e := fun i => pxAt l (i - 1)
  .ok (predRows
    [[avg2 (e 4) (e 5), avg2 (e 5) (e 6), avg2 (e 6) (e 7), avg2 (e 7) (e 8)],
     [avg3 (e 3) (e 4) (e 5), avg3 (e 4) (e 5) (e 6), avg3 (e 5) (e 6) (e 7), avg3 (e 6) (e 7) (e 8)],
     [avg3 (e 2) (e 3) (e 4), avg2 (e 4) (e 5), avg2 (e 5) (e 6), avg2 (e 6) (e 7)],
     [avg3 (e 1) (e 2) (e 3), avg3 (e 3) (e 4) (e 5), avg3 (e 4) (e 5) (e 6), avg3 (e 5) (e 6) (e 7)]])

/-- B_VL (R284): the last two of the third and fourth rows break the pattern. -/
def y4Vl (s : State) (slot b : Nat) : Res Pred := do
  let l ← s.subAbove slot b 8
  let a := pxAt l
  .ok (predRows
    [[avg2 (a 0) (a 1), avg2 (a 1) (a 2), avg2 (a 2) (a 3), avg2 (a 3) (a 4)],
     [avg3 (a 0) (a 1) (a 2), avg3 (a 1) (a 2) (a 3), avg3 (a 2) (a 3) (a 4), avg3 (a 3) (a 4) (a 5)],
     [avg2 (a 1) (a 2), avg2 (a 2) (a 3), avg2 (a 3) (a 4), avg3 (a 4) (a 5) (a 6)],
     [avg3 (a 1) (a 2) (a 3), avg3 (a 2) (a 3) (a 4), avg3 (a 3) (a 4) (a 5), avg3 (a 5) (a 6) (a 7)]])

/-- B_HD (R285). -/
def y4Hd (s : State) (slot b : Nat) : Res Pred := do
  let l ← s.subEdge slot b 0 8
  let e := pxAt l
  .ok (predRows
    [[avg2 (e 3) (e 4), avg3 (e 3) (e 4) (e 5), avg3 (e 4) (e 5) (e 6), avg3 (e 5) (e 6) (e 7)],
     [avg2 (e 2) (e 3), avg3 (e 2) (e 3) (e 4), avg2 (e 3) (e 4), avg3 (e 3) (e 4) (e 5)],
     [avg2 (e 1) (e 2), avg3 (e 1) (e 2) (e 3), avg2 (e 2) (e 3), avg3 (e 2) (e 3) (e 4)],
     [avg2 (e 0) (e 1), avg3 (e 0) (e 1) (e 2), avg2 (e 1) (e 2), avg3 (e 1) (e 2) (e 3)]])

/-- B_HU (R286). -/
def y4Hu (s : State) (slot b : Nat) : Res Pred := do
  let k ← s.subLeft slot b
  let l := pxAt k
  .ok (predRows
    [[avg2 (l 0) (l 1), avg3 (l 0) (l 1) (l 2), avg2 (l 1) (l 2), avg3 (l 1) (l 2) (l 3)],
     [avg2 (l 1) (l 2), avg3 (l 1) (l 2) (l 3), avg2 (l 2) (l 3), avg3 (l 2) (l 3) (l 3)],
     [avg2 (l 2) (l 3), avg3 (l 2) (l 3) (l 3), l 3, l 3],
     [l 3, l 3, l 3, l 3]])

/-- The predictor of a 4x4 sub-mode. -/
def y4Of (m : BMode) (s : State) (slot b : Nat) : Res Pred :=
  match m with
  | .dc => y4Dc s slot b
  | .tm => y4Tm s slot b
  | .ve => y4Ve s slot b
  | .he => y4He s slot b
  | .ld => y4Ld s slot b
  | .rd => y4Rd s slot b
  | .vr => y4Vr s slot b
  | .vl => y4Vl s slot b
  | .hd => y4Hd s slot b
  | .hu => y4Hu s slot b

/-- The work of `IP_Y4` with a sub-mode (R276). -/
def ipY4 (m : BMode) (slot b : Nat) (s : State) : Res State := do
  let f ← y4Of m s slot b
  .ok (s.writeBlock slot 0 (s.subX b) (s.subY b) 4 4 f)

/-! ## The whole macroblock (R288) -/

/-- One sub-block of a B_PRED macroblock: its prediction, then its residual. -/
def ipSubStep (slot : Nat) (s : State) (b : Nat) : Res State := do
  let t ← ipY4 (s.cur.bmodeAt b) slot b s
  itIdctAdd slot 0 b t

/-- The luma part of `IP_MB`; a macroblock that is not intra is refused (R288). -/
def ipLuma (slot : Nat) (s : State) : Res State :=
  match s.cur.mode with
  | .dcPred => ipY16 .dcPred slot s
  | .vPred => ipY16 .vPred slot s
  | .hPred => ipY16 .hPred slot s
  | .tmPred => ipY16 .tmPred slot s
  | .bPred => (List.range 16).foldlM (ipSubStep slot) s
  | .zero => .error (.raise .badOperand)
  | .nearest => .error (.raise .badOperand)
  | .near => .error (.raise .badOperand)
  | .new => .error (.raise .badOperand)
  | .split => .error (.raise .badOperand)

/-- The work of `IP_MB` in slot `slot` (R288). -/
def ipMb (slot : Nat) (s : State) : Res State := do
  let t ← ipLuma slot s
  ipUv8 t.cur.uvmode slot t

/-! ## The nineteen commands -/

/-- Row 0, or `TOPB` holds the row above (R260). -/
def State.topbOk (s : State) : Bool :=
  s.mby == 0 || (s.topb.valid && s.topb.row.toNat + 1 == s.mby)

/-- The checks of every IP command, in the order of R260; the CUR slot is the result. -/
def ipCheck (s : State) : Res Nat := do
  require s.posOk .badMbpos
  let slot ← needSlot s.curSlot
  require s.topbOk .sequence
  .ok slot

/-- `IP_Y16_DC` (R264). -/
def execIpY16Dc (s : State) : Host.Outcome State Fault Refusal :=
  finish s do
    let slot ← ipCheck s
    ipY16 .dcPred slot s

/-- `IP_Y16_V` (R265). -/
def execIpY16V (s : State) : Host.Outcome State Fault Refusal :=
  finish s do
    let slot ← ipCheck s
    ipY16 .vPred slot s

/-- `IP_Y16_H` (R266). -/
def execIpY16H (s : State) : Host.Outcome State Fault Refusal :=
  finish s do
    let slot ← ipCheck s
    ipY16 .hPred slot s

/-- `IP_Y16_TM` (R267). -/
def execIpY16Tm (s : State) : Host.Outcome State Fault Refusal :=
  finish s do
    let slot ← ipCheck s
    ipY16 .tmPred slot s

/-- `IP_UV8_DC` (R269). -/
def execIpUv8Dc (s : State) : Host.Outcome State Fault Refusal :=
  finish s do
    let slot ← ipCheck s
    ipUv8 .dcPred slot s

/-- `IP_UV8_V` (R270). -/
def execIpUv8V (s : State) : Host.Outcome State Fault Refusal :=
  finish s do
    let slot ← ipCheck s
    ipUv8 .vPred slot s

/-- `IP_UV8_H` (R271). -/
def execIpUv8H (s : State) : Host.Outcome State Fault Refusal :=
  finish s do
    let slot ← ipCheck s
    ipUv8 .hPred slot s

/-- `IP_UV8_TM` (R272). -/
def execIpUv8Tm (s : State) : Host.Outcome State Fault Refusal :=
  finish s do
    let slot ← ipCheck s
    ipUv8 .tmPred slot s

/-- An `IP_Y4` command (R276). -/
def ipY4Cmd (m : BMode) (block : Byte) (s : State) : Host.Outcome State Fault Refusal :=
  finish s do
    require (okSubBlock block) .badOperand
    let slot ← ipCheck s
    ipY4 m slot block.toNat s

/-- `IP_Y4_DC` (R277). -/
def execIpY4Dc (block : Byte) (s : State) : Host.Outcome State Fault Refusal := ipY4Cmd .dc block s

/-- `IP_Y4_TM` (R278). -/
def execIpY4Tm (block : Byte) (s : State) : Host.Outcome State Fault Refusal := ipY4Cmd .tm block s

/-- `IP_Y4_VE` (R279). -/
def execIpY4Ve (block : Byte) (s : State) : Host.Outcome State Fault Refusal := ipY4Cmd .ve block s

/-- `IP_Y4_HE` (R280). -/
def execIpY4He (block : Byte) (s : State) : Host.Outcome State Fault Refusal := ipY4Cmd .he block s

/-- `IP_Y4_LD` (R281). -/
def execIpY4Ld (block : Byte) (s : State) : Host.Outcome State Fault Refusal := ipY4Cmd .ld block s

/-- `IP_Y4_RD` (R282). -/
def execIpY4Rd (block : Byte) (s : State) : Host.Outcome State Fault Refusal := ipY4Cmd .rd block s

/-- `IP_Y4_VR` (R283). -/
def execIpY4Vr (block : Byte) (s : State) : Host.Outcome State Fault Refusal := ipY4Cmd .vr block s

/-- `IP_Y4_VL` (R284). -/
def execIpY4Vl (block : Byte) (s : State) : Host.Outcome State Fault Refusal := ipY4Cmd .vl block s

/-- `IP_Y4_HD` (R285). -/
def execIpY4Hd (block : Byte) (s : State) : Host.Outcome State Fault Refusal := ipY4Cmd .hd block s

/-- `IP_Y4_HU` (R286). -/
def execIpY4Hu (block : Byte) (s : State) : Host.Outcome State Fault Refusal := ipY4Cmd .hu block s

/-- `IP_MB` (R288). -/
def execIpMb (s : State) : Host.Outcome State Fault Refusal :=
  finish s do
    let slot ← ipCheck s
    ipMb slot s

end Sys2Proof.Machine
end

