-- ==== Sys2Proof/Machine/LoopFilter.lean ====
section
/-! DEFINITION. The adaptive loop filter unit LF (spec 47_loop_filter.md R360 to R384). It works in
place on the CUR slot. -/

namespace Sys2Proof.Machine

variable [Configured]

/-! ## Strength of one macroblock (R361 to R367) -/

/-- `modedelta` (R362). Whole-block intra modes get no mode adjustment, whatever the reference tag;
for B_PRED with an inter reference the table has no row, and the delta is a free value. -/
def State.modeDelta (s : State) : Int :=
  if s.cur.ref != .current && s.cur.mode == .bPred then
    Config.freeModeDelta s.cur.ref.num (s.crRaw 8)
  else
    match modeDeltaByte (s.cur.ref == .current) s.cur.mode.num with
    | none => 0
    | some i => sbyte (s.crRaw 8) i

/-- The level after the segment's value (R361). -/
def State.segLevel (s : State) : Int :=
  let level : Int := s.crField 6 1 6
  let v := sbyte (s.crRaw 5) s.seg
  if s.crBit 3 0 then (if s.crBit 3 3 then v else level + v) else level

/-- The level: one clamp, at the end (R361). -/
def State.lfLevel (s : State) : Nat :=
  let delta := if s.crBit 6 10 then sbyte (s.crRaw 7) s.cur.ref.num + s.modeDelta else 0
  (clamp (s.segLevel + delta) 0 63).toNat

/-- The interior limit of a level and a sharpness (R363). -/
def interiorLimit (level sharp : Nat) : Nat :=
  let i := if sharp = 0 then level
    else min (if 4 < sharp then level / 4 else level / 2) (9 - sharp)
  max i 1

/-- The high-edge-variance threshold (R364): how many steps of the frame class's table the level has
reached. -/
def hevThreshold (level : Nat) (key : Bool) : Nat :=
  (hevSteps key).countP (· ≤ level)

/-- The inner-edge decision (R367). -/
def innerEdges (r : MbRec) : Bool := !(r.skip && r.mode != .bPred && r.mode != .split)

/-- The loop-filter parameters of the macroblock at `MBPOS` (R368). -/
def State.lfpOf (s : State) : LfpRec where
  level := s.lfLevel
  ilimit := interiorLimit s.lfLevel (s.crField 6 7 3)
  hev := hevThreshold s.lfLevel (s.crBit 0 0)
  inner := innerEdges s.cur

/-- `level | ilimit << 8 | hev << 16 | inner << 24` (R368). -/
def packLfp (r : LfpRec) : Word :=
  BitVec.ofNat 8 (boolNat r.inner) ++ BitVec.ofNat 8 r.hev ++
    (BitVec.ofNat 8 r.ilimit ++ BitVec.ofNat 8 r.level)

/-- The work of `LF_PARAMS` (R368). -/
def lfParams (s : State) : State :=
  State.setRes { s with lfp := Memory.set s.lfp s.mbx s.lfpOf } 0 (packLfp s.lfpOf)

/-! ## One position of an edge (R369 to R373) -/

/-- The eight pixels across an edge, as integers (R369). -/
structure Line where
  p3 : Int
  p2 : Int
  p1 : Int
  p0 : Int
  q0 : Int
  q1 : Int
  q2 : Int
  q3 : Int
  deriving DecidableEq, Repr

/-- Pixel `i` of the line: 0 to 3 are `p3` to `p0`, 4 to 7 are `q0` to `q3`. -/
def Line.at (l : Line) (i : Nat) : Int :=
  match i with
  | 0 => l.p3
  | 1 => l.p2
  | 2 => l.p1
  | 3 => l.p0
  | 4 => l.q0
  | 5 => l.q1
  | 6 => l.q2
  | _ => l.q3

/-- `c8(v)` (R370). -/
def c8 (v : Int) : Int := clamp v (-128) 127

/-- `smask(E)` (R370). -/
def Line.smask (l : Line) (lim : Limits) : Bool :=
  2 * (l.p0 - l.q0).natAbs + (l.p1 - l.q1).natAbs / 2 ≤ lim.e

/-- `nmask(E, I)` (R370). -/
def Line.nmask (l : Line) (lim : Limits) : Bool :=
  l.smask lim && (l.p3 - l.p2).natAbs ≤ lim.i && (l.p2 - l.p1).natAbs ≤ lim.i &&
    (l.p1 - l.p0).natAbs ≤ lim.i && (l.q1 - l.q0).natAbs ≤ lim.i &&
    (l.q2 - l.q1).natAbs ≤ lim.i && (l.q3 - l.q2).natAbs ≤ lim.i

/-- `hev(T)` (R370). -/
def Line.hev (l : Line) (lim : Limits) : Bool :=
  lim.t < (l.p1 - l.p0).natAbs || lim.t < (l.q1 - l.q0).natAbs

/-- `a` of `common(outer)` (R370). -/
def Line.commonA (outer : Bool) (l : Line) : Int :=
  c8 ((if outer then c8 (l.p1 - l.q1) else 0) + 3 * (l.q0 - l.p0))

/-- `F1` of `common(outer)` (R370). -/
def Line.commonF1 (outer : Bool) (l : Line) : Int := asr (c8 (l.commonA outer + 4)) 3

/-- `common(outer)` (R370). -/
def Line.common (outer : Bool) (l : Line) : Line :=
  { l with
    q0 := clamp255 (l.q0 - l.commonF1 outer)
    p0 := clamp255 (l.p0 + asr (c8 (l.commonA outer + 3)) 3) }

/-- The simple filter (R371). -/
def Line.simpleFilter (lim : Limits) (l : Line) : Line := if l.smask lim then l.common true else l

/-- The normal inner filter (R373). -/
def Line.innerFilter (lim : Limits) (l : Line) : Line :=
  if l.nmask lim then
    if l.hev lim then l.common true
    else
      let a := asr (l.commonF1 false + 1) 1
      let m := l.common false
      { m with q1 := clamp255 (l.q1 - a), p1 := clamp255 (l.p1 + a) }
  else l

/-- The normal macroblock-edge filter (R373). -/
def Line.mbFilter (lim : Limits) (l : Line) : Line :=
  if l.nmask lim then
    if l.hev lim then l.common true
    else
      let w := c8 (c8 (l.p1 - l.q1) + 3 * (l.q0 - l.p0))
      let a0 := asr (edgeTap 0 * w + 63) 7
      let a1 := asr (edgeTap 1 * w + 63) 7
      let a2 := asr (edgeTap 2 * w + 63) 7
      { l with
        q0 := clamp255 (l.q0 - a0), p0 := clamp255 (l.p0 + a0)
        q1 := clamp255 (l.q1 - a1), p1 := clamp255 (l.p1 + a1)
        q2 := clamp255 (l.q2 - a2), p2 := clamp255 (l.p2 + a2) }
  else l

/-! ## One edge -/

/-- The three edge filters. -/
inductive EdgeKind where
  | simple
  | mbEdge
  | inner
  deriving DecidableEq, Repr

/-- The pixels of a line that a filter reads (R371, R373). -/
def EdgeKind.reads (k : EdgeKind) : List Nat :=
  match k with
  | .simple => [2, 3, 4, 5]
  | .mbEdge => [0, 1, 2, 3, 4, 5, 6, 7]
  | .inner => [0, 1, 2, 3, 4, 5, 6, 7]

/-- The pixels of a line that a filter writes. -/
def EdgeKind.writes (k : EdgeKind) : List Nat :=
  match k with
  | .simple => [3, 4]
  | .mbEdge => [1, 2, 3, 4, 5, 6]
  | .inner => [2, 3, 4, 5]

/-- The filter of a kind. -/
def EdgeKind.run (k : EdgeKind) (lim : Limits) (l : Line) : Line :=
  match k with
  | .simple => l.simpleFilter lim
  | .mbEdge => l.mbFilter lim
  | .inner => l.innerFilter lim

/-- The line whose pixels were read; the simple filter looks at the middle four only. -/
def EdgeKind.line (k : EdgeKind) (px : List Byte) : Line :=
  let v (i : Nat) : Int := pixInt (px[i]?.getD 0)
  match k with
  | .simple => ⟨0, 0, v 0, v 1, v 2, v 3, 0, 0⟩
  | .mbEdge => ⟨v 0, v 1, v 2, v 3, v 4, v 5, v 6, v 7⟩
  | .inner => ⟨v 0, v 1, v 2, v 3, v 4, v 5, v 6, v 7⟩

/-- An edge: its filter and limits, its plane and direction, the position of its first `q0`, and its
length (R369). -/
structure Edge where
  kind : EdgeKind
  lim : Limits
  p : Nat
  dir : Nat
  x : Nat
  y : Nat
  len : Nat
  deriving DecidableEq, Repr

/-- The column of pixel `i` of the line at position `k` of an edge (R369). -/
def Edge.px (e : Edge) (k i : Nat) : Nat := if e.dir = 0 then e.x + i - 4 else e.x + k

/-- The row of pixel `i` of the line at position `k` of an edge (R369). -/
def Edge.py (e : Edge) (k i : Nat) : Nat := if e.dir = 0 then e.y + k else e.y + i - 4

/-- The pixels that a filtered line writes, with their addresses. -/
def Edge.stores (e : Edge) (k : Nat) (l : Line) : List (Nat × Byte) :=
  e.kind.writes.map fun i => (pixKey (e.px k i) (e.py k i), toPix (l.at i))

/-- Filter position `k` of an edge in slot `slot`. -/
def edgeStep (slot : Nat) (e : Edge) (s : State) (k : Nat) : Res State := do
  let px ← collect .pixelUnspecified (e.kind.reads.map fun i => s.pix slot e.p (e.px k i) (e.py k i))
  let l := e.kind.run e.lim (e.kind.line px)
  .ok (s.setPlane slot e.p (Memory.setAll (s.plane slot e.p) (e.stores k l)))

/-- Filter an edge: positions 0 to `len - 1`. -/
def lfEdge (slot : Nat) (s : State) (e : Edge) : Res State := (List.range e.len).foldlM (edgeStep slot e) s

/-! ## A macroblock and a row (R376 to R382) -/

/-- `Emb` (R365). -/
def LfpRec.mbLimit (r : LfpRec) : Nat := 2 * (r.level + 2) + r.ilimit

/-- `Esub` (R365). -/
def LfpRec.subLimit (r : LfpRec) : Nat := 2 * r.level + r.ilimit

/-- The size of a macroblock in plane `p`. -/
def lfSize (p : Nat) : Nat := if p = 0 then 16 else 8

/-- The offsets of the interior edges in plane `p` (R378). -/
def innerOffsets (p : Nat) : List Nat := if p = 0 then [4, 8, 12] else [4]

/-- The planes that a variant filters (R380). -/
def lfPlanes (simple : Bool) : List Nat := if simple then [0] else [0, 1, 2]

/-- A macroblock edge of plane `p`, at the macroblock's own corner (R378). -/
def outerEdge (simple : Bool) (r : LfpRec) (dir mx my p : Nat) : Edge where
  kind := if simple then .simple else .mbEdge
  lim := ⟨r.mbLimit, r.ilimit, r.hev⟩
  p := p
  dir := dir
  x := lfSize p * mx
  y := lfSize p * my
  len := lfSize p

/-- An interior edge of plane `p` at an offset (R378). -/
def interiorEdge (simple : Bool) (r : LfpRec) (dir mx my p off : Nat) : Edge where
  kind := if simple then .simple else .inner
  lim := ⟨r.subLimit, r.ilimit, r.hev⟩
  p := p
  dir := dir
  x := lfSize p * mx + (if dir = 0 then off else 0)
  y := lfSize p * my + (if dir = 0 then 0 else off)
  len := lfSize p

/-- The macroblock edges of one direction in all planes. -/
def outerEdges (simple : Bool) (r : LfpRec) (dir mx my : Nat) : List Edge :=
  (lfPlanes simple).map (outerEdge simple r dir mx my)

/-- The interior edges of one direction in all planes, where the macroblock has them. -/
def interiorEdges (simple : Bool) (r : LfpRec) (dir mx my : Nat) : List Edge :=
  if r.inner then
    (lfPlanes simple).flatMap fun p => (innerOffsets p).map (interiorEdge simple r dir mx my p)
  else []

/-- The edges of a macroblock in the order in which they are filtered (R376, R377, R380). -/
def mbEdges (simple : Bool) (r : LfpRec) (mx my : Nat) : List Edge :=
  (if 0 < mx then outerEdges simple r 0 mx my else []) ++ interiorEdges simple r 0 mx my ++
    ((if 0 < my then outerEdges simple r 1 mx my else []) ++ interiorEdges simple r 1 mx my)

/-- Filter macroblock `(mx, my)`; a level of 0 filters nothing (R366, R380). -/
def lfMbAt (slot my : Nat) (s : State) (mx : Nat) : Res State := do
  let r ← need (Memory.find s.lfp mx) .lfpUnspecified
  if r.level = 0 then .ok s else (mbEdges (s.crBit 6 0) r mx my).foldlM (lfEdge slot) s

/-- The work of `LF_ROW` (R382). -/
def lfRow (slot : Nat) (s : State) : Res State := (List.range s.mbW).foldlM (lfMbAt slot s.mby) s

/-! ## The six commands -/

/-- `LF_PARAMS` (R368; R360: "Every LF operation needs `CR18.CUR != 7`"). -/
def execLfParams (s : State) : Host.Outcome State Fault Refusal :=
  finish s do
    require s.posOk .badMbpos
    let _ ← needSlot s.curSlot
    .ok (lfParams s)

/-- `LF_MB` (R380). -/
def execLfMb (s : State) : Host.Outcome State Fault Refusal :=
  finish s do
    require s.posOk .badMbpos
    let slot ← needSlot s.curSlot
    lfMbAt slot s.mby s s.mbx

/-- `MBY` is inside the frame, whatever `MBX` is (R382, R444). -/
def State.rowOk (s : State) : Bool := s.mby < s.mbH

/-- `LF_ROW` (R382). -/
def execLfRow (s : State) : Host.Outcome State Fault Refusal :=
  finish s do
    require s.rowOk .badMbpos
    let slot ← needSlot s.curSlot
    lfRow slot s

/-- The edge that an edge command names (R372, R374). -/
def State.argEdge (s : State) (kind : EdgeKind) (plane dir : Byte) : Edge where
  kind := kind
  lim := unpackLimits (s.arg 2)
  p := plane.toNat
  dir := dir.toNat
  x := posX (s.arg 0)
  y := posY (s.arg 0)
  len := (s.arg 1).toNat

/-- How many pixels on each side of an edge a filter reads. -/
def EdgeKind.reach (k : EdgeKind) : Nat :=
  match k with
  | .simple => 2
  | .mbEdge => 4
  | .inner => 4

/-- The length is 1 to 16 and every pixel that is read lies inside the plane (R372, R374). -/
def State.okEdge (s : State) (e : Edge) : Bool :=
  1 ≤ e.len && e.len ≤ 16 &&
    (if e.dir = 0 then
      e.kind.reach ≤ e.x && e.x + (e.kind.reach - 1) < s.planeW e.p && e.y + e.len ≤ s.planeH e.p
    else
      e.kind.reach ≤ e.y && e.y + (e.kind.reach - 1) < s.planeH e.p && e.x + e.len ≤ s.planeW e.p)

/-- An edge command: `fieldsOk` is the check of its fields. -/
def edgeCmd (fieldsOk : Bool) (e : Edge) (s : State) : Host.Outcome State Fault Refusal :=
  finish s do
    require fieldsOk .badOperand
    require (s.okEdge e) .badOperand
    let slot ← needSlot s.curSlot
    lfEdge slot s e

/-- `LFS_EDGE plane dir` (R372). -/
def execLfsEdge (plane dir : Byte) (s : State) : Host.Outcome State Fault Refusal :=
  edgeCmd (okSimpleEdge plane dir) (s.argEdge .simple plane dir) s

/-- `LFN_MBEDGE plane dir` (R375). -/
def execLfnMbedge (plane dir : Byte) (s : State) : Host.Outcome State Fault Refusal :=
  edgeCmd (okNormalEdge plane dir) (s.argEdge .mbEdge plane dir) s

/-- `LFN_INNER plane dir` (R374). -/
def execLfnInner (plane dir : Byte) (s : State) : Host.Outcome State Fault Refusal :=
  edgeCmd (okNormalEdge plane dir) (s.argEdge .inner plane dir) s

end Sys2Proof.Machine
end

