-- ==== Sys2Proof/Machine/FrameControl.lean ====
section
/-! DEFINITION. Frame control FC: the header parser, the frame lifecycle and `decode_frame`, and the
host's primitives (spec 48_frame_control_host.md R400 to R449, 30_encoding.md R110). -/

namespace Sys2Proof.Machine

variable [Configured]

/-! ## Primitives (R438 to R448, R110) -/

/-- `FC_RESET` (R438): the values of 10_state.md R59. What belongs to the host stays: `CBUF`, which
CORE never writes (20_memory.md R71), the host's list and the allocator's answers. -/
def fcReset (s : State) : State :=
  { State.reset with
    cbuf := s.cbuf, hostq := s.hostq, allocAnswers := s.allocAnswers, allocCount := s.allocCount,
    freeCount := s.freeCount, changeCount := s.changeCount }

/-- `FC_RESET` (R438). -/
def execFcReset (s : State) : Host.Outcome State Fault Refusal := finish s (.ok (fcReset s))

/-- `FC_SETMB` (R441): a position outside the frame is stored. -/
def execFcSetmb (s : State) : Host.Outcome State Fault Refusal :=
  finish s (.ok (s.setCr 19 (s.arg 0 &&& 0x07FF07FF)))

/-- The position after `MBPOS` in raster order (R442). -/
def State.nextPos (s : State) : Nat × Nat :=
  if s.mbx + 1 < s.mbW then (s.mbx + 1, s.mby) else (0, s.mby + 1)

/-- The work of `FC_NEXTMB` (R442). -/
def fcNextmb (s : State) : State :=
  let t := s.setMbpos s.nextPos.1 s.nextPos.2
  t.setRes 0 (t.crRaw 19)

/-- `FC_NEXTMB` (R442). -/
def execFcNextmb (s : State) : Host.Outcome State Fault Refusal :=
  finish s do
    require s.posOk .badMbpos
    .ok (fcNextmb s)

/-- The work of `FC_ROWSTART` (R443). -/
def fcRowstart (s : State) : State := { s with nzLeft := nzZero }

/-- `FC_ROWSTART` (R443). -/
def execFcRowstart (s : State) : Host.Outcome State Fault Refusal := finish s (.ok (fcRowstart s))

/-- The bottom pixels of macroblock row `MBY` in plane `p` of slot `slot`, by column (R444). -/
def State.bottomRow (s : State) (slot p : Nat) : Res (Memory Byte) := do
  let px ← collect .pixelUnspecified
    ((List.range (s.planeW p)).map fun x => s.pix slot p x (mbSize p * s.mby + (mbSize p - 1)))
  .ok (px.zipIdx.map fun e => (e.2, e.1))

/-- The work of `FC_ROWEND` (R444). -/
def fcRowend (slot : Nat) (s : State) : Res State := do
  let y ← s.bottomRow slot 0
  let u ← s.bottomRow slot 1
  let v ← s.bottomRow slot 2
  .ok { s with topb := ⟨true, BitVec.ofNat 11 s.mby, y, u, v⟩ }

/-- `FC_ROWEND` (R444). -/
def execFcRowend (s : State) : Host.Outcome State Fault Refusal :=
  finish s do
    require s.rowOk .badMbpos
    let slot ← needSlot s.curSlot
    fcRowend slot s

/-- Whether a new value of `CR1` changes `(MB_W, MB_H)` (R406). -/
def State.sizeChanges (s : State) (frmSize : Word) : Bool :=
  sizeMbW frmSize != s.mbW || sizeMbH frmSize != s.mbH

/-- The allocator's answer to the next request, and the state after it was asked (R406,
20_memory.md R88): an answer the host has given, else a free one. -/
def State.askAllocator (s : State) : Bool × State :=
  match s.allocAnswers with
  | [] => (Config.allocGrants s.allocCount, { s with allocCount := s.allocCount + 1 })
  | a :: rest => (a, { s with allocAnswers := rest, allocCount := s.allocCount + 1 })

/-- The state after the allocator was asked, where the new size asks it. -/
def State.afterAsk (s : State) (frmSize : Word) : State :=
  if s.sizeChanges frmSize then s.askAllocator.2 else s

/-- The request that a new size makes is granted; a size that changes nothing makes none. -/
def State.sizeGranted (s : State) (frmSize : Word) : Bool :=
  if s.sizeChanges frmSize then s.askAllocator.1 else true

/-- What a granted size change leaves (R406): unspecified pixels, no roles, zero records. `LFP` and `TOPB` get
their new width, and `TOPB.valid` is 0 (R406, D38). What the records of `LFP`, the pixels of `TOPB` and `TOPB.row`
then hold no rule says; the model's choice (notes/assumptions/24.md) is that every record and every pixel is
unspecified, so that a use of one before it is written is a model fault, and that `TOPB.row` is kept. -/
def State.resize (s : State) : State :=
  { s.setCr 18 0x7777 with
    fb := Vector.replicate 4 Frame.empty
    mbinfo := []
    segmap := []
    nzAbove := []
    lfp := []
    topb := { s.topb with valid := false, y := [], u := [], v := [] } }

/-- A new value of `CR1`, with the size-change step where it is one (R406, R440). -/
def State.setSize (s : State) (frmSize : Word) : State :=
  (if s.sizeChanges frmSize then s.resize else s).setCr 1 frmSize

/-- `FC_WRCTL reg` (R440). A write of `CR1` may ask the allocator; the asking stays also where it
refuses. -/
def execFcWrctl (reg : Byte) (s : State) : Host.Outcome State Fault Refusal :=
  if reg.toNat = 1 then
    finish (s.afterAsk (s.arg 0)) do
      require (s.sizeGranted (s.arg 0)) .alloc
      .ok ((s.afterAsk (s.arg 0)).setSize (s.arg 0))
  else
    finish s do
      require (okControl reg) .badOperand
      .ok (s.writeCr reg.toNat (s.arg 0))

/-- `FC_RDCTL reg` (R439). -/
def execFcRdctl (reg : Byte) (s : State) : Host.Outcome State Fault Refusal :=
  finish s do
    require (okControl reg) .badOperand
    .ok (s.setRes 0 (s.readCr reg.toNat))

/-- `ARG0` is an index of a probability context (R445). -/
def State.okProbIndex (s : State) : Bool := (s.arg 0).toNat < probSize

/-- `FC_WRPROB value` (R445). -/
def execFcWrprob (value : Byte) (s : State) : Host.Outcome State Fault Refusal :=
  finish s do
    require s.okProbIndex .badOperand
    .ok (s.setProb (s.arg 0).toNat value)

/-- A copy of the probability context: 0 is `PROB`, 1 is `PROB_SAVED` (R446). -/
def State.probCopy (s : State) (copy : Nat) : Memory Byte := if copy = 0 then s.prob else s.probSaved

/-- `FC_RDPROB copy` (R446): reading an unspecified entry is a model fault (70 R481). -/
def execFcRdprob (copy : Byte) (s : State) : Host.Outcome State Fault Refusal :=
  finish s do
    require (okCopy copy && s.okProbIndex) .badOperand
    let v ← need (Memory.find (s.probCopy copy.toNat) (s.arg 0).toNat) .probUnspecified
    .ok (s.setRes 0 (v.setWidth 32))

/-- The work of `FC_PROBSAVE` (R447). -/
def fcProbsave (s : State) : State := { s with probSaved := s.prob }

/-- `FC_PROBSAVE` (R447). -/
def execFcProbsave (s : State) : Host.Outcome State Fault Refusal := finish s (.ok (fcProbsave s))

/-- The work of `FC_PROBRESTORE` (R448). -/
def fcProbrestore (s : State) : State := { s with prob := s.probSaved }

/-- `FC_PROBRESTORE` (R448). -/
def execFcProbrestore (s : State) : Host.Outcome State Fault Refusal := finish s (.ok (fcProbrestore s))

/-- `FC_WRARG index` (30_encoding.md R110). -/
def execFcWrarg (index : Byte) (s : State) : Host.Outcome State Fault Refusal :=
  finish s do
    require (okArgIndex index) .badOperand
    .ok (s.setArg index.toNat (s.result 0))

/-! ## The uncompressed part of a frame (R402 to R408) -/

/-- Byte `i` of the frame at `base`. -/
def State.frameByte (s : State) (base : Word) (i : Nat) : Byte :=
  cbufByte s.cbuf (base + BitVec.ofNat 32 i)

/-- The little-endian number of `n` bytes from byte `i` of the frame (20_memory.md R75). -/
def State.frameLe (s : State) (base : Word) (i : Nat) : Nat → Nat
  | 0 => 0
  | n + 1 => (s.frameByte base i).toNat + 256 * s.frameLe base (i + 1) n

/-- The frame tag (R402). -/
def State.frameTag (s : State) (base : Word) : Nat := s.frameLe base 0 3

/-- A keyframe: bit 0 of the tag is 0 (R402). -/
def tagKey (t : Nat) : Bool := t % 2 == 0

/-- `PROFILE` of the tag. -/
def tagProfile (t : Nat) : Nat := t / 2 % 8

/-- `SHOW` of the tag. -/
def tagShow (t : Nat) : Bool := t / 16 % 2 == 1

/-- `FIRST_SIZE` of the tag. -/
def tagFirst (t : Nat) : Nat := t / 32

/-- `hdr`: where the first partition starts (R408). -/
def hdrLen (key : Bool) : Nat := if key then 10 else 3

/-- The start code is right (R403). -/
def State.startCodeOk (s : State) (base : Word) : Bool :=
  s.frameByte base 3 == 0x9D && s.frameByte base 4 == 0x01 && s.frameByte base 5 == 0x2A

/-- The new value of `CR1` from the size words (R404). -/
def State.frameSize (s : State) (base : Word) : Word :=
  BitVec.ofNat 16 (s.frameLe base 8 2) ++ BitVec.ofNat 16 (s.frameLe base 6 2)

/-- Neither dimension of a value of `CR1` is 0 (R404). -/
def sizeNonzero (frmSize : Word) : Bool := field frmSize 0 14 != 0 && field frmSize 16 14 != 0

/-- Checks (1) to (7) of R427, in order; `base` and `length` are those of the frame. -/
def State.headerChecks (s : State) (base length : Word) : Res Unit := do
  let t := s.frameTag base
  let key := tagKey t
  require (3 ≤ length.toNat) .structTruncated
  require (tagProfile t ≤ 3) .badProfile
  require (key || s.keyframeSeen) .stateNoKeyframe
  require (!key || 10 ≤ length.toNat) .structTruncated
  require (!key || s.startCodeOk base) .structStartcode
  require (!key || sizeNonzero (s.frameSize base)) .badSize
  require (hdrLen key + tagFirst t ≤ length.toNat) .structTruncated

/-! ## Fields of the compressed header (R409 to R424) -/

/-- `F` (R411). -/
def hFlag (s : State) : Bool × State := s.getBool 0 128

/-- `L(n)` (R411). -/
def hLit (n : Nat) (s : State) : Nat × State := s.getLit 0 n

/-- `F ? S(n) : 0` (R411). -/
def hOptSigned (n : Nat) (s : State) : Int × State :=
  let (f, t) := hFlag s
  if f then t.getSlit 0 n else (0, t)

/-- A field of a control register read as `L(n)`. -/
def hLitTo (reg lo n : Nat) (s : State) : State :=
  let (v, t) := hLit n s
  t.setCrField reg lo n v

/-- A signed byte of a control register. -/
def State.setCrByte (s : State) (reg i : Nat) (v : Int) : State :=
  s.setCrField reg (8 * i) 8 (BitVec.ofInt 8 v).toNat

/-- A signed byte of a control register read as `F ? S(n) : 0`. -/
def hOptByte (reg i n : Nat) (s : State) : State :=
  let (v, t) := hOptSigned n s
  t.setCrByte reg i v

/-- A signed byte of a control register read as `S(n)` where a flag says so, and kept otherwise
(R414). -/
def hKeepByte (reg i n : Nat) (s : State) : State :=
  let (f, t) := hFlag s
  if f then
    let (v, u) := t.getSlit 0 n
    u.setCrByte reg i v
  else t

/-- An entry of `PROB` read as `L(8)`. -/
def hProb (i : Nat) (s : State) : State :=
  let (v, t) := hLit 8 s
  t.setProb i (BitVec.ofNat 8 v)

/-- The four-deep default of a table, as entries of `PROB` (R47). -/
def tokenEntries (T : Nat → Nat → Nat → Nat → Byte) : List (Nat × Byte) :=
  (List.range 1056).map fun i => (i, T (i / 264) (i / 33 % 8) (i / 11 % 3) (i % 11))

/-- The default component probabilities as entries of `PROB` (42_motion_predictor.md R204). -/
def mvcEntries : List (Nat × Byte) :=
  (List.range 38).map fun i => (1056 + i, ((mvDefault[i / 19]?.getD [])[i % 19]?).getD 0)

/-- The default luma and chroma mode probabilities as entries of `PROB` (R409). -/
def modeEntries : List (Nat × Byte) :=
  (ymodeDefault ++ uvmodeDefault).zipIdx.map fun e => (ymodeIndex + e.2, e.1)

/-- The keyframe reset (R409). -/
def hKeyReset (T : OpenTables) (s : State) : State :=
  let t := ((((s.setCr 3 0).setCr 4 0).setCr 5 0).setCr 7 0).setCr 8 0
  let u := (t.setCrField 13 0 5 0x15).setCrField 13 5 2 0
  { u with
    segmap := []
    prob := Memory.setAll u.prob (tokenEntries T.coefDefault ++ mvcEntries ++ modeEntries) }

/-- Colour space and clamp type (R410). -/
def hColor (s : State) : State := hLitTo 0 6 1 (hLitTo 0 5 1 s)

/-- The per-segment values (R412). -/
def hSegData (s : State) : State :=
  let (abs, t) := hFlag s
  let t := t.setCrField 3 3 1 (boolNat abs)
  let t := (List.range 4).foldl (fun u i => hOptByte 4 i 7 u) t
  (List.range 4).foldl (fun u i => hOptByte 5 i 6 u) t

/-- One probability of the segment tree: a literal or 255 (R412). -/
def hSegProb (s : State) (i : Nat) : State :=
  let (f, t) := hFlag s
  if f then hProb (segidIndex + i) t else t.setProb (segidIndex + i) 255

/-- Segmentation (R412). -/
def hSegmentation (s : State) : State :=
  let (en, t) := hFlag s
  let t := t.setCrField 3 0 1 (boolNat en)
  if en then
    let (um, t) := hFlag t
    let (ud, t) := hFlag t
    let t := (t.setCrField 3 1 1 (boolNat um)).setCrField 3 2 1 (boolNat ud)
    let t := if ud then hSegData t else t
    if um then (List.range 3).foldl hSegProb t else t
  else t.setCrField 3 1 2 0

/-- Filter type, level and sharpness (R413). -/
def hFilter (s : State) : State := hLitTo 6 7 3 (hLitTo 6 1 6 (hLitTo 6 0 1 s))

/-- The loop-filter deltas (R414). -/
def hDeltas (s : State) : State :=
  let (en, t) := hFlag s
  let t := t.setCrField 6 10 1 (boolNat en)
  if en then
    let (upd, t) := hFlag t
    if upd then
      let t := (List.range 4).foldl (fun u i => hKeepByte 7 i 6 u) t
      (List.range 4).foldl (fun u i => hKeepByte 8 i 6 u) t
    else t
  else t

/-- The partition count (R415). -/
def hPartCount (s : State) : State := hLitTo 9 0 2 s

/-- The quantiser index and its five deltas (R416). -/
def hQuant (s : State) : State :=
  let t := hLitTo 10 0 7 s
  let t := (List.range 4).foldl (fun u i => hOptByte 11 i 4 u) t
  hOptByte 12 0 4 t

/-- `MAP` of R417. -/
def refMap (v : Nat) : Nat := Config.tables.refMap[v]?.getD 0

/-- One update field: 1 where the flag was set, else a literal through `MAP` (R417). -/
def hRefField (lo : Nat) (flag : Bool) (s : State) : State :=
  if flag then s.setCrField 13 lo 2 1
  else
    let (v, t) := hLit 2 s
    t.setCrField 13 lo 2 (refMap v)

/-- Reference updates and sign biases, interframes only (R417). -/
def hRefs (s : State) : State :=
  let (g, t) := hFlag s
  let (a, t) := hFlag t
  hLitTo 13 6 1 (hLitTo 13 5 1 (hRefField 2 a (hRefField 0 g t)))

/-- The probability commit flag, and the snapshot where it is 0 (R418). -/
def hCommit (s : State) : State :=
  let (f, t) := hFlag s
  let t := t.setCrField 13 7 1 (boolNat f)
  if f then t else fcProbsave t

/-- The update-last flag, interframes only (R419). -/
def hUpdateLast (s : State) : State := hLitTo 13 4 1 s

/-- One token probability update (R420). -/
def hTokenUpdate (T : OpenTables) (s : State) (i : Nat) : State :=
  let (f, t) := s.getBool 0 (T.coefUpdate (i / 264) (i / 33 % 8) (i / 11 % 3) (i % 11))
  if f then hProb i t else t

/-- The token probability updates (R420). -/
def hTokens (T : OpenTables) (s : State) : State := (List.range 1056).foldl (hTokenUpdate T) s

/-- Skip coding (R421). -/
def hSkip (s : State) : State :=
  let (f, t) := hFlag s
  let t := t.setCrField 14 0 1 (boolNat f)
  if f then hProb mbskipIndex t else t

/-- The intra and reference-selection probabilities, interframes only (R422). -/
def hRefProbs (s : State) : State := hProb goldenIndex (hProb lastIndex (hProb intraIndex s))

/-- A run of probabilities where a flag says so (R423). -/
def hProbRun (base n : Nat) (s : State) : State :=
  let (f, t) := hFlag s
  if f then (List.range n).foldl (fun u i => hProb (base + i) u) t else t

/-- The mode probability updates, interframes only (R423). -/
def hModeProbs (s : State) : State := hProbRun uvmodeIndex 3 (hProbRun ymodeIndex 4 s)

/-- One vector-probability update (R424). -/
def hMvUpdate (T : OpenTables) (s : State) (i : Nat) : State :=
  let (f, t) := s.getBool 0 (T.mvUpdate (i / 19) (i % 19))
  if f then
    let (x, u) := hLit 7 t
    u.setProb (1056 + i) (BitVec.ofNat 8 (if x = 0 then 1 else 2 * x))
  else t

/-- The vector-probability updates, interframes only (R424). -/
def hMvs (T : OpenTables) (s : State) : State := (List.range 38).foldl (hMvUpdate T) s

/-- Every field of the compressed header, in the order of R428. -/
def hFields (T : OpenTables) (key : Bool) (s : State) : State :=
  let t := if key then hColor (hKeyReset T s) else s
  let t := hQuant (hPartCount (hDeltas (hFilter (hSegmentation t))))
  let t := if key then t else hRefs t
  let t := hCommit t
  let t := if key then t else hUpdateLast t
  let t := hSkip (hTokens T t)
  if key then t else hMvs T (hModeProbs (hRefProbs t))

/-! ## Partitions (R426) -/

/-- `NPART` (10_state.md R39). -/
def State.npart (s : State) : Nat := 2 ^ s.crField 9 0 2

/-- `PART_BASE[i]`, `PART_LEN[i]`. -/
def State.setPart (s : State) (i : Nat) (base length : Word) : State :=
  (s.setCr (20 + i) base).setCr (32 + i) length

/-- `RD_INIT` of instance `i` on its partition. -/
def State.startPart (s : State) (i : Nat) (base length : Word) : State :=
  (s.setPart i base length).setRd i (rdStart s.cbuf base length)

/-- The partitions but the last, from partition `i` on with `o` the offset reached: the check of
each size, its registers and its decoder (R426). The offset after them is returned. -/
def hParts (base length : Word) (p : Nat) : Nat → Nat → Nat → State → Res (Nat × State)
  | 0, _, o, s => .ok (o, s)
  | n + 1, i, o, s => do
    let size := s.frameLe base (p + 3 * i) 3
    require (o + size ≤ length.toNat) .structPartition
    hParts base length p n (i + 1) (o + size)
      (s.startPart (1 + i) (base + BitVec.ofNat 32 o) (BitVec.ofNat 32 size))

/-- The partition layout (R426): `p` is where the table of sizes stands. -/
def hPartitions (base length : Word) (p : Nat) (s : State) : Res State := do
  let n := s.npart
  require (p + 3 * (n - 1) ≤ length.toNat) .structPartition
  let (o, t) ← hParts base length p (n - 1) 0 (p + 3 * (n - 1)) s
  let u := t.startPart n (base + BitVec.ofNat 32 o) (BitVec.ofNat 32 (length.toNat - o))
  .ok ((List.range (8 - n)).foldl (fun w j => w.setPart (n + 1 + j) 0 0) u)

/-! ## The whole header (R427, R429) -/

/-- `CR0` from the tag (R402). -/
def State.setFrmCtl (s : State) (t : Nat) : State :=
  ((s.setCrField 0 0 1 (boolNat (tagKey t))).setCrField 0 1 3 (tagProfile t)).setCrField 0 4 1
    (boolNat (tagShow t))

/-- The first partition: its registers and its decoder (R408). -/
def State.startFirst (s : State) (base : Word) (t : Nat) : State :=
  s.startPart 0 (base + BitVec.ofNat 32 (hdrLen (tagKey t))) (BitVec.ofNat 32 (tagFirst t))

/-- `IT_DQSETUP` for the four segments (R416). -/
def State.setupDq (s : State) : State := (List.range 4).foldl (fun u i => itDqsetup i u) s

/-- Everything of `FC_HEADER` up to the size change: the checks (1) to (8) and the fields. The buffer's end is
checked before check (1): R429 gives `ERR_BAD_OPERAND` no place among the checks of R427, and the model takes
the place that R463's common order gives operand ranges (notes/assumptions/27.md). -/
def headerParse (T : OpenTables) (base length : Word) (s : State) : Res State := do
  require (bufferOk base length) .badOperand
  s.headerChecks base length
  let t := s.frameTag base
  let u := (s.invalidateRd.setFrmCtl t).startFirst base t
  hPartitions base length (hdrLen (tagKey t) + tagFirst t) (hFields T (tagKey t) u)

/-- The size that the frame asks for: its own on a keyframe, the present one on an interframe. -/
def State.wantedSize (s : State) (base : Word) : Word :=
  if tagKey (s.frameTag base) then s.frameSize base else s.crRaw 1

/-- The new size taken, where the frame is a keyframe (R406, R429). -/
def State.takeSize (s : State) (key : Bool) (frmSize : Word) : State :=
  if key then s.setSize frmSize else s

/-- `FC_HEADER` of the frame at `base` (R429): the state after it. -/
def header (T : OpenTables) (base length : Word) (s : State) : Res State := do
  let t ← headerParse T base length s
  require (s.sizeGranted (s.wantedSize base)) .alloc
  let key := tagKey (s.frameTag base)
  let u := (t.afterAsk (s.wantedSize base)).takeSize key (s.wantedSize base)
  .ok (u.setupDq.setRes 0 (boolWord key))

/-- The state from which a failed `FC_HEADER` raises: the allocator was asked only where everything
before the request was right. -/
def headerBase (T : OpenTables) (base length : Word) (s : State) : State :=
  match headerParse T base length s with
  | .ok _ => s.afterAsk (s.wantedSize base)
  | .error _ => s

/-- The RES registers unspecified: free values, new ones each time (R452 (3), U3). -/
def State.freeRes (s : State) : State :=
  { s with
    res := Vector.ofFn fun i : Fin 4 => Config.freeResult s.freeCount i
    freeCount := s.freeCount + 1 }

/-- What an error of `FC_HEADER` or `FC_FRAME` leaves (R452): the error, every RD instance invalid,
the RES registers unspecified. -/
def State.raiseFrame (s : State) (c : ErrCode) : State := (s.raise c).invalidateRd.freeRes

/-- The end of `FC_HEADER` and `FC_FRAME`; `s` is the state from which they raise. -/
def finishFrame (s : State) (r : Res State) : Host.Outcome State Fault Refusal :=
  match r with
  | .ok t => .next { t with response := .ok }
  | .error (.raise c) => .next (s.raiseFrame c)
  | .error (.fault f) => .fault f

/-- `FC_HEADER` with given open tables (R429). -/
def fcHeader (T : OpenTables) (s : State) : Host.Outcome State Fault Refusal :=
  finishFrame (headerBase T (s.arg 0) (s.arg 1) s) (header T (s.arg 0) (s.arg 1) s)

/-- `FC_HEADER` (R429). -/
def execFcHeader (s : State) : Host.Outcome State Fault Refusal := fcHeader Config.openTables s

/-! ## One frame (R431 to R437, R449) -/

/-- A role field of `CR18`, as the three bits it holds. -/
def State.roleBits (s : State) (lo : Nat) : Nat := s.crField 18 lo 3

/-- A slot is none of `PREV`, `GOLD` and `ALT`. -/
def State.slotFree (s : State) (n : Nat) : Bool :=
  n != s.roleBits 4 && n != s.roleBits 8 && n != s.roleBits 12

/-- The lowest free slot (R435); of four slots three roles leave one. -/
def State.freeSlot (s : State) : Nat :=
  if s.slotFree 0 then 0 else if s.slotFree 1 then 1 else if s.slotFree 2 then 2 else 3

/-- The work of `FC_FRAMESTART` (R431). Every pixel of the slot that it hands out is unspecified (10_state.md
R56, U2: a read before the frame writes it is a model fault). -/
def fcFramestart (s : State) : State :=
  let t := ((s.clearSlot s.freeSlot).setCrField 18 0 3 s.freeSlot).setMbpos 0 0
  State.setRes
    { t with nzAbove := [], nzLeft := nzZero, topb := { t.topb with valid := false } } 0
    (BitVec.ofNat 32 s.freeSlot)

/-- The check of `FC_FRAMESTART`: a size has been set (R431). -/
def State.hasSize (s : State) : Bool := s.mbW != 0 && s.mbH != 0

/-- `FC_FRAMESTART` (R431). -/
def execFcFramestart (s : State) : Host.Outcome State Fault Refusal :=
  finish s do
    require s.hasSize .badSize
    .ok (fcFramestart s)

/-- `sel(u, other)` of R434 on the bits of the roles; `keep` is the role's own old value. -/
def selRole (u keep cur prev other : Nat) : Nat :=
  match u with
  | 0 => keep
  | 1 => cur
  | 2 => prev
  | _ => other

/-- Role reassignment (R434): all from the old values, then written together. -/
def State.reassign (s : State) : State :=
  let cur := s.roleBits 0
  let prev := s.roleBits 4
  let gold := s.roleBits 8
  let alt := s.roleBits 12
  ((s.setCrField 18 8 3 (selRole (s.crField 13 0 2) gold cur prev alt)).setCrField 18 12 3
    (selRole (s.crField 13 2 2) alt cur prev gold)).setCrField 18 4 3
    (if s.crBit 13 4 then cur else prev)

/-- Probabilities at the end of a frame (R436). -/
def State.endProbs (s : State) : State := if s.crBit 13 7 then fcProbsave s else fcProbrestore s

/-- `STATUS.KEYFRAME_SEEN <- 1` after a keyframe (R433). -/
def State.noteKeyframe (s : State) : State := if s.crBit 0 0 then s.setKeyframeSeen else s

/-- The work of `FC_FRAMEEND` (R433). -/
def fcFrameend (s : State) : State :=
  let t := (s.reassign.endProbs.noteKeyframe).setVisible (s.crBit 0 4)
  (t.setRes 0 (boolWord (s.crBit 0 4))).setRes 1 (BitVec.ofNat 32 (t.roleBits 0))

/-- `FC_FRAMEEND` (R433). -/
def execFcFrameend (s : State) : Host.Outcome State Fault Refusal :=
  finish s do
    let _ ← needSlot s.curSlot
    .ok (fcFrameend s)

/-- The frame is discarded (R425). -/
def State.discard (s : State) : Bool :=
  let referenced := s.crBit 13 4 || s.crField 13 0 2 == 1 || s.crField 13 2 2 == 1
  match s.crField 17 0 2 with
  | 0 => false
  | 1 => !referenced
  | 2 => !referenced || !s.crBit 0 0
  | _ => true

/-- The result of a command inside `FC_FRAME`: its state, or the way it stops. -/
def stepRes (check : State → Res Unit) (work : State → Res State) (s : State) : Res State := do
  check s
  work s

/-- `CD_SKIPMB` or `CD_MB` of the macroblock, by its skip flag (R430). -/
def frameCoefs (s : State) : Res State := do
  require s.posOk .badMbpos
  if s.cur.skip then .ok (cdSkipmb s)
  else do
    let k := 1 + s.mby % s.npart
    require (s.rdValid k) .rdUninit
    cdMb k s

/-- `IP_MB` or `MC_MB` of the macroblock, by its reference (R430). -/
def framePredict (s : State) : Res State :=
  if s.cur.ref = .current then do
    let slot ← ipCheck s
    ipMb slot s
  else do
    require s.posOk .badMbpos
    let src ← needSlot (s.refSlot s.cur.ref.num)
    let dst ← needSlot s.curSlot
    mcMb src dst s

/-- `IT_MB` of the macroblock (R430). -/
def frameResidual (s : State) : Res State := do
  require s.posOk .badMbpos
  let slot ← needSlot s.curSlot
  itMb slot s

/-- One macroblock of the loop of R430, up to `FC_NEXTMB`. -/
def frameMb (T : OpenTables) (s : State) : Res State := do
  let s1 ← stepRes mdCheck (mdMb T) s
  let s2 ← frameCoefs s1
  let s3 ← framePredict s2
  let s4 ← frameResidual s3
  .ok (lfParams s4)

/-- Column `mx` of a row: the macroblock, and `FC_NEXTMB` unless it is the last (R430). -/
def frameCol (T : OpenTables) (s : State) (mx : Nat) : Res State := do
  let t ← frameMb T s
  .ok (if mx + 1 < t.mbW then fcNextmb t else t)

/-- `LF_ROW`, unless the frame's level is 0 (R430). -/
def frameFilter (slot : Nat) (s : State) : Res State :=
  if s.crField 6 1 6 = 0 then .ok s else lfRow slot s

/-- The end of a row: `FC_ROWEND`, `LF_ROW` unless the frame's level is 0, `FC_NEXTMB` (R430). -/
def frameRowEnd (s : State) : Res State := do
  let slot ← needSlot s.curSlot
  let t ← fcRowend slot s
  let u ← frameFilter slot t
  .ok (fcNextmb u)

/-- One row of the loop of R430. -/
def frameRow (T : OpenTables) (s : State) (_my : Nat) : Res State := do
  let t ← (List.range s.mbW).foldlM (frameCol T) (fcRowstart s)
  frameRowEnd t

/-- The loop of R430. -/
def frameLoop (T : OpenTables) (s : State) : Res State := (List.range s.mbH).foldlM (frameRow T) s

/-- "No visible frame" (R425, R449). -/
def State.noFrame (s : State) : State := (s.setRes 0 0).setRes 1 7

/-- `FC_FRAME` after its header: discard, or decode (R437). A discarded keyframe that changes the size keeps
what its header made of `CR18`, 0x7777: R425 says both that the header's effects stay and that `CR18` does not
change, and the model takes the second of what the discard itself does (notes/assumptions/26.md). -/
def frameBody (T : OpenTables) (s : State) : Res State :=
  if s.discard then .ok s.endProbs.noFrame
  else do
    require s.hasSize .badSize
    let t ← frameLoop T (fcFramestart s)
    let _ ← needSlot t.curSlot
    let u := fcFrameend t
    .ok (if u.crBit 0 4 then u else u.noFrame)

/-- `STATUS.ERR <- 0; STATUS.VISIBLE <- 0` (R437). -/
def State.frameBegin (s : State) : State := s.clearErr.setVisible false

/-- `FC_FRAME` of the frame at `base` (R437). -/
def frame (T : OpenTables) (base length : Word) (s : State) : Res State := do
  let t ← header T base length s.frameBegin
  frameBody T t

/-- `FC_FRAME` with given open tables (R437). -/
def fcFrame (T : OpenTables) (s : State) : Host.Outcome State Fault Refusal :=
  finishFrame (headerBase T (s.arg 0) (s.arg 1) s.frameBegin) (frame T (s.arg 0) (s.arg 1) s)

/-- `FC_FRAME` (R437). -/
def execFcFrame (s : State) : Host.Outcome State Fault Refusal := fcFrame Config.openTables s

end Sys2Proof.Machine
end

