-- ==== Sys2Proof/Syntax.lean ====
section
/-! DEFINITION. The commands of CORE: one constructor per row of `opcode_table.json` (spec
30_encoding.md R104). Operands are the raw bytes of the command word's fields `a`, `b`, `c`; their
legal ranges are in WellFormed.lean. -/

namespace Sys2Proof

/-- One command of CORE, in the order of R104. -/
inductive Instr where
  -- RD, the range decoder (R131 to R135)
  | rdInit (k : Byte)
  | rdBool (p k : Byte)
  | rdLit (n k : Byte)
  | rdSlit (n k : Byte)
  | rdTree (tree start k : Byte)
  -- MD, the macroblock mode decoder (R162 to R171)
  | mdSegid
  | mdSkip
  | mdYmodeKf
  | mdYmodeIf
  | mdBmodesKf
  | mdBmodesIf
  | mdUvmodeKf
  | mdUvmodeIf
  | mdRef
  | mdMb
  -- MP, the motion predictor (R194 to R214)
  | mpNear
  | mpMode
  | mpReadmv
  | mpSplit
  | mpClamp
  | mpMb
  -- CD, the coefficient decoder (R240 to R244)
  | cdBlock (type block k : Byte)
  | cdMb (k : Byte)
  | cdSkipmb
  -- IP, the intra predictor (R264 to R288)
  | ipY16Dc
  | ipY16V
  | ipY16H
  | ipY16Tm
  | ipUv8Dc
  | ipUv8V
  | ipUv8H
  | ipUv8Tm
  | ipY4Dc (block : Byte)
  | ipY4Tm (block : Byte)
  | ipY4Ve (block : Byte)
  | ipY4He (block : Byte)
  | ipY4Ld (block : Byte)
  | ipY4Rd (block : Byte)
  | ipY4Vr (block : Byte)
  | ipY4Vl (block : Byte)
  | ipY4Hd (block : Byte)
  | ipY4Hu (block : Byte)
  | ipMb
  -- MC, the inter motion compensator (R308 to R314)
  | mcLuma (ref : Byte)
  | mcChroma (ref plane : Byte)
  | mcMb
  -- IT, the inverse transform and dequantiser (R332 to R342)
  | itDqsetup (segment : Byte)
  | itWht
  | itIdctAdd (plane block : Byte)
  | itMb
  -- LF, the loop filter (R368 to R382)
  | lfParams
  | lfMb
  | lfRow
  | lfsEdge (plane dir : Byte)
  | lfnMbedge (plane dir : Byte)
  | lfnInner (plane dir : Byte)
  -- FC, frame control (R429 to R448, R110)
  | fcReset
  | fcSetmb
  | fcNextmb
  | fcRowstart
  | fcRowend
  | fcWrctl (reg : Byte)
  | fcRdctl (reg : Byte)
  | fcWrprob (value : Byte)
  | fcRdprob (copy : Byte)
  | fcProbsave
  | fcProbrestore
  | fcHeader
  | fcFramestart
  | fcFrameend
  | fcFrame
  | fcWrarg (index : Byte)
  deriving DecidableEq, Repr

end Sys2Proof
end

