-- ==== Sys2Proof/Machine/Dispatch.lean ====
section
/-! DEFINITION. The meaning of each command (spec 30_encoding.md R104): one arm per constructor. -/

namespace Sys2Proof.Machine

/-- Run one command. -/
def exec (i : Instr) (s : State) : Host.Outcome State Fault Refusal :=
  match i with
  | .rdInit k => Sys2Proof.Machine.execRdInit k s
  | .rdBool p k => Sys2Proof.Machine.execRdBool p k s
  | .rdLit n k => Sys2Proof.Machine.execRdLit n k s
  | .rdSlit n k => Sys2Proof.Machine.execRdSlit n k s
  | .rdTree tree start k => Sys2Proof.Machine.execRdTree tree start k s
  | .mdSegid => Sys2Proof.Machine.execMdSegid s
  | .mdSkip => Sys2Proof.Machine.execMdSkip s
  | .mdYmodeKf => Sys2Proof.Machine.execMdYmodeKf s
  | .mdYmodeIf => Sys2Proof.Machine.execMdYmodeIf s
  | .mdBmodesKf => Sys2Proof.Machine.execMdBmodesKf s
  | .mdBmodesIf => Sys2Proof.Machine.execMdBmodesIf s
  | .mdUvmodeKf => Sys2Proof.Machine.execMdUvmodeKf s
  | .mdUvmodeIf => Sys2Proof.Machine.execMdUvmodeIf s
  | .mdRef => Sys2Proof.Machine.execMdRef s
  | .mdMb => Sys2Proof.Machine.execMdMb s
  | .mpNear => Sys2Proof.Machine.execMpNear s
  | .mpMode => Sys2Proof.Machine.execMpMode s
  | .mpReadmv => Sys2Proof.Machine.execMpReadmv s
  | .mpSplit => Sys2Proof.Machine.execMpSplit s
  | .mpClamp => Sys2Proof.Machine.execMpClamp s
  | .mpMb => Sys2Proof.Machine.execMpMb s
  | .cdBlock type block k => Sys2Proof.Machine.execCdBlock type block k s
  | .cdMb k => Sys2Proof.Machine.execCdMb k s
  | .cdSkipmb => Sys2Proof.Machine.execCdSkipmb s
  | .ipY16Dc => Sys2Proof.Machine.execIpY16Dc s
  | .ipY16V => Sys2Proof.Machine.execIpY16V s
  | .ipY16H => Sys2Proof.Machine.execIpY16H s
  | .ipY16Tm => Sys2Proof.Machine.execIpY16Tm s
  | .ipUv8Dc => Sys2Proof.Machine.execIpUv8Dc s
  | .ipUv8V => Sys2Proof.Machine.execIpUv8V s
  | .ipUv8H => Sys2Proof.Machine.execIpUv8H s
  | .ipUv8Tm => Sys2Proof.Machine.execIpUv8Tm s
  | .ipY4Dc block => Sys2Proof.Machine.execIpY4Dc block s
  | .ipY4Tm block => Sys2Proof.Machine.execIpY4Tm block s
  | .ipY4Ve block => Sys2Proof.Machine.execIpY4Ve block s
  | .ipY4He block => Sys2Proof.Machine.execIpY4He block s
  | .ipY4Ld block => Sys2Proof.Machine.execIpY4Ld block s
  | .ipY4Rd block => Sys2Proof.Machine.execIpY4Rd block s
  | .ipY4Vr block => Sys2Proof.Machine.execIpY4Vr block s
  | .ipY4Vl block => Sys2Proof.Machine.execIpY4Vl block s
  | .ipY4Hd block => Sys2Proof.Machine.execIpY4Hd block s
  | .ipY4Hu block => Sys2Proof.Machine.execIpY4Hu block s
  | .ipMb => Sys2Proof.Machine.execIpMb s
  | .mcLuma ref => Sys2Proof.Machine.execMcLuma ref s
  | .mcChroma ref plane => Sys2Proof.Machine.execMcChroma ref plane s
  | .mcMb => Sys2Proof.Machine.execMcMb s
  | .itDqsetup segment => Sys2Proof.Machine.execItDqsetup segment s
  | .itWht => Sys2Proof.Machine.execItWht s
  | .itIdctAdd plane block => Sys2Proof.Machine.execItIdctAdd plane block s
  | .itMb => Sys2Proof.Machine.execItMb s
  | .lfParams => Sys2Proof.Machine.execLfParams s
  | .lfMb => Sys2Proof.Machine.execLfMb s
  | .lfRow => Sys2Proof.Machine.execLfRow s
  | .lfsEdge plane dir => Sys2Proof.Machine.execLfsEdge plane dir s
  | .lfnMbedge plane dir => Sys2Proof.Machine.execLfnMbedge plane dir s
  | .lfnInner plane dir => Sys2Proof.Machine.execLfnInner plane dir s
  | .fcReset => Sys2Proof.Machine.execFcReset s
  | .fcSetmb => Sys2Proof.Machine.execFcSetmb s
  | .fcNextmb => Sys2Proof.Machine.execFcNextmb s
  | .fcRowstart => Sys2Proof.Machine.execFcRowstart s
  | .fcRowend => Sys2Proof.Machine.execFcRowend s
  | .fcWrctl reg => Sys2Proof.Machine.execFcWrctl reg s
  | .fcRdctl reg => Sys2Proof.Machine.execFcRdctl reg s
  | .fcWrprob value => Sys2Proof.Machine.execFcWrprob value s
  | .fcRdprob copy => Sys2Proof.Machine.execFcRdprob copy s
  | .fcProbsave => Sys2Proof.Machine.execFcProbsave s
  | .fcProbrestore => Sys2Proof.Machine.execFcProbrestore s
  | .fcHeader => Sys2Proof.Machine.execFcHeader s
  | .fcFramestart => Sys2Proof.Machine.execFcFramestart s
  | .fcFrameend => Sys2Proof.Machine.execFcFrameend s
  | .fcFrame => Sys2Proof.Machine.execFcFrame s
  | .fcWrarg index => Sys2Proof.Machine.execFcWrarg index s

end Sys2Proof.Machine
end

