-- ==== Sys2Proof/Decode.lean ====
section
/-! DEFINITION. From command words to commands and back (spec 30_encoding.md R101 to R107). There is
one format: `op` in bits 31:24, `a` in 23:16, `b` in 15:8, `c` in 7:0. -/

namespace Sys2Proof

/-- Why a word is no command (R106, R107): a reserved `op` or a non-zero reserved field
(`ERR_ILLEGAL_CMD`), or a predictor selector `a` of `IP_Y16`, `IP_UV8`, `IP_Y4` outside its range, for
which the table has no row (`ERR_BAD_OPERAND`). The ranges of all other fields are the command's own
check. -/
inductive DecodeError where
  | illegalCmd
  | badOperand
  deriving DecidableEq, Repr

/-- Field `op` of a command word (R102). -/
def opField (w : Word) : Byte := w.extractLsb' 24 8
/-- Field `a` of a command word (R102). -/
def aField (w : Word) : Byte := w.extractLsb' 16 8
/-- Field `b` of a command word (R102). -/
def bField (w : Word) : Byte := w.extractLsb' 8 8
/-- Field `c` of a command word (R102). -/
def cField (w : Word) : Byte := w.extractLsb' 0 8

/-- Assemble a command word from its four fields (R102). -/
def packWord (op a b c : Byte) : Word := op ++ a ++ b ++ c

/-- A command whose reserved fields are all 0, or `ERR_ILLEGAL_CMD` (R107). -/
def reservedZero (reserved : List Byte) (i : Instr) : Except DecodeError Instr :=
  if reserved.all (· == 0) then .ok i else .error .illegalCmd

/-- The four predictors of `IP_Y16`, by field `a` (R104). -/
def decodeY16 (a : Byte) : Except DecodeError Instr :=
  match a.toNat with
  | 0 => .ok .ipY16Dc
  | 1 => .ok .ipY16V
  | 2 => .ok .ipY16H
  | 3 => .ok .ipY16Tm
  | _ => .error .badOperand

/-- The four predictors of `IP_UV8`, by field `a` (R104). -/
def decodeUv8 (a : Byte) : Except DecodeError Instr :=
  match a.toNat with
  | 0 => .ok .ipUv8Dc
  | 1 => .ok .ipUv8V
  | 2 => .ok .ipUv8H
  | 3 => .ok .ipUv8Tm
  | _ => .error .badOperand

/-- The ten predictors of `IP_Y4`, by field `a` (R104, R276). -/
def decodeY4 (a b : Byte) : Except DecodeError Instr :=
  match a.toNat with
  | 0 => .ok (.ipY4Dc b)
  | 1 => .ok (.ipY4Tm b)
  | 2 => .ok (.ipY4Ve b)
  | 3 => .ok (.ipY4He b)
  | 4 => .ok (.ipY4Ld b)
  | 5 => .ok (.ipY4Rd b)
  | 6 => .ok (.ipY4Vr b)
  | 7 => .ok (.ipY4Vl b)
  | 8 => .ok (.ipY4Hd b)
  | 9 => .ok (.ipY4Hu b)
  | _ => .error .badOperand

/-- Decode a word from its fields, in the order of R105: `op`, then the reserved fields, then the
predictor selector. Total: every word is a command or is rejected by name. -/
def decodeFields (op a b c : Byte) : Except DecodeError Instr :=
  match op.toNat with
  | 0x00 => reservedZero [a, b] (.rdInit c)
  | 0x01 => reservedZero [b] (.rdBool a c)
  | 0x02 => reservedZero [b] (.rdLit a c)
  | 0x03 => reservedZero [b] (.rdSlit a c)
  | 0x04 => .ok (.rdTree a b c)
  | 0x10 => reservedZero [a, b, c] .mdSegid
  | 0x11 => reservedZero [a, b, c] .mdSkip
  | 0x12 => reservedZero [a, b, c] .mdYmodeKf
  | 0x13 => reservedZero [a, b, c] .mdYmodeIf
  | 0x14 => reservedZero [a, b, c] .mdBmodesKf
  | 0x15 => reservedZero [a, b, c] .mdBmodesIf
  | 0x16 => reservedZero [a, b, c] .mdUvmodeKf
  | 0x17 => reservedZero [a, b, c] .mdUvmodeIf
  | 0x18 => reservedZero [a, b, c] .mdRef
  | 0x1F => reservedZero [a, b, c] .mdMb
  | 0x20 => reservedZero [a, b, c] .mpNear
  | 0x21 => reservedZero [a, b, c] .mpMode
  | 0x22 => reservedZero [a, b, c] .mpReadmv
  | 0x23 => reservedZero [a, b, c] .mpSplit
  | 0x24 => reservedZero [a, b, c] .mpClamp
  | 0x2F => reservedZero [a, b, c] .mpMb
  | 0x30 => .ok (.cdBlock a b c)
  | 0x31 => reservedZero [a, b] (.cdMb c)
  | 0x32 => reservedZero [a, b, c] .cdSkipmb
  | 0x40 => if b == 0 && c == 0 then decodeY16 a else .error .illegalCmd
  | 0x41 => if b == 0 && c == 0 then decodeUv8 a else .error .illegalCmd
  | 0x42 => if c == 0 then decodeY4 a b else .error .illegalCmd
  | 0x4F => reservedZero [a, b, c] .ipMb
  | 0x50 => reservedZero [b, c] (.mcLuma a)
  | 0x51 => reservedZero [c] (.mcChroma a b)
  | 0x5F => reservedZero [a, b, c] .mcMb
  | 0x60 => reservedZero [b, c] (.itDqsetup a)
  | 0x61 => reservedZero [a, b, c] .itWht
  | 0x62 => reservedZero [c] (.itIdctAdd a b)
  | 0x6F => reservedZero [a, b, c] .itMb
  | 0x70 => reservedZero [a, b, c] .lfParams
  | 0x71 => reservedZero [a, b, c] .lfMb
  | 0x72 => reservedZero [a, b, c] .lfRow
  | 0x73 => reservedZero [c] (.lfsEdge a b)
  | 0x74 => reservedZero [c] (.lfnMbedge a b)
  | 0x75 => reservedZero [c] (.lfnInner a b)
  | 0x80 => reservedZero [a, b, c] .fcReset
  | 0x81 => reservedZero [a, b, c] .fcSetmb
  | 0x82 => reservedZero [a, b, c] .fcNextmb
  | 0x83 => reservedZero [a, b, c] .fcRowstart
  | 0x84 => reservedZero [a, b, c] .fcRowend
  | 0x85 => reservedZero [b, c] (.fcWrctl a)
  | 0x86 => reservedZero [b, c] (.fcRdctl a)
  | 0x87 => reservedZero [a, b] (.fcWrprob c)
  | 0x88 => reservedZero [b, c] (.fcRdprob a)
  | 0x89 => reservedZero [a, b, c] .fcProbsave
  | 0x8A => reservedZero [a, b, c] .fcProbrestore
  | 0x8B => reservedZero [a, b, c] .fcHeader
  | 0x8C => reservedZero [a, b, c] .fcFramestart
  | 0x8D => reservedZero [a, b, c] .fcFrameend
  | 0x8E => reservedZero [a, b, c] .fcFrame
  | 0x8F => reservedZero [b, c] (.fcWrarg a)
  | _ => .error .illegalCmd

/-- Decode a 32-bit command word (R105 steps 1 and 2). -/
def decode (w : Word) : Except DecodeError Instr :=
  decodeFields (opField w) (aField w) (bField w) (cField w)

/-- The command word of a command, from the encoding table of R104. -/
def encode : Instr → Word
  | .rdInit k => packWord 0x00 0 0 k
  | .rdBool p k => packWord 0x01 p 0 k
  | .rdLit n k => packWord 0x02 n 0 k
  | .rdSlit n k => packWord 0x03 n 0 k
  | .rdTree tree start k => packWord 0x04 tree start k
  | .mdSegid => packWord 0x10 0 0 0
  | .mdSkip => packWord 0x11 0 0 0
  | .mdYmodeKf => packWord 0x12 0 0 0
  | .mdYmodeIf => packWord 0x13 0 0 0
  | .mdBmodesKf => packWord 0x14 0 0 0
  | .mdBmodesIf => packWord 0x15 0 0 0
  | .mdUvmodeKf => packWord 0x16 0 0 0
  | .mdUvmodeIf => packWord 0x17 0 0 0
  | .mdRef => packWord 0x18 0 0 0
  | .mdMb => packWord 0x1F 0 0 0
  | .mpNear => packWord 0x20 0 0 0
  | .mpMode => packWord 0x21 0 0 0
  | .mpReadmv => packWord 0x22 0 0 0
  | .mpSplit => packWord 0x23 0 0 0
  | .mpClamp => packWord 0x24 0 0 0
  | .mpMb => packWord 0x2F 0 0 0
  | .cdBlock type block k => packWord 0x30 type block k
  | .cdMb k => packWord 0x31 0 0 k
  | .cdSkipmb => packWord 0x32 0 0 0
  | .ipY16Dc => packWord 0x40 0 0 0
  | .ipY16V => packWord 0x40 1 0 0
  | .ipY16H => packWord 0x40 2 0 0
  | .ipY16Tm => packWord 0x40 3 0 0
  | .ipUv8Dc => packWord 0x41 0 0 0
  | .ipUv8V => packWord 0x41 1 0 0
  | .ipUv8H => packWord 0x41 2 0 0
  | .ipUv8Tm => packWord 0x41 3 0 0
  | .ipY4Dc b => packWord 0x42 0 b 0
  | .ipY4Tm b => packWord 0x42 1 b 0
  | .ipY4Ve b => packWord 0x42 2 b 0
  | .ipY4He b => packWord 0x42 3 b 0
  | .ipY4Ld b => packWord 0x42 4 b 0
  | .ipY4Rd b => packWord 0x42 5 b 0
  | .ipY4Vr b => packWord 0x42 6 b 0
  | .ipY4Vl b => packWord 0x42 7 b 0
  | .ipY4Hd b => packWord 0x42 8 b 0
  | .ipY4Hu b => packWord 0x42 9 b 0
  | .ipMb => packWord 0x4F 0 0 0
  | .mcLuma ref => packWord 0x50 ref 0 0
  | .mcChroma ref plane => packWord 0x51 ref plane 0
  | .mcMb => packWord 0x5F 0 0 0
  | .itDqsetup seg => packWord 0x60 seg 0 0
  | .itWht => packWord 0x61 0 0 0
  | .itIdctAdd plane block => packWord 0x62 plane block 0
  | .itMb => packWord 0x6F 0 0 0
  | .lfParams => packWord 0x70 0 0 0
  | .lfMb => packWord 0x71 0 0 0
  | .lfRow => packWord 0x72 0 0 0
  | .lfsEdge plane dir => packWord 0x73 plane dir 0
  | .lfnMbedge plane dir => packWord 0x74 plane dir 0
  | .lfnInner plane dir => packWord 0x75 plane dir 0
  | .fcReset => packWord 0x80 0 0 0
  | .fcSetmb => packWord 0x81 0 0 0
  | .fcNextmb => packWord 0x82 0 0 0
  | .fcRowstart => packWord 0x83 0 0 0
  | .fcRowend => packWord 0x84 0 0 0
  | .fcWrctl reg => packWord 0x85 reg 0 0
  | .fcRdctl reg => packWord 0x86 reg 0 0
  | .fcWrprob value => packWord 0x87 0 0 value
  | .fcRdprob copy => packWord 0x88 copy 0 0
  | .fcProbsave => packWord 0x89 0 0 0
  | .fcProbrestore => packWord 0x8A 0 0 0
  | .fcHeader => packWord 0x8B 0 0 0
  | .fcFramestart => packWord 0x8C 0 0 0
  | .fcFrameend => packWord 0x8D 0 0 0
  | .fcFrame => packWord 0x8E 0 0 0
  | .fcWrarg index => packWord 0x8F index 0 0

/-- The command the decoder reads from a row's bits (`nbits` is 32 for every row: R101 gives every
command one length); `none` where the decoder rejects the word or the length. -/
def decodeTableWord (nbits w : Nat) : Option Instr :=
  if nbits ≤ 32 then
    match decode (BitVec.ofNat 32 w) with
    | .ok i => some i
    | .error _ => none
  else none

end Sys2Proof
end

