-- ==== Sys2Proof/Machine/Fetch.lean ====
section
/-! DEFINITION. What stands around a command (spec 30_encoding.md R100, R105 to R107, R110;
20_memory.md R71, R83): the host's other events, and a word that is no command. -/

namespace Sys2Proof.Machine

/-- The host's list without its first event. -/
def State.withQueue (s : State) (q : List HostEvent) : State := { s with hostq := q }

/-- The host writes an argument register: not a command, and it cannot fail (R110). -/
def hostWriteArg (i : Fin 4) (v : Word) (s : State) : State := s.setArg i v

/-- The instance has been started on a buffer that holds the address. -/
def Rd.reads (r : Rd) (addr : Word) : Bool := r.valid && addr - r.base < r.size

/-- The host's change number `n` of `CBUF`, at `addr`, as an instance sees it: in its own buffer it leaves
every byte still to come unspecified (20_memory.md R71, U14). -/
def Rd.noteChange (n : Nat) (addr : Word) (r : Rd) : Rd :=
  if r.reads addr then { r with changed := some n } else r

/-- The host changes `CBUF` at an address: each instance sees a change with a number of its own. -/
def State.noteChange (s : State) (addr : Word) : State :=
  { s with
    rd := s.rd.mapIdx fun k r => r.noteChange (9 * s.changeCount + k) addr
    changeCount := s.changeCount + 1 }

/-- The host writes a byte of `CBUF` (20_memory.md R71). Where the byte was not there already, the write
is a change, and what a command sees that has been given the buffer before is any value (R71, R496, U14);
a command that names the buffer afterwards sees the byte. That the change concerns exactly the instances
whose buffer holds the address, until each is started anew, is the model's choice
(notes/assumptions/25.md). -/
def hostWriteCbuf (addr : Word) (b : Byte) (s : State) : State :=
  let t : State := { s with cbuf := Memory.set s.cbuf addr.toNat b }
  if Memory.find s.cbuf addr.toNat = some b then t else t.noteChange addr

/-- The code of a word that is no command (R106, R107). -/
def rejectCode (e : DecodeError) : ErrCode :=
  match e with
  | .illegalCmd => .illegalCmd
  | .badOperand => .badOperand

/-- The answer to a word that is no command: the error, and nothing else changes (R106, R107). -/
def rejectWord (e : DecodeError) (s : State) : State := s.raise (rejectCode e)

end Sys2Proof.Machine
end

