-- ==== Sys2Proof/Machine/Step.lean ====
section
/-! DEFINITION. One step of CORE and its host: the next event of the host's list, a command performed
completely (spec 20_memory.md R83, R86; 30_encoding.md R100). With nothing to do the hardware waits
(70_reset_and_hazards.md R480). -/

namespace Sys2Proof.Machine

/-- One step. -/
def step (s : State) : Host.Outcome State Fault Refusal :=
  match s.hostq with
  | [] => .next s
  | .writeArg i v :: rest => .next (hostWriteArg i v (s.withQueue rest))
  | .writeCbuf addr b :: rest => .next (hostWriteCbuf addr b (s.withQueue rest))
  | .command w :: rest =>
    match decode w with
    | .ok i => exec i (s.withQueue rest)
    | .error e => .next (rejectWord e (s.withQueue rest))

/-- The state in which the host presents the word `w` next. -/
def State.withFetchWord (s : State) (_nbits w : Nat) : State :=
  { s with hostq := .command (BitVec.ofNat 32 w) :: s.hostq }

end Sys2Proof.Machine
end

