-- ==== Sys2Proof/WellFormed.lean ====
section
/-! DEFINITION. Well-formed commands: every operand field is inside the range its row of R104 gives
(spec 30_encoding.md R105 step 2). A command that is not well-formed answers `ERR_BAD_OPERAND`
(R107); commands without operand fields are always well-formed. -/

namespace Sys2Proof

open Machine in
/-- Every operand field of the command is inside its range. -/
def Instr.wf : Instr → Bool
  | .rdInit k => okInstance k
  | .rdBool _ k => okInstance k
  | .rdLit n k => okLiteral n && okInstance k
  | .rdSlit n k => okSignedLiteral n && okInstance k
  | .rdTree tree start k => okTree tree start && okInstance k
  | .mdSegid | .mdSkip | .mdYmodeKf | .mdYmodeIf | .mdBmodesKf | .mdBmodesIf | .mdUvmodeKf
  | .mdUvmodeIf | .mdRef | .mdMb => true
  | .mpNear | .mpMode | .mpReadmv | .mpSplit | .mpClamp | .mpMb => true
  | .cdBlock type block k => okTypeBlock type block && okInstance k
  | .cdMb k => okInstance k
  | .cdSkipmb => true
  | .ipY16Dc | .ipY16V | .ipY16H | .ipY16Tm | .ipUv8Dc | .ipUv8V | .ipUv8H | .ipUv8Tm => true
  | .ipY4Dc b | .ipY4Tm b | .ipY4Ve b | .ipY4He b | .ipY4Ld b | .ipY4Rd b | .ipY4Vr b | .ipY4Vl b
  | .ipY4Hd b | .ipY4Hu b => okSubBlock b
  | .ipMb => true
  | .mcLuma ref => okRefTag ref
  | .mcChroma ref plane => okRefTag ref && okChromaPlane plane
  | .mcMb => true
  | .itDqsetup seg => okSegment seg
  | .itWht => true
  | .itIdctAdd plane block => okPlaneBlock plane block
  | .itMb => true
  | .lfParams | .lfMb | .lfRow => true
  | .lfsEdge plane dir => okSimpleEdge plane dir
  | .lfnMbedge plane dir => okNormalEdge plane dir
  | .lfnInner plane dir => okNormalEdge plane dir
  | .fcReset | .fcSetmb | .fcNextmb | .fcRowstart | .fcRowend => true
  | .fcWrctl reg => okControl reg
  | .fcRdctl reg => okControl reg
  | .fcWrprob _ => true
  | .fcRdprob copy => okCopy copy
  | .fcProbsave | .fcProbrestore | .fcHeader | .fcFramestart | .fcFrameend | .fcFrame => true
  | .fcWrarg index => okArgIndex index

end Sys2Proof
end

