-- ==== Sys2Proof/Safety.lean ====
section
/-! DEFINITION. What the statements about CORE speak of: the invariants of a state, and what a command
needs to be specified before it can complete (spec 10_state.md R23, R29, R59; 70_reset_and_hazards.md
R481). -/

namespace Sys2Proof.Machine

/-! ## Invariants -/

/-- The planes of a slot are in canonical form. -/
def Frame.memWf (f : Frame) : Prop := Memory.wf f.y ∧ Memory.wf f.u ∧ Memory.wf f.v

/-- Every memory of a state is in its canonical form. -/
structure State.MemWf (s : State) : Prop where
  prob : Memory.wf s.prob
  probSaved : Memory.wf s.probSaved
  dq : Memory.wf s.dq
  mbinfo : Memory.wfD MbRec.zero s.mbinfo
  segmap : Memory.wfD 0 s.segmap
  nzAbove : Memory.wfD nzZero s.nzAbove
  coef : Memory.wfD 0 s.coef
  lfp : Memory.wf s.lfp
  fb : ∀ n p, Memory.wf (s.plane n p)
  topb : ∀ p, Memory.wf (s.topb.plane p)
  cbuf : Memory.wf s.cbuf

/-- The bits of control register `i` that the hardware holds: those that R27 to R45 name, the two
read-only registers included. `CR2` is derived and holds none. -/
def crKeep (i : Nat) : Word := if i = 16 then 0xF3 else if i = 2 then 0 else crMask i

/-- Reserved bits of the control registers read 0 (R29). -/
def State.CrClean (s : State) : Prop := ∀ i, s.crRaw i &&& ~~~(crKeep i) = 0

/-- The part of R23 that holds for every byte string (40_range_decoder.md R137 (d) excepts
`value < range * 256`): the interval is normalised, the bits shifted in are 0, the cursor is inside
the buffer. -/
structure Rd.Inv (r : Rd) : Prop where
  range : 128 ≤ r.range.toNat
  low : r.value.toNat % 2 ^ r.bitCount.toNat = 0
  cursor : r.cursor.toNat ≤ r.size.toNat

/-- Every range decoder instance that has been initialised satisfies R23. -/
def State.RdInv (s : State) : Prop := ∀ k, (s.rdAt k).valid = true → (s.rdAt k).Inv

/-! ## Specified items (R59, R481) -/

/-- `n` entries of `PROB` from offset `lo` on are specified. -/
def State.ProbKnown (s : State) (lo n : Nat) : Prop := ∀ i, i < n → (s.probAt (lo + i)).isSome = true

/-- Every pixel of plane `p` of slot `slot` is specified. -/
def State.PlaneKnown (s : State) (slot p : Nat) : Prop :=
  ∀ x y, x < s.planeW p → y < s.planeH p → (s.pix slot p x y).isSome = true

/-- Every pixel of a slot is specified. -/
def State.SlotKnown (s : State) (slot : Nat) : Prop := ∀ p, p < 3 → s.PlaneKnown slot p

/-- The multipliers of the current macroblock's segment are specified. -/
def State.DqKnown (s : State) : Prop := (Memory.find s.dq s.seg).isSome = true

/-- Every loop-filter record of the row is specified. -/
def State.LfpKnown (s : State) : Prop := ∀ x, x < s.mbW → (Memory.find s.lfp x).isSome = true

/-- The pixels at some places, as intra prediction sees them (R261), are specified. -/
def State.NbKnown (s : State) (slot p : Nat) (at_ : List (Int × Int)) : Prop :=
  ∀ q ∈ at_, (s.nb slot p q.1 q.2).isSome = true

/-- A neighbour pixel, 0 where it is not specified. -/
def State.nbVal (s : State) (slot p : Nat) (q : Int × Int) : Nat := ((s.nb slot p q.1 q.2).getD 0).toNat

/-! ## Regions of a plane -/

/-- Pixel `(x, y)` lies in the block of `w` columns and `h` rows at `(x0, y0)`. -/
def inBlock (x0 y0 w h x y : Nat) : Prop := x0 ≤ x ∧ x < x0 + w ∧ y0 ≤ y ∧ y < y0 + h

/-- Pixel `(x, y)` of plane `p` belongs to the macroblock at `MBPOS`. -/
def State.inMb (s : State) (p x y : Nat) : Prop :=
  inBlock (mbSize p * s.mbx) (mbSize p * s.mby) (mbSize p) (mbSize p) x y

/-! ## Command words (30_encoding.md R104) -/

/-- The bits of the fields that R104 marks `-`, by `op`; none for a reserved `op` (R106). -/
def reservedBits (op : Nat) : Option Word :=
  if op ≤ 0x03 then some (if op = 0 then 0x00FFFF00 else 0x0000FF00)
  else if op = 0x04 then some 0
  else if 0x10 ≤ op ∧ op ≤ 0x18 then some 0x00FFFFFF
  else if op = 0x1F then some 0x00FFFFFF
  else if 0x20 ≤ op ∧ op ≤ 0x24 then some 0x00FFFFFF
  else if op = 0x2F then some 0x00FFFFFF
  else if op = 0x30 then some 0
  else if op = 0x31 then some 0x00FFFF00
  else if op = 0x32 then some 0x00FFFFFF
  else if op = 0x40 ∨ op = 0x41 then some 0x0000FFFF
  else if op = 0x42 then some 0x000000FF
  else if op = 0x4F then some 0x00FFFFFF
  else if op = 0x50 then some 0x0000FFFF
  else if op = 0x51 then some 0x000000FF
  else if op = 0x5F then some 0x00FFFFFF
  else if op = 0x60 then some 0x0000FFFF
  else if op = 0x61 then some 0x00FFFFFF
  else if op = 0x62 then some 0x000000FF
  else if 0x6F ≤ op ∧ op ≤ 0x72 then some 0x00FFFFFF
  else if 0x73 ≤ op ∧ op ≤ 0x75 then some 0x000000FF
  else if 0x80 ≤ op ∧ op ≤ 0x84 then some 0x00FFFFFF
  else if op = 0x85 ∨ op = 0x86 then some 0x0000FFFF
  else if op = 0x87 then some 0x00FFFF00
  else if op = 0x88 then some 0x0000FFFF
  else if 0x89 ≤ op ∧ op ≤ 0x8E then some 0x00FFFFFF
  else if op = 0x8F then some 0x0000FFFF
  else none

/-- The largest predictor selector `a` of an `op` (R104); 255 where `a` selects no predictor. -/
def selectorMax (op : Nat) : Nat :=
  if op = 0x40 ∨ op = 0x41 then 3 else if op = 0x42 then 9 else 255

/-! ## Which commands need what (60_exceptions.md R451) -/

/-- The command works on the macroblock at `MBPOS`, column and row (R457). -/
def needsPosition : Instr → Bool
  | .mdSegid | .mdSkip | .mdYmodeKf | .mdYmodeIf | .mdBmodesKf | .mdBmodesIf | .mdUvmodeKf
  | .mdUvmodeIf | .mdRef | .mdMb => true
  | .mpNear | .mpMode | .mpReadmv | .mpSplit | .mpClamp | .mpMb => true
  | .cdBlock _ _ _ | .cdMb _ | .cdSkipmb => true
  | .ipY16Dc | .ipY16V | .ipY16H | .ipY16Tm | .ipUv8Dc | .ipUv8V | .ipUv8H | .ipUv8Tm => true
  | .ipY4Dc _ | .ipY4Tm _ | .ipY4Ve _ | .ipY4He _ | .ipY4Ld _ | .ipY4Rd _ | .ipY4Vr _ | .ipY4Vl _
  | .ipY4Hd _ | .ipY4Hu _ => true
  | .ipMb | .mcMb | .itIdctAdd _ _ | .itMb | .lfParams | .lfMb | .fcNextmb => true
  | _ => false

/-- The range decoder instance from which the command reads bools (R453). -/
def readsInstance : Instr → Option Nat
  | .rdBool _ k | .rdLit _ k | .rdSlit _ k | .rdTree _ _ k => some k.toNat
  | .mdSegid | .mdSkip | .mdYmodeKf | .mdYmodeIf | .mdBmodesKf | .mdBmodesIf | .mdUvmodeKf
  | .mdUvmodeIf | .mdRef | .mdMb => some 0
  | .mpMode | .mpReadmv | .mpSplit | .mpMb => some 0
  | .cdBlock _ _ k | .cdMb k => some k.toNat
  | _ => none

/-- The command predicts intra pixels (44_intra_predictor.md R260). -/
def predictsIntra : Instr → Bool
  | .ipY16Dc | .ipY16V | .ipY16H | .ipY16Tm | .ipUv8Dc | .ipUv8V | .ipUv8H | .ipUv8Tm => true
  | .ipY4Dc _ | .ipY4Tm _ | .ipY4Ve _ | .ipY4He _ | .ipY4Ld _ | .ipY4Rd _ | .ipY4Vr _ | .ipY4Vl _
  | .ipY4Hd _ | .ipY4Hu _ => true
  | .ipMb => true
  | _ => false

/-- The command needs the CUR role (R451, R455; 44_intra_predictor.md R260, 45_inter_motion_compensator.md
R306, 47_loop_filter.md R360). -/
def needsCur : Instr → Bool
  | .ipY16Dc | .ipY16V | .ipY16H | .ipY16Tm | .ipUv8Dc | .ipUv8V | .ipUv8H | .ipUv8Tm => true
  | .ipY4Dc _ | .ipY4Tm _ | .ipY4Ve _ | .ipY4He _ | .ipY4Ld _ | .ipY4Rd _ | .ipY4Vr _ | .ipY4Vl _
  | .ipY4Hd _ | .ipY4Hu _ => true
  | .ipMb | .mcLuma _ | .mcChroma _ _ | .mcMb | .itIdctAdd _ _ | .itMb => true
  | .lfParams | .lfMb | .lfRow | .lfsEdge _ _ | .lfnMbedge _ _ | .lfnInner _ _ => true
  | .fcRowend | .fcFrameend => true
  | _ => false

/-- The block that `ARG1` and `ARG2` name has a size in the list and lies inside plane `p`
(45_inter_motion_compensator.md R308, R309). -/
def State.argBlockInside (s : State) (sizes : List Nat) (p : Nat) : Prop :=
  field (s.arg 2) 0 8 ∈ sizes ∧ field (s.arg 2) 8 8 ∈ sizes ∧
    field (s.arg 1) 0 16 + field (s.arg 2) 0 8 ≤ s.planeW p ∧
    field (s.arg 1) 16 16 + field (s.arg 2) 8 8 ≤ s.planeH p

/-- The length of an edge is 1 to 16, and every pixel that its filter reads lies inside the plane
(47_loop_filter.md R372, R374). -/
def State.edgeInside (s : State) (e : Edge) : Prop :=
  1 ≤ e.len ∧ e.len ≤ 16 ∧ ∀ k < e.len, ∀ i ∈ e.kind.reads,
    4 ≤ (if e.dir = 0 then e.x else e.y) + i ∧ e.px k i < s.planeW e.p ∧ e.py k i < s.planeH e.p

/-- What the ARG registers and the macroblock's record must be before a command looks at a role
(60_exceptions.md R463). -/
structure State.ArgsOk (s : State) (i : Instr) : Prop where
  mcLuma : ∀ r, i = .mcLuma r → s.argBlockInside [4, 8, 16] 0
  mcChroma : ∀ r p, i = .mcChroma r p → s.argBlockInside [4, 8] p.toNat
  mcMb : i = .mcMb → s.cur.ref ≠ .current
  lfsEdge : ∀ p d, i = .lfsEdge p d → s.edgeInside (s.argEdge .simple p d)
  lfnMbedge : ∀ p d, i = .lfnMbedge p d → s.edgeInside (s.argEdge .mbEdge p d)
  lfnInner : ∀ p d, i = .lfnInner p d → s.edgeInside (s.argEdge .inner p d)

/-- The command reads the slot of the role at bit `lo` of `CR18`: that of its tag, or that of the macroblock's
reference (45_inter_motion_compensator.md R306). -/
def State.ReadsRole (s : State) (i : Instr) (lo : Nat) : Prop :=
  (∃ r, i = .mcLuma r ∧ lo = 4 * r.toNat) ∨ (∃ r p, i = .mcChroma r p ∧ lo = 4 * r.toNat) ∨
    (i = .mcMb ∧ lo = 4 * s.cur.ref.num)

/-- The command writes control registers other than `STATUS.ERR`. -/
def writesControl : Instr → Bool
  | .fcReset | .fcSetmb | .fcNextmb | .fcWrctl _ | .fcHeader | .fcFramestart | .fcFrameend
  | .fcFrame => true
  | _ => false

/-! ## Next states and frames -/

/-- The state of a command that ends with `OK` (30_encoding.md R100). -/
def State.done (s : State) : State := { s with response := .ok }

/-- Every range decoder instance but `k` is the same. -/
def onlyRd (k : Nat) (s t : State) : Prop := ∀ j, j ≠ k → t.rdAt j = s.rdAt j

/-- Every RES register but those of a list is the same. -/
def onlyRes (l : List Nat) (s t : State) : Prop := ∀ j, j ∉ l → t.result j = s.result j

/-- Every record of `MBINFO` but that of the macroblock at `MBPOS` is the same. -/
def onlyMb (s t : State) : Prop :=
  ∀ k, k ≠ mbKey s.mbx s.mby → Memory.get t.mbinfo MbRec.zero k = Memory.get s.mbinfo MbRec.zero k

/-- Every entry of `SEGMAP` but that of the macroblock at `MBPOS` is the same. -/
def onlySegment (s t : State) : Prop :=
  ∀ k, k ≠ mbKey s.mbx s.mby → Memory.get t.segmap 0 k = Memory.get s.segmap 0 k

/-- Every column of `NZ_ABOVE` but that of the macroblock at `MBPOS` is the same. -/
def onlyNzColumn (s t : State) : Prop :=
  ∀ x, x ≠ s.mbx → Memory.get t.nzAbove nzZero x = Memory.get s.nzAbove nzZero x

/-- Every pixel is the same but those of slot `slot` for which `P` holds, by plane, column and row. -/
def onlyPixels (slot : Nat) (P : Nat → Nat → Nat → Prop) (s t : State) : Prop :=
  ∀ n p x y, p < 3 → x < 16384 → ¬(n = slot ∧ P p x y) → t.pix n p x y = s.pix n p x y

/-- The next state of `MD_REF` (41_mode_decoder.md R170): the bools read, the reference stored. -/
def mdRefNext (s : State) (r : Rd) (ref : RefTag) : State :=
  (((s.setRd 0 r).setCur { s.cur with ref := ref }).setRes 0 (BitVec.ofNat 32 ref.num)).done

/-! ## Pixels that the spec's formulas give (44_intra_predictor.md R264 to R286) -/

/-- The `IP_Y16` command of a mode. -/
def y16Instr : UvMode → Instr
  | .dcPred => .ipY16Dc
  | .vPred => .ipY16V
  | .hPred => .ipY16H
  | .tmPred => .ipY16Tm

/-- The `IP_UV8` command of a mode. -/
def uv8Instr : UvMode → Instr
  | .dcPred => .ipUv8Dc
  | .vPred => .ipUv8V
  | .hPred => .ipUv8H
  | .tmPred => .ipUv8Tm

/-- The `IP_Y4` command of a sub-mode. -/
def y4Instr (b : Byte) : BMode → Instr
  | .dc => .ipY4Dc b
  | .tm => .ipY4Tm b
  | .ve => .ipY4Ve b
  | .he => .ipY4He b
  | .ld => .ipY4Ld b
  | .rd => .ipY4Rd b
  | .vr => .ipY4Vr b
  | .vl => .ipY4Vl b
  | .hd => .ipY4Hd b
  | .hu => .ipY4Hu b

/-- The places above a macroblock: `A[0..]`. -/
def State.aboveAts (s : State) (p : Nat) : List (Int × Int) := (List.range (mbSize p)).map (s.aboveAt p)

/-- The places to the left of a macroblock: `L[0..]`. -/
def State.leftAts (s : State) (p : Nat) : List (Int × Int) := (List.range (mbSize p)).map (s.leftAt p)

/-- The neighbours that a whole-block predictor reads (R264 to R272). -/
def State.wholeReads (s : State) (p : Nat) : UvMode → List (Int × Int)
  | .dcPred => (if 0 < s.mby then s.aboveAts p else []) ++ (if 0 < s.mbx then s.leftAts p else [])
  | .vPred => s.aboveAts p
  | .hPred => s.leftAts p
  | .tmPred => s.aboveAts p ++ s.leftAts p ++ [s.cornerAt p]

/-- The sum of some neighbours. -/
def State.nbSum (s : State) (slot p : Nat) (l : List (Int × Int)) : Nat := (l.map (s.nbVal slot p)).sum

/-- The pixel in row `r`, column `c` that a whole-block predictor gives (R264 to R267, R269 to R272). -/
def State.wholeVal (s : State) (slot p : Nat) (m : UvMode) (r c : Nat) : Int :=
  match m with
  | .dcPred =>
    if 0 < s.mby ∧ 0 < s.mbx then
      ((s.nbSum slot p (s.aboveAts p) + s.nbSum slot p (s.leftAts p) + mbSize p) / (2 * mbSize p) : Nat)
    else if 0 < s.mby then ((s.nbSum slot p (s.aboveAts p) + mbSize p / 2) / mbSize p : Nat)
    else if 0 < s.mbx then ((s.nbSum slot p (s.leftAts p) + mbSize p / 2) / mbSize p : Nat)
    else 128
  | .vPred => s.nbVal slot p (s.aboveAt p c)
  | .hPred => s.nbVal slot p (s.leftAt p r)
  | .tmPred =>
    clamp255 ((s.nbVal slot p (s.leftAt p r) : Int) + s.nbVal slot p (s.aboveAt p c) -
      s.nbVal slot p (s.cornerAt p))

/-- The neighbours that a 4x4 predictor reads: `A[0..n-1]` of sub-block `b`, and part of its edge `E`
(R273, R277 to R286). -/
def State.y4Reads (s : State) (b : Nat) : BMode → List (Int × Int)
  | .dc => (List.range 4).map (s.subAboveAt b) ++ (List.range 4).map (s.subLeftAt b)
  | .tm => (List.range 9).map (s.subEdgeAt b)
  | .ve => s.subEdgeAt b 4 :: (List.range 5).map (s.subAboveAt b)
  | .he => (List.range 5).map (s.subEdgeAt b)
  | .ld => (List.range 8).map (s.subAboveAt b)
  | .rd => (List.range 9).map (s.subEdgeAt b)
  | .vr => (List.range 8).map fun i => s.subEdgeAt b (i + 1)
  | .vl => (List.range 8).map (s.subAboveAt b)
  | .hd => (List.range 8).map (s.subEdgeAt b)
  | .hu => (List.range 4).map (s.subLeftAt b)

/-- The pixel in row `i`, column `j` that a 4x4 predictor gives, from `A`, `L` and `E` of R273. -/
def y4Val (A L E : Nat → Nat) (m : BMode) (i j : Nat) : Int :=
  match m with
  | .dc => ((A 0 + A 1 + A 2 + A 3 + L 0 + L 1 + L 2 + L 3 + 4) / 8 : Nat)
  | .tm => clamp255 ((L i : Int) + A j - E 4)
  | .ve => if j = 0 then avg3 (E 4) (A 0) (A 1) else avg3 (A (j - 1)) (A j) (A (j + 1))
  | .he =>
    if i = 0 then avg3 (E 4) (L 0) (L 1)
    else if i = 3 then avg3 (L 2) (L 3) (L 3)
    else avg3 (L (i - 1)) (L i) (L (i + 1))
  | .ld => if i + j < 6 then avg3 (A (i + j)) (A (i + j + 1)) (A (i + j + 2)) else avg3 (A 6) (A 7) (A 7)
  | .rd => avg3 (E (3 + j - i)) (E (4 + j - i)) (E (5 + j - i))
  | .vr =>
    if i = 3 ∧ j = 0 then avg3 (E 1) (E 2) (E 3)
    else if i = 2 ∧ j = 0 then avg3 (E 2) (E 3) (E 4)
    else if i % 2 = 1 then
      avg3 (E (3 + j - i / 2)) (E (4 + j - i / 2)) (E (5 + j - i / 2))
    else avg2 (E (4 + j - i / 2)) (E (5 + j - i / 2))
  | .vl =>
    if i = 2 ∧ j = 3 then avg3 (A 4) (A 5) (A 6)
    else if i = 3 ∧ j = 3 then avg3 (A 5) (A 6) (A 7)
    else if i % 2 = 1 then avg3 (A (j + i / 2)) (A (j + i / 2 + 1)) (A (j + i / 2 + 2))
    else avg2 (A (j + i / 2)) (A (j + i / 2 + 1))
  | .hd =>
    if i = 0 ∧ j = 2 then avg3 (E 4) (E 5) (E 6)
    else if i = 0 ∧ j = 3 then avg3 (E 5) (E 6) (E 7)
    else if j % 2 = 1 then avg3 (E (3 - i + j / 2)) (E (4 - i + j / 2)) (E (5 - i + j / 2))
    else avg2 (E (3 - i + j / 2)) (E (4 - i + j / 2))
  | .hu =>
    if 5 < 2 * i + j then L 3
    else if 2 * i + j = 5 then avg3 (L 2) (L 3) (L 3)
    else if j % 2 = 1 then avg3 (L (i + j / 2)) (L (i + j / 2 + 1)) (L (i + j / 2 + 2))
    else avg2 (L (i + j / 2)) (L (i + j / 2 + 1))

/-- The commands that `IP_MB` stands for, by the macroblock's record (R288). -/
def ipSequence (r : MbRec) : List Instr :=
  (match r.mode with
    | .bPred => (List.range 16).flatMap fun b =>
        [y4Instr (BitVec.ofNat 8 b) (r.bmodeAt b), .itIdctAdd 0 (BitVec.ofNat 8 b)]
    | .vPred => [.ipY16V]
    | .hPred => [.ipY16H]
    | .tmPred => [.ipY16Tm]
    | _ => [.ipY16Dc]) ++ [uv8Instr r.uvmode]

/-- The commands that `IT_MB` stands for (46_inverse_transform_dequant.md R342). -/
def itSequence (m : MbMode) : List Instr :=
  (if m ≠ .bPred ∧ m ≠ .split then [.itWht] else []) ++
    (if m ≠ .bPred then (List.range 16).map fun b => .itIdctAdd 0 (BitVec.ofNat 8 b) else []) ++
    (List.range 4).map (fun b => .itIdctAdd 1 (BitVec.ofNat 8 b)) ++
    (List.range 4).map (fun b => .itIdctAdd 2 (BitVec.ofNat 8 b))

/-! ## Interpolated pixels (45_inter_motion_compensator.md R301 to R307) -/

/-- `REF(s, p, x, y)` (R301), 0 where it is not specified. -/
def State.refVal (s : State) (slot p : Nat) (x y : Int) : Int :=
  (((s.pix slot p (clamp x 0 ((s.planeW p : Int) - 1)).toNat
    (clamp y 0 ((s.planeH p : Int) - 1)).toNat).getD 0).toNat : Int)

/-- `sum over t = 0..5 of SIX[f][t] * v(t)` (R302). -/
def sixSum (f : Nat) (v : Int → Int) : Int :=
  let w (t : Nat) : Int := (sixTaps.getD f []).getD t 0
  w 0 * v 0 + w 1 * v 1 + w 2 * v 2 + w 3 * v 3 + w 4 * v 4 + w 5 * v 5

/-- The pixel of `PREDICT` at integer position `(x, y)` plus the fraction `(fx/8, fy/8)` (R304). -/
def State.predVal (s : State) (slot p fx fy : Nat) (x y : Int) : Int :=
  if s.profile = 0 then
    clamp255 (asr (sixSum fy (fun u =>
      clamp255 (asr (sixSum fx (fun t => s.refVal slot p (x + t - 2) (y + u - 2)) + 64) 7)) + 64) 7)
  else
    let row (r : Int) : Int :=
      asr ((128 - 16 * (fx : Int)) * s.refVal slot p x r + 16 * fx * s.refVal slot p (x + 1) r + 64) 7
    asr ((128 - 16 * (fy : Int)) * row y + 16 * fy * row (y + 1) + 64) 7

/-- The luma pixel at `(x, y)` that a vector in quarter pixels gives (R305). -/
def State.lumaVal (s : State) (slot : Nat) (v : Mv) (x y : Nat) : Int :=
  s.predVal slot 0 ((v.x.toInt % 4).toNat * 2) ((v.y.toInt % 4).toNat * 2) (x + asr v.x.toInt 2)
    (y + asr v.y.toInt 2)

/-- The chroma pixel at `(x, y)` that a vector in eighth pixels gives (R305). -/
def State.chromaVal (s : State) (slot p : Nat) (ux uy : Int) (x y : Nat) : Int :=
  s.predVal slot p (ux % 8).toNat (uy % 8).toNat (x + asr ux 3) (y + asr uy 3)

/-- The vector of luma sub-block `b` (R310): the macroblock's, or its partition's. -/
def MbRec.lumaMv (r : MbRec) (b : Nat) : Mv :=
  if r.mode = .split then
    r.bmvAt ((splitFirst.getD r.split.num []).getD (partOf r.split.num b) 0)
  else r.mv

/-- One component of the vector of chroma block `j` in eighth chroma pixels (R307). -/
def State.chromaMv (s : State) (j : Nat) (comp : Mv → Int) : Int :=
  let u := if s.cur.mode = .split then
      let k := 8 * (j / 2) + 2 * (j % 2)
      let S := comp (s.cur.bmvAt k) + comp (s.cur.bmvAt (k + 1)) + comp (s.cur.bmvAt (k + 4)) +
        comp (s.cur.bmvAt (k + 5))
      if 0 ≤ S then asr (S + 2) 2 else asr (S + 1) 2
    else comp s.cur.mv
  if 3 ≤ s.profile then u - u % 8 else u

/-! ## Transform (46_inverse_transform_dequant.md R335) -/

/-- The sign of input `j` in output `i` of one pass of the inverse Walsh-Hadamard transform. -/
def whtSign (i j : Nat) : Int :=
  (([[1, 1, 1, 1], [1, 1, -1, -1], [1, -1, -1, 1], [1, -1, 1, -1]] : List (List Int)).getD i []).getD j 0

/-! ## Edges (47_loop_filter.md R369) -/

/-- The filter kind of an edge command's constructor is one of three; its command. -/
def edgeInstr (k : EdgeKind) (plane dir : Byte) : Instr :=
  match k with
  | .simple => .lfsEdge plane dir
  | .mbEdge => .lfnMbedge plane dir
  | .inner => .lfnInner plane dir

/-- The pixels across an edge at position `k`, those that are not specified as 0. -/
def State.lineAt (s : State) (slot : Nat) (e : Edge) (k : Nat) : Line :=
  let v (i : Nat) : Int := (((s.pix slot e.p (e.px k i) (e.py k i)).getD 0).toNat : Int)
  ⟨v 0, v 1, v 2, v 3, v 4, v 5, v 6, v 7⟩

/-- Pixel `(x, y)` is one that the filter of the edge writes. -/
def Edge.writesPixel (e : Edge) (x y : Nat) : Prop :=
  ∃ k < e.len, ∃ i ∈ e.kind.writes, x = e.px k i ∧ y = e.py k i

/-! ## Frames (48_frame_control_host.md R402 to R408, R426, R427) -/

/-- The state in which the fields of the compressed header are read: the range decoders invalidated, the
frame class and profile in `CR0`, instance 0 on the first partition (R429). -/
def State.beforeFields (s : State) (base : Word) : State :=
  (s.invalidateRd.setFrmCtl (s.frameTag base)).startFirst base (s.frameTag base)

/-- The number of partitions that the frame's header gives (R415). -/
def State.headerNpart (s : State) (base : Word) : Nat :=
  (hFields Config.openTables (tagKey (s.frameTag base)) (s.beforeFields base)).npart

/-- Where the table of partition sizes stands in the frame: after the first partition (R408, R426). -/
def State.partTable (s : State) (base : Word) : Nat :=
  hdrLen (tagKey (s.frameTag base)) + tagFirst (s.frameTag base)

/-- The size of partition `i` in the table (R426). -/
def State.partSize (s : State) (base : Word) (i : Nat) : Nat := s.frameLe base (s.partTable base + 3 * i) 3

/-- Where partition `i` of `n` starts in the frame: after the table and the partitions before it (R426). -/
def State.partStart (s : State) (base : Word) (n i : Nat) : Nat :=
  s.partTable base + 3 * (n - 1) + ((List.range i).map (s.partSize base)).sum

/-- The frame of `length` bytes at `base` passes the checks (1) to (7) of R427. -/
structure State.HeaderOk (s : State) (base length : Word) : Prop where
  buffer : base.toNat + length.toNat ≤ 2 ^ 32
  tag : 3 ≤ length.toNat
  profile : tagProfile (s.frameTag base) ≤ 3
  keyframe : tagKey (s.frameTag base) = true ∨ s.keyframeSeen = true
  header : tagKey (s.frameTag base) = true → 10 ≤ length.toNat
  start : tagKey (s.frameTag base) = true →
    s.frameByte base 3 = 0x9D ∧ s.frameByte base 4 = 0x01 ∧ s.frameByte base 5 = 0x2A
  size : tagKey (s.frameTag base) = true →
    field (s.frameSize base) 0 14 ≠ 0 ∧ field (s.frameSize base) 16 14 ≠ 0
  first : s.partTable base ≤ length.toNat

/-- The frame passes the checks (1) to (8) of R427. -/
structure State.FrameOk (s : State) (base length : Word) : Prop extends s.HeaderOk base length where
  layout : s.partStart base (s.headerNpart base) (s.headerNpart base - 1) ≤ length.toNat

/-- The frame is discarded, by the policy in `CR17` and the fields of its header (R425). -/
def State.discards (s : State) : Prop :=
  let referenced := s.crBit 13 4 = true ∨ s.crField 13 0 2 = 1 ∨ s.crField 13 2 2 = 1
  s.crField 17 0 2 = 3 ∨ (s.crField 17 0 2 = 1 ∧ ¬referenced) ∨
    (s.crField 17 0 2 = 2 ∧ (¬referenced ∨ s.crBit 0 0 = false))

/-- The new value of GOLD or ALT by its update field (R434): `keep` is its own old value, `other` the
other secondary role's. -/
def roleAfter (u keep cur prev other : Nat) : Nat :=
  if u = 0 then keep else if u = 1 then cur else if u = 2 then prev else other

/-! ## The fields of a compressed header (48_frame_control_host.md R409 to R428) -/

/-- A function with one value replaced. -/
def upd {α : Type} (f : Nat → α) (i : Nat) (v : α) : Nat → α := fun j => if j = i then v else f j

/-- Everything that the fields of a compressed header set, and instance 0, by which they are read. -/
structure Header where
  rd : Rd
  colorSpace : Bool
  clampType : Bool
  enabled : Bool
  updateMap : Bool
  updateData : Bool
  absolute : Bool
  segQuant : Nat → Int
  segFilter : Nat → Int
  simple : Bool
  level : Nat
  sharpness : Nat
  deltaEn : Bool
  refDelta : Nat → Int
  modeDelta : Nat → Int
  log2Npart : Nat
  yacQi : Nat
  /-- Y1DC, Y2DC, Y2AC, UVDC. -/
  quantDelta : Nat → Int
  uvacDelta : Int
  updGolden : Nat
  updAltref : Nat
  updLast : Bool
  biasGolden : Bool
  biasAltref : Bool
  updProbs : Bool
  mbskipEn : Bool
  prob : Nat → Option Byte
  probSaved : Nat → Option Byte

/-- The same items as the machine holds them, in the registers and bits of 10_state.md (R30, R33 to R42,
R47). -/
def State.headerFields (s : State) : Header where
  rd := s.rdAt 0
  colorSpace := s.crBit 0 5
  clampType := s.crBit 0 6
  enabled := s.crBit 3 0
  updateMap := s.crBit 3 1
  updateData := s.crBit 3 2
  absolute := s.crBit 3 3
  segQuant := sbyte (s.crRaw 4)
  segFilter := sbyte (s.crRaw 5)
  simple := s.crBit 6 0
  level := s.crField 6 1 6
  sharpness := s.crField 6 7 3
  deltaEn := s.crBit 6 10
  refDelta := sbyte (s.crRaw 7)
  modeDelta := sbyte (s.crRaw 8)
  log2Npart := s.crField 9 0 2
  yacQi := s.crField 10 0 7
  quantDelta := sbyte (s.crRaw 11)
  uvacDelta := sbyte (s.crRaw 12) 0
  updGolden := s.crField 13 0 2
  updAltref := s.crField 13 2 2
  updLast := s.crBit 13 4
  biasGolden := s.crBit 13 5
  biasAltref := s.crBit 13 6
  updProbs := s.crBit 13 7
  mbskipEn := s.crBit 14 0
  prob := s.probAt
  probSaved := Memory.find s.probSaved

/-- A bool of probability `p`, and the fields with instance 0 after it. -/
def Header.bool (c : Memory Byte) (p : Byte) (h : Header) : Bool × Header :=
  ((readBool c p h.rd).1, { h with rd := (readBool c p h.rd).2 })

/-- `F` (R411). -/
def Header.flag (c : Memory Byte) (h : Header) : Bool × Header := h.bool c 128

/-- `L(n)` (R411). -/
def Header.lit (c : Memory Byte) (n : Nat) (h : Header) : Nat × Header :=
  ((readLit c n h.rd).1, { h with rd := (readLit c n h.rd).2 })

/-- `S(n)` (R411). -/
def Header.slit (c : Memory Byte) (n : Nat) (h : Header) : Int × Header :=
  ((readSlit c n h.rd).1, { h with rd := (readSlit c n h.rd).2 })

/-- `F ? S(n) : 0` (R411). -/
def Header.optSlit (c : Memory Byte) (n : Nat) (h : Header) : Int × Header :=
  let (f, h) := h.flag c
  if f then h.slit c n else (0, h)

/-- `PROB[i] <- L(8)`. -/
def Header.readProb (c : Memory Byte) (h : Header) (i : Nat) : Header :=
  let (v, h) := h.lit c 8
  { h with prob := upd h.prob i (some (BitVec.ofNat 8 v)) }

/-- The default probabilities of a keyframe (R409, 42_motion_predictor.md R204, 10_state.md R47): the token
probabilities of the open table, `mvc`, `ymode` and `uvmode`; every other entry as before. -/
def keyDefaults (old : Nat → Option Byte) (i : Nat) : Option Byte :=
  if i < 1056 then some (Config.coefProbsDefault (i / 264) (i / 33 % 8) (i / 11 % 3) (i % 11))
  else if i < 1101 then
    ([162, 128, 225, 146, 172, 147, 214, 39, 156, 128, 129, 132, 75, 145, 178, 206, 239, 254, 254,
      164, 128, 204, 170, 119, 235, 140, 230, 228, 128, 130, 130, 74, 148, 180, 203, 236, 254, 254,
      112, 86, 140, 37, 162, 101, 204] : List Byte)[i - 1056]?
  else old i

/-- The keyframe reset (R409). -/
def Header.keyReset (h : Header) : Header :=
  { h with
    enabled := false, updateMap := false, updateData := false, absolute := false
    segQuant := fun _ => 0, segFilter := fun _ => 0, refDelta := fun _ => 0, modeDelta := fun _ => 0
    updGolden := 1, updAltref := 1, updLast := true, biasGolden := false, biasAltref := false
    prob := keyDefaults h.prob }

/-- Colour space and clamp type (R410). -/
def Header.color (c : Memory Byte) (h : Header) : Header :=
  let (cs, h) := h.flag c
  let (ct, h) := h.flag c
  { h with colorSpace := cs, clampType := ct }

/-- `byte s of CR4 <- F ? S(7) : 0` (R412). -/
def Header.readSegQuant (c : Memory Byte) (h : Header) (s : Nat) : Header :=
  let (v, h) := h.optSlit c 7
  { h with segQuant := upd h.segQuant s v }

/-- `byte s of CR5 <- F ? S(6) : 0` (R412). -/
def Header.readSegFilter (c : Memory Byte) (h : Header) (s : Nat) : Header :=
  let (v, h) := h.optSlit c 6
  { h with segFilter := upd h.segFilter s v }

/-- `PROB.segid[i] <- F ? L(8) : 255` (R412). -/
def Header.readSegProb (c : Memory Byte) (h : Header) (i : Nat) : Header :=
  let (f, h) := h.flag c
  if f then h.readProb c (segidIndex + i) else { h with prob := upd h.prob (segidIndex + i) (some 255) }

/-- Segmentation (R412). -/
def Header.segmentation (c : Memory Byte) (h : Header) : Header :=
  let (en, h) := h.flag c
  let h := { h with enabled := en }
  if en then
    let (map, h) := h.flag c
    let (data, h) := h.flag c
    let h := { h with updateMap := map, updateData := data }
    let h := if data then
        let (abs, h) := h.flag c
        [0, 1, 2, 3].foldl (readSegFilter c) ([0, 1, 2, 3].foldl (readSegQuant c) { h with absolute := abs })
      else h
    if map then [0, 1, 2].foldl (readSegProb c) h else h
  else { h with updateMap := false, updateData := false }

/-- Filter type, level and sharpness (R413). -/
def Header.filter (c : Memory Byte) (h : Header) : Header :=
  let (simple, h) := h.flag c
  let (level, h) := h.lit c 6
  let (sharpness, h) := h.lit c 3
  { h with simple := simple, level := level, sharpness := sharpness }

/-- `if F = 1 then byte r of CR7 <- S(6)` (R414). -/
def Header.readRefDelta (c : Memory Byte) (h : Header) (r : Nat) : Header :=
  let (f, h) := h.flag c
  if f then
    let (v, h) := h.slit c 6
    { h with refDelta := upd h.refDelta r v }
  else h

/-- `if F = 1 then byte m of CR8 <- S(6)` (R414). -/
def Header.readModeDelta (c : Memory Byte) (h : Header) (m : Nat) : Header :=
  let (f, h) := h.flag c
  if f then
    let (v, h) := h.slit c 6
    { h with modeDelta := upd h.modeDelta m v }
  else h

/-- The loop-filter deltas (R414). -/
def Header.deltas (c : Memory Byte) (h : Header) : Header :=
  let (en, h) := h.flag c
  let h := { h with deltaEn := en }
  if en then
    let (update, h) := h.flag c
    if update then [0, 1, 2, 3].foldl (readModeDelta c) ([0, 1, 2, 3].foldl (readRefDelta c) h) else h
  else h

/-- The partition count (R415). -/
def Header.partCount (c : Memory Byte) (h : Header) : Header :=
  let (n, h) := h.lit c 2
  { h with log2Npart := n }

/-- `byte i of CR11 <- F ? S(4) : 0` (R416). -/
def Header.readQuantDelta (c : Memory Byte) (h : Header) (i : Nat) : Header :=
  let (v, h) := h.optSlit c 4
  { h with quantDelta := upd h.quantDelta i v }

/-- The quantiser index and its five deltas (R416). -/
def Header.quant (c : Memory Byte) (h : Header) : Header :=
  let (q, h) := h.lit c 7
  let h := [0, 1, 2, 3].foldl (readQuantDelta c) { h with yacQi := q }
  let (v, h) := h.optSlit c 4
  { h with uvacDelta := v }

/-- The update field of one reference: 1, or a literal that names the source, 3 acting as 0 (R417). -/
def Header.updateField (c : Memory Byte) (current : Bool) (h : Header) : Nat × Header :=
  if current then (1, h)
  else
    let (v, h) := h.lit c 2
    (if v = 1 then 2 else if v = 2 then 3 else 0, h)

/-- The reference updates (R417). -/
def Header.references (c : Memory Byte) (h : Header) : Header :=
  let (g, h) := h.flag c
  let (a, h) := h.flag c
  let (golden, h) := h.updateField c g
  let h := { h with updGolden := golden }
  let (altref, h) := h.updateField c a
  let h := { h with updAltref := altref }
  let (bg, h) := h.flag c
  let (ba, h) := h.flag c
  { h with biasGolden := bg, biasAltref := ba }

/-- The commit flag, and the snapshot where it is 0 (R418). -/
def Header.commit (c : Memory Byte) (h : Header) : Header :=
  let (f, h) := h.flag c
  { h with updProbs := f, probSaved := if f then h.probSaved else h.prob }

/-- The update-last flag (R419). -/
def Header.lastFlag (c : Memory Byte) (h : Header) : Header :=
  let (f, h) := h.flag c
  { h with updLast := f }

/-- The indices of the token probabilities in the order of R420, `n` fastest. -/
def tokenPlaces : List (Nat × Nat × Nat × Nat) :=
  (List.range 4).flatMap fun t => (List.range 8).flatMap fun b => (List.range 3).flatMap fun c =>
    (List.range 11).map fun n => (t, b, c, n)

/-- One token probability (R420). -/
def Header.readToken (c : Memory Byte) (h : Header) (e : Nat × Nat × Nat × Nat) : Header :=
  let (f, h) := h.bool c (Config.coefUpdateProbs e.1 e.2.1 e.2.2.1 e.2.2.2)
  if f then h.readProb c (tokenIndex e.1 e.2.1 e.2.2.1 + e.2.2.2) else h

/-- The token probability updates (R420). -/
def Header.tokens (c : Memory Byte) (h : Header) : Header := tokenPlaces.foldl (readToken c) h

/-- Skip coding (R421). -/
def Header.skip (c : Memory Byte) (h : Header) : Header :=
  let (f, h) := h.flag c
  let h := { h with mbskipEn := f }
  if f then h.readProb c mbskipIndex else h

/-- The probabilities of the reference choice (R422). -/
def Header.refProbs (c : Memory Byte) (h : Header) : Header :=
  [intraIndex, lastIndex, goldenIndex].foldl (readProb c) h

/-- The mode probabilities (R423). -/
def Header.modeProbs (c : Memory Byte) (h : Header) : Header :=
  let (fy, h) := h.flag c
  let h := if fy then [1094, 1095, 1096, 1097].foldl (readProb c) h else h
  let (fuv, h) := h.flag c
  if fuv then [1098, 1099, 1100].foldl (readProb c) h else h

/-- The components of the vector probabilities in the order of R424. -/
def mvPlaces : List (Nat × Nat) := (List.range 2).flatMap fun d => (List.range 19).map fun i => (d, i)

/-- One vector probability: twice a literal, or 1 (R424). -/
def Header.readMvc (c : Memory Byte) (h : Header) (e : Nat × Nat) : Header :=
  let (f, h) := h.bool c (Config.mvUpdateProbs e.1 e.2)
  if f then
    let (x, h) := h.lit c 7
    { h with prob := upd h.prob (mvcIndex e.1 + e.2) (some (BitVec.ofNat 8 (if x = 0 then 1 else 2 * x))) }
  else h

/-- The vector-probability updates (R424). -/
def Header.vectors (c : Memory Byte) (h : Header) : Header := mvPlaces.foldl (readMvc c) h

/-- The fields of a keyframe's header, in the order of R428. -/
def Header.parseKey (c : Memory Byte) (h : Header) : Header :=
  let h := ((h.keyReset.color c).segmentation c).filter c
  let h := (((h.deltas c).partCount c).quant c).commit c
  (h.tokens c).skip c

/-- The fields of an interframe's header, in the order of R428. -/
def Header.parseInter (c : Memory Byte) (h : Header) : Header :=
  let h := ((h.segmentation c).filter c).deltas c
  let h := ((((h.partCount c).quant c).references c).commit c).lastFlag c
  ((((h.tokens c).skip c).refProbs c).modeProbs c).vectors c

/-- The fields of the header that starts at instance `r`'s cursor (R428). -/
def Header.parse (c : Memory Byte) (key : Bool) (r : Rd) (h : Header) : Header :=
  if key then { h with rd := r }.parseKey c else { h with rd := r }.parseInter c

/-! ## Vectors (42_motion_predictor.md R192 to R211) -/

/-- A neighbour's vector, negated where the sign biases of the two references differ (R192). -/
def State.nearVector (s : State) (e : MbRec) : Mv :=
  let bias (r : RefTag) : Bool := (r == .golden && s.crBit 13 5) || (r == .altref && s.crBit 13 6)
  if bias e.ref = bias s.cur.ref then e.mv else ⟨-e.mv.x, -e.mv.y⟩

/-- The three neighbours in the order of the search, with their weights (R195). -/
def State.nearNeighbours (s : State) : List (MbRec × Nat) :=
  [(s.aboveMb, 2), (s.leftMb, 2), (s.aboveLeftMb, 1)]

/-- The vectors of the inter neighbours that are not zero, with their weights (R196). -/
def State.nearVotes (s : State) : List (Mv × Nat) :=
  s.nearNeighbours.filterMap fun e =>
    if e.1.ref ≠ .current ∧ e.1.mv ≠ Mv.zero then some (s.nearVector e.1, e.2) else none

/-- The weight of the inter neighbours whose vector is zero (R196). -/
def State.zeroWeight (s : State) : Nat :=
  (s.nearNeighbours.map fun e => if e.1.ref ≠ .current ∧ e.1.mv = Mv.zero then e.2 else 0).sum

/-- One vector more: into the last bin where it equals that bin's, else a new bin (R196). -/
def addVote (bins : List (Mv × Nat)) (v : Mv × Nat) : List (Mv × Nat) :=
  match bins.getLast? with
  | none => [v]
  | some b => if b.1 = v.1 then bins.dropLast ++ [(b.1, b.2 + v.2)] else bins ++ [v]

/-- `clampmv` (R193). -/
def State.clampedMv (s : State) (v : Mv) : Mv where
  x := BitVec.ofInt 16 (max (-(64 * (s.mbx : Int)) - 64) (min (64 * ((s.mbW : Int) - 1 - s.mbx) + 64) v.x.toInt))
  y := BitVec.ofInt 16 (max (-(64 * (s.mby : Int)) - 64) (min (64 * ((s.mbH : Int) - 1 - s.mby) + 64) v.y.toInt))

/-- Bools read one after the other, bit `i` with probability `p i`: the number they make (R202). -/
def readBits (cbuf : Memory Byte) (p : Nat → Byte) : List Nat → Rd → Nat × Rd
  | [], r => (0, r)
  | i :: rest, r =>
    let x := readBool cbuf (p i) r
    let y := readBits cbuf p rest x.2
    (2 ^ i * boolNat x.1 + y.1, y.2)

/-- `read_mv_component(p)` (R202) from instance `r` gives `d` and leaves `r'`: the long form, its bits in the
order 0, 1, 2, 9 down to 4 and then 3 unless it is implied, or the short form by tree 8; then the sign of a
magnitude that is not 0. -/
def MvCoded (cbuf : Memory Byte) (p : Nat → Byte) (r : Rd) (d : Int) (r' : Rd) : Prop :=
  let long := readBool cbuf (p 0) r
  let bits := readBits cbuf (fun i => p (9 + i)) [0, 1, 2, 9, 8, 7, 6, 5, 4] long.2
  let bit3 := readBool cbuf (p (9 + 3)) bits.2
  ∃ (a : Nat) (q : Rd),
    (long.1 = false → readTree cbuf smallMvTree (fun n => .ok (p (2 + n))) 0 long.2 = .ok (a, q)) ∧
    (long.1 = true → bits.1 < 16 → a = bits.1 + 8 ∧ q = bits.2) ∧
    (long.1 = true → 16 ≤ bits.1 → a = bits.1 + 8 * boolNat bit3.1 ∧ q = bit3.2) ∧
    (a = 0 → d = 0 ∧ r' = q) ∧
    (a ≠ 0 → let sign := readBool cbuf (p 1) q
      d = (if sign.1 then -(a : Int) else (a : Int)) ∧ r' = sign.2)

/-- A vector delta read from instance 0, the vertical component first (R203): `d`, and the instance after. -/
def State.DeltaCoded (s : State) (d : Mv) (r' : Rd) : Prop :=
  let p (c i : Nat) : Byte := (s.probAt (mvcIndex c + i)).getD 0
  ∃ (dy dx : Int) (r : Rd), MvCoded s.cbuf (p 0) (s.rdAt 0) dy r ∧ MvCoded s.cbuf (p 1) r dx r' ∧
    -1023 ≤ dy ∧ dy ≤ 1023 ∧ -1023 ≤ dx ∧ dx ≤ 1023 ∧ d = ⟨BitVec.ofInt 16 dx, BitVec.ofInt 16 dy⟩

/-- One partition of a split macroblock (R207 to R211), `n` its number and `k` its first sub-block: the
context from the vectors to the left and above, the choice by tree 7, the vector that it makes, and that
vector in every sub-block of the partition. -/
def SubVectorRead (shape n k : Nat) (s t : State) : Prop :=
  let l := if k % 4 = 0 then s.leftMb.bmvAt (k + 3) else s.cur.bmvAt (k - 1)
  let a := if k < 4 then s.aboveMb.bmvAt (k + 12) else s.cur.bmvAt (k - 4)
  let ctx := if l = a then (if a = Mv.zero then 4 else 3)
    else if a = Mv.zero then 2 else if l = Mv.zero then 1 else 0
  ∃ (choice : Nat) (r r' : Rd) (v : Mv), choice ≤ 3 ∧
    readTree s.cbuf submvrefTree (fun i => .ok ((submvProbs.getD ctx []).getD i 0)) 0 (s.rdAt 0) =
      .ok (choice, r) ∧
    (choice = 0 → v = l ∧ r' = r) ∧ (choice = 1 → v = a ∧ r' = r) ∧ (choice = 2 → v = Mv.zero ∧ r' = r) ∧
    (choice = 3 → ∃ d, (s.setRd 0 r).DeltaCoded d r' ∧ v = ⟨s.cand.best.x + d.x, s.cand.best.y + d.y⟩) ∧
    t = (s.setRd 0 r').setCur { s.cur with
      bmv := Vector.ofFn fun b : Fin 16 => if (splitPart.getD shape []).getD b 0 = n then v else s.cur.bmvAt b }

/-! ## Tokens (43_coefficient_decoder.md R232 to R240) -/

/-- The extra bits of a category, most significant first, after the value `e` (R236). -/
def extraValue (cbuf : Memory Byte) : List Byte → Nat → Rd → Nat × Rd
  | [], e, r => (e, r)
  | q :: rest, e, r =>
    let x := readBool cbuf q r
    extraValue cbuf rest (2 * e + boolNat x.1) x.2

/-- The magnitude of a token from 1 to 10 (R236): the token itself up to FOUR, else the base of its category
plus the extra bits. -/
def tokenValue (cbuf : Memory Byte) (tok : Nat) (r : Rd) : Nat × Rd :=
  if tok ≤ 4 then (tok, r)
  else
    let cat := Config.tables.categories.getD (tok - 5) (0, [])
    let x := extraValue cbuf cat.2 0 r
    (cat.1 + x.1, x.2)

/-- The context of a block's first token: the flags above and to the left of it, added (R235, R239). -/
def State.tokenContext (s : State) (b : Nat) : Nat :=
  boolNat ((Memory.get s.nzAbove nzZero s.mbx)[nzAboveIndex b]?.getD false) +
    boolNat (s.nzLeft[nzLeftIndex b]?.getD false)

/-- The tokens of a block (R240), read from position `first` until EOB or position 16: `tok j` is the token at
position `j`, `value j` its signed value and `r j` the instance before it; `i` is the position at which the
reading stops, and `r'` the instance then. A token after a ZERO is read without the EOB decision, and in
context 0; one after a magnitude of 1 in context 1, after a larger one in context 2. -/
def State.TokensRead (s : State) (ty b : Nat) (r0 : Rd) (i : Nat) (tok : Nat → Nat) (value : Nat → Int)
    (r' : Rd) : Prop :=
  let first := if ty = 0 then 1 else 0
  ∃ r : Nat → Rd,
    let ctx (j : Nat) : Nat := if j = first then s.tokenContext b
      else if tok (j - 1) = 0 then 0 else if (value (j - 1)).natAbs = 1 then 1 else 2
    let start (j : Nat) : Nat := if first < j ∧ tok (j - 1) = 0 then 2 else 0
    let walk (j : Nat) : Res (Nat × Rd) :=
      readTree s.cbuf tokenTree (s.probs (tokenIndex ty (bands.getD j 0) (ctx j))) (start j) (r j)
    first ≤ i ∧ i ≤ 16 ∧ r first = r0 ∧
    (∀ j, first ≤ j → j < i → ∃ q, walk j = .ok (tok j, q) ∧ tok j ≤ 10 ∧
      (tok j = 0 → value j = 0 ∧ r (j + 1) = q) ∧
      (tok j ≠ 0 →
        let m := tokenValue s.cbuf (tok j) q
        let sign := readBool s.cbuf 128 m.2
        1 ≤ m.1 ∧ m.1 ≤ 2114 ∧ value j = (if sign.1 then -(m.1 : Int) else (m.1 : Int)) ∧
          r (j + 1) = sign.2)) ∧
    (i < 16 → walk i = .ok (11, r')) ∧ (i = 16 → r' = r 16)

/-! ## The edges of a macroblock (47_loop_filter.md R365, R376 to R380) -/

/-- The edges of macroblock `(mx, my)` in the order in which `LF_MB` filters them: the left edge unless it is
the frame's, the interior vertical edges where the macroblock has them, the top edge unless it is the
frame's, the interior horizontal edges; of plane 0 alone where the filter is the simple one. None where the
level is 0 (R366). -/
def lfSequence (simple : Bool) (r : LfpRec) (mx my : Nat) : List Edge :=
  let planes : List Nat := if simple then [0] else [0, 1, 2]
  let size (p : Nat) : Nat := if p = 0 then 16 else 8
  let border (dir p : Nat) : Edge :=
    { kind := if simple then .simple else .mbEdge
      lim := ⟨2 * (r.level + 2) + r.ilimit, r.ilimit, r.hev⟩
      p := p, dir := dir, x := size p * mx, y := size p * my, len := size p }
  let inner (dir p off : Nat) : Edge :=
    { kind := if simple then .simple else .inner
      lim := ⟨2 * r.level + r.ilimit, r.ilimit, r.hev⟩
      p := p, dir := dir, x := size p * mx + (if dir = 0 then off else 0)
      y := size p * my + (if dir = 0 then 0 else off), len := size p }
  let inners (dir : Nat) : List Edge :=
    if r.inner then
      planes.flatMap fun p => (if p = 0 then [4, 8, 12] else [4] : List Nat).map (inner dir p)
    else []
  if r.level = 0 then []
  else
    (if 0 < mx then planes.map (border 0) else []) ++ inners 0 ++
      ((if 0 < my then planes.map (border 1) else []) ++ inners 1)

/-- One edge filtered in a slot: each line across it becomes what its filter makes of it, and nothing else
changes (R369). -/
def EdgeFiltered (slot : Nat) (e : Edge) (s t : State) : Prop :=
  (∀ k < e.len, ∀ i ∈ e.kind.writes, t.pix slot e.p (e.px k i) (e.py k i) =
    some (BitVec.ofInt 8 ((e.kind.run e.lim (s.lineAt slot e k)).at i))) ∧
  onlyPixels slot (fun p x y => p = e.p ∧ e.writesPixel x y) s t ∧ t = { s with fb := t.fb }

/-- Edges filtered one after the other, each on the pixels that the ones before it left (R376). -/
def EdgesFiltered (slot : Nat) : List Edge → State → State → Prop
  | [], s, t => t = s
  | e :: rest, s, t => ∃ u, EdgeFiltered slot e s u ∧ EdgesFiltered slot rest u t

/-! ## Outcomes and sequences of commands -/

/-- Go on from the next state; a fault or a refusal ends the run. -/
def andThen (o : Host.Outcome State Fault Refusal) (f : State → Host.Outcome State Fault Refusal) :
    Host.Outcome State Fault Refusal :=
  match o with
  | .next t => f t
  | .fault x => .fault x
  | .refused x => .refused x

/-- Run a step of a program for each element of a list. -/
def forEach {α : Type} (f : α → State → Host.Outcome State Fault Refusal) :
    List α → State → Host.Outcome State Fault Refusal
  | [], s => .next s
  | a :: rest, s => andThen (f a s) (forEach f rest)

/-- Run one command after the other. -/
def runCommands (l : List Instr) (s : State) : Host.Outcome State Fault Refusal := forEach exec l s

/-- The commands of `MD_MB` (41_mode_decoder.md R171). -/
def mdSequence (s : State) : Host.Outcome State Fault Refusal :=
  andThen (runCommands [.mdSegid, .mdSkip] s) fun a =>
    if a.crBit 0 0 then
      andThen (exec .mdYmodeKf a) fun b =>
        runCommands (if b.cur.mode = .bPred then [.mdBmodesKf, .mdUvmodeKf] else [.mdUvmodeKf]) b
    else
      andThen (exec .mdRef a) fun b =>
        if b.cur.ref = .current then
          andThen (exec .mdYmodeIf b) fun c =>
            runCommands (if c.cur.mode = .bPred then [.mdBmodesIf, .mdUvmodeIf] else [.mdUvmodeIf]) c
        else exec .mpMb b

/-- One vector for a whole macroblock, its sixteen sub-vectors and shape 0 (42_motion_predictor.md R214). -/
def State.withMv (s : State) (v : Mv) : State :=
  s.setCur { s.cur with mv := v, bmv := Vector.replicate 16 v, split := .halves16x8 }

/-- The commands of `MP_MB` and what it does between them (42_motion_predictor.md R214). -/
def mpSequence (s : State) : Host.Outcome State Fault Refusal :=
  andThen (runCommands [.mpNear, .mpMode] s) fun a =>
    match a.cur.mode with
    | .zero => .next (a.withMv Mv.zero)
    | .nearest => .next (a.withMv a.cand.nearest)
    | .near => .next (a.withMv a.cand.near)
    | .new => andThen (exec .mpReadmv a) fun b =>
        .next (b.withMv ⟨b.cand.best.x + (b.result 0).extractLsb' 0 16,
          b.cand.best.y + (b.result 0).extractLsb' 16 16⟩)
    | .split => exec .mpSplit a
    | _ => .next (a.withMv a.cur.mv)

/-- The commands of `CD_MB` (43_coefficient_decoder.md R242). -/
def cdSequence (y2 : Bool) (k : Byte) : List Instr :=
  (if y2 then [.cdBlock 1 24 k] else []) ++
    (List.range 16).map (fun b => .cdBlock (if y2 then 0 else 3) (BitVec.ofNat 8 b) k) ++
    (List.range 8).map (fun b => .cdBlock 2 (BitVec.ofNat 8 (16 + b)) k)

/-- One macroblock of the loop of 48_frame_control_host.md R430. -/
def frameMacroblock (s : State) : Host.Outcome State Fault Refusal :=
  andThen (exec .mdMb s) fun a =>
    andThen (exec (if a.cur.skip then .cdSkipmb else .cdMb (BitVec.ofNat 8 (1 + a.mby % 2 ^ a.crField 9 0 2))) a)
      fun b => runCommands [if b.cur.ref = .current then .ipMb else .mcMb, .itMb, .lfParams] b

/-- One row of the loop of R430. -/
def frameRowProgram (s : State) : Host.Outcome State Fault Refusal :=
  andThen (exec .fcRowstart s) fun a =>
    andThen (forEach (fun mx t => andThen (frameMacroblock t) fun u =>
        if mx + 1 < u.mbW then exec .fcNextmb u else .next u) (List.range a.mbW) a) fun b =>
      andThen (exec .fcRowend b) fun c =>
        runCommands (if c.crField 6 1 6 = 0 then [.fcNextmb] else [.lfRow, .fcNextmb]) c

/-- The commands of a frame after its header (R430, R437): `FC_FRAMESTART`, the rows, `FC_FRAMEEND`. -/
def frameProgram (s : State) : Host.Outcome State Fault Refusal :=
  andThen (exec .fcFramestart s) fun a =>
    andThen (forEach (fun _ => frameRowProgram) (List.range a.mbH) a) (exec .fcFrameend)

end Sys2Proof.Machine
end

