-- ==== Sys2Proof/Certificates/Slice0/Obligations.lean ====
section
/-! DEFINITION. The statements for the provers. Each docstring names the rules of the spec that its
statement formalises, and the model's own choices that it rests on. -/

open Sys2Proof Sys2Proof.Machine

/-! ## Encoding (30_encoding.md) -/

/-- Decoding the encoded word of any command gives the command back, with every operand byte (R101,
R102, R104). -/
def Obligations.DecodeEncodeAgree : Prop := ∀ i : Instr, decode (encode i) = .ok i

/-- A word that decodes to a command is that command's encoded word: each word has one meaning, and no
bit of it is dropped (R105). -/
def Obligations.EncodeDecodeAgree : Prop := ∀ (w : Word) (i : Instr), decode w = .ok i → encode i = w

/-- Thirteen words written out from the table of R104 and the spec's own examples, one or more of every
unit, decode to the commands they stand for. -/
def Obligations.SpecWordsDecode : Prop :=
  decode 0x01800000 = .ok (.rdBool 128 0) ∧ decode 0x00000001 = .ok (.rdInit 1) ∧
  decode 0x1F000000 = .ok .mdMb ∧ decode 0x2F000000 = .ok .mpMb ∧
  decode 0x30021102 = .ok (.cdBlock 2 17 2) ∧ decode 0x40020000 = .ok .ipY16H ∧
  decode 0x42090F00 = .ok (.ipY4Hu 15) ∧ decode 0x51030200 = .ok (.mcChroma 3 2) ∧
  decode 0x62020300 = .ok (.itIdctAdd 2 3) ∧
  decode 0x74010100 = .ok (.lfnMbedge 1 1) ∧ decode 0x86130000 = .ok (.fcRdctl 19) ∧
  decode 0x870000C8 = .ok (.fcWrprob 200) ∧ decode 0x8F020000 = .ok (.fcWrarg 2)

/-- Which words are no commands, and for what reason: a reserved `op` or a non-zero reserved field, and
a predictor selector without a row (R106, R107). -/
def Obligations.RejectedWords : Prop :=
  ∀ w : Word,
    (decode w = .error .illegalCmd ↔
      ∀ m, reservedBits (opField w).toNat = some m → w &&& m ≠ 0) ∧
    (decode w = .error .badOperand ↔
      (∃ m, reservedBits (opField w).toNat = some m ∧ w &&& m = 0) ∧
        selectorMax (opField w).toNat < (aField w).toNat)

/-! ## A step (30_encoding.md R100, R105; 20_memory.md R71, R83, R86) -/

/-- A command word that the host presents runs as the command it decodes to, the rest of the host's
list kept; `withFetchWord` presents a word so. -/
def Obligations.StepRunsDecodedCommand : Prop :=
  (∀ (s : State) (w : Word) (rest : List HostEvent) (i : Instr),
    s.hostq = .command w :: rest → decode w = .ok i → step s = exec i (s.withQueue rest)) ∧
  (∀ (s : State) (w : Nat) (i : Instr),
    decode (BitVec.ofNat 32 w) = .ok i → step (s.withFetchWord 32 w) = exec i s)

/-- What else a step does with the host's list: a word that is no command answers its error and changes
nothing but `STATUS.ERR` (R106, R107); the host writes an argument register (R110); it writes a byte of
`CBUF`, and where that changes the byte, an instance whose buffer holds the address sees free bytes from
then on (R71, U14; that it is these instances, until they are started anew, is the model's choice,
notes/assumptions/25.md); with nothing to do the hardware waits (70_reset_and_hazards.md R480). -/
def Obligations.StepTakesHostEvents : Prop :=
  (∀ (s : State) (w : Word) (rest : List HostEvent), s.hostq = .command w :: rest →
    (decode w = .error .illegalCmd → step s = .next ((s.withQueue rest).raise .illegalCmd)) ∧
    (decode w = .error .badOperand → step s = .next ((s.withQueue rest).raise .badOperand))) ∧
  ∀ (s t : State), step s = .next t →
    (s.hostq = [] → t = s) ∧
    (∀ (i : Fin 4) (v : Word) (rest : List HostEvent), s.hostq = .writeArg i v :: rest →
      t = { s with hostq := rest, args := t.args } ∧
        ∀ j : Nat, t.arg j = if j = i then v else s.arg j) ∧
    (∀ (a : Word) (b : Byte) (rest : List HostEvent), s.hostq = .writeCbuf a b :: rest →
      t = { s with hostq := rest, cbuf := t.cbuf, rd := t.rd, changeCount := t.changeCount } ∧
        (∀ c : Word, cbufByte t.cbuf c = if c = a then b else cbufByte s.cbuf c) ∧
        ∀ k : Nat,
          let r := s.rdAt k
          (r.valid = true ∧ a - r.base < r.size ∧ Memory.find s.cbuf a.toNat ≠ some b →
            ∃ n, t.rdAt k = { r with changed := some n }) ∧
          (¬(r.valid = true ∧ a - r.base < r.size ∧ Memory.find s.cbuf a.toNat ≠ some b) →
            t.rdAt k = r))

/-! ## Errors (60_exceptions.md R450 to R463) -/

/-- `raise` (R452): `STATUS.ERR` keeps its first code, the response carries this command's code, and
no other state changes, the other bits of `STATUS` included. -/
def Obligations.RaiseIsSticky : Prop :=
  ∀ (s : State) (c : ErrCode),
    (s.raise c).errFlag = (if s.errFlag = 0 then c.num else s.errFlag) ∧
    (s.raise c).response = .error c ∧
    (s.raise c).keyframeSeen = s.keyframeSeen ∧ (s.raise c).visible = s.visible ∧
    (∀ j, j ≠ 16 → (s.raise c).crRaw j = s.crRaw j) ∧
    s.raise c = { s with cr := (s.raise c).cr, response := .error c }

/-- An operand field outside its range answers `ERR_BAD_OPERAND` and changes nothing else (R107,
R460), whatever the state is. -/
def Obligations.IllFormedCommandRaises : Prop :=
  ∀ (i : Instr) (s : State), i.wf = false → exec i s = .next (s.raise .badOperand)

/-- No command is refused by the model, and every next state carries a response: `OK` or an error (R100).
That a command may end in a model fault instead, where it uses an item that the spec calls unspecified
(notes/assumptions/1.md), this does not exclude. One that answers an error has done nothing else (R452
(3)): all but `FC_HEADER` and `FC_FRAME`. What a refused size change has taken from the allocator's answers
is the model's input, not the spec's state (20_memory.md R88; notes/assumptions/5.md). -/
def Obligations.ErrorLeavesState : Prop :=
  ∀ (i : Instr) (s : State),
    (∀ r, exec i s ≠ .refused r) ∧
    ∀ t, exec i s = .next t →
      (t.response = .ok ∨ ∃ c, t.response = .error c) ∧
      ∀ c, i ≠ .fcHeader → i ≠ .fcFrame → t.response = .error c →
        t = s.raise c ∨ (i = .fcWrctl 1 ∧ c = .alloc ∧ t = (s.askAllocator.2).raise .alloc)

/-- What an error of `FC_HEADER` and of `FC_FRAME` leaves (R452, R427): every range decoder instance
invalid, `STATUS.ERR`, the RES registers unspecified (free values), and everything else as it was;
`FC_FRAME` has cleared `STATUS.ERR` and `STATUS.VISIBLE` first (R437). That the instances are
invalidated also when the buffer's bounds are refused is the model's reading
(notes/assumptions/10.md); so is that an error inside a frame leaves what an error of its header does
(notes/assumptions/12.md). The free values are the model's (notes/assumptions/6.md). -/
def Obligations.FrameErrorLeavesState : Prop :=
  ∀ (i : Instr) (s t : State) (c : ErrCode), i = .fcHeader ∨ i = .fcFrame →
    exec i s = .next t → t.response = .error c →
    (∀ k, t.rdValid k = false) ∧
    (∀ j, j ≠ 16 → t.crRaw j = s.crRaw j) ∧
    t.keyframeSeen = s.keyframeSeen ∧
    (i = .fcHeader → t.visible = s.visible ∧
      t.errFlag = if s.errFlag = 0 then c.num else s.errFlag) ∧
    (i = .fcFrame → t.visible = false ∧ t.errFlag = c.num) ∧
    (∀ j < 4, t.result j = Config.freeResult s.freeCount j) ∧
    t = { s with rd := t.rd, cr := t.cr, res := t.res, response := t.response,
                 allocAnswers := t.allocAnswers, allocCount := t.allocCount,
                 freeCount := s.freeCount + 1 }

/-- A per-macroblock command outside the frame answers `ERR_BAD_MBPOS` (R457), before it looks at a
range decoder or a role (R463). -/
def Obligations.PositionIsChecked : Prop :=
  (∀ (i : Instr) (s : State), i.wf = true → needsPosition i = true → s.posOk = false →
    exec i s = .next (s.raise .badMbpos)) ∧
  (∀ (i : Instr) (s : State), i = .lfRow ∨ i = .fcRowend → s.mbH ≤ s.mby →
    exec i s = .next (s.raise .badMbpos))

/-- A command that reads a bool from an instance that has not been initialised answers
`ERR_RD_UNINIT` (R453). -/
def Obligations.DecoderIsChecked : Prop :=
  ∀ (i : Instr) (s : State) (k : Nat), i.wf = true → readsInstance i = some k →
    (needsPosition i = true → s.posOk = true) → s.rdValid k = false →
    exec i s = .next (s.raise .rdUninit)

/-- A command that works on the CUR slot, and a motion compensation whose reference role is missing, answer
`ERR_STATE_NO_REF` where the role holds no slot: 7, or the illegal 4 to 6 (60_exceptions.md R451, R455;
10_state.md R45; 44_intra_predictor.md R260; 45_inter_motion_compensator.md R306; 47_loop_filter.md R360).
The operands, the position and the ARG registers are checked first (R463). Intra prediction below row 0
needs, besides, the row above in `TOPB` (R461). That `LF_PARAMS`, which touches no frame buffer, is among the
commands that need the slot is the model's choice: R360 says it of every loop filter command, R368 and R451
do not name this one (notes/assumptions/14.md). -/
def Obligations.SlotAndBorderAreChecked : Prop :=
  (∀ (i : Instr) (s : State), i.wf = true → needsCur i = true →
    (needsPosition i = true → s.posOk = true) → (i = .lfRow ∨ i = .fcRowend → s.mby < s.mbH) → s.ArgsOk i →
    (3 < s.crField 18 0 3 ∨ ∃ lo, s.ReadsRole i lo ∧ 3 < s.crField 18 lo 3) →
    exec i s = .next (s.raise .stateNoRef)) ∧
  (∀ (i : Instr) (s : State), i.wf = true → predictsIntra i = true → s.posOk = true →
    s.crField 18 0 3 ≤ 3 → 0 < s.mby → (s.topb.valid = false ∨ s.topb.row.toNat ≠ s.mby - 1) →
    exec i s = .next (s.raise .sequence))

/-! ## Reset (10_state.md R59, R480) -/

/-- The state after reset: the values that the table of R59 gives. `FC_RESET` completes from every state
and brings all state to the values after reset (R438), but for what is the host's: the bytes of `CBUF`,
its list, the allocator's answers and the model's counters (notes/assumptions/4.md, 6.md, 11.md and 25.md).
That `FC_RESET` also makes the six working registers of every instance, and `TOPB.row`, the 0 that `State.reset`
holds is the model's choice (notes/assumptions/2.md): R25, R57 and R59 call them unspecified after reset, and R24
has `FC_RESET` write `valid` alone. The clauses on `State.reset` say nothing of their values. -/
def Obligations.ResetResult : Prop :=
  (∀ j, State.reset.arg j = 0 ∧ State.reset.result j = 0) ∧
  (∀ k, State.reset.rdValid k = false) ∧
  (∀ j, State.reset.readCr j = if j = 18 then 0x7777 else 0) ∧
  (∀ i, State.reset.probAt i = none ∧ Memory.find State.reset.probSaved i = none) ∧
  (∀ n, Memory.find State.reset.dq n = none ∧ Memory.find State.reset.lfp n = none) ∧
  (∀ x y, State.reset.mbRec x y = MbRec.zero) ∧
  (∀ k, Memory.get State.reset.segmap 0 k = 0 ∧ Memory.get State.reset.nzAbove nzZero k = nzZero) ∧
  State.reset.nzLeft = nzZero ∧ (∀ b i, State.reset.coefAt b i = 0) ∧
  State.reset.cand = ⟨Mv.zero, Mv.zero, Mv.zero, Vector.replicate 4 0⟩ ∧
  (∀ n p x y, State.reset.pix n p x y = none) ∧ State.reset.topb.valid = false ∧
  (∀ s : State, exec .fcReset s = .next
    { State.reset with
      response := .ok, cbuf := s.cbuf, hostq := s.hostq, allocAnswers := s.allocAnswers,
      allocCount := s.allocCount, freeCount := s.freeCount,
      changeCount := s.changeCount })

/-! ## Invariants -/

/-- Every step keeps every memory in its canonical form, from any state that has it. The form is the model's
(notes/assumptions/7.md): the spec gives the address spaces (20_memory.md R70), not how a model holds
them. -/
def Obligations.MemoriesStayCanonical : Prop :=
  ∀ s t : State, s.MemWf → step s = .next t → t.MemWf

/-- Every step keeps the reserved bits of the control registers 0 (10_state.md R29). -/
def Obligations.ReservedBitsStayZero : Prop :=
  ∀ s t : State, s.CrClean → step s = .next t → t.CrClean

/-- Every step keeps the invariant of the initialised range decoder instances: `128 <= range <= 255`,
the bits already shifted in are 0, the cursor is inside the buffer (10_state.md R23, without the part
that 40_range_decoder.md R137 (d) excepts). -/
def Obligations.RangeDecodersStayNormal : Prop :=
  ∀ s t : State, s.RdInv → step s = .next t → t.RdInv

/-- The three invariants hold after reset (R59, R29); the canonical form of the memories is the model's
(notes/assumptions/7.md). -/
def Obligations.ResetMeetsInvariants : Prop :=
  State.reset.MemWf ∧ State.reset.CrClean ∧ State.reset.RdInv

/-- No command writes `CBUF` or the host's list (20_memory.md R71), and no command but `FC_WRARG` and
`FC_RESET` changes an ARG register (10_state.md R21). -/
def Obligations.CommandsLeaveHostItems : Prop :=
  ∀ (i : Instr) (s t : State), exec i s = .next t →
    t.cbuf = s.cbuf ∧ t.hostq = s.hostq ∧
    ((∀ j, i ≠ .fcWrarg j) → i ≠ .fcReset → t.args = s.args)

/-- The control registers that a command may change (10_state.md R29, R43): apart from `STATUS`, none,
for every command of the units RD to LF, and for the primitives of FC that are not named for it. -/
def Obligations.UnitsLeaveControlRegisters : Prop :=
  ∀ (i : Instr) (s t : State), writesControl i = false → exec i s = .next t →
    (∀ j, j ≠ 16 → t.crRaw j = s.crRaw j) ∧ t.keyframeSeen = s.keyframeSeen ∧
      t.visible = s.visible ∧ (t.response = .ok → t.cr = s.cr)

/-- Only the CUR slot is written, by any command but `FC_RESET`, a size change (`FC_WRCTL` of `CR1`,
`FC_HEADER`) and `FC_FRAME`, which takes a new CUR (10_state.md R56; 20_memory.md R87): every pixel of
every other slot stays. `FC_FRAMESTART` makes the slot that it hands out as CUR unspecified, and leaves
every other. -/
def Obligations.OnlyCurSlotIsWritten : Prop :=
  ∀ (i : Instr) (s t : State), i ≠ .fcReset → i ≠ .fcWrctl 1 → i ≠ .fcHeader → i ≠ .fcFrame →
    exec i s = .next t → ∀ n p x y, s.curSlot ≠ some n →
      (i = .fcFramestart → t.curSlot ≠ some n) → t.pix n p x y = s.pix n p x y


/-! ## Range decoder (40_range_decoder.md) -/

/-- `RD_INIT` (R131): all seven registers of the instance, the two-byte preload with the fill byte past
the end (R136), and nothing else; a buffer that ends past address 2^32 is refused, and so is an instance above
8. Two points are the model's choices: that an instance started anew reads its buffer as the host last wrote it,
with no mark of an earlier change (`changed`, a field of the model alone; notes/assumptions/25.md over 20_memory.md
R71), and that a byte which the host has never written is a free byte of its address (notes/assumptions/3.md). -/
def Obligations.RdInitResult : Prop :=
  ∀ (k : Byte) (s : State),
    (8 < k.toNat → exec (.rdInit k) s = .next (s.raise .badOperand)) ∧
    (k.toNat ≤ 8 → (s.arg 0).toNat + (s.arg 1).toNat ≤ 2 ^ 32 →
      ∃ r : Rd, exec (.rdInit k) s = .next (s.setRd k.toNat r).done ∧
        r.range = 255 ∧ r.bitCount = 0 ∧ r.base = s.arg 0 ∧ r.size = s.arg 1 ∧ r.valid = true ∧
        r.changed = none ∧
        r.cursor.toNat = min 2 (s.arg 1).toNat ∧
        r.value = (if 0 < (s.arg 1).toNat then cbufByte s.cbuf (s.arg 0) else 0) ++
          (if 1 < (s.arg 1).toNat then cbufByte s.cbuf (s.arg 0 + 1) else 0)) ∧
    (k.toNat ≤ 8 → 2 ^ 32 < (s.arg 0).toNat + (s.arg 1).toNat →
      exec (.rdInit k) s = .next (s.raise .badOperand))

/-- `RD_BOOL` (R132) on an instance that R23 describes: the bool in `RES0`, the interval cut at the
split and doubled until it is at least 128, at most seven times, the window shifted with it, and a byte
loaded in place when eight bits have left (R136), any value where the host has changed the buffer under
the instance (20_memory.md R71); `base`, `end`, `valid` and everything else as before. For which bytes a
changed buffer gives any value is the model's choice (notes/assumptions/25.md).
Where `value < range * 256` held, it holds after, so the shifts lose no set bit (R137 (d)). An instance
above 8 and one that is not initialised are refused. -/
def Obligations.RdBoolResult : Prop :=
  (∀ (p k : Byte) (s : State),
    (8 < k.toNat → exec (.rdBool p k) s = .next (s.raise .badOperand)) ∧
    (k.toNat ≤ 8 → s.rdValid k.toNat = false → exec (.rdBool p k) s = .next (s.raise .rdUninit))) ∧
  ∀ (p k : Byte) (s : State), k.toNat ≤ 8 → s.rdValid k.toNat = true → (s.rdAt k.toNat).Inv →
    let r := s.rdAt k.toNat
    let split := 1 + (r.range.toNat - 1) * p.toNat / 256
    let bit := decide (256 * split ≤ r.value.toNat)
    let range := if bit then r.range.toNat - split else split
    let value := if bit then r.value.toNat - 256 * split else r.value.toNat
    let byte := if r.cursor < r.size then
        (match r.changed with
          | none => cbufByte s.cbuf (r.base + r.cursor)
          | some n => Config.freeChangedByte n r.cursor.toNat).toNat
      else 0
    ∃ (r' : Rd) (n : Nat),
      exec (.rdBool p k) s = .next ((s.setRd k.toNat r').setRes 0 (boolWord bit)).done ∧
      r' = { r with value := r'.value, range := r'.range, bitCount := r'.bitCount, cursor := r'.cursor } ∧
      n ≤ 7 ∧ r'.range.toNat = range * 2 ^ n ∧ 128 ≤ r'.range.toNat ∧
      (0 < n → range * 2 ^ (n - 1) < 128) ∧
      r'.bitCount.toNat = (r.bitCount.toNat + n) % 8 ∧
      (r.bitCount.toNat + n < 8 →
        r'.value.toNat = value * 2 ^ n % 2 ^ 16 ∧ r'.cursor = r.cursor) ∧
      (8 ≤ r.bitCount.toNat + n →
        r'.value.toNat = (value * 2 ^ n + byte * 2 ^ (r.bitCount.toNat + n - 8)) % 2 ^ 16 ∧
        r'.cursor = if r.cursor < r.size then r.cursor + 1 else r.cursor) ∧
      (r.value.toNat < 256 * r.range.toNat → r'.value.toNat < 256 * r'.range.toNat)

/-- `RD_LIT` and `RD_SLIT` (R133, R134): a literal of no bits reads nothing and is 0; one bit more is
one more bool at probability 128, the bits before it one place higher; a signed literal is the literal
and then one bool more, also after a zero magnitude, which negates it. An instance above 8, a length above
32 (31 for the signed form) and an instance that is not initialised are refused. -/
def Obligations.RdLiteralResults : Prop :=
  (∀ (n k : Byte) (s : State),
    (8 < k.toNat ∨ 32 < n.toNat → exec (.rdLit n k) s = .next (s.raise .badOperand)) ∧
    (8 < k.toNat ∨ 31 < n.toNat → exec (.rdSlit n k) s = .next (s.raise .badOperand)) ∧
    (k.toNat ≤ 8 → s.rdValid k.toNat = false →
      (n.toNat ≤ 32 → exec (.rdLit n k) s = .next (s.raise .rdUninit)) ∧
      (n.toNat ≤ 31 → exec (.rdSlit n k) s = .next (s.raise .rdUninit)))) ∧
  ∀ (n k : Byte) (s : State), k.toNat ≤ 8 → s.rdValid k.toNat = true →
    exec (.rdLit 0 k) s = .next (s.setRes 0 0).done ∧
    (n.toNat ≤ 32 → ∃ t, exec (.rdLit n k) s = .next t ∧ t.response = .ok ∧
      (t.result 0).toNat < 2 ^ n.toNat ∧ onlyRd k.toNat s t ∧ onlyRes [0] s t ∧
      t = { s with rd := t.rd, res := t.res, response := .ok }) ∧
    (n.toNat ≤ 31 → ∃ t u, exec (.rdLit n k) s = .next t ∧ exec (.rdBool 128 k) t = .next u ∧
      exec (.rdLit (n + 1) k) s = .next (u.setRes 0 (2 * t.result 0 + u.result 0)) ∧
      exec (.rdSlit n k) s =
        .next (u.setRes 0 (if u.result 0 = 1 then -(t.result 0) else t.result 0)))

/-- `RD_TREE` (R135, R139): it completes for every tree, every even start inside it and every
probability; one bool at the node's probability, from the ARG registers, and then the leaf, or the rest
of the walk from the node that the array names. Any other operand, and an instance that is not
initialised, is refused. -/
def Obligations.RdTreeResult : Prop :=
  (∀ (tree start k : Byte) (s : State),
    (8 < k.toNat ∨ 9 < tree.toNat ∨ start.toNat % 2 = 1 ∨ (treeOf tree.toNat).length ≤ start.toNat →
      exec (.rdTree tree start k) s = .next (s.raise .badOperand)) ∧
    (k.toNat ≤ 8 → tree.toNat ≤ 9 → start.toNat % 2 = 0 → start.toNat < (treeOf tree.toNat).length →
      s.rdValid k.toNat = false → exec (.rdTree tree start k) s = .next (s.raise .rdUninit))) ∧
  ∀ (tree start k : Byte) (s : State), tree.toNat ≤ 9 → start.toNat % 2 = 0 →
    start.toNat < (treeOf tree.toNat).length → k.toNat ≤ 8 → s.rdValid k.toNat = true →
    (∃ t, exec (.rdTree tree start k) s = .next t ∧ t.response = .ok ∧ onlyRd k.toNat s t ∧
      onlyRes [0] s t ∧ t = { s with rd := t.rd, res := t.res, response := .ok }) ∧
    ∃ t, exec (.rdBool ((s.arg (start.toNat / 8)).extractLsb' (8 * (start.toNat / 2 % 4)) 8) k) s = .next t ∧
      let e := (treeOf tree.toNat).getD (start.toNat + (t.result 0).toNat) 0
      (e ≤ 0 → exec (.rdTree tree start k) s = .next (t.setRes 0 (BitVec.ofInt 32 (-e)))) ∧
      (0 < e → exec (.rdTree tree start k) s = exec (.rdTree tree (BitVec.ofInt 8 e) k) t)

/-! ## Mode decoder (41_mode_decoder.md) -/

/-- `MD_SEGID` and `MD_SKIP` (R162, R163, R174): the segment id is read only where segmentation is
enabled and its map is updated, the skip flag only where skip coding is enabled; `RES0` is the segment
as other units see it, and the flag. -/
def Obligations.MdFlagResults : Prop :=
  ∀ s : State, s.posOk = true → s.rdValid 0 = true →
    ((s.crBit 3 0 && s.crBit 3 1) = false → exec .mdSegid s =
      .next (s.setRes 0 (BitVec.ofNat 32 (if s.crBit 3 0 then s.segment.toNat else 0))).done) ∧
    ((s.crBit 3 0 && s.crBit 3 1) = true → s.ProbKnown segidIndex 3 →
      ∃ v r, readTree s.cbuf segmentTree (s.probs segidIndex) 0 (s.rdAt 0) = .ok (v, r) ∧ v ≤ 3 ∧
        exec .mdSegid s = .next
          (((s.setRd 0 r).setSegment (BitVec.ofNat 2 v)).setRes 0 (BitVec.ofNat 32 v)).done) ∧
    (s.crBit 14 0 = false →
      exec .mdSkip s = .next ((s.setCur { s.cur with skip := false }).setRes 0 0).done) ∧
    (∀ p, s.crBit 14 0 = true → s.probAt mbskipIndex = some p →
      let x := readBool s.cbuf p (s.rdAt 0)
      exec .mdSkip s = .next
        (((s.setRd 0 x.2).setCur { s.cur with skip := x.1 }).setRes 0 (boolWord x.1)).done)

/-- The luma and chroma modes of intra macroblocks (R164, R165, R168, R169, R173): the leaf of the
frame class's tree with its probabilities, stored and in `RES0`; the luma mode also makes the record
intra, and on a keyframe gives a 16x16 macroblock its implied sub-modes. -/
def Obligations.MdModeResults : Prop :=
  ∀ s : State, s.posOk = true → s.rdValid 0 = true →
    (∃ v r, readTree s.cbuf kfYmodeTree (fun n => .ok (kfYmodeProbs.getD n 0)) 0 (s.rdAt 0) = .ok (v, r) ∧
      v ≤ 4 ∧ exec .mdYmodeKf s = .next (((s.setRd 0 r).setCur
        { s.cur with
          mode := MbMode.ofNum v, ref := .current, mv := Mv.zero, bmv := Vector.replicate 16 Mv.zero
          split := .halves16x8
          bmode := if v = 4 then s.cur.bmode else
            Vector.replicate 16 (match v with | 0 => .dc | 1 => .ve | 2 => .he | _ => .tm) }).setRes 0
        (BitVec.ofNat 32 v)).done) ∧
    (s.ProbKnown ymodeIndex 4 →
      ∃ v r, readTree s.cbuf ymodeTree (s.probs ymodeIndex) 0 (s.rdAt 0) = .ok (v, r) ∧
        v ≤ 4 ∧ exec .mdYmodeIf s = .next (((s.setRd 0 r).setCur
          { s.cur with
            mode := MbMode.ofNum v, ref := .current, mv := Mv.zero, bmv := Vector.replicate 16 Mv.zero
            split := .halves16x8 }).setRes 0 (BitVec.ofNat 32 v)).done) ∧
    (∃ v r, readTree s.cbuf uvmodeTree (fun n => .ok (kfUvmodeProbs.getD n 0)) 0 (s.rdAt 0) = .ok (v, r) ∧
      v ≤ 3 ∧ exec .mdUvmodeKf s = .next (((s.setRd 0 r).setCur
        { s.cur with uvmode := UvMode.ofNum v }).setRes 0 (BitVec.ofNat 32 v)).done) ∧
    (s.ProbKnown uvmodeIndex 3 →
      ∃ v r, readTree s.cbuf uvmodeTree (s.probs uvmodeIndex) 0 (s.rdAt 0) = .ok (v, r) ∧
        v ≤ 3 ∧ exec .mdUvmodeIf s = .next (((s.setRd 0 r).setCur
          { s.cur with uvmode := UvMode.ofNum v }).setRes 0 (BitVec.ofNat 32 v)).done)

/-- The sixteen sub-modes of a macroblock. On a keyframe (R166) each is read with the probabilities of the
sub-modes above and to the left, across macroblock borders, whatever the values of the open table; on an
interframe (R167) with no context and nine fixed probabilities. No RES register is written. Both complete from
every state whose memories are in their canonical form, as they are in every state that a run reaches
(`MemoriesStayCanonical`): elsewhere sixteen writes of a record and one write of it may list it differently. -/
def Obligations.MdSubModes : Prop :=
  ∀ s : State, s.MemWf → s.posOk = true → s.rdValid 0 = true →
    (∃ (m : Nat → BMode) (r : Nat → Rd), r 0 = s.rdAt 0 ∧
      (∀ b < 16,
        let A := if b < 4 then s.aboveMb.bmodeAt (12 + b) else m (b - 4)
        let L := if b % 4 = 0 then s.leftMb.bmodeAt (b + 3) else m (b - 1)
        ∃ v ≤ 9, m b = BMode.ofNum v ∧
          readTree s.cbuf bmodeTree (fun n => .ok (Config.kfBmodeProbs A.num L.num n)) 0 (r b) =
            .ok (v, r (b + 1))) ∧
      exec .mdBmodesKf s = .next ((s.setRd 0 (r 16)).setCur
        { s.cur with bmode := Vector.ofFn fun b : Fin 16 => m b }).done) ∧
    (∃ (m : Nat → BMode) (r : Nat → Rd), r 0 = s.rdAt 0 ∧
      (∀ b < 16, ∃ v ≤ 9, m b = BMode.ofNum v ∧
        readTree s.cbuf bmodeTree
          (fun n => .ok (([120, 90, 79, 133, 87, 85, 80, 111, 151] : List Byte).getD n 0)) 0 (r b) =
            .ok (v, r (b + 1))) ∧
      exec .mdBmodesIf s = .next ((s.setRd 0 (r 16)).setCur
        { s.cur with bmode := Vector.ofFn fun b : Fin 16 => m b }).done)

/-- `MD_REF` (R170): one, two or three bools, each probability needed only where its bool is read. -/
def Obligations.MdRefResult : Prop :=
  ∀ (s : State) (pi : Byte), s.posOk = true → s.rdValid 0 = true → s.probAt intraIndex = some pi →
    let x1 := readBool s.cbuf pi (s.rdAt 0)
    (x1.1 = false → exec .mdRef s = .next (mdRefNext s x1.2 .current)) ∧
    ∀ pl, x1.1 = true → s.probAt lastIndex = some pl →
      let x2 := readBool s.cbuf pl x1.2
      (x2.1 = false → exec .mdRef s = .next (mdRefNext s x2.2 .previous)) ∧
      ∀ pg, x2.1 = true → s.probAt goldenIndex = some pg →
        let x3 := readBool s.cbuf pg x2.2
        exec .mdRef s = .next (mdRefNext s x3.2 (if x3.1 then .altref else .golden))

/-- `MD_MB` is the sequence of commands that R171 gives, whatever they answer, and then its four results: the
segment and the skip flag; on a keyframe the luma mode, the sub-modes where it is B_PRED, the chroma mode;
on an interframe the reference and then either the intra modes or `MP_MB`. It completes where the
probabilities that its frame class uses are specified, whatever the bytes are; a keyframe's macroblock and an
intra one have reference 0 and zero vectors; what it leaves alone. -/
def Obligations.MdMbResult : Prop :=
  (∀ s : State, s.posOk = true → s.rdValid 0 = true →
    exec .mdMb s = andThen (mdSequence s) fun w =>
      .next ((((w.setRes 0 (BitVec.ofNat 32 w.cur.mode.num)).setRes 1 (BitVec.ofNat 32 w.cur.ref.num)).setRes
        2 (boolWord w.cur.skip)).setRes 3 (BitVec.ofNat 32 (if w.crBit 3 0 then w.segment.toNat else 0)))) ∧
  ∀ s : State, s.posOk = true → s.rdValid 0 = true →
    ((s.crBit 3 0 && s.crBit 3 1) = true → s.ProbKnown segidIndex 3) →
    (s.crBit 14 0 = true → s.ProbKnown mbskipIndex 1) →
    (s.crBit 0 0 = false → s.ProbKnown ymodeIndex 4 ∧ s.ProbKnown uvmodeIndex 3 ∧
      s.ProbKnown intraIndex 3 ∧ s.ProbKnown (mvcIndex 0) 38) →
    ∃ t, exec .mdMb s = .next t ∧
      t.result 0 = BitVec.ofNat 32 t.cur.mode.num ∧ t.result 1 = BitVec.ofNat 32 t.cur.ref.num ∧
      t.result 2 = boolWord t.cur.skip ∧
      t.result 3 = BitVec.ofNat 32 (if t.crBit 3 0 then t.segment.toNat else 0) ∧
      (s.crBit 14 0 = false → t.cur.skip = false) ∧
      (s.crBit 0 0 = true → t.cur.ref = .current) ∧
      (t.cur.ref = .current →
        t.cur.mode.num ≤ 4 ∧ t.cur.mv = Mv.zero ∧ ∀ b < 16, t.cur.bmvAt b = Mv.zero) ∧
      (t.cur.ref ≠ .current → 5 ≤ t.cur.mode.num ∧ t.cur.uvmode = s.cur.uvmode ∧
        t.cur.bmode = s.cur.bmode) ∧
      ((s.crBit 0 0 = true ∨ t.cur.ref = .current) → t.cand = s.cand) ∧
      ((s.crBit 3 0 && s.crBit 3 1) = false → t.segmap = s.segmap) ∧
      onlyRd 0 s t ∧ onlyMb s t ∧ onlySegment s t ∧
      t = { s with rd := t.rd, mbinfo := t.mbinfo, segmap := t.segmap, cand := t.cand, res := t.res
                   response := .ok }

/-! ## Motion predictor (42_motion_predictor.md) -/

/-- `MP_CLAMP` (R194, R193): each component of the vector in `ARG0` clamped to the bounds of the
macroblock, one macroblock beyond the frame on each side; outside the frame it is refused. -/
def Obligations.MpClampResult : Prop :=
  ∀ s : State, (s.posOk = false → exec .mpClamp s = .next (s.raise .badMbpos)) ∧ (s.posOk = true →
    exec .mpClamp s = .next (s.setRes 0
      (BitVec.ofInt 16 (max (-(64 * (s.mby : Int)) - 64)
          (min (64 * ((s.mbH : Int) - 1 - s.mby) + 64) ((s.arg 0).extractLsb' 16 16).toInt)) ++
        BitVec.ofInt 16 (max (-(64 * (s.mbx : Int)) - 64)
          (min (64 * ((s.mbW : Int) - 1 - s.mbx) + 64) ((s.arg 0).extractLsb' 0 16).toInt)))).done)

/-- `MP_NEAR` (R196, R192, R193, R195): it completes, with the candidates in `CAND` and packed in the RES
registers. The vectors of the inter neighbours above, to the left and above left that are not zero, corrected
for the sign bias, fall into bins with weights 2, 2 and 1, one that equals the last bin's into that bin; a
third bin that equals the first adds 1 to the first. The two first bins are exchanged where the second is
strictly heavier; `best` is the first, or zero where the zero vectors weigh more; all three are clamped. The
counts are those weights and that of the SPLIT neighbours, each at most 5. -/
def Obligations.MpNearResult : Prop :=
  ∀ s : State, s.posOk = true →
    let bins := s.nearVotes.foldl addVote []
    let bin (i : Nat) : Mv × Nat := bins.getD i (Mv.zero, 0)
    let w1 := (bin 0).2 + if bins.length = 3 ∧ (bin 2).1 = (bin 0).1 then 1 else 0
    let w2 := (bin 1).2
    let v1 := if w1 < w2 then (bin 1).1 else (bin 0).1
    let v2 := if w1 < w2 then (bin 0).1 else (bin 1).1
    ∃ t, exec .mpNear s = .next t ∧
      t.cand.best = s.clampedMv (if s.zeroWeight ≤ max w1 w2 then v1 else Mv.zero) ∧
      t.cand.nearest = s.clampedMv v1 ∧ t.cand.near = s.clampedMv v2 ∧
      t.cand.cntAt 0 = s.zeroWeight ∧ t.cand.cntAt 1 = max w1 w2 ∧ t.cand.cntAt 2 = min w1 w2 ∧
      t.cand.cntAt 3 = 2 * boolNat (decide (s.aboveMb.mode = .split)) +
        2 * boolNat (decide (s.leftMb.mode = .split)) + boolNat (decide (s.aboveLeftMb.mode = .split)) ∧
      t.result 0 = t.cand.best.y ++ t.cand.best.x ∧ t.result 1 = t.cand.nearest.y ++ t.cand.nearest.x ∧
      t.result 2 = t.cand.near.y ++ t.cand.near.x ∧
      (∀ i < 4, t.cand.cntAt i ≤ 5 ∧ ((t.result 3).extractLsb' (8 * i) 8).toNat = t.cand.cntAt i) ∧
      (∀ v ∈ [t.cand.best, t.cand.nearest, t.cand.near],
        -(64 * (s.mbx : Int)) - 64 ≤ v.x.toInt ∧ v.x.toInt ≤ 64 * ((s.mbW : Int) - 1 - s.mbx) + 64 ∧
        -(64 * (s.mby : Int)) - 64 ≤ v.y.toInt ∧ v.y.toInt ≤ 64 * ((s.mbH : Int) - 1 - s.mby) + 64) ∧
      t = { s with cand := t.cand, res := t.res, response := .ok }

/-- `MP_MODE` (R199, R198): the leaf of tree 5 with the probabilities that the candidate counts select,
one of the five motion modes, stored and in `RES0`. `MP_READMV` (R202, R203): the vertical component is
read first, then the horizontal one, each in the long or the short form, the sign only where the magnitude is
not 0; each lies in -1023 .. 1023; `RES0` is the packed delta. -/
def Obligations.MpModeReadmvResults : Prop :=
  ∀ s : State, s.posOk = true → s.rdValid 0 = true →
    (∃ v r, readTree s.cbuf mvrefTree
        (fun k => .ok ((modeContexts.getD (s.cand.cntAt k) []).getD k 0)) 0 (s.rdAt 0) = .ok (v, r) ∧
      5 ≤ v ∧ v ≤ 9 ∧ exec .mpMode s = .next (((s.setRd 0 r).setCur
        { s.cur with mode := MbMode.ofNum v }).setRes 0 (BitVec.ofNat 32 v)).done) ∧
    (s.ProbKnown (mvcIndex 0) 38 →
      ∃ d r, s.DeltaCoded d r ∧ exec .mpReadmv s = .next ((s.setRd 0 r).setRes 0 (d.y ++ d.x)).done)

/-- `MP_SPLIT` (R205 to R211): it completes; the shape is a leaf of tree 6 with its fixed probabilities; each
partition in turn reads its choice in the context of the vectors to the left and above, and its vector goes to
all its sub-blocks before the next is read; the macroblock's vector is that of sub-block 15, the shape in
`RES0`. -/
def Obligations.MpSplitResult : Prop :=
  ∀ s : State, s.posOk = true → s.rdValid 0 = true → s.ProbKnown (mvcIndex 0) 38 →
    ∃ (v : Nat) (r : Rd) (u : Nat → State),
      readTree s.cbuf splitTree (fun n => .ok (([110, 111, 150] : List Byte).getD n 0)) 0 (s.rdAt 0) =
        .ok (v, r) ∧ v ≤ 3 ∧
      u 0 = (s.setRd 0 r).setCur { s.cur with split := SplitShape.ofNum v } ∧
      (∀ n k, (splitFirst.getD v [])[n]? = some k → SubVectorRead v n k (u n) (u (n + 1))) ∧
      let w := u (splitFirst.getD v []).length
      exec .mpSplit s =
        .next ((w.setCur { w.cur with mv := w.cur.bmvAt 15 }).setRes 0 (BitVec.ofNat 32 v)).done ∧
      (∀ a < 16, ∀ b < 16, partOf v a = partOf v b → w.cur.bmvAt a = w.cur.bmvAt b) ∧
      w.cur = { s.cur with split := SplitShape.ofNum v, bmv := w.cur.bmv } ∧ onlyRd 0 s w ∧ onlyMb s w ∧
      w = { s with rd := w.rd, mbinfo := w.mbinfo }

/-- `MP_MB` is the sequence of commands that R214 gives, whatever they answer: `MP_NEAR`, `MP_MODE`, and then
by the mode a candidate, `MP_READMV` added to the best one, `MP_SPLIT` or zero (R200). It completes; what each
motion mode makes the vector, all sixteen sub-vectors and the shape; the candidates are those of `MP_NEAR`,
whose `RES2` and `RES3` stand (notes/assumptions/13.md). -/
def Obligations.MpMbResult : Prop :=
  (∀ s : State, s.posOk = true → s.rdValid 0 = true →
    exec .mpMb s = andThen (mpSequence s) fun w =>
      .next ((w.setRes 0 (w.cur.mv.y ++ w.cur.mv.x)).setRes 1 (BitVec.ofNat 32 w.cur.mode.num))) ∧
  ∀ s : State, s.posOk = true → s.rdValid 0 = true → s.ProbKnown (mvcIndex 0) 38 →
    ∃ t n, exec .mpMb s = .next t ∧ exec .mpNear s = .next n ∧ t.cand = n.cand ∧
      t.result 0 = t.cur.mv.y ++ t.cur.mv.x ∧ t.result 1 = BitVec.ofNat 32 t.cur.mode.num ∧
      t.result 2 = n.result 2 ∧ t.result 3 = n.result 3 ∧
      5 ≤ t.cur.mode.num ∧
      (t.cur.mode = .zero → t.cur.mv = Mv.zero) ∧ (t.cur.mode = .nearest → t.cur.mv = t.cand.nearest) ∧
      (t.cur.mode = .near → t.cur.mv = t.cand.near) ∧
      (t.cur.mode = .new → ∃ dx dy : Int, -1023 ≤ dx ∧ dx ≤ 1023 ∧ -1023 ≤ dy ∧ dy ≤ 1023 ∧
        t.cur.mv = ⟨t.cand.best.x + BitVec.ofInt 16 dx, t.cand.best.y + BitVec.ofInt 16 dy⟩) ∧
      (t.cur.mode ≠ .split → t.cur.split = .halves16x8 ∧ ∀ b < 16, t.cur.bmvAt b = t.cur.mv) ∧
      (t.cur.mode = .split → t.cur.mv = t.cur.bmvAt 15) ∧
      t.cur = { s.cur with
        mode := t.cur.mode, mv := t.cur.mv, bmv := t.cur.bmv, split := t.cur.split } ∧
      onlyRd 0 s t ∧ onlyMb s t ∧
      t = { s with rd := t.rd, mbinfo := t.mbinfo, cand := t.cand, res := t.res, response := .ok }

/-! ## Coefficient decoder (43_coefficient_decoder.md) -/

/-- `CD_BLOCK` (R232 to R240): it completes for every block that fits its plane type. Its tokens are read by
tree 9 with the probabilities of the plane type, the band and the context; where it stops and the nz flag are
in `RES0` and `RES1`, and the flag in the block's two context entries. Each value that is not 0 is
dequantised and put in its zigzag place; every other coefficient of the block, and everything else, is as
before. -/
def Obligations.CdBlockResult : Prop :=
  ∀ (ty b k : Byte) (s : State), okTypeBlock ty b = true → k.toNat ≤ 8 → s.posOk = true →
    s.rdValid k.toNat = true → s.ProbKnown (264 * ty.toNat) 264 →
    ∀ d, Memory.find s.dq s.seg = some d →
    let first := if ty.toNat = 0 then 1 else 0
    let factor (j : Nat) : Nat := if ty.toNat = 1 then (if j = 0 then d.y2dc else d.y2ac)
      else if ty.toNat = 2 then (if j = 0 then d.uvdc else d.uvac)
      else if ty.toNat = 3 ∧ j = 0 then d.y1dc else d.y1ac
    ∃ t i tok value r, exec (.cdBlock ty b k) s = .next t ∧
      s.TokensRead ty.toNat b.toNat (s.rdAt k.toNat) i tok value r ∧ t.rdAt k.toNat = r ∧
      (∀ j < 16, t.coefAt b.toNat (zigzag.getD j 0) =
        if first ≤ j ∧ j < i ∧ tok j ≠ 0 then value j * (factor j : Int)
        else s.coefAt b.toNat (zigzag.getD j 0)) ∧
      t.result 0 = BitVec.ofNat 32 i ∧ t.result 1 = boolWord (decide (first < i)) ∧
      Memory.get t.nzAbove nzZero s.mbx = (Memory.get s.nzAbove nzZero s.mbx).setIfInBounds
        (nzAboveIndex b.toNat) (decide (first < i)) ∧
      t.nzLeft = s.nzLeft.setIfInBounds (nzLeftIndex b.toNat) (decide (first < i)) ∧
      (ty.toNat = 0 → t.coefAt b.toNat 0 = s.coefAt b.toNat 0) ∧
      (∀ c j, c ≠ b.toNat → j < 16 → t.coefAt c j = s.coefAt c j) ∧
      onlyRd k.toNat s t ∧ onlyRes [0, 1] s t ∧ onlyNzColumn s t ∧
      t = { s with rd := t.rd, coef := t.coef, nzAbove := t.nzAbove, nzLeft := t.nzLeft, res := t.res
                   response := .ok }

/-- `CD_MB` (R242, R243): it completes, and is the sequence of `CD_BLOCK`s that R242 gives, on cleared
coefficients: the luma-DC block where the macroblock has one, the luma blocks, the chroma blocks. `RES0`
says whether any block had a token, and where none had, every coefficient is 0 and the macroblock is marked
skipped; the luma-DC context is left alone by a macroblock without a luma-DC block. That `RES1` is the last
block's is the model's choice: R242 names `RES0` alone, and the model reads 30_encoding.md R104 (a composite
is its sequence) over 10_state.md R21 (notes/assumptions/13.md). -/
def Obligations.CdMbResult : Prop :=
  ∀ (k : Byte) (s : State), k.toNat ≤ 8 → s.posOk = true → s.rdValid k.toNat = true → s.DqKnown →
    (hasY2 s.cur.mode = true → s.ProbKnown 0 792) → (hasY2 s.cur.mode = false → s.ProbKnown 528 528) →
    let blocks := cdSequence (decide (s.cur.mode ≠ .bPred ∧ s.cur.mode ≠ .split)) k
    ∃ (t : State) (any : Bool) (u : Nat → State),
      u 0 = { s with coef := [] } ∧
      (∀ n i, blocks[n]? = some i → exec i (u n) = .next (u (n + 1)) ∧ (u (n + 1)).response = .ok) ∧
      (any = true ↔ ∃ n < blocks.length, (u (n + 1)).result 1 = 1) ∧
      (let w := u blocks.length
       t = (if any then w else w.setCur { w.cur with skip := true }).setRes 0 (boolWord any)) ∧
      exec (.cdMb k) s = .next t ∧
      t.cur = (if any then s.cur else { s.cur with skip := true }) ∧
      (any = false → ∀ b j, j < 16 → t.coefAt b j = 0) ∧ (∀ b j, 25 ≤ b → j < 16 → t.coefAt b j = 0) ∧
      (hasY2 s.cur.mode = false →
        (Memory.get t.nzAbove nzZero s.mbx)[8]? = (Memory.get s.nzAbove nzZero s.mbx)[8]? ∧
          t.nzLeft[8]? = s.nzLeft[8]? ∧ ∀ j < 16, t.coefAt 24 j = 0) ∧
      onlyRd k.toNat s t ∧ onlyRes [0, 1] s t ∧ onlyMb s t ∧ onlyNzColumn s t ∧
      t = { s with rd := t.rd, coef := t.coef, nzAbove := t.nzAbove, nzLeft := t.nzLeft
                   mbinfo := t.mbinfo, res := t.res, response := .ok }

/-- `CD_SKIPMB` (R244): it clears every coefficient and the contexts of the macroblock, the luma-DC
context only where the macroblock has a luma-DC block; no bool is read; outside the frame it is
refused. -/
def Obligations.CdSkipmbResult : Prop :=
  ∀ s : State, (s.posOk = false → exec .cdSkipmb s = .next (s.raise .badMbpos)) ∧
    (s.posOk = true → ∃ t, exec .cdSkipmb s = .next t ∧ t.result 0 = 0 ∧
    (∀ b j, t.coefAt b j = 0) ∧
    (∀ j < 9, (Memory.get t.nzAbove nzZero s.mbx)[j]? =
      if j < 8 ∨ hasY2 s.cur.mode = true then some false
      else (Memory.get s.nzAbove nzZero s.mbx)[j]?) ∧
    (∀ j < 9, t.nzLeft[j]? = if j < 8 ∨ hasY2 s.cur.mode = true then some false else s.nzLeft[j]?) ∧
    onlyRes [0] s t ∧ onlyNzColumn s t ∧
    t = { s with coef := t.coef, nzAbove := t.nzAbove, nzLeft := t.nzLeft, res := t.res, response := .ok })

/-! ## Intra predictor (44_intra_predictor.md) -/

/-- The whole-block predictors (R264 to R272): with the neighbours that a predictor reads specified,
`IP_Y16` writes the 256 luma pixels and `IP_UV8` the 64 pixels of each chroma plane, each pixel what the
rule's formula gives, and nothing else. -/
def Obligations.IpWholeBlockResults : Prop :=
  ∀ (m : UvMode) (s : State) (slot : Nat), s.posOk = true → s.curSlot = some slot →
    (s.mby = 0 ∨ (s.topb.valid = true ∧ s.topb.row.toNat + 1 = s.mby)) →
    (s.NbKnown slot 0 (s.wholeReads 0 m) → ∃ t, exec (y16Instr m) s = .next t ∧
      (∀ r c, r < 16 → c < 16 → t.pix slot 0 (16 * s.mbx + c) (16 * s.mby + r) =
        some (BitVec.ofInt 8 (s.wholeVal slot 0 m r c))) ∧
      onlyPixels slot (fun p x y => p = 0 ∧ s.inMb 0 x y) s t ∧
      t = { s with fb := t.fb, response := .ok }) ∧
    (s.NbKnown slot 1 (s.wholeReads 1 m) → s.NbKnown slot 2 (s.wholeReads 2 m) →
      ∃ t, exec (uv8Instr m) s = .next t ∧
      (∀ p, p = 1 ∨ p = 2 → ∀ r c, r < 8 → c < 8 → t.pix slot p (8 * s.mbx + c) (8 * s.mby + r) =
        some (BitVec.ofInt 8 (s.wholeVal slot p m r c))) ∧
      onlyPixels slot (fun p x y => p ≠ 0 ∧ s.inMb p x y) s t ∧
      t = { s with fb := t.fb, response := .ok })

/-- The ten sub-block predictors (R273 to R286): with the neighbours that the predictor reads
specified, `IP_Y4` writes the sixteen pixels of the sub-block, each what the rule's formula gives, and
nothing else. -/
def Obligations.IpSubBlockResults : Prop :=
  ∀ (m : BMode) (b : Byte) (s : State) (slot : Nat), b.toNat < 16 → s.posOk = true →
    s.curSlot = some slot → (s.mby = 0 ∨ (s.topb.valid = true ∧ s.topb.row.toNat + 1 = s.mby)) →
    s.NbKnown slot 0 (s.y4Reads b.toNat m) →
    ∃ t, exec (y4Instr b m) s = .next t ∧
      (∀ i j, i < 4 → j < 4 →
        t.pix slot 0 (16 * s.mbx + 4 * (b.toNat % 4) + j) (16 * s.mby + 4 * (b.toNat / 4) + i) =
          some (BitVec.ofInt 8 (y4Val (fun n => s.nbVal slot 0 (s.subAboveAt b.toNat n))
            (fun n => s.nbVal slot 0 (s.subLeftAt b.toNat n))
            (fun n => s.nbVal slot 0 (s.subEdgeAt b.toNat n)) m i j))) ∧
      onlyPixels slot (fun p x y => p = 0 ∧ inBlock (16 * s.mbx + 4 * (b.toNat % 4))
        (16 * s.mby + 4 * (b.toNat / 4)) 4 4 x y) s t ∧
      t = { s with fb := t.fb, response := .ok }

/-- `IP_MB` (R287, R288) is the sequence of commands that its rule gives, whatever they answer: the
sub-blocks one by one, each followed by its residual, or the whole block, and then chroma. With the pixels
around the macroblock specified it completes and writes no pixel outside the macroblock; it refuses a
macroblock that is not intra. -/
def Obligations.IpMbResult : Prop :=
  (∀ s : State, s.posOk = true → s.crField 18 0 3 ≤ 3 →
    (s.mby = 0 ∨ (s.topb.valid = true ∧ s.topb.row.toNat + 1 = s.mby)) → s.cur.mode.num ≤ 4 →
    exec .ipMb s = runCommands (ipSequence s.cur) s) ∧
  (∀ (s : State) (slot : Nat), s.posOk = true → s.curSlot = some slot →
    (s.mby = 0 ∨ (s.topb.valid = true ∧ s.topb.row.toNat + 1 = s.mby)) →
    (s.cur.mode.num ≤ 4 →
      (∀ p < 3, s.NbKnown slot p (s.cornerAt p :: s.leftAts p ++
        (List.range (mbSize p + 4)).map (s.aboveAt p))) →
      ∃ t, exec .ipMb s = .next t ∧
        (∀ p < 3, ∀ x y, s.inMb p x y → (t.pix slot p x y).isSome = true) ∧
        onlyPixels slot (fun p x y => s.inMb p x y) s t ∧
        t = { s with fb := t.fb, response := .ok }) ∧
    (4 < s.cur.mode.num → exec .ipMb s = .next (s.raise .badOperand)))

/-! ## Inter motion compensator (45_inter_motion_compensator.md) -/

/-- `MC_LUMA` and `MC_CHROMA` (R301 to R306, R308, R309): for a block of a legal size inside the plane and
with the reference plane specified each pixel of the block is what the interpolation of R304 gives at the
place that the vector points to, clamped into the plane wherever that is; no other pixel changes. A size that
is not legal and a block that leaves the plane are refused, whatever the roles hold. -/
def Obligations.McBlockResults : Prop :=
  (∀ (ref : Byte) (s : State), 1 ≤ ref.toNat → ref.toNat ≤ 3 →
    (¬s.argBlockInside [4, 8, 16] 0 → exec (.mcLuma ref) s = .next (s.raise .badOperand)) ∧
    ∀ plane : Byte, plane = 1 ∨ plane = 2 → ¬s.argBlockInside [4, 8] plane.toNat →
      exec (.mcChroma ref plane) s = .next (s.raise .badOperand)) ∧
  ∀ (ref : Byte) (s : State) (src dst : Nat), 1 ≤ ref.toNat → ref.toNat ≤ 3 →
    s.refSlot ref.toNat = some src → s.curSlot = some dst →
    let v := unpackMv (s.arg 0)
    let x0 := field (s.arg 1) 0 16
    let y0 := field (s.arg 1) 16 16
    let w := field (s.arg 2) 0 8
    let h := field (s.arg 2) 8 8
    (s.argBlockInside [4, 8, 16] 0 → s.PlaneKnown src 0 →
      ∃ t, exec (.mcLuma ref) s = .next t ∧
        (∀ x y, inBlock x0 y0 w h x y →
          t.pix dst 0 x y = some (BitVec.ofInt 8 (s.predVal src 0 ((v.x.toInt % 4).toNat * 2)
            ((v.y.toInt % 4).toNat * 2) (x + asr v.x.toInt 2) (y + asr v.y.toInt 2)))) ∧
        onlyPixels dst (fun p x y => p = 0 ∧ inBlock x0 y0 w h x y) s t ∧
        t = { s with fb := t.fb, response := .ok }) ∧
    (∀ plane : Byte, plane = 1 ∨ plane = 2 → s.argBlockInside [4, 8] plane.toNat →
      s.PlaneKnown src plane.toNat →
      ∃ t, exec (.mcChroma ref plane) s = .next t ∧
        (∀ x y, inBlock x0 y0 w h x y →
          t.pix dst plane.toNat x y = some (BitVec.ofInt 8 (s.predVal src plane.toNat (v.x.toInt % 8).toNat
            (v.y.toInt % 8).toNat (x + asr v.x.toInt 3) (y + asr v.y.toInt 3)))) ∧
        onlyPixels dst (fun p x y => p = plane.toNat ∧ inBlock x0 y0 w h x y) s t ∧
        t = { s with fb := t.fb, response := .ok })

/-- `MC_MB` (R314, R307, R310): with the reference slot specified it completes and writes the
macroblock's pixels only; where the reference is not the CUR slot itself, each luma pixel is
interpolated with the vector of its partition and each chroma pixel with the chroma vector of its 4x4
block; a macroblock of reference 0 is refused. -/
def Obligations.McMbResult : Prop :=
  ∀ (s : State) (src dst : Nat), s.posOk = true → s.curSlot = some dst →
    (s.cur.ref = .current → exec .mcMb s = .next (s.raise .badOperand)) ∧
    (s.cur.ref ≠ .current → s.refSlot s.cur.ref.num = some src → s.SlotKnown src →
      ∃ t, exec .mcMb s = .next t ∧
        (src ≠ dst →
          (∀ r c, r < 16 → c < 16 → t.pix dst 0 (16 * s.mbx + c) (16 * s.mby + r) =
            some (BitVec.ofInt 8 (s.lumaVal src (s.cur.lumaMv (4 * (r / 4) + c / 4)) (16 * s.mbx + c)
              (16 * s.mby + r)))) ∧
          (∀ p, p = 1 ∨ p = 2 → ∀ r c, r < 8 → c < 8 → t.pix dst p (8 * s.mbx + c) (8 * s.mby + r) =
            some (BitVec.ofInt 8 (s.chromaVal src p (s.chromaMv (2 * (r / 4) + c / 4) fun m => m.x.toInt)
              (s.chromaMv (2 * (r / 4) + c / 4) fun m => m.y.toInt) (8 * s.mbx + c) (8 * s.mby + r))))) ∧
        (∀ p < 3, ∀ x y, s.inMb p x y → (t.pix dst p x y).isSome = true) ∧
        onlyPixels dst (fun p x y => s.inMb p x y) s t ∧
        t = { s with fb := t.fb, response := .ok })

/-! ## Inverse transform and dequantiser (46_inverse_transform_dequant.md) -/

/-- `IT_DQSETUP` (R331 to R333): the six multipliers of the segment, and their bounds; a segment above 3
is refused. -/
def Obligations.ItDqsetupResult : Prop :=
  (∀ (seg : Byte) (s : State), 3 < seg.toNat → exec (.itDqsetup seg) s = .next (s.raise .badOperand)) ∧
  ∀ (seg : Byte) (s : State), seg.toNat ≤ 3 →
    let base : Int := field (s.crRaw 10) 0 7
    let v : Int := ((s.crRaw 4).extractLsb' (8 * seg.toNat) 8).toInt
    let cl (x : Int) : Nat := (max 0 (min 127 x)).toNat
    let q : Int := cl (if s.crBit 3 0 = false then base else if s.crBit 3 3 then v else base + v)
    let delta0 (i : Nat) : Int := ((s.crRaw 11).extractLsb' (8 * i) 8).toInt
    let d : DqRec :=
      { y1dc := dcq.getD (cl (q + delta0 0)) 0
        y1ac := acq.getD (cl q) 0
        y2dc := 2 * dcq.getD (cl (q + delta0 1)) 0
        y2ac := max 8 (acq.getD (cl (q + delta0 2)) 0 * 155 / 100)
        uvdc := min 132 (dcq.getD (cl (q + delta0 3)) 0)
        uvac := acq.getD (cl (q + ((s.crRaw 12).extractLsb' 0 8).toInt)) 0 }
    exec (.itDqsetup seg) s = .next { s with dq := Memory.set s.dq seg.toNat d }.done ∧
    4 ≤ d.y1dc ∧ d.y1dc ≤ 157 ∧ 4 ≤ d.y1ac ∧ d.y1ac ≤ 284 ∧ 8 ≤ d.y2dc ∧ d.y2dc ≤ 314 ∧
    8 ≤ d.y2ac ∧ d.y2ac ≤ 440 ∧ 4 ≤ d.uvdc ∧ d.uvdc ≤ 132 ∧ 4 ≤ d.uvac ∧ d.uvac ≤ 284

/-- `IT_WHT` (R335, R336): from every state, the DC coefficient of luma block `4r + c` becomes the
two-dimensional Walsh-Hadamard sum of block 24, rounded; no other coefficient and nothing else changes. -/
def Obligations.ItWhtResult : Prop :=
  ∀ s : State, ∃ t, exec .itWht s = .next t ∧
    (∀ r c, r < 4 → c < 4 → t.coefAt (4 * r + c) 0 =
      ((∑ i ∈ Finset.range 4, ∑ j ∈ Finset.range 4,
        whtSign r i * whtSign c j * s.coefAt 24 (4 * i + j)) + 3) / 8) ∧
    (∀ b j, j < 16 → (j ≠ 0 ∨ 16 ≤ b) → t.coefAt b j = s.coefAt b j) ∧
    t = { s with coef := t.coef, response := .ok }

/-- `IT_IDCT_ADD` (R337 to R341): each pixel of the block is the clamped sum of the pixel and of the
residual of R337, by its formulas: the columns first, then the rows, the two constants in 16-bit fixed
point; a block with its first coefficient alone adds `(c[0] + 4) >> 3` everywhere, and a
block of zeros changes nothing; the coefficients and every other pixel stay. -/
def Obligations.ItIdctAddResult : Prop :=
  ∀ (plane block : Byte) (s : State) (slot : Nat), plane.toNat ≤ 2 →
    block.toNat < (if plane.toNat = 0 then 16 else 4) → s.posOk = true → s.curSlot = some slot →
    let b := if plane.toNat = 0 then block.toNat else 16 + 4 * (plane.toNat - 1) + block.toNat
    let x0 := if plane.toNat = 0 then 16 * s.mbx + 4 * (block.toNat % 4)
      else 8 * s.mbx + 4 * (block.toNat % 2)
    let y0 := if plane.toNat = 0 then 16 * s.mby + 4 * (block.toNat / 4)
      else 8 * s.mby + 4 * (block.toNat / 2)
    let m1 (x : Int) : Int := x + x * 20091 / 2 ^ 16
    let m2 (x : Int) : Int := x * 35468 / 2 ^ 16
    let pass (x0 x1 x2 x3 : Int) (n : Nat) : Int :=
      if n = 0 then x0 + x2 + (m1 x1 + m2 x3)
      else if n = 1 then x0 - x2 + (m2 x1 - m1 x3)
      else if n = 2 then x0 - x2 - (m2 x1 - m1 x3)
      else x0 + x2 - (m1 x1 + m2 x3)
    let column (c r : Nat) : Int :=
      pass (s.coefAt b c) (s.coefAt b (4 + c)) (s.coefAt b (8 + c)) (s.coefAt b (12 + c)) r
    let residual (r c : Nat) : Int := (pass (column 0 r) (column 1 r) (column 2 r) (column 3 r) c + 4) / 2 ^ 3
    (∀ x y, inBlock x0 y0 4 4 x y → (s.pix slot plane.toNat x y).isSome = true) →
    ∃ t, exec (.itIdctAdd plane block) s = .next t ∧
      (∀ r c q, r < 4 → c < 4 → s.pix slot plane.toNat (x0 + c) (y0 + r) = some q →
        t.pix slot plane.toNat (x0 + c) (y0 + r) =
          some (BitVec.ofInt 8 (max 0 (min 255 ((q.toNat : Int) + residual r c)))) ∧
        ((∀ j, 1 ≤ j → j < 16 → s.coefAt b j = 0) →
          t.pix slot plane.toNat (x0 + c) (y0 + r) =
            some (BitVec.ofInt 8 (max 0 (min 255 ((q.toNat : Int) + (s.coefAt b 0 + 4) / 8))))) ∧
        ((∀ j < 16, s.coefAt b j = 0) → t.pix slot plane.toNat (x0 + c) (y0 + r) = some q)) ∧
      onlyPixels slot (fun p x y => p = plane.toNat ∧ inBlock x0 y0 4 4 x y) s t ∧
      t = { s with fb := t.fb, response := .ok }

/-- `IT_MB` (R342) is the sequence of commands that its rule gives, whatever they answer; with the
macroblock's pixels specified it completes, and it changes no pixel outside the macroblock (R343);
outside the frame and without a CUR slot it is refused. -/
def Obligations.ItMbIsItsSequence : Prop :=
  (∀ s : State,
    (s.posOk = false → exec .itMb s = .next (s.raise .badMbpos)) ∧
    (s.posOk = true → s.curSlot = none → exec .itMb s = .next (s.raise .stateNoRef))) ∧
  ∀ (s : State) (slot : Nat), s.posOk = true → s.curSlot = some slot →
    exec .itMb s = runCommands (itSequence s.cur.mode) s ∧
    ((∀ p < 3, ∀ x y, s.inMb p x y → (s.pix slot p x y).isSome = true) →
      ∃ t, exec .itMb s = .next t ∧
        (∀ p < 3, ∀ x y, s.inMb p x y → (t.pix slot p x y).isSome = true) ∧
        onlyPixels slot (fun p x y => s.inMb p x y) s t ∧
        t = { s with fb := t.fb, coef := t.coef, response := .ok })

/-! ## Loop filter (47_loop_filter.md) -/

/-- `LF_PARAMS` (R360, R361, R363, R364, R367, R368): with a position inside the frame and a CUR slot it
completes; the level from the segment's value and the
deltas, clamped to 0..63; the interior limit, the threshold, the inner-edge decision; the record is
stored and packed into `RES0`, and nothing else changes. For B_PRED with an inter reference, of which
R362 has no row, the mode delta is the model's free value, whatever it is, and for a whole-block intra mode
with an inter reference it is 0, as the model reads the sentence after the table (both
notes/assumptions/17.md). The one clamp is the model's reading of R361 (notes/assumptions/15.md), and that a
missing CUR slot is an error of this command too is its reading of R360 (notes/assumptions/14.md). -/
def Obligations.LfParamsResult : Prop :=
  ∀ s : State, s.posOk = true → s.crField 18 0 3 ≤ 3 →
    let byte (i : Nat) (j : Nat) : Int := ((s.crRaw i).extractLsb' (8 * j) 8).toInt
    let base : Int := field (s.crRaw 6) 1 6
    let v : Int := byte 5 (if s.crBit 3 0 then s.segment.toNat else 0)
    let level1 : Int := if s.crBit 3 0 then (if s.crBit 3 3 then v else base + v) else base
    let modeDelta : Int :=
      if s.cur.ref = .current then (if s.cur.mode = .bPred then byte 8 0 else 0)
      else if s.cur.mode = .zero then byte 8 1
      else if s.cur.mode = .split then byte 8 3
      else if s.cur.mode = .nearest ∨ s.cur.mode = .near ∨ s.cur.mode = .new then byte 8 2
      else if s.cur.mode = .bPred then Config.freeModeDelta s.cur.ref.num (s.crRaw 8) else 0
    let level : Nat := (max 0 (min 63
      (if s.crBit 6 10 then level1 + byte 7 s.cur.ref.num + modeDelta else level1))).toNat
    let sharp := field (s.crRaw 6) 7 3
    let key := s.crBit 0 0
    ∃ r : LfpRec, exec .lfParams s = .next ({ s with lfp := Memory.set s.lfp s.mbx r }.setRes 0
        (BitVec.ofNat 32 (r.level + 2 ^ 8 * r.ilimit + 2 ^ 16 * r.hev + 2 ^ 24 * boolNat r.inner))).done ∧
      r.level = level ∧
      (sharp = 0 → r.ilimit = max level 1) ∧
      (0 < sharp → sharp ≤ 4 → r.ilimit = max (min (level / 2) (9 - sharp)) 1) ∧
      (4 < sharp → r.ilimit = max (min (level / 4) (9 - sharp)) 1) ∧
      (level < 15 → r.hev = 0) ∧ (15 ≤ level → level < 20 → r.hev = 1) ∧
      (20 ≤ level → level < 40 → r.hev = if key then 1 else 2) ∧
      (40 ≤ level → r.hev = if key then 2 else 3) ∧
      (r.inner = true ↔ ¬(s.cur.skip = true ∧ s.cur.mode ≠ .bPred ∧ s.cur.mode ≠ .split))

/-- The three edge commands (R369 to R375): with the pixels that the filter reads specified, every line
across the edge becomes what its filter makes of it, and no other pixel changes; an edge with a pixel
outside the plane, or with a length outside 1 to 16, is refused, whatever the CUR role holds. What each
filter makes of a line, `Obligations.LfFiltersAreBounded` says. -/
def Obligations.LfEdgeResults : Prop :=
  ∀ (kind : EdgeKind) (plane dir : Byte) (s : State),
    plane.toNat ≤ (if kind = .simple then 0 else 2) → dir.toNat ≤ 1 →
    let e := s.argEdge kind plane dir
    (e.kind = kind ∧ e.p = plane.toNat ∧ e.dir = dir.toNat ∧ e.x = field (s.arg 0) 0 16 ∧
      e.y = field (s.arg 0) 16 16 ∧ e.len = (s.arg 1).toNat ∧
      e.lim = ⟨field (s.arg 2) 0 8, field (s.arg 2) 8 8, field (s.arg 2) 16 8⟩) ∧
    (∀ slot, s.curSlot = some slot → s.edgeInside e →
      (∀ k < e.len, ∀ i ∈ kind.reads, (s.pix slot e.p (e.px k i) (e.py k i)).isSome = true) →
      ∃ t, exec (edgeInstr kind plane dir) s = .next t ∧
        (∀ k < e.len, ∀ i ∈ kind.writes, t.pix slot e.p (e.px k i) (e.py k i) =
          some (BitVec.ofInt 8 ((kind.run e.lim (s.lineAt slot e k)).at i))) ∧
        onlyPixels slot (fun p x y => p = e.p ∧ e.writesPixel x y) s t ∧
        t = { s with fb := t.fb, response := .ok }) ∧
    (¬s.edgeInside e → exec (edgeInstr kind plane dir) s = .next (s.raise .badOperand))

/-- The arithmetic of the three filters on a line of pixels (R370, R371, R373), all of it on the pixels
before the line is changed: the masks, the high edge variance, the adjustment of the two middle pixels, and
the further adjustments of the two normal filters. Each filter leaves a line alone where its mask is false,
keeps every pixel inside 0..255, writes only the pixels named for it, and leaves a flat line alone. -/
def Obligations.LfFiltersAreBounded : Prop :=
  ∀ (kind : EdgeKind) (lim : Limits) (l : Line), (∀ i < 8, 0 ≤ l.at i ∧ l.at i ≤ 255) →
    let c8 (v : Int) : Int := max (-128) (min 127 v)
    let c255 (v : Int) : Int := max 0 (min 255 v)
    let smask := 2 * |l.p0 - l.q0| + |l.p1 - l.q1| / 2 ≤ lim.e
    let nmask := smask ∧ |l.p3 - l.p2| ≤ lim.i ∧ |l.p2 - l.p1| ≤ lim.i ∧ |l.p1 - l.p0| ≤ lim.i ∧
      |l.q1 - l.q0| ≤ lim.i ∧ |l.q2 - l.q1| ≤ lim.i ∧ |l.q3 - l.q2| ≤ lim.i
    let hev := lim.t < |l.p1 - l.p0| ∨ lim.t < |l.q1 - l.q0|
    let a (outer : Bool) : Int := c8 ((if outer then c8 (l.p1 - l.q1) else 0) + 3 * (l.q0 - l.p0))
    let f1 (outer : Bool) : Int := c8 (a outer + 4) / 8
    let f2 (outer : Bool) : Int := c8 (a outer + 3) / 8
    let common (outer : Bool) : Line :=
      { l with q0 := c255 (l.q0 - f1 outer), p0 := c255 (l.p0 + f2 outer) }
    let half := (f1 false + 1) / 2
    let w := c8 (c8 (l.p1 - l.q1) + 3 * (l.q0 - l.p0))
    let part (n : Int) : Int := (n * w + 63) / 128
    (kind = .simple → (smask → kind.run lim l = common true) ∧ (¬smask → kind.run lim l = l)) ∧
    (kind ≠ .simple → (nmask → hev → kind.run lim l = common true) ∧ (¬nmask → kind.run lim l = l)) ∧
    (kind = .inner → nmask → ¬hev → kind.run lim l =
      { common false with q1 := c255 (l.q1 - half), p1 := c255 (l.p1 + half) }) ∧
    (kind = .mbEdge → nmask → ¬hev → kind.run lim l =
      { l with
        q0 := c255 (l.q0 - part 27), p0 := c255 (l.p0 + part 27)
        q1 := c255 (l.q1 - part 18), p1 := c255 (l.p1 + part 18)
        q2 := c255 (l.q2 - part 9), p2 := c255 (l.p2 + part 9) }) ∧
    (∀ i < 8, 0 ≤ (kind.run lim l).at i ∧ (kind.run lim l).at i ≤ 255) ∧
    (∀ i < 8, i ∉ kind.writes → (kind.run lim l).at i = l.at i) ∧
    ((∀ i < 8, l.at i = l.p0) → kind.run lim l = l)

/-- `LF_MB` and `LF_ROW` (R365, R366, R376 to R382): with the records and the pixels of the CUR slot
specified they complete, and they filter the edges of the macroblock, or of the row's macroblocks from left to
right, one after the other in the order of R376 and R380, each on the pixels that the ones before it left; no
pixel but those that these edges write changes, and nothing else. A macroblock of level 0 has no edges, so it
is left as it is, and so is a row of which every macroblock has level 0. -/
def Obligations.LfRowResults : Prop :=
  ∀ (s : State) (slot : Nat), s.mby < s.mbH → s.curSlot = some slot →
    (∀ r, s.mbx < s.mbW → Memory.find s.lfp s.mbx = some r → r.level = 0 →
      exec .lfMb s = .next s.done) ∧
    ((∀ x < s.mbW, ∃ r, Memory.find s.lfp x = some r ∧ r.level = 0) → exec .lfRow s = .next s.done) ∧
    (∀ r, s.mbx < s.mbW → Memory.find s.lfp s.mbx = some r → s.SlotKnown slot →
      let edges := lfSequence (s.crBit 6 0) r s.mbx s.mby
      ∃ t, EdgesFiltered slot edges s t ∧ exec .lfMb s = .next t.done ∧ t.SlotKnown slot ∧
        onlyPixels slot (fun p x y => ∃ e ∈ edges, p = e.p ∧ e.writesPixel x y) s t ∧
        t = { s with fb := t.fb }) ∧
    (∀ r : Nat → LfpRec, (∀ x < s.mbW, Memory.find s.lfp x = some (r x)) → s.SlotKnown slot →
      let edges := (List.range s.mbW).flatMap fun x => lfSequence (s.crBit 6 0) (r x) x s.mby
      ∃ t, EdgesFiltered slot edges s t ∧ exec .lfRow s = .next t.done ∧ t.SlotKnown slot ∧
        onlyPixels slot (fun p x y => ∃ e ∈ edges, p = e.p ∧ e.writesPixel x y) s t ∧
        t = { s with fb := t.fb })

/-! ## Frame control (48_frame_control_host.md) -/

/-- The commands on the position (R441, R442, R443): `FC_SETMB` stores any position, `FC_NEXTMB`
advances in raster order and reports it, or is refused outside the frame; `FC_ROWSTART` clears the left
nz flags; nothing else changes. -/
def Obligations.FcPositionResults : Prop :=
  ∀ s : State,
    exec .fcSetmb s = .next (s.setCr 19 (s.arg 0 &&& 0x07FF07FF)).done ∧
    exec .fcRowstart s = .next { s with nzLeft := nzZero }.done ∧
    (s.posOk = false → exec .fcNextmb s = .next (s.raise .badMbpos)) ∧
    (s.posOk = true → ∃ t, exec .fcNextmb s = .next t ∧
      t.mbx = (if s.mbx + 1 < s.mbW then s.mbx + 1 else 0) ∧
      t.mby = (if s.mbx + 1 < s.mbW then s.mby else s.mby + 1) ∧
      t.crRaw 19 &&& ~~~0x07FF07FF = 0 ∧ t.result 0 = t.crRaw 19 ∧ onlyRes [0] s t ∧
      (∀ j, j ≠ 19 → t.crRaw j = s.crRaw j) ∧
      t = { s with cr := t.cr, res := t.res, response := .ok })

/-- `FC_ROWEND` (R444): whatever column `MBX` is, with the bottom pixels of the row specified it keeps
them in `TOPB` with the row's number, and changes nothing else; below the frame and without a CUR slot
it is refused. -/
def Obligations.FcRowendResult : Prop :=
  (∀ s : State,
    (s.mbH ≤ s.mby → exec .fcRowend s = .next (s.raise .badMbpos)) ∧
    (s.mby < s.mbH → s.curSlot = none → exec .fcRowend s = .next (s.raise .stateNoRef))) ∧
  ∀ (s : State) (slot : Nat), s.mby < s.mbH → s.curSlot = some slot →
    (∀ p < 3, ∀ x < s.planeW p,
      (s.pix slot p x (mbSize p * s.mby + (mbSize p - 1))).isSome = true) →
    ∃ t, exec .fcRowend s = .next t ∧ t.topb.valid = true ∧ t.topb.row.toNat = s.mby ∧
      (∀ p < 3, ∀ x < s.planeW p,
        Memory.find (t.topb.plane p) x = s.pix slot p x (mbSize p * s.mby + (mbSize p - 1))) ∧
      (∀ p < 3, ∀ x, s.planeW p ≤ x → Memory.find (t.topb.plane p) x = none) ∧
      t = { s with topb := t.topb, response := .ok }

/-- `FC_RDCTL` and `FC_WRCTL` (R439, R440, R29, R32): a read gives the register, `CR2` derived from
`CR1`, a reserved register 0; a write keeps the bits that the register has, leaves the read-only and the
reserved registers alone, and changes no other register; a write of `CR1` that changes the size in
macroblocks clears what depends on it where the allocator grants it (R406), and leaves it where it
refuses. That `MBPOS` and the part registers are stored by a write is the model's reading of R440
(notes/assumptions/18.md); the allocator's answers that a request uses up are the model's input
(notes/assumptions/5.md), and that `LFP` holds no record after a size change is its choice
(notes/assumptions/24.md). -/
def Obligations.FcControlResults : Prop :=
  ∀ (reg : Byte) (s : State), reg.toNat ≤ 43 →
    exec (.fcRdctl reg) s = .next (s.setRes 0 (s.readCr reg.toNat)).done ∧
    (s.readCr 2).extractLsb' 0 11 = BitVec.ofNat 11 ((field (s.readCr 1) 0 14 + 15) / 16) ∧
    (s.readCr 2).extractLsb' 16 11 = BitVec.ofNat 11 ((field (s.readCr 1) 16 14 + 15) / 16) ∧
    (s.CrClean → crMask reg.toNat = 0 → reg.toNat ≠ 2 → reg.toNat ≠ 16 → s.readCr reg.toNat = 0) ∧
    (reg.toNat ≠ 1 → ∃ t, exec (.fcWrctl reg) s = .next t ∧
      t.readCr reg.toNat = (if reg.toNat = 2 ∨ reg.toNat = 16 then s.readCr reg.toNat
        else s.arg 0 &&& crMask reg.toNat) ∧
      (∀ j, j ≠ reg.toNat → t.readCr j = s.readCr j) ∧ t = { s with cr := t.cr, response := .ok }) ∧
    (s.sizeChanges (s.arg 0) = false → exec (.fcWrctl 1) s = .next (s.setCr 1 (s.arg 0)).done) ∧
    (s.sizeChanges (s.arg 0) = true → s.askAllocator.1 = true →
      ∃ t, exec (.fcWrctl 1) s = .next t ∧ t.crRaw 1 = s.arg 0 ∧ t.crRaw 18 = 0x7777 ∧
        (∀ j, j ≠ 1 → j ≠ 18 → t.crRaw j = s.crRaw j) ∧ (∀ n p x y, t.pix n p x y = none) ∧
        (∀ x y, t.mbRec x y = MbRec.zero) ∧ (∀ k, Memory.get t.segmap 0 k = 0) ∧
        (∀ x, Memory.get t.nzAbove nzZero x = nzZero) ∧ t.topb.valid = false ∧
        (∀ x, Memory.find t.lfp x = none) ∧
        t = { s with cr := t.cr, fb := t.fb, mbinfo := t.mbinfo, segmap := t.segmap
                     nzAbove := t.nzAbove, lfp := t.lfp, topb := t.topb, response := .ok
                     allocAnswers := s.allocAnswers.tail, allocCount := s.allocCount + 1 }) ∧
    (s.sizeChanges (s.arg 0) = true → s.askAllocator.1 = false →
      exec (.fcWrctl 1) s = .next (s.askAllocator.2.raise .alloc))

/-- The commands on the probability contexts and on the ARG registers (R445 to R448, R110): one entry
written or read, an index above 1107 refused, whole copies of 1108 entries in either direction, `RES0`
into an ARG register. Reading an entry that nothing has specified is the model's fault
(notes/assumptions/1.md). -/
def Obligations.FcTableResults : Prop :=
  ∀ (value copy index : Byte) (s : State), copy.toNat ≤ 1 → index.toNat ≤ 3 →
    let i := (s.arg 0).toNat
    (i ≤ 1107 → ∃ t, exec (.fcWrprob value) s = .next t ∧ t.probAt i = some value ∧
      (∀ j, j ≠ i → t.probAt j = s.probAt j) ∧ t = { s with prob := t.prob, response := .ok }) ∧
    (∀ v, i ≤ 1107 → Memory.find (if copy = 0 then s.prob else s.probSaved) i = some v →
      exec (.fcRdprob copy) s = .next (s.setRes 0 (BitVec.ofNat 32 v.toNat)).done) ∧
    (i ≤ 1107 → Memory.find (if copy = 0 then s.prob else s.probSaved) i = none →
      exec (.fcRdprob copy) s = .fault .probUnspecified) ∧
    (1107 < i → exec (.fcWrprob value) s = .next (s.raise .badOperand) ∧
      exec (.fcRdprob copy) s = .next (s.raise .badOperand)) ∧
    exec .fcProbsave s = .next { s with probSaved := s.prob }.done ∧
    exec .fcProbrestore s = .next { s with prob := s.probSaved }.done ∧
    (∃ t, exec (.fcWrarg index) s = .next t ∧
      (∀ j, t.arg j = if j = index.toNat then s.result 0 else s.arg j) ∧
      t = { s with args := t.args, response := .ok })

/-- `FC_FRAMESTART` (R431, R435): the lowest slot that is no reference becomes CUR and is reported, the
position is (0, 0), the nz flags and `TOPB.valid` are cleared, and nothing else of the state changes but the
pixels of that slot, which are unspecified from then on (10_state.md R56; that the model takes R56 over R431's
"whatever the slot held" is notes/assumptions/8.md); without a size it is refused. -/
def Obligations.FcFramestartResult : Prop :=
  ∀ s : State,
    (s.mbW ≠ 0 → s.mbH ≠ 0 → ∃ t n, exec .fcFramestart s = .next t ∧ t.curSlot = some n ∧ n < 4 ∧
      (∀ lo, lo = 4 ∨ lo = 8 ∨ lo = 12 → n ≠ s.crField 18 lo 3 ∧ t.crField 18 lo 3 = s.crField 18 lo 3) ∧
      (∀ m < n, m = s.crField 18 4 3 ∨ m = s.crField 18 8 3 ∨ m = s.crField 18 12 3) ∧
      t.result 0 = BitVec.ofNat 32 n ∧ t.mbx = 0 ∧ t.mby = 0 ∧
      (∀ x, Memory.get t.nzAbove nzZero x = nzZero) ∧
      (∀ p x y, t.pix n p x y = none) ∧ (∀ m p x y, m ≠ n → t.pix m p x y = s.pix m p x y) ∧
      onlyRes [0] s t ∧ (∀ j, j ≠ 18 → j ≠ 19 → t.crRaw j = s.crRaw j) ∧
      t = { s with cr := t.cr, fb := t.fb, nzAbove := t.nzAbove, nzLeft := nzZero, res := t.res
                   response := .ok, topb := { s.topb with valid := false } }) ∧
    ((s.mbW = 0 ∨ s.mbH = 0) → exec .fcFramestart s = .next (s.raise .badSize))

/-- `FC_FRAMEEND` (R433, R434, R436, R449): the three roles from their old values, together; the
probabilities committed or rolled back; the flags of `STATUS`; the two results; CUR keeps its slot, no
pixel is copied, and nothing else changes; without a CUR slot it is refused. That a role field with an
illegal value, 4 to 6, is copied as it is, is the model's reading (notes/assumptions/22.md; 10_state.md R45
makes such a role hold no slot). -/
def Obligations.FcFrameendResult : Prop :=
  (∀ s : State, s.curSlot = none → exec .fcFrameend s = .next (s.raise .stateNoRef)) ∧
  ∀ (s : State) (c : Nat), s.curSlot = some c →
    let prev := s.crField 18 4 3
    let gold := s.crField 18 8 3
    let alt := s.crField 18 12 3
    ∃ t, exec .fcFrameend s = .next t ∧ t.curSlot = some c ∧
      t.crField 18 8 3 = roleAfter (s.crField 13 0 2) gold c prev alt ∧
      t.crField 18 12 3 = roleAfter (s.crField 13 2 2) alt c prev gold ∧
      t.crField 18 4 3 = (if s.crBit 13 4 then c else prev) ∧
      t.prob = (if s.crBit 13 7 then s.prob else s.probSaved) ∧
      t.probSaved = (if s.crBit 13 7 then s.prob else s.probSaved) ∧
      t.keyframeSeen = (s.keyframeSeen || s.crBit 0 0) ∧ t.visible = s.crBit 0 4 ∧
      t.errFlag = s.errFlag ∧ t.result 0 = boolWord (s.crBit 0 4) ∧ t.result 1 = BitVec.ofNat 32 c ∧
      onlyRes [0, 1] s t ∧ (∀ j, j ≠ 16 → j ≠ 18 → t.crRaw j = s.crRaw j) ∧
      t = { s with cr := t.cr, prob := t.prob, probSaved := t.probSaved, res := t.res, response := .ok }

/-- The checks of `FC_HEADER` (R427 (1) to (9), R429) and their order: the first that fails decides the
code. What each error leaves is `State.raiseFrame`: the instances invalid also after `ERR_BAD_OPERAND`
(notes/assumptions/10.md), RES with the model's free values (notes/assumptions/6.md). That the buffer's bounds
are checked before the nine is the model's choice (notes/assumptions/27.md); the answer of the allocator that
the last check uses up is its input (notes/assumptions/5.md). -/
def Obligations.FcHeaderChecks : Prop :=
  (∀ s : State,
    let base := s.arg 0
    let n := (s.arg 1).toNat
    let t := s.frameTag base
    let answers (c : ErrCode) : Prop := exec .fcHeader s = .next (s.raiseFrame c)
    (2 ^ 32 < base.toNat + n → answers .badOperand) ∧
    (base.toNat + n ≤ 2 ^ 32 → n < 3 → answers .structTruncated) ∧
    (base.toNat + n ≤ 2 ^ 32 → 3 ≤ n → 3 < t / 2 % 8 → answers .badProfile) ∧
    (base.toNat + n ≤ 2 ^ 32 → 3 ≤ n → t / 2 % 8 ≤ 3 →
      (t % 2 = 1 →
        (s.keyframeSeen = false → answers .stateNoKeyframe) ∧
        (s.keyframeSeen = true → n < 3 + t / 32 → answers .structTruncated)) ∧
      (t % 2 = 0 →
        (n < 10 → answers .structTruncated) ∧
        (10 ≤ n → ¬(s.frameByte base 3 = 0x9D ∧ s.frameByte base 4 = 0x01 ∧ s.frameByte base 5 = 0x2A) →
          answers .structStartcode) ∧
        (10 ≤ n → (s.frameByte base 3 = 0x9D ∧ s.frameByte base 4 = 0x01 ∧ s.frameByte base 5 = 0x2A) →
          (s.frameLe base 6 2 % 2 ^ 14 = 0 ∨ s.frameLe base 8 2 % 2 ^ 14 = 0 → answers .badSize) ∧
          (s.frameLe base 6 2 % 2 ^ 14 ≠ 0 → s.frameLe base 8 2 % 2 ^ 14 ≠ 0 → n < 10 + t / 32 →
            answers .structTruncated))))) ∧
  ∀ s : State,
    let base := s.arg 0
    let n := (s.arg 1).toNat
    let parts := s.headerNpart base
    s.HeaderOk base (s.arg 1) →
      ((n < s.partTable base + 3 * (parts - 1) ∨
          ∃ i < parts - 1, n < s.partStart base parts i + s.partSize base i) →
        exec .fcHeader s = .next (s.raiseFrame .structPartition)) ∧
      (s.partTable base + 3 * (parts - 1) ≤ n →
        (∀ i < parts - 1, s.partStart base parts i + s.partSize base i ≤ n) →
        tagKey (s.frameTag base) = true → s.sizeChanges (s.frameSize base) = true →
        s.askAllocator.1 = false →
        exec .fcHeader s = .next (s.askAllocator.2.raiseFrame .alloc))

/-- `FC_HEADER` (R402, R404, R406, R408 to R429): a frame that passes the checks and whose size the allocator
grants completes, whatever its compressed bytes are: the class in `RES0` and `CR0`, the size of a keyframe in
`CR1`, every partition's registers and decoder, the multipliers of all segments. Everything that the fields of
R409 to R424 set (the control registers' fields, the probabilities, the snapshot, and instance 0 after the last
field) is what the rules, read in the order of R428, make of it (`Header.parse`); through a keyframe's header
`mvc`, `ymode` and `uvmode` keep the default values of R409, and the three roles are marked for update. The
flags, the discard policy and the position stay, and where the size in macroblocks does not change, so do the
roles, the pixels, the macroblock records and everything else. Three points are the model's readings or choices:
that an interframe, whose header lacks the fields, leaves `COLOR_SPACE` and `CLAMP_TYPE` as the last keyframe set
them (notes/assumptions/22.md), that every decoder that the header starts reads its buffer as the host last wrote
it (notes/assumptions/25.md), and that `LFP` holds no record after a size change (notes/assumptions/24.md). The
allocator's answers that the request uses up are the model's input (notes/assumptions/5.md). -/
def Obligations.FcHeaderResult : Prop :=
  ∀ s : State,
    let base := s.arg 0
    let length := s.arg 1
    let key := tagKey (s.frameTag base)
    let resized := key = true ∧ s.sizeChanges (s.frameSize base) = true
    s.FrameOk base length → s.sizeGranted (s.wantedSize base) = true →
    ∃ t, exec .fcHeader s = .next t ∧ t.response = .ok ∧ t.result 0 = boolWord key ∧ onlyRes [0] s t ∧
      t.crBit 0 0 = key ∧ t.crField 0 1 3 = tagProfile (s.frameTag base) ∧
      t.crBit 0 4 = tagShow (s.frameTag base) ∧
      t.crRaw 1 = (if key then s.frameSize base else s.crRaw 1) ∧
      (∀ j, j = 16 ∨ j = 17 ∨ j = 19 → t.crRaw j = s.crRaw j) ∧
      (resized → t.crRaw 18 = 0x7777) ∧ (¬resized → t.crRaw 18 = s.crRaw 18) ∧
      t.crRaw 20 = base + BitVec.ofNat 32 (hdrLen key) ∧
      t.crRaw 32 = BitVec.ofNat 32 (tagFirst (s.frameTag base)) ∧
      (t.rdAt 0).base = t.crRaw 20 ∧ (t.rdAt 0).size = t.crRaw 32 ∧
      (∀ i < t.npart, t.rdAt (1 + i) = rdStart s.cbuf (t.crRaw (21 + i)) (t.crRaw (33 + i)) ∧
        t.crRaw (21 + i) = base + BitVec.ofNat 32 (s.partStart base t.npart i) ∧
        (i + 1 < t.npart → (t.crRaw (33 + i)).toNat = s.partSize base i) ∧
        (i + 1 = t.npart →
          (t.crRaw (33 + i)).toNat = length.toNat - s.partStart base t.npart i)) ∧
      (∀ k ≤ 8, t.rdValid k = decide (k ≤ t.npart)) ∧
      (∀ i, t.npart ≤ i → i < 8 → t.crRaw (21 + i) = 0 ∧ t.crRaw (33 + i) = 0) ∧
      (∀ g < 4, Memory.find t.dq g = some (t.dqOf g)) ∧
      t.headerFields =
        Header.parse s.cbuf key (rdStart s.cbuf (t.crRaw 20) (t.crRaw 32)) s.headerFields ∧
      (key = true → t.ProbKnown 0 1101 ∧ (∀ k, Memory.get t.segmap 0 k = 0) ∧
        (∀ i < 19, t.probAt (mvcIndex 0 + i) = ([162, 128, 225, 146, 172, 147, 214, 39, 156, 128, 129, 132,
          75, 145, 178, 206, 239, 254, 254] : List Byte)[i]?) ∧
        (∀ i < 19, t.probAt (mvcIndex 1 + i) = ([164, 128, 204, 170, 119, 235, 140, 230, 228, 128, 130, 130,
          74, 148, 180, 203, 236, 254, 254] : List Byte)[i]?) ∧
        (∀ i < 4, t.probAt (ymodeIndex + i) = ([112, 86, 140, 37] : List Byte)[i]?) ∧
        (∀ i < 3, t.probAt (uvmodeIndex + i) = ([162, 101, 204] : List Byte)[i]?) ∧
        t.crField 13 0 2 = 1 ∧ t.crField 13 2 2 = 1 ∧ t.crBit 13 4 = true ∧ t.crBit 13 5 = false ∧
        t.crBit 13 6 = false) ∧
      (key = false → t.segmap = s.segmap) ∧
      (¬resized → t = { s with
        cr := t.cr, rd := t.rd, prob := t.prob, probSaved := t.probSaved, dq := t.dq, segmap := t.segmap
        res := t.res, response := .ok }) ∧
      (resized → (∀ n p x y, t.pix n p x y = none) ∧ (∀ x y, t.mbRec x y = MbRec.zero) ∧
        (∀ x, Memory.get t.nzAbove nzZero x = nzZero) ∧ (∀ x, Memory.find t.lfp x = none) ∧
        t.topb.valid = false ∧
        t = { s with
          cr := t.cr, rd := t.rd, prob := t.prob, probSaved := t.probSaved, dq := t.dq, segmap := t.segmap
          res := t.res, fb := t.fb, mbinfo := t.mbinfo, nzAbove := t.nzAbove, lfp := t.lfp, topb := t.topb
          allocAnswers := s.allocAnswers.tail, allocCount := s.allocCount + 1, response := .ok })

/-- `FC_FRAME` (R437, R425, R430, R433 to R436, R449) on a frame that passes the checks and whose size is
granted: it completes, whatever the compressed bytes are. `STATUS.ERR` is cleared first, then it is
`FC_HEADER`; a discarded frame leaves what its header and the probability rule make, and returns no frame; any
other is the sequence of commands of R430 between `FC_FRAMESTART` and `FC_FRAMEEND`, the results replaced
where the frame is not visible. It is decoded into a slot that is no reference, all of whose pixels it
specifies, no other slot's pixels change; the roles and the probabilities are those of R434 and R436. An
interframe needs, besides, what only earlier frames specify: the probabilities, a size, and the pixels of the
three roles (R59, R481). An error of the header is `FC_FRAME`'s: nothing of the frame is decoded. Two points
are the model's choices: a discarded keyframe of a new size keeps the `CR18` that its header made, 0x7777
(notes/assumptions/26.md), and RES2 and RES3 are what the sequence leaves (notes/assumptions/13.md). -/
def Obligations.FcFrameResult : Prop :=
  (∀ s : State,
    let base := s.arg 0
    let key := tagKey (s.frameTag base)
    s.frameBegin.FrameOk base (s.arg 1) → s.sizeGranted (s.wantedSize base) = true →
    (key = false → s.ProbKnown 0 1101 ∧ s.mbW ≠ 0 ∧ s.mbH ≠ 0 ∧
      ∀ ref, 1 ≤ ref → ref ≤ 3 → ∃ slot, s.refSlot ref = some slot ∧ s.SlotKnown slot) →
    ∃ h, exec .fcHeader s.frameBegin = .next h ∧ h.response = .ok ∧
      (h.discards → exec .fcFrame s =
        .next ({ h with
            prob := if h.crBit 13 7 then h.prob else h.probSaved
            probSaved := if h.crBit 13 7 then h.prob else h.probSaved }.setRes 0 0 |>.setRes 1 7).done) ∧
      (¬h.discards → ∃ (t u : State) (slot : Nat), frameProgram h = .next u ∧
        t = (if tagShow (s.frameTag base) then u else (u.setRes 0 0).setRes 1 7) ∧
        exec .fcFrame s = .next t ∧ t.response = .ok ∧
        t.result 0 = boolWord (tagShow (s.frameTag base)) ∧
        t.result 1 = (if tagShow (s.frameTag base) then BitVec.ofNat 32 slot else 7) ∧
        t.visible = tagShow (s.frameTag base) ∧ t.errFlag = 0 ∧
        t.keyframeSeen = (s.keyframeSeen || key) ∧
        t.curSlot = some slot ∧
        (∀ lo, lo = 4 ∨ lo = 8 ∨ lo = 12 → slot ≠ h.crField 18 lo 3) ∧
        t.crField 18 4 3 = (if h.crBit 13 4 then slot else h.crField 18 4 3) ∧
        t.crField 18 8 3 = roleAfter (h.crField 13 0 2) (h.crField 18 8 3) slot (h.crField 18 4 3)
          (h.crField 18 12 3) ∧
        t.crField 18 12 3 = roleAfter (h.crField 13 2 2) (h.crField 18 12 3) slot (h.crField 18 4 3)
          (h.crField 18 8 3) ∧
        t.prob = (if h.crBit 13 7 then h.prob else h.probSaved) ∧ t.probSaved = t.prob ∧
        (∀ p < 3, ∀ x y, x < h.planeW p → y < h.planeH p → (t.pix slot p x y).isSome = true) ∧
        (∀ n p x y, n ≠ slot → t.pix n p x y = h.pix n p x y))) ∧
  (∀ (s h : State) (c : ErrCode), exec .fcHeader s.frameBegin = .next h → h.response = .error c →
    exec .fcFrame s = .next h)
end

