-- ==== Sys2Proof/Laws/Bits.lean ====
section
/-! SUPPORT. Bit fields: a field read after a field written, and the reserved bits of a word. -/

namespace Sys2Proof.Machine

theorem field_lt (w : Word) (lo len : Nat) : field w lo len < 2 ^ len := (w.extractLsb' lo len).isLt

theorem testBit_field (w : Word) (lo len i : Nat) :
    (field w lo len).testBit i = (decide (i < len) && w.getLsbD (lo + i)) := by
  rw [field, ← BitVec.getLsbD, BitVec.getLsbD_extractLsb']

theorem getLsbD_fieldMask (lo len i : Nat) :
    (fieldMask lo len).getLsbD i = (decide (i < 32) && decide (lo ≤ i) && decide (i < lo + len)) := by
  unfold fieldMask
  rw [BitVec.getLsbD_shiftLeft, BitVec.getLsbD_ofNat, Nat.testBit_two_pow_sub_one]
  by_cases h1 : i < 32 <;> by_cases h2 : lo ≤ i <;> by_cases h3 : i < lo + len <;> simp [h1, h2, h3] <;>
    omega

theorem getLsbD_setField (w : Word) (lo len v i : Nat) (hi : i < 32) :
    (setField w lo len v).getLsbD i =
      if lo ≤ i ∧ i < lo + len then v.testBit (i - lo) else w.getLsbD i := by
  unfold setField
  simp only [BitVec.getLsbD_or, BitVec.getLsbD_and, BitVec.getLsbD_not, getLsbD_fieldMask,
    BitVec.getLsbD_shiftLeft, BitVec.getLsbD_ofNat]
  have h4 : i - lo < 32 := by omega
  by_cases h2 : lo ≤ i <;> by_cases h3 : i < lo + len <;> simp [hi, h2, h3, h4, Nat.not_lt.2]

/-- A field reads as what was written into it, cut to its width. -/
theorem field_setField (w : Word) (lo len v : Nat) (h : lo + len ≤ 32) :
    field (setField w lo len v) lo len = v % 2 ^ len := by
  apply Nat.eq_of_testBit_eq
  intro i
  rw [testBit_field, Nat.testBit_mod_two_pow]
  by_cases hi : i < len
  · rw [getLsbD_setField _ _ _ _ _ (by omega), if_pos (by omega)]
    simp
  · simp [hi]

/-- A field reads as before when another one is written. -/
theorem field_setField_other (w : Word) {lo len lo2 len2 : Nat} (v : Nat)
    (h : lo2 + len2 ≤ lo ∨ lo + len ≤ lo2) (h2 : lo2 + len2 ≤ 32) :
    field (setField w lo len v) lo2 len2 = field w lo2 len2 := by
  apply Nat.eq_of_testBit_eq
  intro i
  rw [testBit_field, testBit_field]
  by_cases hi : i < len2
  · rw [getLsbD_setField _ _ _ _ _ (by omega), if_neg (by omega)]
  · simp [hi]

theorem bitAt_eq_field (w : Word) (i : Nat) : bitAt w i = decide (field w i 1 = 1) := by
  have h := testBit_field w i 1 0
  have hlt := field_lt w i 1
  simp only [Nat.lt_one_iff, decide_true, Bool.true_and, Nat.add_zero] at h
  rw [bitAt, ← h]
  have : field w i 1 = 0 ∨ field w i 1 = 1 := by omega
  rcases this with h | h <;> rw [h] <;> decide

theorem bitAt_setField_other (w : Word) {lo len i : Nat} (v : Nat) (h : i < lo ∨ lo + len ≤ i)
    (hi : i < 32) : bitAt (setField w lo len v) i = bitAt w i := by
  rw [bitAt_eq_field, bitAt_eq_field, field_setField_other _ _ (by omega) (by omega)]

/-- Writing a field inside the kept bits keeps the other bits 0. -/
theorem setField_clean {w m : Word} {lo len : Nat} (v : Nat) (hw : w &&& ~~~m = 0)
    (hm : fieldMask lo len &&& ~~~m = 0) : setField w lo len v &&& ~~~m = 0 := by
  apply BitVec.eq_of_getLsbD_eq
  intro i hi
  have h1 := congrArg (fun x => x.getLsbD i) hw
  have h2 := congrArg (fun x => x.getLsbD i) hm
  simp only [BitVec.getLsbD_and, BitVec.getLsbD_not, hi, decide_true, Bool.true_and,
    getLsbD_fieldMask] at h1 h2 ⊢
  rw [getLsbD_setField _ _ _ _ _ hi]
  split
  · rename_i h
    simp only [h.1, h.2, decide_true, Bool.true_and] at h2
    simp [h2]
  · exact h1

theorem and_mask_clean (v m : Word) : v &&& m &&& ~~~m = 0 := by
  rw [BitVec.and_assoc, BitVec.and_not_self]
  exact BitVec.and_zero

@[simp] theorem field_posWord_x (x y : Nat) : field (posWord x y) 0 11 = x % 2048 := by
  unfold posWord
  rw [field_setField_other _ _ (.inl (by omega)) (by omega), field_setField _ _ _ _ (by omega)]
  norm_num

@[simp] theorem field_posWord_y (x y : Nat) : field (posWord x y) 16 11 = y % 2048 := by
  unfold posWord
  rw [field_setField _ _ _ _ (by omega)]
  norm_num

theorem clamp_le {v lo hi : Int} (h : lo ≤ hi) : clamp v lo hi ≤ hi := by unfold clamp; omega

theorem le_clamp (v lo hi : Int) : lo ≤ clamp v lo hi := by unfold clamp; omega

theorem clamp_of_mem {v lo hi : Int} (h1 : lo ≤ v) (h2 : v ≤ hi) : clamp v lo hi = v := by
  unfold clamp; omega

theorem mbCount_le {n : Nat} (h : n < 2 ^ 14) : mbCount n ≤ 1024 := by unfold mbCount; omega

theorem sizeMbW_le (w : Word) : sizeMbW w ≤ 1024 := mbCount_le (field_lt w 0 14)

theorem sizeMbH_le (w : Word) : sizeMbH w ≤ 1024 := mbCount_le (field_lt w 16 14)

end Sys2Proof.Machine
end

