-- ==== Sys2Proof/Laws/Memory.lean ====
section
/-! SUPPORT. Sparse memories: a read after a write, and the canonical form. -/

namespace Sys2Proof.Machine

variable {α : Type}

@[simp] theorem Memory.find_nil (k : Nat) : Memory.find ([] : Memory α) k = none := rfl

theorem Memory.find_cons (p : Nat × α) (m : Memory α) (k : Nat) :
    Memory.find (p :: m) k = if p.1 = k then some p.2 else Memory.find m k := rfl

theorem Memory.find_set (m : Memory α) (k j : Nat) (v : α) :
    Memory.find (Memory.set m k v) j = if j = k then some v else Memory.find m j := by
  induction m with
  | nil =>
    simp only [Memory.set, Memory.find_cons, Memory.find_nil]
    simp only [eq_comm]
  | cons p m ih =>
    simp only [Memory.set]
    split
    · simp only [Memory.find_cons]
      by_cases h : j = k
      · simp [h]
      · simp [h, Ne.symm h]
    · split
      · rename_i h1 h2
        simp only [Memory.find_cons]
        by_cases h : j = k
        · simp [h]
        · have : p.1 ≠ j := by omega
          simp [h, Ne.symm h, this]
      · rename_i h1 h2
        simp only [Memory.find_cons, ih]
        by_cases hp : p.1 = j
        · have : j ≠ k := by omega
          simp [hp, this]
        · simp [hp]

@[simp] theorem Memory.find_set_self (m : Memory α) (k : Nat) (v : α) :
    Memory.find (Memory.set m k v) k = some v := by simp [Memory.find_set]

theorem Memory.find_set_other (m : Memory α) {k j : Nat} (v : α) (h : j ≠ k) :
    Memory.find (Memory.set m k v) j = Memory.find m j := by simp [Memory.find_set, h]

theorem Memory.find_erase (m : Memory α) (k j : Nat) :
    Memory.find (Memory.erase m k) j = if j = k then none else Memory.find m j := by
  induction m with
  | nil => simp [Memory.erase]
  | cons p m ih =>
    unfold Memory.erase at ih ⊢
    by_cases hp : p.1 = k
    · rw [List.filter_cons_of_neg (by simp [hp]), ih, Memory.find_cons]
      by_cases hj : j = k
      · simp [hj]
      · have : p.1 ≠ j := by omega
        simp [hj, this]
    · rw [List.filter_cons_of_pos (by simp [hp]), Memory.find_cons, Memory.find_cons, ih]
      by_cases hj : p.1 = j
      · have : j ≠ k := by omega
        simp [hj, this]
      · simp [hj]

theorem Memory.get_put [DecidableEq α] (m : Memory α) (d : α) (k j : Nat) (v : α) :
    Memory.get (Memory.put m d k v) d j = if j = k then v else Memory.get m d j := by
  unfold Memory.get Memory.put
  by_cases hv : v = d
  · simp only [if_pos hv, Memory.find_erase]
    split <;> simp_all
  · simp only [if_neg hv, Memory.find_set]
    split <;> simp_all

@[simp] theorem Memory.get_put_self [DecidableEq α] (m : Memory α) (d : α) (k : Nat) (v : α) :
    Memory.get (Memory.put m d k v) d k = v := by simp [Memory.get_put]

theorem Memory.get_put_other [DecidableEq α] (m : Memory α) (d : α) {k j : Nat} (v : α) (h : j ≠ k) :
    Memory.get (Memory.put m d k v) d j = Memory.get m d j := by simp [Memory.get_put, h]

@[simp] theorem Memory.get_nil (d : α) (k : Nat) : Memory.get ([] : Memory α) d k = d := rfl

/-! ## Several writes -/

theorem Memory.find_setAll (m : Memory α) (ps : List (Nat × α)) (j : Nat) :
    Memory.find (Memory.setAll m ps) j = (Memory.find ps j).or (Memory.find m j) := by
  induction ps with
  | nil => rfl
  | cons p ps ih =>
    have : Memory.setAll m (p :: ps) = Memory.set (Memory.setAll m ps) p.1 p.2 := rfl
    rw [this, Memory.find_set, ih, Memory.find_cons]
    by_cases h : j = p.1
    · simp [h]
    · simp [h, Ne.symm h]

theorem Memory.find_eq_none {m : Memory α} {j : Nat} (h : ∀ p ∈ m, p.1 ≠ j) : Memory.find m j = none := by
  induction m with
  | nil => rfl
  | cons p m ih =>
    rw [Memory.find_cons, if_neg (h p (by simp)), ih fun q hq => h q (by simp [hq])]

/-- An address that is not in the list reads as before. -/
theorem Memory.find_setAll_other (m : Memory α) {ps : List (Nat × α)} {j : Nat}
    (h : ∀ p ∈ ps, p.1 ≠ j) : Memory.find (Memory.setAll m ps) j = Memory.find m j := by
  rw [Memory.find_setAll, Memory.find_eq_none h, Option.none_or]

theorem Memory.find_isSome_of_mem {m : Memory α} {p : Nat × α} (h : p ∈ m) :
    (Memory.find m p.1).isSome = true := by
  induction m with
  | nil => simp at h
  | cons q m ih =>
    rw [Memory.find_cons]
    split
    · rfl
    · rcases List.mem_cons.1 h with rfl | h
      · simp_all
      · exact ih h

theorem Memory.isSome_setAll (m : Memory α) (ps : List (Nat × α)) {j : Nat}
    (h : (Memory.find m j).isSome = true) : (Memory.find (Memory.setAll m ps) j).isSome = true := by
  rw [Memory.find_setAll]
  cases Memory.find ps j <;> simp_all

/-! ## The canonical form -/

theorem Memory.set_fst (m : Memory α) (k : Nat) (v : α) {p : Nat × α} (h : p ∈ Memory.set m k v) :
    p = (k, v) ∨ p ∈ m := by
  induction m with
  | nil => simpa [Memory.set] using h
  | cons q m ih =>
    simp only [Memory.set] at h
    split at h
    · simpa using h
    · split at h
      · rcases List.mem_cons.1 h with h | h
        · exact .inl h
        · exact .inr (List.mem_cons_of_mem _ h)
      · rcases List.mem_cons.1 h with h | h
        · exact .inr (h ▸ List.mem_cons_self)
        · rcases ih h with h | h
          · exact .inl h
          · exact .inr (List.mem_cons_of_mem _ h)

/-- A write keeps the addresses rising. -/
theorem Memory.wf_set {m : Memory α} (h : Memory.wf m) (k : Nat) (v : α) : Memory.wf (Memory.set m k v) := by
  induction m with
  | nil => simp [Memory.set]
  | cons p m ih =>
    have h' := List.pairwise_cons.1 h
    simp only [Memory.set]
    split
    · rename_i hk
      refine List.pairwise_cons.2 ⟨fun q hq => ?_, h⟩
      rcases List.mem_cons.1 hq with rfl | hq
      · exact hk
      · exact lt_trans hk (h'.1 q hq)
    · split
      · rename_i hk1 hk
        exact List.pairwise_cons.2 ⟨fun q hq => hk ▸ h'.1 q hq, h'.2⟩
      · rename_i hk1 hk
        refine List.pairwise_cons.2 ⟨fun q hq => ?_, ih h'.2⟩
        rcases Memory.set_fst m k v hq with rfl | hq
        · show p.1 < k
          omega
        · exact h'.1 q hq

theorem Memory.wf_erase {m : Memory α} (h : Memory.wf m) (k : Nat) : Memory.wf (Memory.erase m k) :=
  List.Pairwise.filter _ h

theorem Memory.wf_setAll {m : Memory α} (h : Memory.wf m) (ps : List (Nat × α)) :
    Memory.wf (Memory.setAll m ps) := by
  induction ps with
  | nil => exact h
  | cons p ps ih => exact Memory.wf_set ih p.1 p.2

/-- A write keeps the canonical form of a memory with a default. -/
theorem Memory.wfD_put [DecidableEq α] {m : Memory α} {d : α} (h : Memory.wfD d m) (k : Nat) (v : α) :
    Memory.wfD d (Memory.put m d k v) := by
  unfold Memory.put
  split
  · exact ⟨Memory.wf_erase h.1 k, fun p hp => h.2 p (List.mem_filter.1 hp).1⟩
  · rename_i hv
    refine ⟨Memory.wf_set h.1 k v, fun p hp => ?_⟩
    rcases Memory.set_fst m k v hp with rfl | hp
    · exact hv
    · exact h.2 p hp

theorem Memory.wfD_putAll [DecidableEq α] {m : Memory α} {d : α} (h : Memory.wfD d m)
    (ps : List (Nat × α)) : Memory.wfD d (Memory.putAll m d ps) := by
  induction ps with
  | nil => exact h
  | cons p ps ih => exact Memory.wfD_put ih p.1 p.2

theorem Memory.wfD_nil (d : α) : Memory.wfD d ([] : Memory α) := ⟨List.Pairwise.nil, by simp⟩

/-- Two canonical memories that read alike are equal. -/
theorem Memory.ext_of_wf {m n : Memory α} (hm : Memory.wf m) (hn : Memory.wf n)
    (h : ∀ k, Memory.find m k = Memory.find n k) : m = n := by
  induction m generalizing n with
  | nil =>
    cases n with
    | nil => rfl
    | cons q n => have := h q.1; simp [Memory.find_cons] at this
  | cons p m ih =>
    cases n with
    | nil => have := h p.1; simp [Memory.find_cons] at this
    | cons q n =>
      have hm' := List.pairwise_cons.1 hm
      have hn' := List.pairwise_cons.1 hn
      have hpq : p.1 = q.1 := by
        rcases lt_trichotomy p.1 q.1 with hlt | he | hlt
        · have h1 := h p.1
          rw [Memory.find_cons, if_pos rfl, Memory.find_cons, if_neg (by omega),
            Memory.find_eq_none fun r hr => by have := hn'.1 r hr; omega] at h1
          cases h1
        · exact he
        · have h1 := h q.1
          rw [Memory.find_cons, if_neg (by omega), Memory.find_cons, if_pos rfl,
            Memory.find_eq_none fun r hr => by have := hm'.1 r hr; omega] at h1
          cases h1
      have hv : p.2 = q.2 := by
        have h1 := h p.1
        rw [Memory.find_cons, if_pos rfl, Memory.find_cons, if_pos hpq.symm] at h1
        exact Option.some.inj h1
      have hp : p = q := Prod.ext hpq hv
      subst hp
      congr 1
      refine ih hm'.2 hn'.2 fun k => ?_
      by_cases hk : p.1 = k
      · subst hk
        rw [Memory.find_eq_none fun r hr => (by have := hm'.1 r hr; omega),
          Memory.find_eq_none fun r hr => (by have := hn'.1 r hr; omega)]
      · have h1 := h k
        rwa [Memory.find_cons, if_neg hk, Memory.find_cons, if_neg hk] at h1

/-- Two writes of one address are the second alone, where the memory is in its canonical form. -/
theorem Memory.put_put [DecidableEq α] {m : Memory α} {d : α} (h : Memory.wfD d m) (k : Nat) (v w : α) :
    Memory.put (Memory.put m d k v) d k w = Memory.put m d k w := by
  refine Memory.ext_of_wf (Memory.wfD_put (Memory.wfD_put h k v) k w).1 (Memory.wfD_put h k w).1 fun j => ?_
  unfold Memory.put
  by_cases h1 : v = d <;> by_cases h2 : w = d <;> by_cases hj : j = k <;>
    simp [h1, h2, hj, Memory.find_set, Memory.find_erase]

end Sys2Proof.Machine
end

