-- ==== Sys2Proof/Laws/State.lean ====
section
/-! SUPPORT. What each update of the state does to each of its fields and readings: one lemma each, by
unfolding. -/

namespace Sys2Proof.Machine

variable (s : State)

/-! ### `setArg` -/

@[simp] theorem State.setArg_args (i : Nat) (v : Word) :
    (s.setArg i v).args = s.args.setIfInBounds i v := rfl
@[simp] theorem State.setArg_res (i : Nat) (v : Word) : (s.setArg i v).res = s.res := rfl
@[simp] theorem State.setArg_rd (i : Nat) (v : Word) : (s.setArg i v).rd = s.rd := rfl
@[simp] theorem State.setArg_cr (i : Nat) (v : Word) : (s.setArg i v).cr = s.cr := rfl
@[simp] theorem State.setArg_prob (i : Nat) (v : Word) : (s.setArg i v).prob = s.prob := rfl
@[simp] theorem State.setArg_probSaved (i : Nat) (v : Word) : (s.setArg i v).probSaved = s.probSaved := rfl
@[simp] theorem State.setArg_dq (i : Nat) (v : Word) : (s.setArg i v).dq = s.dq := rfl
@[simp] theorem State.setArg_mbinfo (i : Nat) (v : Word) : (s.setArg i v).mbinfo = s.mbinfo := rfl
@[simp] theorem State.setArg_segmap (i : Nat) (v : Word) : (s.setArg i v).segmap = s.segmap := rfl
@[simp] theorem State.setArg_nzAbove (i : Nat) (v : Word) : (s.setArg i v).nzAbove = s.nzAbove := rfl
@[simp] theorem State.setArg_nzLeft (i : Nat) (v : Word) : (s.setArg i v).nzLeft = s.nzLeft := rfl
@[simp] theorem State.setArg_coef (i : Nat) (v : Word) : (s.setArg i v).coef = s.coef := rfl
@[simp] theorem State.setArg_cand (i : Nat) (v : Word) : (s.setArg i v).cand = s.cand := rfl
@[simp] theorem State.setArg_lfp (i : Nat) (v : Word) : (s.setArg i v).lfp = s.lfp := rfl
@[simp] theorem State.setArg_fb (i : Nat) (v : Word) : (s.setArg i v).fb = s.fb := rfl
@[simp] theorem State.setArg_topb (i : Nat) (v : Word) : (s.setArg i v).topb = s.topb := rfl
@[simp] theorem State.setArg_cbuf (i : Nat) (v : Word) : (s.setArg i v).cbuf = s.cbuf := rfl
@[simp] theorem State.setArg_response (i : Nat) (v : Word) : (s.setArg i v).response = s.response := rfl
@[simp] theorem State.setArg_hostq (i : Nat) (v : Word) : (s.setArg i v).hostq = s.hostq := rfl
@[simp] theorem State.setArg_allocAnswers (i : Nat) (v : Word) : (s.setArg i v).allocAnswers = s.allocAnswers := rfl
@[simp] theorem State.setArg_allocCount (i : Nat) (v : Word) : (s.setArg i v).allocCount = s.allocCount := rfl
@[simp] theorem State.setArg_freeCount (i : Nat) (v : Word) : (s.setArg i v).freeCount = s.freeCount := rfl
@[simp] theorem State.setArg_changeCount (i : Nat) (v : Word) : (s.setArg i v).changeCount = s.changeCount := rfl
@[simp] theorem State.setArg_result (i : Nat) (v : Word) (j : Nat) :
    (s.setArg i v).result j = s.result j := rfl
@[simp] theorem State.setArg_crRaw (i : Nat) (v : Word) (j : Nat) :
    (s.setArg i v).crRaw j = s.crRaw j := rfl
@[simp] theorem State.setArg_crField (i : Nat) (v : Word) (j a b' : Nat) :
    (s.setArg i v).crField j a b' = s.crField j a b' := rfl
@[simp] theorem State.setArg_crBit (i : Nat) (v : Word) (j a : Nat) :
    (s.setArg i v).crBit j a = s.crBit j a := rfl
@[simp] theorem State.setArg_mbW (i : Nat) (v : Word) :
    (s.setArg i v).mbW = s.mbW := rfl
@[simp] theorem State.setArg_mbH (i : Nat) (v : Word) :
    (s.setArg i v).mbH = s.mbH := rfl
@[simp] theorem State.setArg_mbx (i : Nat) (v : Word) :
    (s.setArg i v).mbx = s.mbx := rfl
@[simp] theorem State.setArg_mby (i : Nat) (v : Word) :
    (s.setArg i v).mby = s.mby := rfl
@[simp] theorem State.setArg_posOk (i : Nat) (v : Word) :
    (s.setArg i v).posOk = s.posOk := rfl
@[simp] theorem State.setArg_planeW (i : Nat) (v : Word) (q : Nat) :
    (s.setArg i v).planeW q = s.planeW q := rfl
@[simp] theorem State.setArg_planeH (i : Nat) (v : Word) (q : Nat) :
    (s.setArg i v).planeH q = s.planeH q := rfl
@[simp] theorem State.setArg_curSlot (i : Nat) (v : Word) :
    (s.setArg i v).curSlot = s.curSlot := rfl
@[simp] theorem State.setArg_rdAt (i : Nat) (v : Word) (j : Nat) :
    (s.setArg i v).rdAt j = s.rdAt j := rfl
@[simp] theorem State.setArg_rdValid (i : Nat) (v : Word) (j : Nat) :
    (s.setArg i v).rdValid j = s.rdValid j := rfl
@[simp] theorem State.setArg_mbRec (i : Nat) (v : Word) (a b' : Nat) :
    (s.setArg i v).mbRec a b' = s.mbRec a b' := rfl
@[simp] theorem State.setArg_cur (i : Nat) (v : Word) :
    (s.setArg i v).cur = s.cur := rfl
@[simp] theorem State.setArg_segment (i : Nat) (v : Word) :
    (s.setArg i v).segment = s.segment := rfl
@[simp] theorem State.setArg_coefAt (i : Nat) (v : Word) (a j : Nat) :
    (s.setArg i v).coefAt a j = s.coefAt a j := rfl
@[simp] theorem State.setArg_probAt (i : Nat) (v : Word) (j : Nat) :
    (s.setArg i v).probAt j = s.probAt j := rfl
@[simp] theorem State.setArg_plane (i : Nat) (v : Word) (a q : Nat) :
    (s.setArg i v).plane a q = s.plane a q := rfl
@[simp] theorem State.setArg_pix (i : Nat) (v : Word) (a q c d : Nat) :
    (s.setArg i v).pix a q c d = s.pix a q c d := rfl

/-! ### `setRes` -/

@[simp] theorem State.setRes_args (i : Nat) (v : Word) : (s.setRes i v).args = s.args := rfl
@[simp] theorem State.setRes_res (i : Nat) (v : Word) :
    (s.setRes i v).res = s.res.setIfInBounds i v := rfl
@[simp] theorem State.setRes_rd (i : Nat) (v : Word) : (s.setRes i v).rd = s.rd := rfl
@[simp] theorem State.setRes_cr (i : Nat) (v : Word) : (s.setRes i v).cr = s.cr := rfl
@[simp] theorem State.setRes_prob (i : Nat) (v : Word) : (s.setRes i v).prob = s.prob := rfl
@[simp] theorem State.setRes_probSaved (i : Nat) (v : Word) : (s.setRes i v).probSaved = s.probSaved := rfl
@[simp] theorem State.setRes_dq (i : Nat) (v : Word) : (s.setRes i v).dq = s.dq := rfl
@[simp] theorem State.setRes_mbinfo (i : Nat) (v : Word) : (s.setRes i v).mbinfo = s.mbinfo := rfl
@[simp] theorem State.setRes_segmap (i : Nat) (v : Word) : (s.setRes i v).segmap = s.segmap := rfl
@[simp] theorem State.setRes_nzAbove (i : Nat) (v : Word) : (s.setRes i v).nzAbove = s.nzAbove := rfl
@[simp] theorem State.setRes_nzLeft (i : Nat) (v : Word) : (s.setRes i v).nzLeft = s.nzLeft := rfl
@[simp] theorem State.setRes_coef (i : Nat) (v : Word) : (s.setRes i v).coef = s.coef := rfl
@[simp] theorem State.setRes_cand (i : Nat) (v : Word) : (s.setRes i v).cand = s.cand := rfl
@[simp] theorem State.setRes_lfp (i : Nat) (v : Word) : (s.setRes i v).lfp = s.lfp := rfl
@[simp] theorem State.setRes_fb (i : Nat) (v : Word) : (s.setRes i v).fb = s.fb := rfl
@[simp] theorem State.setRes_topb (i : Nat) (v : Word) : (s.setRes i v).topb = s.topb := rfl
@[simp] theorem State.setRes_cbuf (i : Nat) (v : Word) : (s.setRes i v).cbuf = s.cbuf := rfl
@[simp] theorem State.setRes_response (i : Nat) (v : Word) : (s.setRes i v).response = s.response := rfl
@[simp] theorem State.setRes_hostq (i : Nat) (v : Word) : (s.setRes i v).hostq = s.hostq := rfl
@[simp] theorem State.setRes_allocAnswers (i : Nat) (v : Word) : (s.setRes i v).allocAnswers = s.allocAnswers := rfl
@[simp] theorem State.setRes_allocCount (i : Nat) (v : Word) : (s.setRes i v).allocCount = s.allocCount := rfl
@[simp] theorem State.setRes_freeCount (i : Nat) (v : Word) : (s.setRes i v).freeCount = s.freeCount := rfl
@[simp] theorem State.setRes_changeCount (i : Nat) (v : Word) : (s.setRes i v).changeCount = s.changeCount := rfl
@[simp] theorem State.setRes_arg (i : Nat) (v : Word) (j : Nat) :
    (s.setRes i v).arg j = s.arg j := rfl
@[simp] theorem State.setRes_crRaw (i : Nat) (v : Word) (j : Nat) :
    (s.setRes i v).crRaw j = s.crRaw j := rfl
@[simp] theorem State.setRes_crField (i : Nat) (v : Word) (j a b' : Nat) :
    (s.setRes i v).crField j a b' = s.crField j a b' := rfl
@[simp] theorem State.setRes_crBit (i : Nat) (v : Word) (j a : Nat) :
    (s.setRes i v).crBit j a = s.crBit j a := rfl
@[simp] theorem State.setRes_mbW (i : Nat) (v : Word) :
    (s.setRes i v).mbW = s.mbW := rfl
@[simp] theorem State.setRes_mbH (i : Nat) (v : Word) :
    (s.setRes i v).mbH = s.mbH := rfl
@[simp] theorem State.setRes_mbx (i : Nat) (v : Word) :
    (s.setRes i v).mbx = s.mbx := rfl
@[simp] theorem State.setRes_mby (i : Nat) (v : Word) :
    (s.setRes i v).mby = s.mby := rfl
@[simp] theorem State.setRes_posOk (i : Nat) (v : Word) :
    (s.setRes i v).posOk = s.posOk := rfl
@[simp] theorem State.setRes_planeW (i : Nat) (v : Word) (q : Nat) :
    (s.setRes i v).planeW q = s.planeW q := rfl
@[simp] theorem State.setRes_planeH (i : Nat) (v : Word) (q : Nat) :
    (s.setRes i v).planeH q = s.planeH q := rfl
@[simp] theorem State.setRes_curSlot (i : Nat) (v : Word) :
    (s.setRes i v).curSlot = s.curSlot := rfl
@[simp] theorem State.setRes_rdAt (i : Nat) (v : Word) (j : Nat) :
    (s.setRes i v).rdAt j = s.rdAt j := rfl
@[simp] theorem State.setRes_rdValid (i : Nat) (v : Word) (j : Nat) :
    (s.setRes i v).rdValid j = s.rdValid j := rfl
@[simp] theorem State.setRes_mbRec (i : Nat) (v : Word) (a b' : Nat) :
    (s.setRes i v).mbRec a b' = s.mbRec a b' := rfl
@[simp] theorem State.setRes_cur (i : Nat) (v : Word) :
    (s.setRes i v).cur = s.cur := rfl
@[simp] theorem State.setRes_segment (i : Nat) (v : Word) :
    (s.setRes i v).segment = s.segment := rfl
@[simp] theorem State.setRes_coefAt (i : Nat) (v : Word) (a j : Nat) :
    (s.setRes i v).coefAt a j = s.coefAt a j := rfl
@[simp] theorem State.setRes_probAt (i : Nat) (v : Word) (j : Nat) :
    (s.setRes i v).probAt j = s.probAt j := rfl
@[simp] theorem State.setRes_plane (i : Nat) (v : Word) (a q : Nat) :
    (s.setRes i v).plane a q = s.plane a q := rfl
@[simp] theorem State.setRes_pix (i : Nat) (v : Word) (a q c d : Nat) :
    (s.setRes i v).pix a q c d = s.pix a q c d := rfl

/-! ### `setCr` -/

@[simp] theorem State.setCr_args (i : Nat) (v : Word) : (s.setCr i v).args = s.args := rfl
@[simp] theorem State.setCr_res (i : Nat) (v : Word) : (s.setCr i v).res = s.res := rfl
@[simp] theorem State.setCr_rd (i : Nat) (v : Word) : (s.setCr i v).rd = s.rd := rfl
@[simp] theorem State.setCr_cr (i : Nat) (v : Word) :
    (s.setCr i v).cr = s.cr.setIfInBounds i v := rfl
@[simp] theorem State.setCr_prob (i : Nat) (v : Word) : (s.setCr i v).prob = s.prob := rfl
@[simp] theorem State.setCr_probSaved (i : Nat) (v : Word) : (s.setCr i v).probSaved = s.probSaved := rfl
@[simp] theorem State.setCr_dq (i : Nat) (v : Word) : (s.setCr i v).dq = s.dq := rfl
@[simp] theorem State.setCr_mbinfo (i : Nat) (v : Word) : (s.setCr i v).mbinfo = s.mbinfo := rfl
@[simp] theorem State.setCr_segmap (i : Nat) (v : Word) : (s.setCr i v).segmap = s.segmap := rfl
@[simp] theorem State.setCr_nzAbove (i : Nat) (v : Word) : (s.setCr i v).nzAbove = s.nzAbove := rfl
@[simp] theorem State.setCr_nzLeft (i : Nat) (v : Word) : (s.setCr i v).nzLeft = s.nzLeft := rfl
@[simp] theorem State.setCr_coef (i : Nat) (v : Word) : (s.setCr i v).coef = s.coef := rfl
@[simp] theorem State.setCr_cand (i : Nat) (v : Word) : (s.setCr i v).cand = s.cand := rfl
@[simp] theorem State.setCr_lfp (i : Nat) (v : Word) : (s.setCr i v).lfp = s.lfp := rfl
@[simp] theorem State.setCr_fb (i : Nat) (v : Word) : (s.setCr i v).fb = s.fb := rfl
@[simp] theorem State.setCr_topb (i : Nat) (v : Word) : (s.setCr i v).topb = s.topb := rfl
@[simp] theorem State.setCr_cbuf (i : Nat) (v : Word) : (s.setCr i v).cbuf = s.cbuf := rfl
@[simp] theorem State.setCr_response (i : Nat) (v : Word) : (s.setCr i v).response = s.response := rfl
@[simp] theorem State.setCr_hostq (i : Nat) (v : Word) : (s.setCr i v).hostq = s.hostq := rfl
@[simp] theorem State.setCr_allocAnswers (i : Nat) (v : Word) : (s.setCr i v).allocAnswers = s.allocAnswers := rfl
@[simp] theorem State.setCr_allocCount (i : Nat) (v : Word) : (s.setCr i v).allocCount = s.allocCount := rfl
@[simp] theorem State.setCr_freeCount (i : Nat) (v : Word) : (s.setCr i v).freeCount = s.freeCount := rfl
@[simp] theorem State.setCr_changeCount (i : Nat) (v : Word) : (s.setCr i v).changeCount = s.changeCount := rfl
@[simp] theorem State.setCr_arg (i : Nat) (v : Word) (j : Nat) :
    (s.setCr i v).arg j = s.arg j := rfl
@[simp] theorem State.setCr_result (i : Nat) (v : Word) (j : Nat) :
    (s.setCr i v).result j = s.result j := rfl
@[simp] theorem State.setCr_rdAt (i : Nat) (v : Word) (j : Nat) :
    (s.setCr i v).rdAt j = s.rdAt j := rfl
@[simp] theorem State.setCr_rdValid (i : Nat) (v : Word) (j : Nat) :
    (s.setCr i v).rdValid j = s.rdValid j := rfl
@[simp] theorem State.setCr_mbRec (i : Nat) (v : Word) (a b' : Nat) :
    (s.setCr i v).mbRec a b' = s.mbRec a b' := rfl
@[simp] theorem State.setCr_coefAt (i : Nat) (v : Word) (a j : Nat) :
    (s.setCr i v).coefAt a j = s.coefAt a j := rfl
@[simp] theorem State.setCr_probAt (i : Nat) (v : Word) (j : Nat) :
    (s.setCr i v).probAt j = s.probAt j := rfl
@[simp] theorem State.setCr_plane (i : Nat) (v : Word) (a q : Nat) :
    (s.setCr i v).plane a q = s.plane a q := rfl
@[simp] theorem State.setCr_pix (i : Nat) (v : Word) (a q c d : Nat) :
    (s.setCr i v).pix a q c d = s.pix a q c d := rfl

/-! ### `setCrField` -/

@[simp] theorem State.setCrField_args (i lo len v : Nat) : (s.setCrField i lo len v).args = s.args := rfl
@[simp] theorem State.setCrField_res (i lo len v : Nat) : (s.setCrField i lo len v).res = s.res := rfl
@[simp] theorem State.setCrField_rd (i lo len v : Nat) : (s.setCrField i lo len v).rd = s.rd := rfl
@[simp] theorem State.setCrField_cr (i lo len v : Nat) :
    (s.setCrField i lo len v).cr = s.cr.setIfInBounds i (setField (s.crRaw i) lo len v) := rfl
@[simp] theorem State.setCrField_prob (i lo len v : Nat) : (s.setCrField i lo len v).prob = s.prob := rfl
@[simp] theorem State.setCrField_probSaved (i lo len v : Nat) : (s.setCrField i lo len v).probSaved = s.probSaved := rfl
@[simp] theorem State.setCrField_dq (i lo len v : Nat) : (s.setCrField i lo len v).dq = s.dq := rfl
@[simp] theorem State.setCrField_mbinfo (i lo len v : Nat) : (s.setCrField i lo len v).mbinfo = s.mbinfo := rfl
@[simp] theorem State.setCrField_segmap (i lo len v : Nat) : (s.setCrField i lo len v).segmap = s.segmap := rfl
@[simp] theorem State.setCrField_nzAbove (i lo len v : Nat) : (s.setCrField i lo len v).nzAbove = s.nzAbove := rfl
@[simp] theorem State.setCrField_nzLeft (i lo len v : Nat) : (s.setCrField i lo len v).nzLeft = s.nzLeft := rfl
@[simp] theorem State.setCrField_coef (i lo len v : Nat) : (s.setCrField i lo len v).coef = s.coef := rfl
@[simp] theorem State.setCrField_cand (i lo len v : Nat) : (s.setCrField i lo len v).cand = s.cand := rfl
@[simp] theorem State.setCrField_lfp (i lo len v : Nat) : (s.setCrField i lo len v).lfp = s.lfp := rfl
@[simp] theorem State.setCrField_fb (i lo len v : Nat) : (s.setCrField i lo len v).fb = s.fb := rfl
@[simp] theorem State.setCrField_topb (i lo len v : Nat) : (s.setCrField i lo len v).topb = s.topb := rfl
@[simp] theorem State.setCrField_cbuf (i lo len v : Nat) : (s.setCrField i lo len v).cbuf = s.cbuf := rfl
@[simp] theorem State.setCrField_response (i lo len v : Nat) : (s.setCrField i lo len v).response = s.response := rfl
@[simp] theorem State.setCrField_hostq (i lo len v : Nat) : (s.setCrField i lo len v).hostq = s.hostq := rfl
@[simp] theorem State.setCrField_allocAnswers (i lo len v : Nat) : (s.setCrField i lo len v).allocAnswers = s.allocAnswers := rfl
@[simp] theorem State.setCrField_allocCount (i lo len v : Nat) : (s.setCrField i lo len v).allocCount = s.allocCount := rfl
@[simp] theorem State.setCrField_freeCount (i lo len v : Nat) : (s.setCrField i lo len v).freeCount = s.freeCount := rfl
@[simp] theorem State.setCrField_changeCount (i lo len v : Nat) : (s.setCrField i lo len v).changeCount = s.changeCount := rfl
@[simp] theorem State.setCrField_arg (i lo len v : Nat) (j : Nat) :
    (s.setCrField i lo len v).arg j = s.arg j := rfl
@[simp] theorem State.setCrField_result (i lo len v : Nat) (j : Nat) :
    (s.setCrField i lo len v).result j = s.result j := rfl
@[simp] theorem State.setCrField_rdAt (i lo len v : Nat) (j : Nat) :
    (s.setCrField i lo len v).rdAt j = s.rdAt j := rfl
@[simp] theorem State.setCrField_rdValid (i lo len v : Nat) (j : Nat) :
    (s.setCrField i lo len v).rdValid j = s.rdValid j := rfl
@[simp] theorem State.setCrField_mbRec (i lo len v : Nat) (a b' : Nat) :
    (s.setCrField i lo len v).mbRec a b' = s.mbRec a b' := rfl
@[simp] theorem State.setCrField_coefAt (i lo len v : Nat) (a j : Nat) :
    (s.setCrField i lo len v).coefAt a j = s.coefAt a j := rfl
@[simp] theorem State.setCrField_probAt (i lo len v : Nat) (j : Nat) :
    (s.setCrField i lo len v).probAt j = s.probAt j := rfl
@[simp] theorem State.setCrField_plane (i lo len v : Nat) (a q : Nat) :
    (s.setCrField i lo len v).plane a q = s.plane a q := rfl
@[simp] theorem State.setCrField_pix (i lo len v : Nat) (a q c d : Nat) :
    (s.setCrField i lo len v).pix a q c d = s.pix a q c d := rfl

/-! ### `setMbpos` -/

@[simp] theorem State.setMbpos_args (x y : Nat) : (s.setMbpos x y).args = s.args := rfl
@[simp] theorem State.setMbpos_res (x y : Nat) : (s.setMbpos x y).res = s.res := rfl
@[simp] theorem State.setMbpos_rd (x y : Nat) : (s.setMbpos x y).rd = s.rd := rfl
@[simp] theorem State.setMbpos_cr (x y : Nat) :
    (s.setMbpos x y).cr = s.cr.setIfInBounds 19 (posWord x y) := rfl
@[simp] theorem State.setMbpos_prob (x y : Nat) : (s.setMbpos x y).prob = s.prob := rfl
@[simp] theorem State.setMbpos_probSaved (x y : Nat) : (s.setMbpos x y).probSaved = s.probSaved := rfl
@[simp] theorem State.setMbpos_dq (x y : Nat) : (s.setMbpos x y).dq = s.dq := rfl
@[simp] theorem State.setMbpos_mbinfo (x y : Nat) : (s.setMbpos x y).mbinfo = s.mbinfo := rfl
@[simp] theorem State.setMbpos_segmap (x y : Nat) : (s.setMbpos x y).segmap = s.segmap := rfl
@[simp] theorem State.setMbpos_nzAbove (x y : Nat) : (s.setMbpos x y).nzAbove = s.nzAbove := rfl
@[simp] theorem State.setMbpos_nzLeft (x y : Nat) : (s.setMbpos x y).nzLeft = s.nzLeft := rfl
@[simp] theorem State.setMbpos_coef (x y : Nat) : (s.setMbpos x y).coef = s.coef := rfl
@[simp] theorem State.setMbpos_cand (x y : Nat) : (s.setMbpos x y).cand = s.cand := rfl
@[simp] theorem State.setMbpos_lfp (x y : Nat) : (s.setMbpos x y).lfp = s.lfp := rfl
@[simp] theorem State.setMbpos_fb (x y : Nat) : (s.setMbpos x y).fb = s.fb := rfl
@[simp] theorem State.setMbpos_topb (x y : Nat) : (s.setMbpos x y).topb = s.topb := rfl
@[simp] theorem State.setMbpos_cbuf (x y : Nat) : (s.setMbpos x y).cbuf = s.cbuf := rfl
@[simp] theorem State.setMbpos_response (x y : Nat) : (s.setMbpos x y).response = s.response := rfl
@[simp] theorem State.setMbpos_hostq (x y : Nat) : (s.setMbpos x y).hostq = s.hostq := rfl
@[simp] theorem State.setMbpos_allocAnswers (x y : Nat) : (s.setMbpos x y).allocAnswers = s.allocAnswers := rfl
@[simp] theorem State.setMbpos_allocCount (x y : Nat) : (s.setMbpos x y).allocCount = s.allocCount := rfl
@[simp] theorem State.setMbpos_freeCount (x y : Nat) : (s.setMbpos x y).freeCount = s.freeCount := rfl
@[simp] theorem State.setMbpos_changeCount (x y : Nat) : (s.setMbpos x y).changeCount = s.changeCount := rfl
@[simp] theorem State.setMbpos_arg (x y : Nat) (j : Nat) :
    (s.setMbpos x y).arg j = s.arg j := rfl
@[simp] theorem State.setMbpos_result (x y : Nat) (j : Nat) :
    (s.setMbpos x y).result j = s.result j := rfl
@[simp] theorem State.setMbpos_rdAt (x y : Nat) (j : Nat) :
    (s.setMbpos x y).rdAt j = s.rdAt j := rfl
@[simp] theorem State.setMbpos_rdValid (x y : Nat) (j : Nat) :
    (s.setMbpos x y).rdValid j = s.rdValid j := rfl
@[simp] theorem State.setMbpos_mbRec (x y : Nat) (a b' : Nat) :
    (s.setMbpos x y).mbRec a b' = s.mbRec a b' := rfl
@[simp] theorem State.setMbpos_coefAt (x y : Nat) (a j : Nat) :
    (s.setMbpos x y).coefAt a j = s.coefAt a j := rfl
@[simp] theorem State.setMbpos_probAt (x y : Nat) (j : Nat) :
    (s.setMbpos x y).probAt j = s.probAt j := rfl
@[simp] theorem State.setMbpos_plane (x y : Nat) (a q : Nat) :
    (s.setMbpos x y).plane a q = s.plane a q := rfl
@[simp] theorem State.setMbpos_pix (x y : Nat) (a q c d : Nat) :
    (s.setMbpos x y).pix a q c d = s.pix a q c d := rfl

/-! ### `setRd` -/

@[simp] theorem State.setRd_args (k : Nat) (r : Rd) : (s.setRd k r).args = s.args := rfl
@[simp] theorem State.setRd_res (k : Nat) (r : Rd) : (s.setRd k r).res = s.res := rfl
@[simp] theorem State.setRd_rd (k : Nat) (r : Rd) :
    (s.setRd k r).rd = s.rd.setIfInBounds k r := rfl
@[simp] theorem State.setRd_cr (k : Nat) (r : Rd) : (s.setRd k r).cr = s.cr := rfl
@[simp] theorem State.setRd_prob (k : Nat) (r : Rd) : (s.setRd k r).prob = s.prob := rfl
@[simp] theorem State.setRd_probSaved (k : Nat) (r : Rd) : (s.setRd k r).probSaved = s.probSaved := rfl
@[simp] theorem State.setRd_dq (k : Nat) (r : Rd) : (s.setRd k r).dq = s.dq := rfl
@[simp] theorem State.setRd_mbinfo (k : Nat) (r : Rd) : (s.setRd k r).mbinfo = s.mbinfo := rfl
@[simp] theorem State.setRd_segmap (k : Nat) (r : Rd) : (s.setRd k r).segmap = s.segmap := rfl
@[simp] theorem State.setRd_nzAbove (k : Nat) (r : Rd) : (s.setRd k r).nzAbove = s.nzAbove := rfl
@[simp] theorem State.setRd_nzLeft (k : Nat) (r : Rd) : (s.setRd k r).nzLeft = s.nzLeft := rfl
@[simp] theorem State.setRd_coef (k : Nat) (r : Rd) : (s.setRd k r).coef = s.coef := rfl
@[simp] theorem State.setRd_cand (k : Nat) (r : Rd) : (s.setRd k r).cand = s.cand := rfl
@[simp] theorem State.setRd_lfp (k : Nat) (r : Rd) : (s.setRd k r).lfp = s.lfp := rfl
@[simp] theorem State.setRd_fb (k : Nat) (r : Rd) : (s.setRd k r).fb = s.fb := rfl
@[simp] theorem State.setRd_topb (k : Nat) (r : Rd) : (s.setRd k r).topb = s.topb := rfl
@[simp] theorem State.setRd_cbuf (k : Nat) (r : Rd) : (s.setRd k r).cbuf = s.cbuf := rfl
@[simp] theorem State.setRd_response (k : Nat) (r : Rd) : (s.setRd k r).response = s.response := rfl
@[simp] theorem State.setRd_hostq (k : Nat) (r : Rd) : (s.setRd k r).hostq = s.hostq := rfl
@[simp] theorem State.setRd_allocAnswers (k : Nat) (r : Rd) : (s.setRd k r).allocAnswers = s.allocAnswers := rfl
@[simp] theorem State.setRd_allocCount (k : Nat) (r : Rd) : (s.setRd k r).allocCount = s.allocCount := rfl
@[simp] theorem State.setRd_freeCount (k : Nat) (r : Rd) : (s.setRd k r).freeCount = s.freeCount := rfl
@[simp] theorem State.setRd_changeCount (k : Nat) (r : Rd) : (s.setRd k r).changeCount = s.changeCount := rfl
@[simp] theorem State.setRd_arg (k : Nat) (r : Rd) (j : Nat) :
    (s.setRd k r).arg j = s.arg j := rfl
@[simp] theorem State.setRd_result (k : Nat) (r : Rd) (j : Nat) :
    (s.setRd k r).result j = s.result j := rfl
@[simp] theorem State.setRd_crRaw (k : Nat) (r : Rd) (j : Nat) :
    (s.setRd k r).crRaw j = s.crRaw j := rfl
@[simp] theorem State.setRd_crField (k : Nat) (r : Rd) (j a b' : Nat) :
    (s.setRd k r).crField j a b' = s.crField j a b' := rfl
@[simp] theorem State.setRd_crBit (k : Nat) (r : Rd) (j a : Nat) :
    (s.setRd k r).crBit j a = s.crBit j a := rfl
@[simp] theorem State.setRd_mbW (k : Nat) (r : Rd) :
    (s.setRd k r).mbW = s.mbW := rfl
@[simp] theorem State.setRd_mbH (k : Nat) (r : Rd) :
    (s.setRd k r).mbH = s.mbH := rfl
@[simp] theorem State.setRd_mbx (k : Nat) (r : Rd) :
    (s.setRd k r).mbx = s.mbx := rfl
@[simp] theorem State.setRd_mby (k : Nat) (r : Rd) :
    (s.setRd k r).mby = s.mby := rfl
@[simp] theorem State.setRd_posOk (k : Nat) (r : Rd) :
    (s.setRd k r).posOk = s.posOk := rfl
@[simp] theorem State.setRd_planeW (k : Nat) (r : Rd) (q : Nat) :
    (s.setRd k r).planeW q = s.planeW q := rfl
@[simp] theorem State.setRd_planeH (k : Nat) (r : Rd) (q : Nat) :
    (s.setRd k r).planeH q = s.planeH q := rfl
@[simp] theorem State.setRd_curSlot (k : Nat) (r : Rd) :
    (s.setRd k r).curSlot = s.curSlot := rfl
@[simp] theorem State.setRd_mbRec (k : Nat) (r : Rd) (a b' : Nat) :
    (s.setRd k r).mbRec a b' = s.mbRec a b' := rfl
@[simp] theorem State.setRd_cur (k : Nat) (r : Rd) :
    (s.setRd k r).cur = s.cur := rfl
@[simp] theorem State.setRd_segment (k : Nat) (r : Rd) :
    (s.setRd k r).segment = s.segment := rfl
@[simp] theorem State.setRd_coefAt (k : Nat) (r : Rd) (a j : Nat) :
    (s.setRd k r).coefAt a j = s.coefAt a j := rfl
@[simp] theorem State.setRd_probAt (k : Nat) (r : Rd) (j : Nat) :
    (s.setRd k r).probAt j = s.probAt j := rfl
@[simp] theorem State.setRd_plane (k : Nat) (r : Rd) (a q : Nat) :
    (s.setRd k r).plane a q = s.plane a q := rfl
@[simp] theorem State.setRd_pix (k : Nat) (r : Rd) (a q c d : Nat) :
    (s.setRd k r).pix a q c d = s.pix a q c d := rfl

/-! ### `invalidateRd` -/

@[simp] theorem State.invalidateRd_args : (s.invalidateRd).args = s.args := rfl
@[simp] theorem State.invalidateRd_res : (s.invalidateRd).res = s.res := rfl
@[simp] theorem State.invalidateRd_rd :
    (s.invalidateRd).rd = s.rd.map (fun r => { r with valid := false }) := rfl
@[simp] theorem State.invalidateRd_cr : (s.invalidateRd).cr = s.cr := rfl
@[simp] theorem State.invalidateRd_prob : (s.invalidateRd).prob = s.prob := rfl
@[simp] theorem State.invalidateRd_probSaved : (s.invalidateRd).probSaved = s.probSaved := rfl
@[simp] theorem State.invalidateRd_dq : (s.invalidateRd).dq = s.dq := rfl
@[simp] theorem State.invalidateRd_mbinfo : (s.invalidateRd).mbinfo = s.mbinfo := rfl
@[simp] theorem State.invalidateRd_segmap : (s.invalidateRd).segmap = s.segmap := rfl
@[simp] theorem State.invalidateRd_nzAbove : (s.invalidateRd).nzAbove = s.nzAbove := rfl
@[simp] theorem State.invalidateRd_nzLeft : (s.invalidateRd).nzLeft = s.nzLeft := rfl
@[simp] theorem State.invalidateRd_coef : (s.invalidateRd).coef = s.coef := rfl
@[simp] theorem State.invalidateRd_cand : (s.invalidateRd).cand = s.cand := rfl
@[simp] theorem State.invalidateRd_lfp : (s.invalidateRd).lfp = s.lfp := rfl
@[simp] theorem State.invalidateRd_fb : (s.invalidateRd).fb = s.fb := rfl
@[simp] theorem State.invalidateRd_topb : (s.invalidateRd).topb = s.topb := rfl
@[simp] theorem State.invalidateRd_cbuf : (s.invalidateRd).cbuf = s.cbuf := rfl
@[simp] theorem State.invalidateRd_response : (s.invalidateRd).response = s.response := rfl
@[simp] theorem State.invalidateRd_hostq : (s.invalidateRd).hostq = s.hostq := rfl
@[simp] theorem State.invalidateRd_allocAnswers : (s.invalidateRd).allocAnswers = s.allocAnswers := rfl
@[simp] theorem State.invalidateRd_allocCount : (s.invalidateRd).allocCount = s.allocCount := rfl
@[simp] theorem State.invalidateRd_freeCount : (s.invalidateRd).freeCount = s.freeCount := rfl
@[simp] theorem State.invalidateRd_changeCount : (s.invalidateRd).changeCount = s.changeCount := rfl
@[simp] theorem State.invalidateRd_arg  (j : Nat) :
    (s.invalidateRd).arg j = s.arg j := rfl
@[simp] theorem State.invalidateRd_result  (j : Nat) :
    (s.invalidateRd).result j = s.result j := rfl
@[simp] theorem State.invalidateRd_crRaw  (j : Nat) :
    (s.invalidateRd).crRaw j = s.crRaw j := rfl
@[simp] theorem State.invalidateRd_crField  (j a b' : Nat) :
    (s.invalidateRd).crField j a b' = s.crField j a b' := rfl
@[simp] theorem State.invalidateRd_crBit  (j a : Nat) :
    (s.invalidateRd).crBit j a = s.crBit j a := rfl
@[simp] theorem State.invalidateRd_mbW  :
    (s.invalidateRd).mbW = s.mbW := rfl
@[simp] theorem State.invalidateRd_mbH  :
    (s.invalidateRd).mbH = s.mbH := rfl
@[simp] theorem State.invalidateRd_mbx  :
    (s.invalidateRd).mbx = s.mbx := rfl
@[simp] theorem State.invalidateRd_mby  :
    (s.invalidateRd).mby = s.mby := rfl
@[simp] theorem State.invalidateRd_posOk  :
    (s.invalidateRd).posOk = s.posOk := rfl
@[simp] theorem State.invalidateRd_planeW  (q : Nat) :
    (s.invalidateRd).planeW q = s.planeW q := rfl
@[simp] theorem State.invalidateRd_planeH  (q : Nat) :
    (s.invalidateRd).planeH q = s.planeH q := rfl
@[simp] theorem State.invalidateRd_curSlot  :
    (s.invalidateRd).curSlot = s.curSlot := rfl
@[simp] theorem State.invalidateRd_mbRec  (a b' : Nat) :
    (s.invalidateRd).mbRec a b' = s.mbRec a b' := rfl
@[simp] theorem State.invalidateRd_cur  :
    (s.invalidateRd).cur = s.cur := rfl
@[simp] theorem State.invalidateRd_segment  :
    (s.invalidateRd).segment = s.segment := rfl
@[simp] theorem State.invalidateRd_coefAt  (a j : Nat) :
    (s.invalidateRd).coefAt a j = s.coefAt a j := rfl
@[simp] theorem State.invalidateRd_probAt  (j : Nat) :
    (s.invalidateRd).probAt j = s.probAt j := rfl
@[simp] theorem State.invalidateRd_plane  (a q : Nat) :
    (s.invalidateRd).plane a q = s.plane a q := rfl
@[simp] theorem State.invalidateRd_pix  (a q c d : Nat) :
    (s.invalidateRd).pix a q c d = s.pix a q c d := rfl

/-! ### `setPlane` -/

@[simp] theorem State.setPlane_args (n p : Nat) (m : Memory Byte) : (s.setPlane n p m).args = s.args := rfl
@[simp] theorem State.setPlane_res (n p : Nat) (m : Memory Byte) : (s.setPlane n p m).res = s.res := rfl
@[simp] theorem State.setPlane_rd (n p : Nat) (m : Memory Byte) : (s.setPlane n p m).rd = s.rd := rfl
@[simp] theorem State.setPlane_cr (n p : Nat) (m : Memory Byte) : (s.setPlane n p m).cr = s.cr := rfl
@[simp] theorem State.setPlane_prob (n p : Nat) (m : Memory Byte) : (s.setPlane n p m).prob = s.prob := rfl
@[simp] theorem State.setPlane_probSaved (n p : Nat) (m : Memory Byte) : (s.setPlane n p m).probSaved = s.probSaved := rfl
@[simp] theorem State.setPlane_dq (n p : Nat) (m : Memory Byte) : (s.setPlane n p m).dq = s.dq := rfl
@[simp] theorem State.setPlane_mbinfo (n p : Nat) (m : Memory Byte) : (s.setPlane n p m).mbinfo = s.mbinfo := rfl
@[simp] theorem State.setPlane_segmap (n p : Nat) (m : Memory Byte) : (s.setPlane n p m).segmap = s.segmap := rfl
@[simp] theorem State.setPlane_nzAbove (n p : Nat) (m : Memory Byte) : (s.setPlane n p m).nzAbove = s.nzAbove := rfl
@[simp] theorem State.setPlane_nzLeft (n p : Nat) (m : Memory Byte) : (s.setPlane n p m).nzLeft = s.nzLeft := rfl
@[simp] theorem State.setPlane_coef (n p : Nat) (m : Memory Byte) : (s.setPlane n p m).coef = s.coef := rfl
@[simp] theorem State.setPlane_cand (n p : Nat) (m : Memory Byte) : (s.setPlane n p m).cand = s.cand := rfl
@[simp] theorem State.setPlane_lfp (n p : Nat) (m : Memory Byte) : (s.setPlane n p m).lfp = s.lfp := rfl
@[simp] theorem State.setPlane_fb (n p : Nat) (m : Memory Byte) :
    (s.setPlane n p m).fb = s.fb.setIfInBounds n ((s.fb[n]?.getD Frame.empty).setPlane p m) := rfl
@[simp] theorem State.setPlane_topb (n p : Nat) (m : Memory Byte) : (s.setPlane n p m).topb = s.topb := rfl
@[simp] theorem State.setPlane_cbuf (n p : Nat) (m : Memory Byte) : (s.setPlane n p m).cbuf = s.cbuf := rfl
@[simp] theorem State.setPlane_response (n p : Nat) (m : Memory Byte) : (s.setPlane n p m).response = s.response := rfl
@[simp] theorem State.setPlane_hostq (n p : Nat) (m : Memory Byte) : (s.setPlane n p m).hostq = s.hostq := rfl
@[simp] theorem State.setPlane_allocAnswers (n p : Nat) (m : Memory Byte) : (s.setPlane n p m).allocAnswers = s.allocAnswers := rfl
@[simp] theorem State.setPlane_allocCount (n p : Nat) (m : Memory Byte) : (s.setPlane n p m).allocCount = s.allocCount := rfl
@[simp] theorem State.setPlane_freeCount (n p : Nat) (m : Memory Byte) : (s.setPlane n p m).freeCount = s.freeCount := rfl
@[simp] theorem State.setPlane_changeCount (n p : Nat) (m : Memory Byte) : (s.setPlane n p m).changeCount = s.changeCount := rfl
@[simp] theorem State.setPlane_arg (n p : Nat) (m : Memory Byte) (j : Nat) :
    (s.setPlane n p m).arg j = s.arg j := rfl
@[simp] theorem State.setPlane_result (n p : Nat) (m : Memory Byte) (j : Nat) :
    (s.setPlane n p m).result j = s.result j := rfl
@[simp] theorem State.setPlane_crRaw (n p : Nat) (m : Memory Byte) (j : Nat) :
    (s.setPlane n p m).crRaw j = s.crRaw j := rfl
@[simp] theorem State.setPlane_crField (n p : Nat) (m : Memory Byte) (j a b' : Nat) :
    (s.setPlane n p m).crField j a b' = s.crField j a b' := rfl
@[simp] theorem State.setPlane_crBit (n p : Nat) (m : Memory Byte) (j a : Nat) :
    (s.setPlane n p m).crBit j a = s.crBit j a := rfl
@[simp] theorem State.setPlane_mbW (n p : Nat) (m : Memory Byte) :
    (s.setPlane n p m).mbW = s.mbW := rfl
@[simp] theorem State.setPlane_mbH (n p : Nat) (m : Memory Byte) :
    (s.setPlane n p m).mbH = s.mbH := rfl
@[simp] theorem State.setPlane_mbx (n p : Nat) (m : Memory Byte) :
    (s.setPlane n p m).mbx = s.mbx := rfl
@[simp] theorem State.setPlane_mby (n p : Nat) (m : Memory Byte) :
    (s.setPlane n p m).mby = s.mby := rfl
@[simp] theorem State.setPlane_posOk (n p : Nat) (m : Memory Byte) :
    (s.setPlane n p m).posOk = s.posOk := rfl
@[simp] theorem State.setPlane_planeW (n p : Nat) (m : Memory Byte) (q : Nat) :
    (s.setPlane n p m).planeW q = s.planeW q := rfl
@[simp] theorem State.setPlane_planeH (n p : Nat) (m : Memory Byte) (q : Nat) :
    (s.setPlane n p m).planeH q = s.planeH q := rfl
@[simp] theorem State.setPlane_curSlot (n p : Nat) (m : Memory Byte) :
    (s.setPlane n p m).curSlot = s.curSlot := rfl
@[simp] theorem State.setPlane_rdAt (n p : Nat) (m : Memory Byte) (j : Nat) :
    (s.setPlane n p m).rdAt j = s.rdAt j := rfl
@[simp] theorem State.setPlane_rdValid (n p : Nat) (m : Memory Byte) (j : Nat) :
    (s.setPlane n p m).rdValid j = s.rdValid j := rfl
@[simp] theorem State.setPlane_mbRec (n p : Nat) (m : Memory Byte) (a b' : Nat) :
    (s.setPlane n p m).mbRec a b' = s.mbRec a b' := rfl
@[simp] theorem State.setPlane_cur (n p : Nat) (m : Memory Byte) :
    (s.setPlane n p m).cur = s.cur := rfl
@[simp] theorem State.setPlane_segment (n p : Nat) (m : Memory Byte) :
    (s.setPlane n p m).segment = s.segment := rfl
@[simp] theorem State.setPlane_coefAt (n p : Nat) (m : Memory Byte) (a j : Nat) :
    (s.setPlane n p m).coefAt a j = s.coefAt a j := rfl
@[simp] theorem State.setPlane_probAt (n p : Nat) (m : Memory Byte) (j : Nat) :
    (s.setPlane n p m).probAt j = s.probAt j := rfl

/-! ### `writeBlock` -/

@[simp] theorem State.writeBlock_args (n p x0 y0 w h : Nat) (f : Nat → Nat → Byte) : (s.writeBlock n p x0 y0 w h f).args = s.args := rfl
@[simp] theorem State.writeBlock_res (n p x0 y0 w h : Nat) (f : Nat → Nat → Byte) : (s.writeBlock n p x0 y0 w h f).res = s.res := rfl
@[simp] theorem State.writeBlock_rd (n p x0 y0 w h : Nat) (f : Nat → Nat → Byte) : (s.writeBlock n p x0 y0 w h f).rd = s.rd := rfl
@[simp] theorem State.writeBlock_cr (n p x0 y0 w h : Nat) (f : Nat → Nat → Byte) : (s.writeBlock n p x0 y0 w h f).cr = s.cr := rfl
@[simp] theorem State.writeBlock_prob (n p x0 y0 w h : Nat) (f : Nat → Nat → Byte) : (s.writeBlock n p x0 y0 w h f).prob = s.prob := rfl
@[simp] theorem State.writeBlock_probSaved (n p x0 y0 w h : Nat) (f : Nat → Nat → Byte) : (s.writeBlock n p x0 y0 w h f).probSaved = s.probSaved := rfl
@[simp] theorem State.writeBlock_dq (n p x0 y0 w h : Nat) (f : Nat → Nat → Byte) : (s.writeBlock n p x0 y0 w h f).dq = s.dq := rfl
@[simp] theorem State.writeBlock_mbinfo (n p x0 y0 w h : Nat) (f : Nat → Nat → Byte) : (s.writeBlock n p x0 y0 w h f).mbinfo = s.mbinfo := rfl
@[simp] theorem State.writeBlock_segmap (n p x0 y0 w h : Nat) (f : Nat → Nat → Byte) : (s.writeBlock n p x0 y0 w h f).segmap = s.segmap := rfl
@[simp] theorem State.writeBlock_nzAbove (n p x0 y0 w h : Nat) (f : Nat → Nat → Byte) : (s.writeBlock n p x0 y0 w h f).nzAbove = s.nzAbove := rfl
@[simp] theorem State.writeBlock_nzLeft (n p x0 y0 w h : Nat) (f : Nat → Nat → Byte) : (s.writeBlock n p x0 y0 w h f).nzLeft = s.nzLeft := rfl
@[simp] theorem State.writeBlock_coef (n p x0 y0 w h : Nat) (f : Nat → Nat → Byte) : (s.writeBlock n p x0 y0 w h f).coef = s.coef := rfl
@[simp] theorem State.writeBlock_cand (n p x0 y0 w h : Nat) (f : Nat → Nat → Byte) : (s.writeBlock n p x0 y0 w h f).cand = s.cand := rfl
@[simp] theorem State.writeBlock_lfp (n p x0 y0 w h : Nat) (f : Nat → Nat → Byte) : (s.writeBlock n p x0 y0 w h f).lfp = s.lfp := rfl
@[simp] theorem State.writeBlock_topb (n p x0 y0 w h : Nat) (f : Nat → Nat → Byte) : (s.writeBlock n p x0 y0 w h f).topb = s.topb := rfl
@[simp] theorem State.writeBlock_cbuf (n p x0 y0 w h : Nat) (f : Nat → Nat → Byte) : (s.writeBlock n p x0 y0 w h f).cbuf = s.cbuf := rfl
@[simp] theorem State.writeBlock_response (n p x0 y0 w h : Nat) (f : Nat → Nat → Byte) : (s.writeBlock n p x0 y0 w h f).response = s.response := rfl
@[simp] theorem State.writeBlock_hostq (n p x0 y0 w h : Nat) (f : Nat → Nat → Byte) : (s.writeBlock n p x0 y0 w h f).hostq = s.hostq := rfl
@[simp] theorem State.writeBlock_allocAnswers (n p x0 y0 w h : Nat) (f : Nat → Nat → Byte) : (s.writeBlock n p x0 y0 w h f).allocAnswers = s.allocAnswers := rfl
@[simp] theorem State.writeBlock_allocCount (n p x0 y0 w h : Nat) (f : Nat → Nat → Byte) : (s.writeBlock n p x0 y0 w h f).allocCount = s.allocCount := rfl
@[simp] theorem State.writeBlock_freeCount (n p x0 y0 w h : Nat) (f : Nat → Nat → Byte) : (s.writeBlock n p x0 y0 w h f).freeCount = s.freeCount := rfl
@[simp] theorem State.writeBlock_changeCount (n p x0 y0 w h : Nat) (f : Nat → Nat → Byte) : (s.writeBlock n p x0 y0 w h f).changeCount = s.changeCount := rfl
@[simp] theorem State.writeBlock_arg (n p x0 y0 w h : Nat) (f : Nat → Nat → Byte) (j : Nat) :
    (s.writeBlock n p x0 y0 w h f).arg j = s.arg j := rfl
@[simp] theorem State.writeBlock_result (n p x0 y0 w h : Nat) (f : Nat → Nat → Byte) (j : Nat) :
    (s.writeBlock n p x0 y0 w h f).result j = s.result j := rfl
@[simp] theorem State.writeBlock_crRaw (n p x0 y0 w h : Nat) (f : Nat → Nat → Byte) (j : Nat) :
    (s.writeBlock n p x0 y0 w h f).crRaw j = s.crRaw j := rfl
@[simp] theorem State.writeBlock_crField (n p x0 y0 w h : Nat) (f : Nat → Nat → Byte) (j a b' : Nat) :
    (s.writeBlock n p x0 y0 w h f).crField j a b' = s.crField j a b' := rfl
@[simp] theorem State.writeBlock_crBit (n p x0 y0 w h : Nat) (f : Nat → Nat → Byte) (j a : Nat) :
    (s.writeBlock n p x0 y0 w h f).crBit j a = s.crBit j a := rfl
@[simp] theorem State.writeBlock_mbW (n p x0 y0 w h : Nat) (f : Nat → Nat → Byte) :
    (s.writeBlock n p x0 y0 w h f).mbW = s.mbW := rfl
@[simp] theorem State.writeBlock_mbH (n p x0 y0 w h : Nat) (f : Nat → Nat → Byte) :
    (s.writeBlock n p x0 y0 w h f).mbH = s.mbH := rfl
@[simp] theorem State.writeBlock_mbx (n p x0 y0 w h : Nat) (f : Nat → Nat → Byte) :
    (s.writeBlock n p x0 y0 w h f).mbx = s.mbx := rfl
@[simp] theorem State.writeBlock_mby (n p x0 y0 w h : Nat) (f : Nat → Nat → Byte) :
    (s.writeBlock n p x0 y0 w h f).mby = s.mby := rfl
@[simp] theorem State.writeBlock_posOk (n p x0 y0 w h : Nat) (f : Nat → Nat → Byte) :
    (s.writeBlock n p x0 y0 w h f).posOk = s.posOk := rfl
@[simp] theorem State.writeBlock_planeW (n p x0 y0 w h : Nat) (f : Nat → Nat → Byte) (q : Nat) :
    (s.writeBlock n p x0 y0 w h f).planeW q = s.planeW q := rfl
@[simp] theorem State.writeBlock_planeH (n p x0 y0 w h : Nat) (f : Nat → Nat → Byte) (q : Nat) :
    (s.writeBlock n p x0 y0 w h f).planeH q = s.planeH q := rfl
@[simp] theorem State.writeBlock_curSlot (n p x0 y0 w h : Nat) (f : Nat → Nat → Byte) :
    (s.writeBlock n p x0 y0 w h f).curSlot = s.curSlot := rfl
@[simp] theorem State.writeBlock_rdAt (n p x0 y0 w h : Nat) (f : Nat → Nat → Byte) (j : Nat) :
    (s.writeBlock n p x0 y0 w h f).rdAt j = s.rdAt j := rfl
@[simp] theorem State.writeBlock_rdValid (n p x0 y0 w h : Nat) (f : Nat → Nat → Byte) (j : Nat) :
    (s.writeBlock n p x0 y0 w h f).rdValid j = s.rdValid j := rfl
@[simp] theorem State.writeBlock_mbRec (n p x0 y0 w h : Nat) (f : Nat → Nat → Byte) (a b' : Nat) :
    (s.writeBlock n p x0 y0 w h f).mbRec a b' = s.mbRec a b' := rfl
@[simp] theorem State.writeBlock_cur (n p x0 y0 w h : Nat) (f : Nat → Nat → Byte) :
    (s.writeBlock n p x0 y0 w h f).cur = s.cur := rfl
@[simp] theorem State.writeBlock_segment (n p x0 y0 w h : Nat) (f : Nat → Nat → Byte) :
    (s.writeBlock n p x0 y0 w h f).segment = s.segment := rfl
@[simp] theorem State.writeBlock_coefAt (n p x0 y0 w h : Nat) (f : Nat → Nat → Byte) (a j : Nat) :
    (s.writeBlock n p x0 y0 w h f).coefAt a j = s.coefAt a j := rfl
@[simp] theorem State.writeBlock_probAt (n p x0 y0 w h : Nat) (f : Nat → Nat → Byte) (j : Nat) :
    (s.writeBlock n p x0 y0 w h f).probAt j = s.probAt j := rfl

/-! ### `clearSlot` -/

@[simp] theorem State.clearSlot_args (n : Nat) : (s.clearSlot n).args = s.args := rfl
@[simp] theorem State.clearSlot_res (n : Nat) : (s.clearSlot n).res = s.res := rfl
@[simp] theorem State.clearSlot_rd (n : Nat) : (s.clearSlot n).rd = s.rd := rfl
@[simp] theorem State.clearSlot_cr (n : Nat) : (s.clearSlot n).cr = s.cr := rfl
@[simp] theorem State.clearSlot_prob (n : Nat) : (s.clearSlot n).prob = s.prob := rfl
@[simp] theorem State.clearSlot_probSaved (n : Nat) : (s.clearSlot n).probSaved = s.probSaved := rfl
@[simp] theorem State.clearSlot_dq (n : Nat) : (s.clearSlot n).dq = s.dq := rfl
@[simp] theorem State.clearSlot_mbinfo (n : Nat) : (s.clearSlot n).mbinfo = s.mbinfo := rfl
@[simp] theorem State.clearSlot_segmap (n : Nat) : (s.clearSlot n).segmap = s.segmap := rfl
@[simp] theorem State.clearSlot_nzAbove (n : Nat) : (s.clearSlot n).nzAbove = s.nzAbove := rfl
@[simp] theorem State.clearSlot_nzLeft (n : Nat) : (s.clearSlot n).nzLeft = s.nzLeft := rfl
@[simp] theorem State.clearSlot_coef (n : Nat) : (s.clearSlot n).coef = s.coef := rfl
@[simp] theorem State.clearSlot_cand (n : Nat) : (s.clearSlot n).cand = s.cand := rfl
@[simp] theorem State.clearSlot_lfp (n : Nat) : (s.clearSlot n).lfp = s.lfp := rfl
@[simp] theorem State.clearSlot_fb (n : Nat) :
    (s.clearSlot n).fb = s.fb.setIfInBounds n Frame.empty := rfl
@[simp] theorem State.clearSlot_topb (n : Nat) : (s.clearSlot n).topb = s.topb := rfl
@[simp] theorem State.clearSlot_cbuf (n : Nat) : (s.clearSlot n).cbuf = s.cbuf := rfl
@[simp] theorem State.clearSlot_response (n : Nat) : (s.clearSlot n).response = s.response := rfl
@[simp] theorem State.clearSlot_hostq (n : Nat) : (s.clearSlot n).hostq = s.hostq := rfl
@[simp] theorem State.clearSlot_allocAnswers (n : Nat) : (s.clearSlot n).allocAnswers = s.allocAnswers := rfl
@[simp] theorem State.clearSlot_allocCount (n : Nat) : (s.clearSlot n).allocCount = s.allocCount := rfl
@[simp] theorem State.clearSlot_freeCount (n : Nat) : (s.clearSlot n).freeCount = s.freeCount := rfl
@[simp] theorem State.clearSlot_changeCount (n : Nat) : (s.clearSlot n).changeCount = s.changeCount := rfl
@[simp] theorem State.clearSlot_arg (n : Nat) (j : Nat) :
    (s.clearSlot n).arg j = s.arg j := rfl
@[simp] theorem State.clearSlot_result (n : Nat) (j : Nat) :
    (s.clearSlot n).result j = s.result j := rfl
@[simp] theorem State.clearSlot_crRaw (n : Nat) (j : Nat) :
    (s.clearSlot n).crRaw j = s.crRaw j := rfl
@[simp] theorem State.clearSlot_crField (n : Nat) (j a b' : Nat) :
    (s.clearSlot n).crField j a b' = s.crField j a b' := rfl
@[simp] theorem State.clearSlot_crBit (n : Nat) (j a : Nat) :
    (s.clearSlot n).crBit j a = s.crBit j a := rfl
@[simp] theorem State.clearSlot_mbW (n : Nat) :
    (s.clearSlot n).mbW = s.mbW := rfl
@[simp] theorem State.clearSlot_mbH (n : Nat) :
    (s.clearSlot n).mbH = s.mbH := rfl
@[simp] theorem State.clearSlot_mbx (n : Nat) :
    (s.clearSlot n).mbx = s.mbx := rfl
@[simp] theorem State.clearSlot_mby (n : Nat) :
    (s.clearSlot n).mby = s.mby := rfl
@[simp] theorem State.clearSlot_posOk (n : Nat) :
    (s.clearSlot n).posOk = s.posOk := rfl
@[simp] theorem State.clearSlot_planeW (n : Nat) (q : Nat) :
    (s.clearSlot n).planeW q = s.planeW q := rfl
@[simp] theorem State.clearSlot_planeH (n : Nat) (q : Nat) :
    (s.clearSlot n).planeH q = s.planeH q := rfl
@[simp] theorem State.clearSlot_curSlot (n : Nat) :
    (s.clearSlot n).curSlot = s.curSlot := rfl
@[simp] theorem State.clearSlot_rdAt (n : Nat) (j : Nat) :
    (s.clearSlot n).rdAt j = s.rdAt j := rfl
@[simp] theorem State.clearSlot_rdValid (n : Nat) (j : Nat) :
    (s.clearSlot n).rdValid j = s.rdValid j := rfl
@[simp] theorem State.clearSlot_mbRec (n : Nat) (a b' : Nat) :
    (s.clearSlot n).mbRec a b' = s.mbRec a b' := rfl
@[simp] theorem State.clearSlot_cur (n : Nat) :
    (s.clearSlot n).cur = s.cur := rfl
@[simp] theorem State.clearSlot_segment (n : Nat) :
    (s.clearSlot n).segment = s.segment := rfl
@[simp] theorem State.clearSlot_coefAt (n : Nat) (a j : Nat) :
    (s.clearSlot n).coefAt a j = s.coefAt a j := rfl
@[simp] theorem State.clearSlot_probAt (n : Nat) (j : Nat) :
    (s.clearSlot n).probAt j = s.probAt j := rfl

/-! ### `noteChange` -/

@[simp] theorem State.noteChange_args (addr : Word) : (s.noteChange addr).args = s.args := rfl
@[simp] theorem State.noteChange_res (addr : Word) : (s.noteChange addr).res = s.res := rfl
@[simp] theorem State.noteChange_rd (addr : Word) :
    (s.noteChange addr).rd = s.rd.mapIdx fun k r => r.noteChange (9 * s.changeCount + k) addr := rfl
@[simp] theorem State.noteChange_cr (addr : Word) : (s.noteChange addr).cr = s.cr := rfl
@[simp] theorem State.noteChange_prob (addr : Word) : (s.noteChange addr).prob = s.prob := rfl
@[simp] theorem State.noteChange_probSaved (addr : Word) : (s.noteChange addr).probSaved = s.probSaved := rfl
@[simp] theorem State.noteChange_dq (addr : Word) : (s.noteChange addr).dq = s.dq := rfl
@[simp] theorem State.noteChange_mbinfo (addr : Word) : (s.noteChange addr).mbinfo = s.mbinfo := rfl
@[simp] theorem State.noteChange_segmap (addr : Word) : (s.noteChange addr).segmap = s.segmap := rfl
@[simp] theorem State.noteChange_nzAbove (addr : Word) : (s.noteChange addr).nzAbove = s.nzAbove := rfl
@[simp] theorem State.noteChange_nzLeft (addr : Word) : (s.noteChange addr).nzLeft = s.nzLeft := rfl
@[simp] theorem State.noteChange_coef (addr : Word) : (s.noteChange addr).coef = s.coef := rfl
@[simp] theorem State.noteChange_cand (addr : Word) : (s.noteChange addr).cand = s.cand := rfl
@[simp] theorem State.noteChange_lfp (addr : Word) : (s.noteChange addr).lfp = s.lfp := rfl
@[simp] theorem State.noteChange_fb (addr : Word) : (s.noteChange addr).fb = s.fb := rfl
@[simp] theorem State.noteChange_topb (addr : Word) : (s.noteChange addr).topb = s.topb := rfl
@[simp] theorem State.noteChange_cbuf (addr : Word) : (s.noteChange addr).cbuf = s.cbuf := rfl
@[simp] theorem State.noteChange_response (addr : Word) : (s.noteChange addr).response = s.response := rfl
@[simp] theorem State.noteChange_hostq (addr : Word) : (s.noteChange addr).hostq = s.hostq := rfl
@[simp] theorem State.noteChange_allocAnswers (addr : Word) : (s.noteChange addr).allocAnswers = s.allocAnswers := rfl
@[simp] theorem State.noteChange_allocCount (addr : Word) : (s.noteChange addr).allocCount = s.allocCount := rfl
@[simp] theorem State.noteChange_freeCount (addr : Word) : (s.noteChange addr).freeCount = s.freeCount := rfl
@[simp] theorem State.noteChange_changeCount (addr : Word) :
    (s.noteChange addr).changeCount = s.changeCount + 1 := rfl
@[simp] theorem State.noteChange_arg (addr : Word) (j : Nat) :
    (s.noteChange addr).arg j = s.arg j := rfl
@[simp] theorem State.noteChange_result (addr : Word) (j : Nat) :
    (s.noteChange addr).result j = s.result j := rfl
@[simp] theorem State.noteChange_crRaw (addr : Word) (j : Nat) :
    (s.noteChange addr).crRaw j = s.crRaw j := rfl
@[simp] theorem State.noteChange_crField (addr : Word) (j a b' : Nat) :
    (s.noteChange addr).crField j a b' = s.crField j a b' := rfl
@[simp] theorem State.noteChange_crBit (addr : Word) (j a : Nat) :
    (s.noteChange addr).crBit j a = s.crBit j a := rfl
@[simp] theorem State.noteChange_mbW (addr : Word) :
    (s.noteChange addr).mbW = s.mbW := rfl
@[simp] theorem State.noteChange_mbH (addr : Word) :
    (s.noteChange addr).mbH = s.mbH := rfl
@[simp] theorem State.noteChange_mbx (addr : Word) :
    (s.noteChange addr).mbx = s.mbx := rfl
@[simp] theorem State.noteChange_mby (addr : Word) :
    (s.noteChange addr).mby = s.mby := rfl
@[simp] theorem State.noteChange_posOk (addr : Word) :
    (s.noteChange addr).posOk = s.posOk := rfl
@[simp] theorem State.noteChange_planeW (addr : Word) (q : Nat) :
    (s.noteChange addr).planeW q = s.planeW q := rfl
@[simp] theorem State.noteChange_planeH (addr : Word) (q : Nat) :
    (s.noteChange addr).planeH q = s.planeH q := rfl
@[simp] theorem State.noteChange_curSlot (addr : Word) :
    (s.noteChange addr).curSlot = s.curSlot := rfl
@[simp] theorem State.noteChange_mbRec (addr : Word) (a b' : Nat) :
    (s.noteChange addr).mbRec a b' = s.mbRec a b' := rfl
@[simp] theorem State.noteChange_cur (addr : Word) :
    (s.noteChange addr).cur = s.cur := rfl
@[simp] theorem State.noteChange_segment (addr : Word) :
    (s.noteChange addr).segment = s.segment := rfl
@[simp] theorem State.noteChange_coefAt (addr : Word) (a j : Nat) :
    (s.noteChange addr).coefAt a j = s.coefAt a j := rfl
@[simp] theorem State.noteChange_probAt (addr : Word) (j : Nat) :
    (s.noteChange addr).probAt j = s.probAt j := rfl
@[simp] theorem State.noteChange_plane (addr : Word) (a q : Nat) :
    (s.noteChange addr).plane a q = s.plane a q := rfl
@[simp] theorem State.noteChange_pix (addr : Word) (a q c d : Nat) :
    (s.noteChange addr).pix a q c d = s.pix a q c d := rfl

/-! ### `setMbRec` -/

@[simp] theorem State.setMbRec_args (x y : Nat) (r : MbRec) : (s.setMbRec x y r).args = s.args := rfl
@[simp] theorem State.setMbRec_res (x y : Nat) (r : MbRec) : (s.setMbRec x y r).res = s.res := rfl
@[simp] theorem State.setMbRec_rd (x y : Nat) (r : MbRec) : (s.setMbRec x y r).rd = s.rd := rfl
@[simp] theorem State.setMbRec_cr (x y : Nat) (r : MbRec) : (s.setMbRec x y r).cr = s.cr := rfl
@[simp] theorem State.setMbRec_prob (x y : Nat) (r : MbRec) : (s.setMbRec x y r).prob = s.prob := rfl
@[simp] theorem State.setMbRec_probSaved (x y : Nat) (r : MbRec) : (s.setMbRec x y r).probSaved = s.probSaved := rfl
@[simp] theorem State.setMbRec_dq (x y : Nat) (r : MbRec) : (s.setMbRec x y r).dq = s.dq := rfl
@[simp] theorem State.setMbRec_mbinfo (x y : Nat) (r : MbRec) :
    (s.setMbRec x y r).mbinfo = Memory.put s.mbinfo MbRec.zero (mbKey x y) r := rfl
@[simp] theorem State.setMbRec_segmap (x y : Nat) (r : MbRec) : (s.setMbRec x y r).segmap = s.segmap := rfl
@[simp] theorem State.setMbRec_nzAbove (x y : Nat) (r : MbRec) : (s.setMbRec x y r).nzAbove = s.nzAbove := rfl
@[simp] theorem State.setMbRec_nzLeft (x y : Nat) (r : MbRec) : (s.setMbRec x y r).nzLeft = s.nzLeft := rfl
@[simp] theorem State.setMbRec_coef (x y : Nat) (r : MbRec) : (s.setMbRec x y r).coef = s.coef := rfl
@[simp] theorem State.setMbRec_cand (x y : Nat) (r : MbRec) : (s.setMbRec x y r).cand = s.cand := rfl
@[simp] theorem State.setMbRec_lfp (x y : Nat) (r : MbRec) : (s.setMbRec x y r).lfp = s.lfp := rfl
@[simp] theorem State.setMbRec_fb (x y : Nat) (r : MbRec) : (s.setMbRec x y r).fb = s.fb := rfl
@[simp] theorem State.setMbRec_topb (x y : Nat) (r : MbRec) : (s.setMbRec x y r).topb = s.topb := rfl
@[simp] theorem State.setMbRec_cbuf (x y : Nat) (r : MbRec) : (s.setMbRec x y r).cbuf = s.cbuf := rfl
@[simp] theorem State.setMbRec_response (x y : Nat) (r : MbRec) : (s.setMbRec x y r).response = s.response := rfl
@[simp] theorem State.setMbRec_hostq (x y : Nat) (r : MbRec) : (s.setMbRec x y r).hostq = s.hostq := rfl
@[simp] theorem State.setMbRec_allocAnswers (x y : Nat) (r : MbRec) : (s.setMbRec x y r).allocAnswers = s.allocAnswers := rfl
@[simp] theorem State.setMbRec_allocCount (x y : Nat) (r : MbRec) : (s.setMbRec x y r).allocCount = s.allocCount := rfl
@[simp] theorem State.setMbRec_freeCount (x y : Nat) (r : MbRec) : (s.setMbRec x y r).freeCount = s.freeCount := rfl
@[simp] theorem State.setMbRec_changeCount (x y : Nat) (r : MbRec) : (s.setMbRec x y r).changeCount = s.changeCount := rfl
@[simp] theorem State.setMbRec_arg (x y : Nat) (r : MbRec) (j : Nat) :
    (s.setMbRec x y r).arg j = s.arg j := rfl
@[simp] theorem State.setMbRec_result (x y : Nat) (r : MbRec) (j : Nat) :
    (s.setMbRec x y r).result j = s.result j := rfl
@[simp] theorem State.setMbRec_crRaw (x y : Nat) (r : MbRec) (j : Nat) :
    (s.setMbRec x y r).crRaw j = s.crRaw j := rfl
@[simp] theorem State.setMbRec_crField (x y : Nat) (r : MbRec) (j a b' : Nat) :
    (s.setMbRec x y r).crField j a b' = s.crField j a b' := rfl
@[simp] theorem State.setMbRec_crBit (x y : Nat) (r : MbRec) (j a : Nat) :
    (s.setMbRec x y r).crBit j a = s.crBit j a := rfl
@[simp] theorem State.setMbRec_mbW (x y : Nat) (r : MbRec) :
    (s.setMbRec x y r).mbW = s.mbW := rfl
@[simp] theorem State.setMbRec_mbH (x y : Nat) (r : MbRec) :
    (s.setMbRec x y r).mbH = s.mbH := rfl
@[simp] theorem State.setMbRec_mbx (x y : Nat) (r : MbRec) :
    (s.setMbRec x y r).mbx = s.mbx := rfl
@[simp] theorem State.setMbRec_mby (x y : Nat) (r : MbRec) :
    (s.setMbRec x y r).mby = s.mby := rfl
@[simp] theorem State.setMbRec_posOk (x y : Nat) (r : MbRec) :
    (s.setMbRec x y r).posOk = s.posOk := rfl
@[simp] theorem State.setMbRec_planeW (x y : Nat) (r : MbRec) (q : Nat) :
    (s.setMbRec x y r).planeW q = s.planeW q := rfl
@[simp] theorem State.setMbRec_planeH (x y : Nat) (r : MbRec) (q : Nat) :
    (s.setMbRec x y r).planeH q = s.planeH q := rfl
@[simp] theorem State.setMbRec_curSlot (x y : Nat) (r : MbRec) :
    (s.setMbRec x y r).curSlot = s.curSlot := rfl
@[simp] theorem State.setMbRec_rdAt (x y : Nat) (r : MbRec) (j : Nat) :
    (s.setMbRec x y r).rdAt j = s.rdAt j := rfl
@[simp] theorem State.setMbRec_rdValid (x y : Nat) (r : MbRec) (j : Nat) :
    (s.setMbRec x y r).rdValid j = s.rdValid j := rfl
@[simp] theorem State.setMbRec_segment (x y : Nat) (r : MbRec) :
    (s.setMbRec x y r).segment = s.segment := rfl
@[simp] theorem State.setMbRec_coefAt (x y : Nat) (r : MbRec) (a j : Nat) :
    (s.setMbRec x y r).coefAt a j = s.coefAt a j := rfl
@[simp] theorem State.setMbRec_probAt (x y : Nat) (r : MbRec) (j : Nat) :
    (s.setMbRec x y r).probAt j = s.probAt j := rfl
@[simp] theorem State.setMbRec_plane (x y : Nat) (r : MbRec) (a q : Nat) :
    (s.setMbRec x y r).plane a q = s.plane a q := rfl
@[simp] theorem State.setMbRec_pix (x y : Nat) (r : MbRec) (a q c d : Nat) :
    (s.setMbRec x y r).pix a q c d = s.pix a q c d := rfl

/-! ### `setCur` -/

@[simp] theorem State.setCur_args (r : MbRec) : (s.setCur r).args = s.args := rfl
@[simp] theorem State.setCur_res (r : MbRec) : (s.setCur r).res = s.res := rfl
@[simp] theorem State.setCur_rd (r : MbRec) : (s.setCur r).rd = s.rd := rfl
@[simp] theorem State.setCur_cr (r : MbRec) : (s.setCur r).cr = s.cr := rfl
@[simp] theorem State.setCur_prob (r : MbRec) : (s.setCur r).prob = s.prob := rfl
@[simp] theorem State.setCur_probSaved (r : MbRec) : (s.setCur r).probSaved = s.probSaved := rfl
@[simp] theorem State.setCur_dq (r : MbRec) : (s.setCur r).dq = s.dq := rfl
@[simp] theorem State.setCur_mbinfo (r : MbRec) :
    (s.setCur r).mbinfo = Memory.put s.mbinfo MbRec.zero (mbKey s.mbx s.mby) r := rfl
@[simp] theorem State.setCur_segmap (r : MbRec) : (s.setCur r).segmap = s.segmap := rfl
@[simp] theorem State.setCur_nzAbove (r : MbRec) : (s.setCur r).nzAbove = s.nzAbove := rfl
@[simp] theorem State.setCur_nzLeft (r : MbRec) : (s.setCur r).nzLeft = s.nzLeft := rfl
@[simp] theorem State.setCur_coef (r : MbRec) : (s.setCur r).coef = s.coef := rfl
@[simp] theorem State.setCur_cand (r : MbRec) : (s.setCur r).cand = s.cand := rfl
@[simp] theorem State.setCur_lfp (r : MbRec) : (s.setCur r).lfp = s.lfp := rfl
@[simp] theorem State.setCur_fb (r : MbRec) : (s.setCur r).fb = s.fb := rfl
@[simp] theorem State.setCur_topb (r : MbRec) : (s.setCur r).topb = s.topb := rfl
@[simp] theorem State.setCur_cbuf (r : MbRec) : (s.setCur r).cbuf = s.cbuf := rfl
@[simp] theorem State.setCur_response (r : MbRec) : (s.setCur r).response = s.response := rfl
@[simp] theorem State.setCur_hostq (r : MbRec) : (s.setCur r).hostq = s.hostq := rfl
@[simp] theorem State.setCur_allocAnswers (r : MbRec) : (s.setCur r).allocAnswers = s.allocAnswers := rfl
@[simp] theorem State.setCur_allocCount (r : MbRec) : (s.setCur r).allocCount = s.allocCount := rfl
@[simp] theorem State.setCur_freeCount (r : MbRec) : (s.setCur r).freeCount = s.freeCount := rfl
@[simp] theorem State.setCur_changeCount (r : MbRec) : (s.setCur r).changeCount = s.changeCount := rfl
@[simp] theorem State.setCur_arg (r : MbRec) (j : Nat) :
    (s.setCur r).arg j = s.arg j := rfl
@[simp] theorem State.setCur_result (r : MbRec) (j : Nat) :
    (s.setCur r).result j = s.result j := rfl
@[simp] theorem State.setCur_crRaw (r : MbRec) (j : Nat) :
    (s.setCur r).crRaw j = s.crRaw j := rfl
@[simp] theorem State.setCur_crField (r : MbRec) (j a b' : Nat) :
    (s.setCur r).crField j a b' = s.crField j a b' := rfl
@[simp] theorem State.setCur_crBit (r : MbRec) (j a : Nat) :
    (s.setCur r).crBit j a = s.crBit j a := rfl
@[simp] theorem State.setCur_mbW (r : MbRec) :
    (s.setCur r).mbW = s.mbW := rfl
@[simp] theorem State.setCur_mbH (r : MbRec) :
    (s.setCur r).mbH = s.mbH := rfl
@[simp] theorem State.setCur_mbx (r : MbRec) :
    (s.setCur r).mbx = s.mbx := rfl
@[simp] theorem State.setCur_mby (r : MbRec) :
    (s.setCur r).mby = s.mby := rfl
@[simp] theorem State.setCur_posOk (r : MbRec) :
    (s.setCur r).posOk = s.posOk := rfl
@[simp] theorem State.setCur_planeW (r : MbRec) (q : Nat) :
    (s.setCur r).planeW q = s.planeW q := rfl
@[simp] theorem State.setCur_planeH (r : MbRec) (q : Nat) :
    (s.setCur r).planeH q = s.planeH q := rfl
@[simp] theorem State.setCur_curSlot (r : MbRec) :
    (s.setCur r).curSlot = s.curSlot := rfl
@[simp] theorem State.setCur_rdAt (r : MbRec) (j : Nat) :
    (s.setCur r).rdAt j = s.rdAt j := rfl
@[simp] theorem State.setCur_rdValid (r : MbRec) (j : Nat) :
    (s.setCur r).rdValid j = s.rdValid j := rfl
@[simp] theorem State.setCur_segment (r : MbRec) :
    (s.setCur r).segment = s.segment := rfl
@[simp] theorem State.setCur_coefAt (r : MbRec) (a j : Nat) :
    (s.setCur r).coefAt a j = s.coefAt a j := rfl
@[simp] theorem State.setCur_probAt (r : MbRec) (j : Nat) :
    (s.setCur r).probAt j = s.probAt j := rfl
@[simp] theorem State.setCur_plane (r : MbRec) (a q : Nat) :
    (s.setCur r).plane a q = s.plane a q := rfl
@[simp] theorem State.setCur_pix (r : MbRec) (a q c d : Nat) :
    (s.setCur r).pix a q c d = s.pix a q c d := rfl

/-! ### `setSegment` -/

@[simp] theorem State.setSegment_args (v : BitVec 2) : (s.setSegment v).args = s.args := rfl
@[simp] theorem State.setSegment_res (v : BitVec 2) : (s.setSegment v).res = s.res := rfl
@[simp] theorem State.setSegment_rd (v : BitVec 2) : (s.setSegment v).rd = s.rd := rfl
@[simp] theorem State.setSegment_cr (v : BitVec 2) : (s.setSegment v).cr = s.cr := rfl
@[simp] theorem State.setSegment_prob (v : BitVec 2) : (s.setSegment v).prob = s.prob := rfl
@[simp] theorem State.setSegment_probSaved (v : BitVec 2) : (s.setSegment v).probSaved = s.probSaved := rfl
@[simp] theorem State.setSegment_dq (v : BitVec 2) : (s.setSegment v).dq = s.dq := rfl
@[simp] theorem State.setSegment_mbinfo (v : BitVec 2) : (s.setSegment v).mbinfo = s.mbinfo := rfl
@[simp] theorem State.setSegment_segmap (v : BitVec 2) :
    (s.setSegment v).segmap = Memory.put s.segmap 0 (mbKey s.mbx s.mby) v := rfl
@[simp] theorem State.setSegment_nzAbove (v : BitVec 2) : (s.setSegment v).nzAbove = s.nzAbove := rfl
@[simp] theorem State.setSegment_nzLeft (v : BitVec 2) : (s.setSegment v).nzLeft = s.nzLeft := rfl
@[simp] theorem State.setSegment_coef (v : BitVec 2) : (s.setSegment v).coef = s.coef := rfl
@[simp] theorem State.setSegment_cand (v : BitVec 2) : (s.setSegment v).cand = s.cand := rfl
@[simp] theorem State.setSegment_lfp (v : BitVec 2) : (s.setSegment v).lfp = s.lfp := rfl
@[simp] theorem State.setSegment_fb (v : BitVec 2) : (s.setSegment v).fb = s.fb := rfl
@[simp] theorem State.setSegment_topb (v : BitVec 2) : (s.setSegment v).topb = s.topb := rfl
@[simp] theorem State.setSegment_cbuf (v : BitVec 2) : (s.setSegment v).cbuf = s.cbuf := rfl
@[simp] theorem State.setSegment_response (v : BitVec 2) : (s.setSegment v).response = s.response := rfl
@[simp] theorem State.setSegment_hostq (v : BitVec 2) : (s.setSegment v).hostq = s.hostq := rfl
@[simp] theorem State.setSegment_allocAnswers (v : BitVec 2) : (s.setSegment v).allocAnswers = s.allocAnswers := rfl
@[simp] theorem State.setSegment_allocCount (v : BitVec 2) : (s.setSegment v).allocCount = s.allocCount := rfl
@[simp] theorem State.setSegment_freeCount (v : BitVec 2) : (s.setSegment v).freeCount = s.freeCount := rfl
@[simp] theorem State.setSegment_changeCount (v : BitVec 2) : (s.setSegment v).changeCount = s.changeCount := rfl
@[simp] theorem State.setSegment_arg (v : BitVec 2) (j : Nat) :
    (s.setSegment v).arg j = s.arg j := rfl
@[simp] theorem State.setSegment_result (v : BitVec 2) (j : Nat) :
    (s.setSegment v).result j = s.result j := rfl
@[simp] theorem State.setSegment_crRaw (v : BitVec 2) (j : Nat) :
    (s.setSegment v).crRaw j = s.crRaw j := rfl
@[simp] theorem State.setSegment_crField (v : BitVec 2) (j a b' : Nat) :
    (s.setSegment v).crField j a b' = s.crField j a b' := rfl
@[simp] theorem State.setSegment_crBit (v : BitVec 2) (j a : Nat) :
    (s.setSegment v).crBit j a = s.crBit j a := rfl
@[simp] theorem State.setSegment_mbW (v : BitVec 2) :
    (s.setSegment v).mbW = s.mbW := rfl
@[simp] theorem State.setSegment_mbH (v : BitVec 2) :
    (s.setSegment v).mbH = s.mbH := rfl
@[simp] theorem State.setSegment_mbx (v : BitVec 2) :
    (s.setSegment v).mbx = s.mbx := rfl
@[simp] theorem State.setSegment_mby (v : BitVec 2) :
    (s.setSegment v).mby = s.mby := rfl
@[simp] theorem State.setSegment_posOk (v : BitVec 2) :
    (s.setSegment v).posOk = s.posOk := rfl
@[simp] theorem State.setSegment_planeW (v : BitVec 2) (q : Nat) :
    (s.setSegment v).planeW q = s.planeW q := rfl
@[simp] theorem State.setSegment_planeH (v : BitVec 2) (q : Nat) :
    (s.setSegment v).planeH q = s.planeH q := rfl
@[simp] theorem State.setSegment_curSlot (v : BitVec 2) :
    (s.setSegment v).curSlot = s.curSlot := rfl
@[simp] theorem State.setSegment_rdAt (v : BitVec 2) (j : Nat) :
    (s.setSegment v).rdAt j = s.rdAt j := rfl
@[simp] theorem State.setSegment_rdValid (v : BitVec 2) (j : Nat) :
    (s.setSegment v).rdValid j = s.rdValid j := rfl
@[simp] theorem State.setSegment_mbRec (v : BitVec 2) (a b' : Nat) :
    (s.setSegment v).mbRec a b' = s.mbRec a b' := rfl
@[simp] theorem State.setSegment_cur (v : BitVec 2) :
    (s.setSegment v).cur = s.cur := rfl
@[simp] theorem State.setSegment_coefAt (v : BitVec 2) (a j : Nat) :
    (s.setSegment v).coefAt a j = s.coefAt a j := rfl
@[simp] theorem State.setSegment_probAt (v : BitVec 2) (j : Nat) :
    (s.setSegment v).probAt j = s.probAt j := rfl
@[simp] theorem State.setSegment_plane (v : BitVec 2) (a q : Nat) :
    (s.setSegment v).plane a q = s.plane a q := rfl
@[simp] theorem State.setSegment_pix (v : BitVec 2) (a q c d : Nat) :
    (s.setSegment v).pix a q c d = s.pix a q c d := rfl

/-! ### `setCoef` -/

@[simp] theorem State.setCoef_args (b i : Nat) (v : Int) : (s.setCoef b i v).args = s.args := rfl
@[simp] theorem State.setCoef_res (b i : Nat) (v : Int) : (s.setCoef b i v).res = s.res := rfl
@[simp] theorem State.setCoef_rd (b i : Nat) (v : Int) : (s.setCoef b i v).rd = s.rd := rfl
@[simp] theorem State.setCoef_cr (b i : Nat) (v : Int) : (s.setCoef b i v).cr = s.cr := rfl
@[simp] theorem State.setCoef_prob (b i : Nat) (v : Int) : (s.setCoef b i v).prob = s.prob := rfl
@[simp] theorem State.setCoef_probSaved (b i : Nat) (v : Int) : (s.setCoef b i v).probSaved = s.probSaved := rfl
@[simp] theorem State.setCoef_dq (b i : Nat) (v : Int) : (s.setCoef b i v).dq = s.dq := rfl
@[simp] theorem State.setCoef_mbinfo (b i : Nat) (v : Int) : (s.setCoef b i v).mbinfo = s.mbinfo := rfl
@[simp] theorem State.setCoef_segmap (b i : Nat) (v : Int) : (s.setCoef b i v).segmap = s.segmap := rfl
@[simp] theorem State.setCoef_nzAbove (b i : Nat) (v : Int) : (s.setCoef b i v).nzAbove = s.nzAbove := rfl
@[simp] theorem State.setCoef_nzLeft (b i : Nat) (v : Int) : (s.setCoef b i v).nzLeft = s.nzLeft := rfl
@[simp] theorem State.setCoef_coef (b i : Nat) (v : Int) :
    (s.setCoef b i v).coef = Memory.put s.coef 0 (coefKey b i) v := rfl
@[simp] theorem State.setCoef_cand (b i : Nat) (v : Int) : (s.setCoef b i v).cand = s.cand := rfl
@[simp] theorem State.setCoef_lfp (b i : Nat) (v : Int) : (s.setCoef b i v).lfp = s.lfp := rfl
@[simp] theorem State.setCoef_fb (b i : Nat) (v : Int) : (s.setCoef b i v).fb = s.fb := rfl
@[simp] theorem State.setCoef_topb (b i : Nat) (v : Int) : (s.setCoef b i v).topb = s.topb := rfl
@[simp] theorem State.setCoef_cbuf (b i : Nat) (v : Int) : (s.setCoef b i v).cbuf = s.cbuf := rfl
@[simp] theorem State.setCoef_response (b i : Nat) (v : Int) : (s.setCoef b i v).response = s.response := rfl
@[simp] theorem State.setCoef_hostq (b i : Nat) (v : Int) : (s.setCoef b i v).hostq = s.hostq := rfl
@[simp] theorem State.setCoef_allocAnswers (b i : Nat) (v : Int) : (s.setCoef b i v).allocAnswers = s.allocAnswers := rfl
@[simp] theorem State.setCoef_allocCount (b i : Nat) (v : Int) : (s.setCoef b i v).allocCount = s.allocCount := rfl
@[simp] theorem State.setCoef_freeCount (b i : Nat) (v : Int) : (s.setCoef b i v).freeCount = s.freeCount := rfl
@[simp] theorem State.setCoef_changeCount (b i : Nat) (v : Int) : (s.setCoef b i v).changeCount = s.changeCount := rfl
@[simp] theorem State.setCoef_arg (b i : Nat) (v : Int) (j : Nat) :
    (s.setCoef b i v).arg j = s.arg j := rfl
@[simp] theorem State.setCoef_result (b i : Nat) (v : Int) (j : Nat) :
    (s.setCoef b i v).result j = s.result j := rfl
@[simp] theorem State.setCoef_crRaw (b i : Nat) (v : Int) (j : Nat) :
    (s.setCoef b i v).crRaw j = s.crRaw j := rfl
@[simp] theorem State.setCoef_crField (b i : Nat) (v : Int) (j a b' : Nat) :
    (s.setCoef b i v).crField j a b' = s.crField j a b' := rfl
@[simp] theorem State.setCoef_crBit (b i : Nat) (v : Int) (j a : Nat) :
    (s.setCoef b i v).crBit j a = s.crBit j a := rfl
@[simp] theorem State.setCoef_mbW (b i : Nat) (v : Int) :
    (s.setCoef b i v).mbW = s.mbW := rfl
@[simp] theorem State.setCoef_mbH (b i : Nat) (v : Int) :
    (s.setCoef b i v).mbH = s.mbH := rfl
@[simp] theorem State.setCoef_mbx (b i : Nat) (v : Int) :
    (s.setCoef b i v).mbx = s.mbx := rfl
@[simp] theorem State.setCoef_mby (b i : Nat) (v : Int) :
    (s.setCoef b i v).mby = s.mby := rfl
@[simp] theorem State.setCoef_posOk (b i : Nat) (v : Int) :
    (s.setCoef b i v).posOk = s.posOk := rfl
@[simp] theorem State.setCoef_planeW (b i : Nat) (v : Int) (q : Nat) :
    (s.setCoef b i v).planeW q = s.planeW q := rfl
@[simp] theorem State.setCoef_planeH (b i : Nat) (v : Int) (q : Nat) :
    (s.setCoef b i v).planeH q = s.planeH q := rfl
@[simp] theorem State.setCoef_curSlot (b i : Nat) (v : Int) :
    (s.setCoef b i v).curSlot = s.curSlot := rfl
@[simp] theorem State.setCoef_rdAt (b i : Nat) (v : Int) (j : Nat) :
    (s.setCoef b i v).rdAt j = s.rdAt j := rfl
@[simp] theorem State.setCoef_rdValid (b i : Nat) (v : Int) (j : Nat) :
    (s.setCoef b i v).rdValid j = s.rdValid j := rfl
@[simp] theorem State.setCoef_mbRec (b i : Nat) (v : Int) (a b' : Nat) :
    (s.setCoef b i v).mbRec a b' = s.mbRec a b' := rfl
@[simp] theorem State.setCoef_cur (b i : Nat) (v : Int) :
    (s.setCoef b i v).cur = s.cur := rfl
@[simp] theorem State.setCoef_segment (b i : Nat) (v : Int) :
    (s.setCoef b i v).segment = s.segment := rfl
@[simp] theorem State.setCoef_probAt (b i : Nat) (v : Int) (j : Nat) :
    (s.setCoef b i v).probAt j = s.probAt j := rfl
@[simp] theorem State.setCoef_plane (b i : Nat) (v : Int) (a q : Nat) :
    (s.setCoef b i v).plane a q = s.plane a q := rfl
@[simp] theorem State.setCoef_pix (b i : Nat) (v : Int) (a q c d : Nat) :
    (s.setCoef b i v).pix a q c d = s.pix a q c d := rfl

/-! ### `clearCoef` -/

@[simp] theorem State.clearCoef_args : (s.clearCoef).args = s.args := rfl
@[simp] theorem State.clearCoef_res : (s.clearCoef).res = s.res := rfl
@[simp] theorem State.clearCoef_rd : (s.clearCoef).rd = s.rd := rfl
@[simp] theorem State.clearCoef_cr : (s.clearCoef).cr = s.cr := rfl
@[simp] theorem State.clearCoef_prob : (s.clearCoef).prob = s.prob := rfl
@[simp] theorem State.clearCoef_probSaved : (s.clearCoef).probSaved = s.probSaved := rfl
@[simp] theorem State.clearCoef_dq : (s.clearCoef).dq = s.dq := rfl
@[simp] theorem State.clearCoef_mbinfo : (s.clearCoef).mbinfo = s.mbinfo := rfl
@[simp] theorem State.clearCoef_segmap : (s.clearCoef).segmap = s.segmap := rfl
@[simp] theorem State.clearCoef_nzAbove : (s.clearCoef).nzAbove = s.nzAbove := rfl
@[simp] theorem State.clearCoef_nzLeft : (s.clearCoef).nzLeft = s.nzLeft := rfl
@[simp] theorem State.clearCoef_coef :
    (s.clearCoef).coef = [] := rfl
@[simp] theorem State.clearCoef_cand : (s.clearCoef).cand = s.cand := rfl
@[simp] theorem State.clearCoef_lfp : (s.clearCoef).lfp = s.lfp := rfl
@[simp] theorem State.clearCoef_fb : (s.clearCoef).fb = s.fb := rfl
@[simp] theorem State.clearCoef_topb : (s.clearCoef).topb = s.topb := rfl
@[simp] theorem State.clearCoef_cbuf : (s.clearCoef).cbuf = s.cbuf := rfl
@[simp] theorem State.clearCoef_response : (s.clearCoef).response = s.response := rfl
@[simp] theorem State.clearCoef_hostq : (s.clearCoef).hostq = s.hostq := rfl
@[simp] theorem State.clearCoef_allocAnswers : (s.clearCoef).allocAnswers = s.allocAnswers := rfl
@[simp] theorem State.clearCoef_allocCount : (s.clearCoef).allocCount = s.allocCount := rfl
@[simp] theorem State.clearCoef_freeCount : (s.clearCoef).freeCount = s.freeCount := rfl
@[simp] theorem State.clearCoef_changeCount : (s.clearCoef).changeCount = s.changeCount := rfl
@[simp] theorem State.clearCoef_arg  (j : Nat) :
    (s.clearCoef).arg j = s.arg j := rfl
@[simp] theorem State.clearCoef_result  (j : Nat) :
    (s.clearCoef).result j = s.result j := rfl
@[simp] theorem State.clearCoef_crRaw  (j : Nat) :
    (s.clearCoef).crRaw j = s.crRaw j := rfl
@[simp] theorem State.clearCoef_crField  (j a b' : Nat) :
    (s.clearCoef).crField j a b' = s.crField j a b' := rfl
@[simp] theorem State.clearCoef_crBit  (j a : Nat) :
    (s.clearCoef).crBit j a = s.crBit j a := rfl
@[simp] theorem State.clearCoef_mbW  :
    (s.clearCoef).mbW = s.mbW := rfl
@[simp] theorem State.clearCoef_mbH  :
    (s.clearCoef).mbH = s.mbH := rfl
@[simp] theorem State.clearCoef_mbx  :
    (s.clearCoef).mbx = s.mbx := rfl
@[simp] theorem State.clearCoef_mby  :
    (s.clearCoef).mby = s.mby := rfl
@[simp] theorem State.clearCoef_posOk  :
    (s.clearCoef).posOk = s.posOk := rfl
@[simp] theorem State.clearCoef_planeW  (q : Nat) :
    (s.clearCoef).planeW q = s.planeW q := rfl
@[simp] theorem State.clearCoef_planeH  (q : Nat) :
    (s.clearCoef).planeH q = s.planeH q := rfl
@[simp] theorem State.clearCoef_curSlot  :
    (s.clearCoef).curSlot = s.curSlot := rfl
@[simp] theorem State.clearCoef_rdAt  (j : Nat) :
    (s.clearCoef).rdAt j = s.rdAt j := rfl
@[simp] theorem State.clearCoef_rdValid  (j : Nat) :
    (s.clearCoef).rdValid j = s.rdValid j := rfl
@[simp] theorem State.clearCoef_mbRec  (a b' : Nat) :
    (s.clearCoef).mbRec a b' = s.mbRec a b' := rfl
@[simp] theorem State.clearCoef_cur  :
    (s.clearCoef).cur = s.cur := rfl
@[simp] theorem State.clearCoef_segment  :
    (s.clearCoef).segment = s.segment := rfl
@[simp] theorem State.clearCoef_probAt  (j : Nat) :
    (s.clearCoef).probAt j = s.probAt j := rfl
@[simp] theorem State.clearCoef_plane  (a q : Nat) :
    (s.clearCoef).plane a q = s.plane a q := rfl
@[simp] theorem State.clearCoef_pix  (a q c d : Nat) :
    (s.clearCoef).pix a q c d = s.pix a q c d := rfl

/-! ### `setProb` -/

@[simp] theorem State.setProb_args (i : Nat) (v : Byte) : (s.setProb i v).args = s.args := rfl
@[simp] theorem State.setProb_res (i : Nat) (v : Byte) : (s.setProb i v).res = s.res := rfl
@[simp] theorem State.setProb_rd (i : Nat) (v : Byte) : (s.setProb i v).rd = s.rd := rfl
@[simp] theorem State.setProb_cr (i : Nat) (v : Byte) : (s.setProb i v).cr = s.cr := rfl
@[simp] theorem State.setProb_prob (i : Nat) (v : Byte) :
    (s.setProb i v).prob = Memory.set s.prob i v := rfl
@[simp] theorem State.setProb_probSaved (i : Nat) (v : Byte) : (s.setProb i v).probSaved = s.probSaved := rfl
@[simp] theorem State.setProb_dq (i : Nat) (v : Byte) : (s.setProb i v).dq = s.dq := rfl
@[simp] theorem State.setProb_mbinfo (i : Nat) (v : Byte) : (s.setProb i v).mbinfo = s.mbinfo := rfl
@[simp] theorem State.setProb_segmap (i : Nat) (v : Byte) : (s.setProb i v).segmap = s.segmap := rfl
@[simp] theorem State.setProb_nzAbove (i : Nat) (v : Byte) : (s.setProb i v).nzAbove = s.nzAbove := rfl
@[simp] theorem State.setProb_nzLeft (i : Nat) (v : Byte) : (s.setProb i v).nzLeft = s.nzLeft := rfl
@[simp] theorem State.setProb_coef (i : Nat) (v : Byte) : (s.setProb i v).coef = s.coef := rfl
@[simp] theorem State.setProb_cand (i : Nat) (v : Byte) : (s.setProb i v).cand = s.cand := rfl
@[simp] theorem State.setProb_lfp (i : Nat) (v : Byte) : (s.setProb i v).lfp = s.lfp := rfl
@[simp] theorem State.setProb_fb (i : Nat) (v : Byte) : (s.setProb i v).fb = s.fb := rfl
@[simp] theorem State.setProb_topb (i : Nat) (v : Byte) : (s.setProb i v).topb = s.topb := rfl
@[simp] theorem State.setProb_cbuf (i : Nat) (v : Byte) : (s.setProb i v).cbuf = s.cbuf := rfl
@[simp] theorem State.setProb_response (i : Nat) (v : Byte) : (s.setProb i v).response = s.response := rfl
@[simp] theorem State.setProb_hostq (i : Nat) (v : Byte) : (s.setProb i v).hostq = s.hostq := rfl
@[simp] theorem State.setProb_allocAnswers (i : Nat) (v : Byte) : (s.setProb i v).allocAnswers = s.allocAnswers := rfl
@[simp] theorem State.setProb_allocCount (i : Nat) (v : Byte) : (s.setProb i v).allocCount = s.allocCount := rfl
@[simp] theorem State.setProb_freeCount (i : Nat) (v : Byte) : (s.setProb i v).freeCount = s.freeCount := rfl
@[simp] theorem State.setProb_changeCount (i : Nat) (v : Byte) : (s.setProb i v).changeCount = s.changeCount := rfl
@[simp] theorem State.setProb_arg (i : Nat) (v : Byte) (j : Nat) :
    (s.setProb i v).arg j = s.arg j := rfl
@[simp] theorem State.setProb_result (i : Nat) (v : Byte) (j : Nat) :
    (s.setProb i v).result j = s.result j := rfl
@[simp] theorem State.setProb_crRaw (i : Nat) (v : Byte) (j : Nat) :
    (s.setProb i v).crRaw j = s.crRaw j := rfl
@[simp] theorem State.setProb_crField (i : Nat) (v : Byte) (j a b' : Nat) :
    (s.setProb i v).crField j a b' = s.crField j a b' := rfl
@[simp] theorem State.setProb_crBit (i : Nat) (v : Byte) (j a : Nat) :
    (s.setProb i v).crBit j a = s.crBit j a := rfl
@[simp] theorem State.setProb_mbW (i : Nat) (v : Byte) :
    (s.setProb i v).mbW = s.mbW := rfl
@[simp] theorem State.setProb_mbH (i : Nat) (v : Byte) :
    (s.setProb i v).mbH = s.mbH := rfl
@[simp] theorem State.setProb_mbx (i : Nat) (v : Byte) :
    (s.setProb i v).mbx = s.mbx := rfl
@[simp] theorem State.setProb_mby (i : Nat) (v : Byte) :
    (s.setProb i v).mby = s.mby := rfl
@[simp] theorem State.setProb_posOk (i : Nat) (v : Byte) :
    (s.setProb i v).posOk = s.posOk := rfl
@[simp] theorem State.setProb_planeW (i : Nat) (v : Byte) (q : Nat) :
    (s.setProb i v).planeW q = s.planeW q := rfl
@[simp] theorem State.setProb_planeH (i : Nat) (v : Byte) (q : Nat) :
    (s.setProb i v).planeH q = s.planeH q := rfl
@[simp] theorem State.setProb_curSlot (i : Nat) (v : Byte) :
    (s.setProb i v).curSlot = s.curSlot := rfl
@[simp] theorem State.setProb_rdAt (i : Nat) (v : Byte) (j : Nat) :
    (s.setProb i v).rdAt j = s.rdAt j := rfl
@[simp] theorem State.setProb_rdValid (i : Nat) (v : Byte) (j : Nat) :
    (s.setProb i v).rdValid j = s.rdValid j := rfl
@[simp] theorem State.setProb_mbRec (i : Nat) (v : Byte) (a b' : Nat) :
    (s.setProb i v).mbRec a b' = s.mbRec a b' := rfl
@[simp] theorem State.setProb_cur (i : Nat) (v : Byte) :
    (s.setProb i v).cur = s.cur := rfl
@[simp] theorem State.setProb_segment (i : Nat) (v : Byte) :
    (s.setProb i v).segment = s.segment := rfl
@[simp] theorem State.setProb_coefAt (i : Nat) (v : Byte) (a j : Nat) :
    (s.setProb i v).coefAt a j = s.coefAt a j := rfl
@[simp] theorem State.setProb_plane (i : Nat) (v : Byte) (a q : Nat) :
    (s.setProb i v).plane a q = s.plane a q := rfl
@[simp] theorem State.setProb_pix (i : Nat) (v : Byte) (a q c d : Nat) :
    (s.setProb i v).pix a q c d = s.pix a q c d := rfl

/-! ### `setNz` -/

@[simp] theorem State.setNz_args (b : Nat) (z : Bool) : (s.setNz b z).args = s.args := rfl
@[simp] theorem State.setNz_res (b : Nat) (z : Bool) : (s.setNz b z).res = s.res := rfl
@[simp] theorem State.setNz_rd (b : Nat) (z : Bool) : (s.setNz b z).rd = s.rd := rfl
@[simp] theorem State.setNz_cr (b : Nat) (z : Bool) : (s.setNz b z).cr = s.cr := rfl
@[simp] theorem State.setNz_prob (b : Nat) (z : Bool) : (s.setNz b z).prob = s.prob := rfl
@[simp] theorem State.setNz_probSaved (b : Nat) (z : Bool) : (s.setNz b z).probSaved = s.probSaved := rfl
@[simp] theorem State.setNz_dq (b : Nat) (z : Bool) : (s.setNz b z).dq = s.dq := rfl
@[simp] theorem State.setNz_mbinfo (b : Nat) (z : Bool) : (s.setNz b z).mbinfo = s.mbinfo := rfl
@[simp] theorem State.setNz_segmap (b : Nat) (z : Bool) : (s.setNz b z).segmap = s.segmap := rfl
@[simp] theorem State.setNz_nzAbove (b : Nat) (z : Bool) :
    (s.setNz b z).nzAbove = Memory.put s.nzAbove nzZero s.mbx (s.nzAboveCur.setIfInBounds (nzAboveIndex b) z) := rfl
@[simp] theorem State.setNz_nzLeft (b : Nat) (z : Bool) :
    (s.setNz b z).nzLeft = s.nzLeft.setIfInBounds (nzLeftIndex b) z := rfl
@[simp] theorem State.setNz_coef (b : Nat) (z : Bool) : (s.setNz b z).coef = s.coef := rfl
@[simp] theorem State.setNz_cand (b : Nat) (z : Bool) : (s.setNz b z).cand = s.cand := rfl
@[simp] theorem State.setNz_lfp (b : Nat) (z : Bool) : (s.setNz b z).lfp = s.lfp := rfl
@[simp] theorem State.setNz_fb (b : Nat) (z : Bool) : (s.setNz b z).fb = s.fb := rfl
@[simp] theorem State.setNz_topb (b : Nat) (z : Bool) : (s.setNz b z).topb = s.topb := rfl
@[simp] theorem State.setNz_cbuf (b : Nat) (z : Bool) : (s.setNz b z).cbuf = s.cbuf := rfl
@[simp] theorem State.setNz_response (b : Nat) (z : Bool) : (s.setNz b z).response = s.response := rfl
@[simp] theorem State.setNz_hostq (b : Nat) (z : Bool) : (s.setNz b z).hostq = s.hostq := rfl
@[simp] theorem State.setNz_allocAnswers (b : Nat) (z : Bool) : (s.setNz b z).allocAnswers = s.allocAnswers := rfl
@[simp] theorem State.setNz_allocCount (b : Nat) (z : Bool) : (s.setNz b z).allocCount = s.allocCount := rfl
@[simp] theorem State.setNz_freeCount (b : Nat) (z : Bool) : (s.setNz b z).freeCount = s.freeCount := rfl
@[simp] theorem State.setNz_changeCount (b : Nat) (z : Bool) : (s.setNz b z).changeCount = s.changeCount := rfl
@[simp] theorem State.setNz_arg (b : Nat) (z : Bool) (j : Nat) :
    (s.setNz b z).arg j = s.arg j := rfl
@[simp] theorem State.setNz_result (b : Nat) (z : Bool) (j : Nat) :
    (s.setNz b z).result j = s.result j := rfl
@[simp] theorem State.setNz_crRaw (b : Nat) (z : Bool) (j : Nat) :
    (s.setNz b z).crRaw j = s.crRaw j := rfl
@[simp] theorem State.setNz_crField (b : Nat) (z : Bool) (j a b' : Nat) :
    (s.setNz b z).crField j a b' = s.crField j a b' := rfl
@[simp] theorem State.setNz_crBit (b : Nat) (z : Bool) (j a : Nat) :
    (s.setNz b z).crBit j a = s.crBit j a := rfl
@[simp] theorem State.setNz_mbW (b : Nat) (z : Bool) :
    (s.setNz b z).mbW = s.mbW := rfl
@[simp] theorem State.setNz_mbH (b : Nat) (z : Bool) :
    (s.setNz b z).mbH = s.mbH := rfl
@[simp] theorem State.setNz_mbx (b : Nat) (z : Bool) :
    (s.setNz b z).mbx = s.mbx := rfl
@[simp] theorem State.setNz_mby (b : Nat) (z : Bool) :
    (s.setNz b z).mby = s.mby := rfl
@[simp] theorem State.setNz_posOk (b : Nat) (z : Bool) :
    (s.setNz b z).posOk = s.posOk := rfl
@[simp] theorem State.setNz_planeW (b : Nat) (z : Bool) (q : Nat) :
    (s.setNz b z).planeW q = s.planeW q := rfl
@[simp] theorem State.setNz_planeH (b : Nat) (z : Bool) (q : Nat) :
    (s.setNz b z).planeH q = s.planeH q := rfl
@[simp] theorem State.setNz_curSlot (b : Nat) (z : Bool) :
    (s.setNz b z).curSlot = s.curSlot := rfl
@[simp] theorem State.setNz_rdAt (b : Nat) (z : Bool) (j : Nat) :
    (s.setNz b z).rdAt j = s.rdAt j := rfl
@[simp] theorem State.setNz_rdValid (b : Nat) (z : Bool) (j : Nat) :
    (s.setNz b z).rdValid j = s.rdValid j := rfl
@[simp] theorem State.setNz_mbRec (b : Nat) (z : Bool) (a b' : Nat) :
    (s.setNz b z).mbRec a b' = s.mbRec a b' := rfl
@[simp] theorem State.setNz_cur (b : Nat) (z : Bool) :
    (s.setNz b z).cur = s.cur := rfl
@[simp] theorem State.setNz_segment (b : Nat) (z : Bool) :
    (s.setNz b z).segment = s.segment := rfl
@[simp] theorem State.setNz_coefAt (b : Nat) (z : Bool) (a j : Nat) :
    (s.setNz b z).coefAt a j = s.coefAt a j := rfl
@[simp] theorem State.setNz_probAt (b : Nat) (z : Bool) (j : Nat) :
    (s.setNz b z).probAt j = s.probAt j := rfl
@[simp] theorem State.setNz_plane (b : Nat) (z : Bool) (a q : Nat) :
    (s.setNz b z).plane a q = s.plane a q := rfl
@[simp] theorem State.setNz_pix (b : Nat) (z : Bool) (a q c d : Nat) :
    (s.setNz b z).pix a q c d = s.pix a q c d := rfl

/-! ### Readings of what was just written -/

theorem State.crRaw_setCr (i j : Nat) (v : Word) (hi : i < 44) :
    (s.setCr i v).crRaw j = if j = i then v else s.crRaw j := by
  unfold State.crRaw State.setCr
  by_cases h : j = i
  · subst h; simp [hi]
  · simp [h, Ne.symm h]

@[simp] theorem State.crRaw_setCr_other {i j : Nat} (v : Word) (h : j ≠ i) :
    (s.setCr i v).crRaw j = s.crRaw j := by
  unfold State.crRaw State.setCr
  simp [Ne.symm h]

@[simp] theorem State.crRaw_setCrField_other {i j : Nat} (lo len v : Nat) (h : j ≠ i) :
    (s.setCrField i lo len v).crRaw j = s.crRaw j := s.crRaw_setCr_other _ h

theorem State.crRaw_setCrField_self {i : Nat} (lo len v : Nat) (hi : i < 44) :
    (s.setCrField i lo len v).crRaw i = setField (s.crRaw i) lo len v := by
  rw [State.setCrField, State.crRaw_setCr _ _ _ _ hi, if_pos rfl]

@[simp] theorem State.crRaw_setMbpos_other {j : Nat} (x y : Nat) (h : j ≠ 19) :
    (s.setMbpos x y).crRaw j = s.crRaw j := s.crRaw_setCr_other _ h

@[simp] theorem State.crRaw_setMbpos (x y : Nat) : (s.setMbpos x y).crRaw 19 = posWord x y := by
  rw [State.setMbpos, State.crRaw_setCr _ _ _ _ (by omega), if_pos rfl]

theorem State.arg_setArg (i j : Nat) (v : Word) (hi : i < 4) :
    (s.setArg i v).arg j = if j = i then v else s.arg j := by
  unfold State.arg State.setArg
  by_cases h : j = i
  · subst h; simp [hi]
  · simp [h, Ne.symm h]

theorem State.result_setRes (i j : Nat) (v : Word) (hi : i < 4) :
    (s.setRes i v).result j = if j = i then v else s.result j := by
  unfold State.result State.setRes
  by_cases h : j = i
  · subst h; simp [hi]
  · simp [h, Ne.symm h]

@[simp] theorem State.result_setRes_zero (v : Word) : (s.setRes 0 v).result 0 = v := by
  rw [State.result_setRes _ _ _ _ (by omega), if_pos rfl]

@[simp] theorem State.result_setRes_other {i j : Nat} (v : Word) (h : j ≠ i) :
    (s.setRes i v).result j = s.result j := by
  unfold State.result State.setRes
  simp [Ne.symm h]

theorem State.rdAt_setRd (k j : Nat) (r : Rd) (hk : k < 9) :
    (s.setRd k r).rdAt j = if j = k then r else s.rdAt j := by
  unfold State.rdAt State.setRd
  by_cases h : j = k
  · subst h; simp [hk]
  · simp [h, Ne.symm h]

@[simp] theorem State.rdAt_setRd_other {k j : Nat} (r : Rd) (h : j ≠ k) :
    (s.setRd k r).rdAt j = s.rdAt j := by
  unfold State.rdAt State.setRd
  simp [Ne.symm h]

@[simp] theorem State.rdValid_invalidateRd (k : Nat) : s.invalidateRd.rdValid k = false := by
  unfold State.rdValid State.rdAt State.invalidateRd
  by_cases h : k < 9
  · simp [h]
  · simp [h, Rd.reset]

theorem State.mbRec_setMbRec (x y a b : Nat) (r : MbRec) :
    (s.setMbRec x y r).mbRec a b = if mbKey a b = mbKey x y then r else s.mbRec a b :=
  Memory.get_put _ _ _ _ _

@[simp] theorem State.cur_setCur (r : MbRec) : (s.setCur r).cur = r := Memory.get_put_self _ _ _ _

@[simp] theorem State.segment_setSegment (v : BitVec 2) : (s.setSegment v).segment = v :=
  Memory.get_put_self _ _ _ _

theorem State.probAt_setProb (i j : Nat) (v : Byte) :
    (s.setProb i v).probAt j = if j = i then some v else s.probAt j := Memory.find_set _ _ _ _

theorem State.coefAt_setCoef (b i a j : Nat) (v : Int) :
    (s.setCoef b i v).coefAt a j = if coefKey a j = coefKey b i then v else s.coefAt a j :=
  Memory.get_put _ _ _ _ _

/-! ### Planes and pixels -/

theorem Frame.plane_setPlane (f : Frame) (p q : Nat) (m : Memory Byte) (hp : p < 3) (hq : q < 3) :
    (f.setPlane p m).plane q = if q = p then m else f.plane q := by
  unfold Frame.setPlane Frame.plane
  have : p = 0 ∨ p = 1 ∨ p = 2 := by omega
  have : q = 0 ∨ q = 1 ∨ q = 2 := by omega
  rcases ‹p = 0 ∨ p = 1 ∨ p = 2› with rfl | rfl | rfl <;>
    rcases ‹q = 0 ∨ q = 1 ∨ q = 2› with rfl | rfl | rfl <;> simp

theorem State.plane_setPlane (n p a q : Nat) (m : Memory Byte) (hn : n < 4) (hp : p < 3) (hq : q < 3) :
    (s.setPlane n p m).plane a q = if a = n ∧ q = p then m else s.plane a q := by
  unfold State.plane State.setPlane
  by_cases h : a = n
  · subst h
    simp [hn, Frame.plane_setPlane _ _ _ _ hp hq]
  · simp [h, Ne.symm h]

theorem State.plane_setPlane_slot {n a : Nat} (p q : Nat) (m : Memory Byte) (h : a ≠ n) :
    (s.setPlane n p m).plane a q = s.plane a q := by
  unfold State.plane State.setPlane
  simp [Ne.symm h]

/-! ### A slot handed out, and a change of `CBUF` -/

theorem State.plane_clearSlot_other {n a : Nat} (q : Nat) (h : a ≠ n) :
    (s.clearSlot n).plane a q = s.plane a q := by
  unfold State.plane State.clearSlot
  simp [Ne.symm h]

theorem State.plane_clearSlot_self (n q : Nat) : (s.clearSlot n).plane n q = [] := by
  unfold State.plane State.clearSlot
  by_cases h : n < 4
  · simp [h, Frame.empty, Frame.plane]
  · simp [Vector.getElem?_eq_none (Nat.le_of_not_lt h), Frame.empty, Frame.plane]

/-- The host's change leaves an instance as it was, but for the number of the change. -/
theorem State.rdAt_noteChange (a : Word) (k : Nat) :
    (s.noteChange a).rdAt k =
      if k < 9 then (s.rdAt k).noteChange (9 * s.changeCount + k) a else s.rdAt k := by
  unfold State.rdAt State.noteChange
  by_cases h : k < 9
  · simp [h]
  · simp [h]

theorem Rd.noteChange_eq (n : Nat) (a : Word) (r : Rd) :
    r.noteChange n a = { r with changed := if r.reads a then some n else r.changed } := by
  unfold Rd.noteChange
  split <;> simp_all

/-- A stop leaves every field but the response and `STATUS` alone. -/
theorem State.raise_eq (c : ErrCode) :
    s.raise c = { s with cr := (s.raise c).cr, response := .error c } := by
  unfold State.raise State.noteError
  split <;> rfl

theorem State.raise_crRaw {j : Nat} (c : ErrCode) (h : j ≠ 16) : (s.raise c).crRaw j = s.crRaw j := by
  unfold State.raise State.noteError
  split
  · exact s.crRaw_setCr_other _ h
  · rfl

@[simp] theorem State.raise_response (c : ErrCode) : (s.raise c).response = .error c := rfl

theorem ErrCode.num_lt (c : ErrCode) : 0 < c.num ∧ c.num < 16 := by cases c <;> decide

/-- R452 (1): the flag keeps the first code. -/
theorem State.raise_errFlag (c : ErrCode) :
    (s.raise c).errFlag = if s.errFlag = 0 then c.num else s.errFlag := by
  unfold State.raise State.noteError State.errFlag State.crField
  split
  · rename_i h
    simp only [State.crRaw]
    show field (((s.setCrField 16 4 4 c.num).crRaw 16)) 4 4 = c.num
    rw [State.crRaw_setCrField_self _ _ _ _ (by omega), field_setField _ _ _ _ (by omega)]
    exact Nat.mod_eq_of_lt (ErrCode.num_lt c).2
  · rfl

end Sys2Proof.Machine
end

