-- ==== Sys2Proof/Laws/Outcome.lean ====
section
/-! SUPPORT. How a command ends: what `finish` answers, and the laws of the checks. -/

namespace Sys2Proof.Machine

variable {α β : Type}

theorem Res.bind_ok {x : Res α} {f : α → Res β} {b : β} :
    (x >>= f) = .ok b ↔ ∃ a, x = .ok a ∧ f a = .ok b := by
  cases x with
  | error e => simp [bind, Except.bind]
  | ok a => simp [bind, Except.bind]

theorem Res.bind_error {x : Res α} {f : α → Res β} {e : Stop} :
    (x >>= f) = .error e ↔ x = .error e ∨ ∃ a, x = .ok a ∧ f a = .error e := by
  cases x with
  | error e => simp [bind, Except.bind]
  | ok a => simp [bind, Except.bind]

@[simp] theorem Res.ok_bind (a : α) (f : α → Res β) : ((Except.ok a : Res α) >>= f) = f a := rfl

@[simp] theorem Res.error_bind (e : Stop) (f : α → Res β) :
    ((Except.error e : Res α) >>= f) = .error e := rfl

theorem require_ok {b : Bool} {c : ErrCode} {u : Unit} : require b c = .ok u ↔ b = true := by
  unfold require
  split <;> simp_all

@[simp] theorem require_true (c : ErrCode) : require true c = .ok () := rfl

@[simp] theorem require_false (c : ErrCode) : require false c = .error (.raise c) := rfl

theorem require_error {b : Bool} {c : ErrCode} {e : Stop} :
    require b c = .error e ↔ b = false ∧ e = .raise c := by
  cases b <;> simp [eq_comm]

theorem need_ok {o : Option α} {f : Fault} {a : α} : need o f = .ok a ↔ o = some a := by
  cases o <;> simp [need]

@[simp] theorem need_some (a : α) (f : Fault) : need (some a) f = .ok a := rfl

theorem need_of_isSome {o : Option α} (f : Fault) (h : o.isSome = true) : ∃ a, o = some a ∧ need o f = .ok a := by
  cases o with
  | none => simp at h
  | some a => exact ⟨a, rfl, rfl⟩

theorem needSlot_ok {o : Option Nat} {n : Nat} : needSlot o = .ok n ↔ o = some n := by
  cases o <;> simp [needSlot]

@[simp] theorem needSlot_some (n : Nat) : needSlot (some n) = .ok n := rfl

theorem slotOf_lt {f n : Nat} (h : slotOf f = some n) : n < 4 := by
  unfold slotOf at h
  split at h
  · have := Option.some.inj h; omega
  · cases h

/-- Everything that `finish` can answer with a next state. -/
theorem finish_next {s t : State} {r : Res State} :
    finish s r = .next t ↔
      (∃ u, r = .ok u ∧ t = { u with response := .ok }) ∨ (∃ c, r = .error (.raise c) ∧ t = s.raise c) := by
  cases r with
  | ok u => simp [finish, eq_comm]
  | error e => cases e <;> simp [finish, eq_comm]

@[simp] theorem finish_ok (s u : State) : finish s (.ok u) = .next { u with response := .ok } := rfl

@[simp] theorem finish_raise (s : State) (c : ErrCode) : finish s (.error (.raise c)) = .next (s.raise c) := rfl

theorem finish_not_refused (s : State) (r : Res State) (x : Refusal) : finish s r ≠ .refused x := by
  cases r with
  | ok u => simp [finish]
  | error e => cases e <;> simp [finish]

theorem finishFrame_next {s t : State} {r : Res State} :
    finishFrame s r = .next t ↔
      (∃ u, r = .ok u ∧ t = { u with response := .ok }) ∨
        (∃ c, r = .error (.raise c) ∧ t = s.raiseFrame c) := by
  cases r with
  | ok u => simp [finishFrame, eq_comm]
  | error e => cases e <;> simp [finishFrame, eq_comm]

theorem collect_ok {f : Fault} {l : List (Option α)} (h : ∀ o ∈ l, o.isSome = true) :
    ∃ as, collect f l = .ok as ∧ l = as.map some := by
  induction l with
  | nil => exact ⟨[], rfl, rfl⟩
  | cons o l ih =>
    obtain ⟨as, h1, h2⟩ := ih fun x hx => h x (by simp [hx])
    obtain ⟨a, ha, hb⟩ := need_of_isSome f (h o (by simp))
    exact ⟨a :: as, by simp [collect, hb, h1], by simp [ha, h2]⟩

theorem collect_eq_ok {f : Fault} {l : List (Option α)} {as : List α} :
    collect f l = .ok as ↔ l = as.map some := by
  induction l generalizing as with
  | nil =>
    simp only [collect, Except.ok.injEq]
    cases as <;> simp
  | cons o l ih =>
    simp only [collect, Res.bind_ok, need_ok, ih, Except.ok.injEq]
    cases as with
    | nil => simp
    | cons a as =>
      simp only [List.map_cons, List.cons.injEq]
      constructor
      · rintro ⟨b, rfl, bs, rfl, rfl, rfl⟩; exact ⟨rfl, rfl⟩
      · rintro ⟨rfl, rfl⟩; exact ⟨a, rfl, as, rfl, rfl, rfl⟩

/-- A property that each step of a loop keeps holds after the loop. -/
theorem foldlM_keeps {P : β → Prop} {f : β → α → Res β} (hf : ∀ s a t, P s → f s a = .ok t → P t)
    {l : List α} {s t : β} (hs : P s) (h : l.foldlM f s = .ok t) : P t := by
  induction l generalizing s with
  | nil => simp only [List.foldlM_nil, pure, Except.pure, Except.ok.injEq] at h; exact h ▸ hs
  | cons a l ih =>
    rw [List.foldlM_cons, Res.bind_ok] at h
    obtain ⟨u, h1, h2⟩ := h
    exact ih (hf s a u hs h1) h2

/-- A loop completes where each step does, under a property that the steps keep. -/
theorem foldlM_completes {P : β → Prop} {f : β → α → Res β} {l : List α}
    (hf : ∀ s, P s → ∀ a ∈ l, ∃ t, f s a = .ok t ∧ P t) {s : β} (hs : P s) :
    ∃ t, l.foldlM f s = .ok t ∧ P t := by
  induction l generalizing s with
  | nil => exact ⟨s, rfl, hs⟩
  | cons a l ih =>
    obtain ⟨u, h1, h2⟩ := hf s hs a (by simp)
    obtain ⟨t, h3, h4⟩ := ih (fun s hs a ha => hf s hs a (by simp [ha])) h2
    exact ⟨t, by rw [List.foldlM_cons, h1]; exact h3, h4⟩

end Sys2Proof.Machine
end

