-- ==== Sys2Proof/Laws/Checks.lean ====
section
/-! SUPPORT. The checks of the ARG registers, as the statements say them and as the commands make them. -/

namespace Sys2Proof.Machine

/-- A field of a role above 3 holds no slot (spec 10_state.md R45). -/
theorem slotOf_none {f : Nat} (h : 3 < f) : slotOf f = none := if_neg (by omega)

theorem edgeInside_iff (s : State) (e : Edge) : s.edgeInside e ↔ s.okEdge e = true := by
  unfold State.edgeInside State.okEdge Edge.px Edge.py
  by_cases hd : e.dir = 0 <;> simp only [hd, if_true, if_false, Bool.and_eq_true, decide_eq_true_eq, and_assoc]
  all_goals
    cases hk : e.kind
    all_goals
      simp only [EdgeKind.reads, EdgeKind.reach, List.forall_mem_cons, List.not_mem_nil, false_imp_iff, implies_true,
        and_true]
      constructor
      · intro ⟨h1, h2, h⟩
        have b := h (e.len - 1) (by omega)
        omega
      · intro ⟨h1, h2, h⟩
        exact ⟨h1, h2, fun k hk => by omega⟩

theorem lumaBlock_iff (s : State) : s.argBlockInside [4, 8, 16] 0 ↔
    (okLumaSize s.argBlock.w && okLumaSize s.argBlock.h && s.insidePlane 0 s.argBlock) = true := by
  simp only [State.argBlockInside, okLumaSize, State.insidePlane, Bool.and_eq_true, Bool.or_eq_true, beq_iff_eq,
    decide_eq_true_eq, List.mem_cons, List.not_mem_nil, or_false]
  simp only [State.argBlock, posX, posY, sizeW, sizeH]
  omega

theorem chromaBlock_iff (s : State) (p : Nat) : s.argBlockInside [4, 8] p ↔
    (okChromaSize s.argBlock.w && okChromaSize s.argBlock.h && s.insidePlane p s.argBlock) = true := by
  simp only [State.argBlockInside, okChromaSize, State.insidePlane, Bool.and_eq_true, Bool.or_eq_true, beq_iff_eq,
    decide_eq_true_eq, List.mem_cons, List.not_mem_nil, or_false]
  simp only [State.argBlock, posX, posY, sizeW, sizeH]
  omega

end Sys2Proof.Machine
end

