-- ==== Sys2Proof/Laws/RangeDecoder.lean ====
section
/-! SUPPORT. The range decoder: what one bool does to an instance, and what every reader of bools is
made of. -/

namespace Sys2Proof.Machine

/-- One bool, of any probability. -/
def RdStep (cbuf : Memory Byte) (r r' : Rd) : Prop := ∃ p, r' = (readBool cbuf p r).2

/-- Any number of bools. -/
abbrev RdSteps (cbuf : Memory Byte) : Rd → Rd → Prop := Relation.ReflTransGen (RdStep cbuf)

theorem RdSteps.bool (cbuf : Memory Byte) (p : Byte) (r : Rd) : RdSteps cbuf r (readBool cbuf p r).2 :=
  .single ⟨p, rfl⟩

theorem readLitFrom_steps (cbuf : Memory Byte) (n v : Nat) (r : Rd) :
    RdSteps cbuf r (readLitFrom cbuf v n r).2 := by
  induction n generalizing v r with
  | zero => exact .refl
  | succ n ih => exact (RdSteps.bool cbuf 128 r).trans (ih _ _)

theorem readLit_steps (cbuf : Memory Byte) (n : Nat) (r : Rd) : RdSteps cbuf r (readLit cbuf n r).2 :=
  readLitFrom_steps cbuf n 0 r

theorem readSlit_steps (cbuf : Memory Byte) (n : Nat) (r : Rd) : RdSteps cbuf r (readSlit cbuf n r).2 :=
  (readLit_steps cbuf n r).trans (RdSteps.bool cbuf 128 _)

theorem readTreeFrom_steps {cbuf : Memory Byte} {T : List Int} {P : Nat → Res Byte} {n i v : Nat}
    {r r' : Rd} (h : readTreeFrom cbuf T P n i r = .ok (v, r')) : RdSteps cbuf r r' := by
  induction n generalizing i r with
  | zero => simp only [readTreeFrom, Except.ok.injEq, Prod.mk.injEq] at h; exact h.2 ▸ .refl
  | succ n ih =>
    simp only [readTreeFrom, Res.bind_ok] at h
    obtain ⟨p, -, h⟩ := h
    split at h
    · simp only [Except.ok.injEq, Prod.mk.injEq] at h
      exact h.2 ▸ RdSteps.bool cbuf p r
    · exact (RdSteps.bool cbuf p r).trans (ih h)

theorem readTree_steps {cbuf : Memory Byte} {T : List Int} {P : Nat → Res Byte} {start v : Nat}
    {r r' : Rd} (h : readTree cbuf T P start r = .ok (v, r')) : RdSteps cbuf r r' := readTreeFrom_steps h

/-! ## One bool -/

theorem nextByte_fields (cbuf : Memory Byte) (r : Rd) :
    (nextByte cbuf r).2.value = r.value ∧ (nextByte cbuf r).2.range = r.range ∧
      (nextByte cbuf r).2.bitCount = r.bitCount ∧ (nextByte cbuf r).2.base = r.base ∧
      (nextByte cbuf r).2.size = r.size ∧ (nextByte cbuf r).2.valid = r.valid ∧
      (nextByte cbuf r).2.changed = r.changed := by
  unfold nextByte
  split <;> simp

theorem nextByte_cursor (cbuf : Memory Byte) (r : Rd) (h : r.cursor.toNat ≤ r.size.toNat) :
    (nextByte cbuf r).2.cursor.toNat ≤ r.size.toNat := by
  unfold nextByte
  split
  · rename_i hlt
    have h1 : r.cursor.toNat < r.size.toNat := hlt
    have h2 := r.size.isLt
    show (r.cursor + 1).toNat ≤ r.size.toNat
    rw [BitVec.toNat_add, show (1 : Word).toNat = 1 from rfl]
    omega
  · exact h

/-- What a bool leaves alone. -/
structure Rd.SameBuffer (r r' : Rd) : Prop where
  base : r'.base = r.base
  size : r'.size = r.size
  valid : r'.valid = r.valid
  changed : r'.changed = r.changed

theorem Rd.SameBuffer.rfl (r : Rd) : Rd.SameBuffer r r := ⟨Eq.refl _, Eq.refl _, Eq.refl _, Eq.refl _⟩

theorem Rd.SameBuffer.trans {a b c : Rd} (h : Rd.SameBuffer a b) (g : Rd.SameBuffer b c) :
    Rd.SameBuffer a c := 
  ⟨g.base.trans h.base, g.size.trans h.size, g.valid.trans h.valid, g.changed.trans h.changed⟩

theorem renormStep_buffer (cbuf : Memory Byte) (r : Rd) : Rd.SameBuffer r (renormStep cbuf r) := by
  unfold renormStep
  simp only
  split
  · have h := nextByte_fields cbuf
      { r with value := r.value <<< 1, range := r.range <<< 1, bitCount := r.bitCount + 1 }
    exact ⟨h.2.2.2.1, h.2.2.2.2.1, h.2.2.2.2.2.1, h.2.2.2.2.2.2⟩
  · exact ⟨Eq.refl _, Eq.refl _, Eq.refl _, Eq.refl _⟩

theorem renorm_buffer (cbuf : Memory Byte) (n : Nat) (r : Rd) : Rd.SameBuffer r (renorm cbuf n r) := by
  induction n generalizing r with
  | zero => exact .rfl r
  | succ n ih =>
    unfold renorm
    split
    · exact (renormStep_buffer cbuf r).trans (ih _)
    · exact .rfl r

theorem readBool_buffer (cbuf : Memory Byte) (p : Byte) (r : Rd) :
    Rd.SameBuffer r (readBool cbuf p r).2 := by
  unfold readBool
  simp only
  split
  · have h := renorm_buffer cbuf 7 { r with
      range := r.range - BitVec.ofNat 8 (splitOf r p)
      value := r.value - BitVec.ofNat 16 (256 * splitOf r p) }
    exact ⟨h.base, h.size, h.valid, h.changed⟩
  · have h := renorm_buffer cbuf 7 { r with range := BitVec.ofNat 8 (splitOf r p) }
    exact ⟨h.base, h.size, h.valid, h.changed⟩

theorem RdSteps.buffer {cbuf : Memory Byte} {r r' : Rd} (h : RdSteps cbuf r r') : Rd.SameBuffer r r' := by
  induction h with
  | refl => exact .rfl r
  | tail _ h ih =>
    obtain ⟨p, rfl⟩ := h
    exact ih.trans (readBool_buffer cbuf p _)

/-- What the renormalisation loop keeps: the bits shifted in are 0 and the cursor is inside. -/
structure Rd.Tail (r : Rd) : Prop where
  low : r.value.toNat % 2 ^ r.bitCount.toNat = 0
  cursor : r.cursor.toNat ≤ r.size.toNat

theorem renormStep_tail (cbuf : Memory Byte) {r : Rd} (h : r.Tail) : (renormStep cbuf r).Tail := by
  have hb := r.bitCount.isLt
  unfold renormStep
  simp only
  split
  · rename_i hz
    have hf := nextByte_fields cbuf
      { r with value := r.value <<< 1, range := r.range <<< 1, bitCount := r.bitCount + 1 }
    refine ⟨?_, ?_⟩
    · show _ % 2 ^ (nextByte cbuf _).2.bitCount.toNat = 0
      rw [hf.2.2.1, hz]
      simp [Nat.mod_one]
    · show (nextByte cbuf _).2.cursor.toNat ≤ (nextByte cbuf _).2.size.toNat
      rw [hf.2.2.2.2.1]
      exact nextByte_cursor _ _ h.cursor
  · rename_i hz
    refine ⟨?_, h.cursor⟩
    show (r.value <<< 1).toNat % 2 ^ (r.bitCount + 1).toNat = 0
    have hb1 : (r.bitCount + 1).toNat = r.bitCount.toNat + 1 := by
      rw [BitVec.toNat_add]
      have : ¬ (r.bitCount.toNat + 1) % 8 = 0 := by
        intro hc
        apply hz
        apply BitVec.eq_of_toNat_eq
        simpa [BitVec.toNat_add] using hc
      rw [show (1 : BitVec 3).toNat = 1 from rfl]
      omega
    rw [hb1, BitVec.toNat_shiftLeft, Nat.shiftLeft_eq, Nat.mod_mod_of_dvd _ (Nat.pow_dvd_pow 2 (by omega)),
      pow_one, Nat.pow_succ, Nat.mul_mod_mul_right, h.low, Nat.zero_mul]

theorem renorm_tail (cbuf : Memory Byte) (n : Nat) {r : Rd} (h : r.Tail) : (renorm cbuf n r).Tail := by
  induction n generalizing r with
  | zero => exact h
  | succ n ih =>
    unfold renorm
    split
    · exact ih (renormStep_tail cbuf h)
    · exact h

theorem renormStep_range (cbuf : Memory Byte) (r : Rd) : (renormStep cbuf r).range = r.range <<< 1 := by
  unfold renormStep
  simp only
  split
  · exact (nextByte_fields cbuf _).2.1
  · rfl

/-- `n` turns normalise an interval of at least `2 ^ (7 - n)`. -/
theorem renorm_range (cbuf : Memory Byte) (n : Nat) {r : Rd} (h : 128 ≤ 2 ^ n * r.range.toNat) :
    128 ≤ (renorm cbuf n r).range.toNat := by
  induction n generalizing r with
  | zero => simpa [renorm] using h
  | succ n ih =>
    unfold renorm
    split
    · rename_i hlt
      apply ih
      rw [renormStep_range, BitVec.toNat_shiftLeft, Nat.shiftLeft_eq, Nat.mod_eq_of_lt (by omega)]
      rw [Nat.pow_succ] at h
      rw [pow_one, Nat.mul_comm r.range.toNat 2, ← Nat.mul_assoc]
      exact h
    · omega

theorem splitOf_bounds (r : Rd) (p : Byte) (h : 2 ≤ r.range.toNat) :
    1 ≤ splitOf r p ∧ splitOf r p < r.range.toNat := by
  unfold splitOf
  have hp := p.isLt
  refine ⟨by omega, ?_⟩
  have h1 : (r.range.toNat - 1) * p.toNat / 256 ≤ (r.range.toNat - 1) * 255 / 256 :=
    Nat.div_le_div_right (Nat.mul_le_mul_left _ (by omega))
  omega

/-- One bool keeps R23. -/
theorem readBool_inv (cbuf : Memory Byte) (p : Byte) {r : Rd} (h : r.Inv) : (readBool cbuf p r).2.Inv := by
  obtain ⟨h1, h2⟩ := splitOf_bounds r p (by have := h.range; omega)
  have hr := r.range.isLt
  have hv := r.value.isLt
  have hb := r.bitCount.isLt
  unfold readBool
  simp only
  split
  · rename_i hle
    have ht : Rd.Tail { r with
        range := r.range - BitVec.ofNat 8 (splitOf r p)
        value := r.value - BitVec.ofNat 16 (256 * splitOf r p) } := by
      refine ⟨?_, h.cursor⟩
      show (r.value - BitVec.ofNat 16 (256 * splitOf r p)).toNat % 2 ^ r.bitCount.toNat = 0
      have e : (r.value - BitVec.ofNat 16 (256 * splitOf r p)).toNat = r.value.toNat - 256 * splitOf r p := by
        rw [BitVec.toNat_sub, BitVec.toNat_ofNat]
        omega
      have d1 : 2 ^ r.bitCount.toNat ∣ r.value.toNat := Nat.dvd_of_mod_eq_zero h.low
      have d2 : 2 ^ r.bitCount.toNat ∣ 256 * splitOf r p :=
        Dvd.dvd.mul_right (Nat.pow_dvd_pow 2 (n := 8) (by omega)) _
      rw [e]
      exact Nat.mod_eq_zero_of_dvd (Nat.dvd_sub d1 d2)
    have ht := renorm_tail cbuf 7 ht
    refine ⟨renorm_range cbuf 7 ?_, ht.low, ht.cursor⟩
    show 128 ≤ 2 ^ 7 * (r.range - BitVec.ofNat 8 (splitOf r p)).toNat
    rw [BitVec.toNat_sub, BitVec.toNat_ofNat]
    omega
  · have ht : Rd.Tail { r with range := BitVec.ofNat 8 (splitOf r p) } := ⟨h.low, h.cursor⟩
    have ht := renorm_tail cbuf 7 ht
    refine ⟨renorm_range cbuf 7 ?_, ht.low, ht.cursor⟩
    show 128 ≤ 2 ^ 7 * (BitVec.ofNat 8 (splitOf r p)).toNat
    rw [BitVec.toNat_ofNat]
    omega

theorem RdSteps.inv {cbuf : Memory Byte} {r r' : Rd} (h : RdSteps cbuf r r') (hi : r.Inv) : r'.Inv := by
  induction h with
  | refl => exact hi
  | tail _ h ih =>
    obtain ⟨p, rfl⟩ := h
    exact readBool_inv cbuf p ih

/-- `RD_INIT` establishes R23. -/
theorem rdStart_inv (cbuf : Memory Byte) (base size : Word) : (rdStart cbuf base size).Inv := by
  unfold rdStart
  simp only
  generalize hr : Rd.mk 0 255 0 0 base size true none = r0
  have f0 := nextByte_fields cbuf r0
  have f1 := nextByte_fields cbuf (nextByte cbuf r0).2
  have c0 : (nextByte cbuf r0).2.cursor.toNat ≤ (nextByte cbuf r0).2.size.toNat := by
    rw [f0.2.2.2.2.1]; exact nextByte_cursor cbuf r0 (by rw [← hr]; simp)
  refine ⟨?_, ?_, ?_⟩
  · show 128 ≤ (nextByte cbuf (nextByte cbuf r0).2).2.range.toNat
    rw [f1.2.1, f0.2.1, ← hr]
    show 128 ≤ (255 : Byte).toNat
    decide
  · show _ % 2 ^ (nextByte cbuf (nextByte cbuf r0).2).2.bitCount.toNat = 0
    rw [f1.2.2.1, f0.2.2.1, ← hr]
    simp [Nat.mod_one]
  · show (nextByte cbuf (nextByte cbuf r0).2).2.cursor.toNat ≤ (nextByte cbuf (nextByte cbuf r0).2).2.size.toNat
    rw [f1.2.2.2.2.1]
    exact nextByte_cursor cbuf _ c0

theorem rdStart_valid (cbuf : Memory Byte) (base size : Word) : (rdStart cbuf base size).valid = true := by
  unfold rdStart
  simp only
  rw [(nextByte_fields cbuf _).2.2.2.2.2.1, (nextByte_fields cbuf _).2.2.2.2.2.1]

/-- A literal of `n` bits is below `2 ^ n`. -/
theorem readLitFrom_lt (cbuf : Memory Byte) (n v : Nat) (r : Rd) :
    (readLitFrom cbuf v n r).1 < (v + 1) * 2 ^ n := by
  induction n generalizing v r with
  | zero => simp [readLitFrom]
  | succ n ih =>
    unfold readLitFrom
    simp only
    refine lt_of_lt_of_le (ih _ _) ?_
    have : boolNat (readBool cbuf 128 r).1 ≤ 1 := by unfold boolNat; split <;> omega
    rw [Nat.pow_succ, Nat.mul_comm (2 ^ n) 2, ← Nat.mul_assoc]
    exact Nat.mul_le_mul_right _ (by omega)

theorem readLit_lt (cbuf : Memory Byte) (n : Nat) (r : Rd) : (readLit cbuf n r).1 < 2 ^ n := by
  have := readLitFrom_lt cbuf n 0 r
  simpa [readLit] using this

end Sys2Proof.Machine
end

