-- ==== Sys2Proof/Laws/Effects.lean ====
section
/-! SUPPORT. What a step can do to the state, said once: every command's effect is a chain of the
changes below, each of a named kind. Invariants and frames are then checked on the kinds. -/

namespace Sys2Proof.Machine

/-- The kinds of change. -/
inductive Tag where
  | res | arg | rd (k : Nat) | rdInit (k : Nat) | rdOff | mb | seg | segClear | cand | nz | nzLeft
  | nzClear | coef | dq | lfp | pix (slot p : Nat) | newSlot (slot : Nat) | prob | save | restore | cr (i : Nat) | topb
  | resize | ask | response | freeRes | reset
  deriving DecidableEq, Repr

/-- One change of a kind. -/
inductive Micro : Tag → State → State → Prop
  | res (s i v) : Micro .res s (s.setRes i v)
  | arg (s i v) : Micro .arg s (s.setArg i v)
  | rd (s k r) (h : RdSteps s.cbuf (s.rdAt k) r) : Micro (.rd k) s (s.setRd k r)
  | rdInit (s k base size) : Micro (.rdInit k) s (s.setRd k (rdStart s.cbuf base size))
  | rdOff (s) : Micro .rdOff s s.invalidateRd
  | mb (s r) : Micro .mb s (s.setCur r)
  | seg (s v) : Micro .seg s (s.setSegment v)
  | segClear (s : State) : Micro .segClear s { s with segmap := [] }
  | cand (s : State) (c) : Micro .cand s { s with cand := c }
  | nz (s : State) (a l) :
      Micro .nz s { s with nzAbove := Memory.put s.nzAbove nzZero s.mbx a, nzLeft := l }
  | nzLeft (s : State) : Micro .nzLeft s { s with nzLeft := nzZero }
  | nzClear (s : State) : Micro .nzClear s { s with nzAbove := [] }
  | coefClear (s) : Micro .coef s s.clearCoef
  | coef (s : State) (l) : Micro .coef s { s with coef := Memory.putAll s.coef 0 l }
  | dq (s : State) (n r) : Micro .dq s { s with dq := Memory.set s.dq n r }
  | lfp (s : State) (r) : Micro .lfp s { s with lfp := Memory.set s.lfp s.mbx r }
  | pix (s slot p l) : Micro (.pix slot p) s (s.setPlane slot p (Memory.setAll (s.plane slot p) l))
  | newSlot (s slot) : Micro (.newSlot slot) s (s.clearSlot slot)
  | prob (s : State) (l) : Micro .prob s { s with prob := Memory.setAll s.prob l }
  | save (s) : Micro .save s (fcProbsave s)
  | restore (s) : Micro .restore s (fcProbrestore s)
  | cr (s i v) (h : s.crRaw i &&& ~~~(crKeep i) = 0 → v &&& ~~~(crKeep i) = 0) :
      Micro (.cr i) s (s.setCr i v)
  | topbOff (s : State) : Micro .topb s { s with topb := { s.topb with valid := false } }
  | topb (s : State) (b r) (y u v : List Byte) :
      Micro .topb s { s with topb := ⟨b, r, y.zipIdx.map fun e => (e.2, e.1),
        u.zipIdx.map fun e => (e.2, e.1), v.zipIdx.map fun e => (e.2, e.1)⟩ }
  | resize (s) : Micro .resize s s.resize
  | ask (s) : Micro .ask s s.askAllocator.2
  | response (s : State) (r) : Micro .response s { s with response := r }
  | freeRes (s) : Micro .freeRes s s.freeRes
  | reset (s) : Micro .reset s (fcReset s)

/-- A chain of changes of the kinds of a set. -/
def Effects (A : Set Tag) : State → State → Prop :=
  Relation.ReflTransGen fun s t => ∃ a ∈ A, Micro a s t

variable {A B : Set Tag} {s t u : State}

theorem Effects.refl (A : Set Tag) (s : State) : Effects A s s := Relation.ReflTransGen.refl

theorem Effects.trans (h : Effects A s t) (g : Effects A t u) : Effects A s u :=
  Relation.ReflTransGen.trans h g

theorem Effects.mono (hAB : A ⊆ B) (h : Effects A s t) : Effects B s t :=
  Relation.ReflTransGen.mono (fun _ _ ⟨a, ha, hm⟩ => ⟨a, hAB ha, hm⟩) _ _ h

theorem Effects.one {a : Tag} (ha : a ∈ A) (h : Micro a s t) : Effects A s t :=
  Relation.ReflTransGen.single ⟨a, ha, h⟩

theorem Effects.then {a : Tag} (h : Effects A s t) (ha : a ∈ A) (g : Micro a t u) : Effects A s u :=
  h.trans (.one ha g)

/-- What every change of the kinds keeps, the chain keeps. -/
theorem Effects.keeps {P : State → Prop} (hP : ∀ a ∈ A, ∀ s t, Micro a s t → P s → P t)
    (h : Effects A s t) (hs : P s) : P t := by
  induction h with
  | refl => exact hs
  | tail _ g ih =>
    obtain ⟨a, ha, hm⟩ := g
    exact hP a ha _ _ hm ih

/-- What no change of the kinds touches is equal before and after. -/
theorem Effects.same {β : Type} (f : State → β) (hf : ∀ a ∈ A, ∀ s t, Micro a s t → f t = f s)
    (h : Effects A s t) : f t = f s := by
  refine Effects.keeps (P := fun x => f x = f s) (fun a ha x y hm hx => ?_) h rfl
  rw [hf a ha x y hm, hx]

theorem foldlM_effects {α : Type} {f : State → α → Res State}
    (hf : ∀ s a t, f s a = .ok t → Effects A s t) {l : List α} (h : l.foldlM f s = .ok t) :
    Effects A s t :=
  foldlM_keeps (P := fun x => Effects A s x) (fun x a y hx hy => hx.trans (hf x a y hy)) (.refl A s) h

theorem foldl_effects {α : Type} {f : State → α → State} (hf : ∀ s a, Effects A s (f s a)) (l : List α)
    (s : State) : Effects A s (l.foldl f s) := by
  induction l generalizing s with
  | nil => exact .refl A s
  | cons a l ih => exact (hf s a).trans (ih _)

theorem Micro.ofCrField (s : State) {i lo len : Nat} (v : Nat)
    (h : fieldMask lo len &&& ~~~(crKeep i) = 0) : Micro (.cr i) s (s.setCrField i lo len v) :=
  .cr s i _ fun hs => setField_clean v hs h

theorem Micro.ofBool (s : State) (k : Nat) (p : Byte) : Micro (.rd k) s (s.getBool k p).2 :=
  .rd s k _ (RdSteps.bool _ _ _)

theorem Micro.ofLit (s : State) (k n : Nat) : Micro (.rd k) s (s.getLit k n).2 :=
  .rd s k _ (readLit_steps _ _ _)

theorem Micro.ofSlit (s : State) (k n : Nat) : Micro (.rd k) s (s.getSlit k n).2 :=
  .rd s k _ (readSlit_steps _ _ _)

theorem Micro.ofTree {k start v : Nat} {T : List Int} {P : Nat → Res Byte}
    (h : s.getTree k T P start = .ok (v, t)) : Micro (.rd k) s t := by
  simp only [State.getTree, Res.bind_ok, Except.ok.injEq, Prod.mk.injEq] at h
  obtain ⟨⟨v', r⟩, h1, -, rfl⟩ := h
  exact .rd s k r (readTree_steps h1)

theorem Micro.ofBoolAt {k : Nat} {p : Res Byte} {b : Bool} (h : s.getBoolAt k p = .ok (b, t)) :
    Micro (.rd k) s t := by
  simp only [State.getBoolAt, Res.bind_ok, Except.ok.injEq] at h
  obtain ⟨q, -, h⟩ := h
  have : t = (s.getBool k q).2 := by rw [h]
  exact this ▸ .ofBool s k q

theorem Micro.ofProb (s : State) (i : Nat) (v : Byte) : Micro .prob s (s.setProb i v) :=
  .prob s [(i, v)]

theorem Micro.ofCoef (s : State) (b i : Nat) (v : Int) : Micro .coef s (s.setCoef b i v) :=
  .coef s [(coefKey b i, v)]

theorem Micro.ofNz (s : State) (b : Nat) (z : Bool) : Micro .nz s (s.setNz b z) := .nz s _ _

theorem Micro.ofBlock (s : State) (n p x0 y0 w h : Nat) (f : Nat → Nat → Byte) :
    Micro (.pix n p) s (s.writeBlock n p x0 y0 w h f) := .pix s n p _

/-! ## MD and MP -/

/-- The kinds of change of the mode decoder and the motion predictor. -/
def tagsMd : Set Tag := { .rd 0, .mb, .seg, .cand, .res }

theorem mpNear_effects (s : State) : Effects tagsMd s (mpNear s) := by
  unfold mpNear
  exact (((((Effects.one (by simp [tagsMd]) (.cand s _)).then (by simp [tagsMd]) (.res _ 0 _)).then
    (by simp [tagsMd]) (.res _ 1 _)).then (by simp [tagsMd]) (.res _ 2 _)).then (by simp [tagsMd])
      (.res _ 3 _))

theorem mpMode_effects (h : mpMode s = .ok t) : Effects tagsMd s t := by
  simp only [mpMode, Res.bind_ok, Except.ok.injEq] at h
  obtain ⟨⟨v, w⟩, h1, rfl⟩ := h
  exact ((Effects.one (by simp [tagsMd]) (.ofTree h1)).then (by simp [tagsMd]) (.mb w _)).then
    (by simp [tagsMd]) (.res _ 0 _)

theorem mvBits_effects {p : Nat → Res Byte} {l : List Nat} {a b : Nat}
    (h : s.mvBits p l a = .ok (b, t)) : Effects {.rd 0} s t := by
  induction l generalizing s a with
  | nil => simp only [State.mvBits, Except.ok.injEq, Prod.mk.injEq] at h; exact h.2 ▸ .refl _ s
  | cons i l ih =>
    simp only [State.mvBits, Res.bind_ok] at h
    obtain ⟨⟨c, w⟩, h1, h2⟩ := h
    exact (Effects.one (Set.mem_singleton _) (.ofBoolAt h1)).trans (ih h2)

theorem mvLong_effects {p : Nat → Res Byte} {b : Nat} (h : s.mvLong p = .ok (b, t)) :
    Effects {.rd 0} s t := by
  simp only [State.mvLong, Res.bind_ok] at h
  obtain ⟨⟨a, w⟩, h1, h⟩ := h
  split at h
  · simp only [Except.ok.injEq, Prod.mk.injEq] at h
    exact h.2 ▸ mvBits_effects h1
  · simp only [Res.bind_ok, Except.ok.injEq, Prod.mk.injEq] at h
    obtain ⟨⟨c, x⟩, h2, -, rfl⟩ := h
    exact (mvBits_effects h1).then (Set.mem_singleton _) (.ofBoolAt h2)

theorem mvMagnitude_effects {p : Nat → Res Byte} {b : Nat} (h : s.mvMagnitude p = .ok (b, t)) :
    Effects {.rd 0} s t := by
  simp only [State.mvMagnitude, Res.bind_ok] at h
  obtain ⟨⟨a, w⟩, h1, h⟩ := h
  split at h
  · exact (Effects.one (Set.mem_singleton _) (.ofBoolAt h1)).trans (mvLong_effects h)
  · exact (Effects.one (Set.mem_singleton _) (.ofBoolAt h1)).then (Set.mem_singleton _) (.ofTree h)

theorem mvComponent_effects {p : Nat → Res Byte} {b : Int} (h : s.mvComponent p = .ok (b, t)) :
    Effects {.rd 0} s t := by
  simp only [State.mvComponent, Res.bind_ok] at h
  obtain ⟨⟨a, w⟩, h1, h⟩ := h
  split at h
  · simp only [Except.ok.injEq, Prod.mk.injEq] at h
    exact h.2 ▸ mvMagnitude_effects h1
  · simp only [Res.bind_ok, Except.ok.injEq, Prod.mk.injEq] at h
    obtain ⟨⟨c, x⟩, h2, -, rfl⟩ := h
    exact (mvMagnitude_effects h1).then (Set.mem_singleton _) (.ofBoolAt h2)

theorem readMv_effects {d : Mv} (h : s.readMv = .ok (d, t)) : Effects {.rd 0} s t := by
  simp only [State.readMv, Res.bind_ok, Except.ok.injEq, Prod.mk.injEq] at h
  obtain ⟨⟨a, w⟩, h1, ⟨b, x⟩, h2, -, rfl⟩ := h
  exact (mvComponent_effects h1).trans (mvComponent_effects h2)

theorem readMv_effects_md {d : Mv} (h : s.readMv = .ok (d, t)) : Effects tagsMd s t :=
  (readMv_effects h).mono (by simp [tagsMd])

theorem mpReadmv_effects (h : mpReadmv s = .ok t) : Effects tagsMd s t := by
  simp only [mpReadmv, Res.bind_ok, Except.ok.injEq] at h
  obtain ⟨⟨d, w⟩, h1, rfl⟩ := h
  exact (readMv_effects_md h1).then (by simp [tagsMd]) (.res _ 0 _)

theorem readSub_effects {l a v : Mv} (h : s.readSub l a = .ok (v, t)) : Effects {.rd 0} s t := by
  simp only [State.readSub, Res.bind_ok] at h
  obtain ⟨⟨c, w⟩, h1, h⟩ := h
  have e1 : Effects {.rd 0} s w := .one (Set.mem_singleton _) (.ofTree h1)
  split at h
  · simp only [Except.ok.injEq, Prod.mk.injEq] at h; exact h.2 ▸ e1
  · split at h
    · simp only [Except.ok.injEq, Prod.mk.injEq] at h; exact h.2 ▸ e1
    · split at h
      · simp only [Except.ok.injEq, Prod.mk.injEq] at h; exact h.2 ▸ e1
      · simp only [Res.bind_ok, Except.ok.injEq, Prod.mk.injEq] at h
        obtain ⟨⟨d, x⟩, h2, -, rfl⟩ := h
        exact e1.trans (readMv_effects h2)

theorem splitStep_effects {shape : Nat} {p : Nat × Nat} (h : splitStep shape s p = .ok t) :
    Effects tagsMd s t := by
  simp only [splitStep, Res.bind_ok, Except.ok.injEq] at h
  obtain ⟨⟨v, w⟩, h1, rfl⟩ := h
  exact ((readSub_effects h1).mono (by simp [tagsMd])).then (by simp [tagsMd]) (.mb w _)

theorem mpSplit_effects (h : mpSplit s = .ok t) : Effects tagsMd s t := by
  simp only [mpSplit, Res.bind_ok, Except.ok.injEq] at h
  obtain ⟨⟨v, w⟩, h1, x, h2, rfl⟩ := h
  exact ((((Effects.one (by simp [tagsMd]) (.ofTree h1)).then (by simp [tagsMd]) (.mb w _)).trans
    (foldlM_effects (fun _ _ _ h => splitStep_effects h) h2)).then (by simp [tagsMd]) (.mb x _)).then
      (by simp [tagsMd]) (.res _ 0 _)

theorem setWholeMv_effects (s : State) (v : Mv) : Effects tagsMd s (s.setWholeMv v) :=
  .one (by simp [tagsMd]) (.mb s _)

theorem mpVector_effects (h : mpVector s = .ok t) : Effects tagsMd s t := by
  unfold mpVector at h
  split at h
  case h_3 =>
    simp only [Res.bind_ok, Except.ok.injEq] at h
    obtain ⟨⟨d, w⟩, h1, rfl⟩ := h
    exact ((readMv_effects_md h1).then (by simp [tagsMd]) (.res _ 0 _)).trans (setWholeMv_effects _ _)
  case h_4 => exact mpSplit_effects h
  all_goals simp only [Except.ok.injEq] at h; exact h ▸ setWholeMv_effects _ _

theorem mpMb_effects (h : mpMb s = .ok t) : Effects tagsMd s t := by
  simp only [mpMb, Res.bind_ok, Except.ok.injEq] at h
  obtain ⟨w, h1, x, h2, rfl⟩ := h
  exact (((mpNear_effects s).trans (mpMode_effects h1)).trans (mpVector_effects h2)).then
    (by simp [tagsMd]) (.res _ 0 _) |>.then (by simp [tagsMd]) (.res _ 1 _)

theorem readSegid_effects (h : readSegid s = .ok t) : Effects tagsMd s t := by
  unfold readSegid at h
  split at h
  · simp only [Res.bind_ok, Except.ok.injEq] at h
    obtain ⟨⟨v, x⟩, h2, rfl⟩ := h
    exact (Effects.one (by simp [tagsMd]) (.ofTree h2)).then (by simp [tagsMd]) (.seg x _)
  · simp only [Except.ok.injEq] at h
    exact h ▸ .refl _ s

theorem mdSegid_effects (h : mdSegid s = .ok t) : Effects tagsMd s t := by
  simp only [mdSegid, Res.bind_ok, Except.ok.injEq] at h
  obtain ⟨w, h1, rfl⟩ := h
  exact (readSegid_effects h1).then (by simp [tagsMd]) (.res w 0 _)

theorem readSkip_effects {b : Bool} (h : readSkip s = .ok (b, t)) : Effects {.rd 0} s t := by
  unfold readSkip at h
  split at h
  · exact .one (Set.mem_singleton _) (.ofBoolAt h)
  · simp only [Except.ok.injEq, Prod.mk.injEq] at h
    exact h.2 ▸ .refl _ s

theorem mdSkip_effects (h : mdSkip s = .ok t) : Effects tagsMd s t := by
  simp only [mdSkip, Res.bind_ok, Except.ok.injEq] at h
  obtain ⟨⟨b, w⟩, h1, rfl⟩ := h
  exact (((readSkip_effects h1).mono (by simp [tagsMd])).then (by simp [tagsMd]) (.mb w _)).then
    (by simp [tagsMd]) (.res _ 0 _)

/-- A tree, a record and a result: the shape of most MD commands. -/
theorem treeMbRes_effects {T : List Int} {P : Nat → Res Byte} {start v : Nat}
    (h : s.getTree 0 T P start = .ok (v, t)) (r : MbRec) (x : Word) :
    Effects tagsMd s ((t.setCur r).setRes 0 x) :=
  ((Effects.one (by simp [tagsMd]) (.ofTree h)).then (by simp [tagsMd]) (.mb t r)).then
    (by simp [tagsMd]) (.res _ 0 x)

theorem mdYmodeKf_effects (h : mdYmodeKf s = .ok t) : Effects tagsMd s t := by
  simp only [mdYmodeKf, Res.bind_ok, Except.ok.injEq] at h
  obtain ⟨⟨v, w⟩, h1, rfl⟩ := h
  exact treeMbRes_effects h1 _ _

theorem mdYmodeIf_effects (h : mdYmodeIf s = .ok t) : Effects tagsMd s t := by
  simp only [mdYmodeIf, Res.bind_ok, Except.ok.injEq] at h
  obtain ⟨⟨v, w⟩, h1, rfl⟩ := h
  exact treeMbRes_effects h1 _ _

theorem bmodeStep_effects {P : State → Nat → Nat → Res Byte} {b : Nat} (h : bmodeStep P s b = .ok t) :
    Effects tagsMd s t := by
  simp only [bmodeStep, Res.bind_ok, Except.ok.injEq] at h
  obtain ⟨⟨v, w⟩, h1, rfl⟩ := h
  exact (Effects.one (by simp [tagsMd]) (.ofTree h1)).then (by simp [tagsMd]) (.mb w _)

theorem mdBmodesKf_effects {T : OpenTables} (h : mdBmodesKf T s = .ok t) : Effects tagsMd s t :=
  foldlM_effects (fun _ _ _ h => bmodeStep_effects h) h

theorem mdBmodesIf_effects (h : mdBmodesIf s = .ok t) : Effects tagsMd s t :=
  foldlM_effects (fun _ _ _ h => bmodeStep_effects h) h

theorem mdUvmode_effects {P : Nat → Res Byte} (h : mdUvmode P s = .ok t) : Effects tagsMd s t := by
  simp only [mdUvmode, Res.bind_ok, Except.ok.injEq] at h
  obtain ⟨⟨v, w⟩, h1, rfl⟩ := h
  exact treeMbRes_effects h1 _ _

theorem readRef_effects {r : RefTag} (h : s.readRef = .ok (r, t)) : Effects {.rd 0} s t := by
  simp only [State.readRef, Res.bind_ok] at h
  obtain ⟨⟨b, w⟩, h1, h⟩ := h
  have e1 : Effects {.rd 0} s w := .one (Set.mem_singleton _) (.ofBoolAt h1)
  split at h
  · simp only [Except.ok.injEq, Prod.mk.injEq] at h; exact h.2 ▸ e1
  · simp only [Res.bind_ok] at h
    obtain ⟨⟨b2, x⟩, h2, h⟩ := h
    split at h
    · simp only [Except.ok.injEq, Prod.mk.injEq] at h; exact h.2 ▸ e1.then (Set.mem_singleton _) (.ofBoolAt h2)
    · simp only [Res.bind_ok, Except.ok.injEq, Prod.mk.injEq] at h
      obtain ⟨⟨b3, y⟩, h3, -, rfl⟩ := h
      exact (e1.then (Set.mem_singleton _) (.ofBoolAt h2)).then (Set.mem_singleton _) (.ofBoolAt h3)

theorem mdRef_effects (h : mdRef s = .ok t) : Effects tagsMd s t := by
  simp only [mdRef, Res.bind_ok, Except.ok.injEq] at h
  obtain ⟨⟨r, w⟩, h1, rfl⟩ := h
  exact (((readRef_effects h1).mono (by simp [tagsMd])).then (by simp [tagsMd]) (.mb w _)).then
    (by simp [tagsMd]) (.res _ 0 _)

theorem mdSubKf_effects {T : OpenTables} (h : mdSubKf T s = .ok t) : Effects tagsMd s t := by
  unfold mdSubKf at h
  split at h
  · exact mdBmodesKf_effects h
  · simp only [Except.ok.injEq] at h; exact h ▸ .refl _ s

theorem mdIntraKf_effects {T : OpenTables} (h : mdIntraKf T s = .ok t) : Effects tagsMd s t := by
  simp only [mdIntraKf, Res.bind_ok] at h
  obtain ⟨w, h1, x, h2, h3⟩ := h
  exact ((mdYmodeKf_effects h1).trans (mdSubKf_effects h2)).trans (mdUvmode_effects h3)

theorem mdSubIf_effects (h : mdSubIf s = .ok t) : Effects tagsMd s t := by
  unfold mdSubIf at h
  split at h
  · exact mdBmodesIf_effects h
  · simp only [Except.ok.injEq] at h; exact h ▸ .refl _ s

theorem mdIntraIf_effects (h : mdIntraIf s = .ok t) : Effects tagsMd s t := by
  simp only [mdIntraIf, Res.bind_ok] at h
  obtain ⟨w, h1, x, h2, h3⟩ := h
  exact ((mdYmodeIf_effects h1).trans (mdSubIf_effects h2)).trans (mdUvmode_effects h3)

theorem mdInterframe_effects (h : mdInterframe s = .ok t) : Effects tagsMd s t := by
  simp only [mdInterframe, Res.bind_ok] at h
  obtain ⟨w, h1, h2⟩ := h
  refine (mdRef_effects h1).trans ?_
  split at h2
  · exact mdIntraIf_effects h2
  · exact mpMb_effects h2

theorem mdModes_effects {T : OpenTables} (h : mdModes T s = .ok t) : Effects tagsMd s t := by
  unfold mdModes at h
  split at h
  · exact mdIntraKf_effects h
  · exact mdInterframe_effects h

theorem mdMb_effects {T : OpenTables} (h : mdMb T s = .ok t) : Effects tagsMd s t := by
  simp only [mdMb, Res.bind_ok, Except.ok.injEq] at h
  obtain ⟨w, h1, x, h2, y, h3, rfl⟩ := h
  exact ((((((mdSegid_effects h1).trans (mdSkip_effects h2)).trans (mdModes_effects h3)).then
    (by simp [tagsMd]) (.res y 0 _)).then (by simp [tagsMd]) (.res _ 1 _)).then (by simp [tagsMd])
      (.res _ 2 _)).then (by simp [tagsMd]) (.res _ 3 _)

/-! ## CD -/

/-- The kinds of change of the coefficient decoder on instance `k`. -/
def tagsCd (k : Nat) : Set Tag := { .rd k, .mb, .nz, .coef, .res }

theorem extraBits_effects {k e : Nat} {l : List Byte} (s : State) :
    Effects {.rd k} s (s.extraBits k l e).2 := by
  induction l generalizing s e with
  | nil => exact .refl _ s
  | cons q l ih => exact (Effects.one (Set.mem_singleton _) (.ofBool s k q)).trans (ih _)

theorem tokenMagnitude_effects {k tok : Nat} (s : State) :
    Effects {.rd k} s (s.tokenMagnitude k tok).2 := by
  unfold State.tokenMagnitude
  split
  · exact .refl _ s
  · exact extraBits_effects s

theorem storeToken_effects {ty b k i tok m : Nat} (h : s.storeToken ty b k i tok = .ok (m, t)) :
    Effects (tagsCd k) s t := by
  simp only [State.storeToken, Res.bind_ok, Except.ok.injEq, Prod.mk.injEq] at h
  obtain ⟨d, -, -, rfl⟩ := h
  exact (((tokenMagnitude_effects s).mono (by simp [tagsCd])).then (by simp [tagsCd])
    (.ofBool _ k 128)).then (by simp [tagsCd]) (.ofCoef _ _ _ _)

theorem cdLoop_effects {ty b k n i ctx start j : Nat} (h : cdLoop ty b k n s i ctx start = .ok (j, t)) :
    Effects (tagsCd k) s t := by
  induction n generalizing s i ctx start with
  | zero => simp only [cdLoop, Except.ok.injEq, Prod.mk.injEq] at h; exact h.2 ▸ .refl _ s
  | succ n ih =>
    unfold cdLoop at h
    split at h
    · simp only [Except.ok.injEq, Prod.mk.injEq] at h; exact h.2 ▸ .refl _ s
    · simp only [Res.bind_ok] at h
      obtain ⟨⟨tok, w⟩, h1, h⟩ := h
      have e1 : Effects (tagsCd k) s w := .one (by simp [tagsCd]) (.ofTree h1)
      split at h
      · simp only [Except.ok.injEq, Prod.mk.injEq] at h; exact h.2 ▸ e1
      · split at h
        · exact e1.trans (ih h)
        · simp only [Res.bind_ok] at h
          obtain ⟨⟨m, x⟩, h2, h3⟩ := h
          exact (e1.trans (storeToken_effects h2)).trans (ih h3)

theorem cdTokens_effects {ty b k j : Nat} (h : cdTokens ty b k s = .ok (j, t)) :
    Effects (tagsCd k) s t := by
  simp only [cdTokens, Res.bind_ok, Except.ok.injEq, Prod.mk.injEq] at h
  obtain ⟨⟨i, w⟩, h1, -, rfl⟩ := h
  exact (cdLoop_effects h1).then (by simp [tagsCd]) (.ofNz w _ _)

theorem cdBlock_effects {ty b k : Nat} (h : cdBlock ty b k s = .ok t) : Effects (tagsCd k) s t := by
  simp only [cdBlock, Res.bind_ok, Except.ok.injEq] at h
  obtain ⟨⟨i, w⟩, h1, rfl⟩ := h
  exact ((cdTokens_effects h1).then (by simp [tagsCd]) (.res _ 0 _)).then (by simp [tagsCd]) (.res _ 1 _)

theorem cdMb_effects {k : Nat} (h : cdMb k s = .ok t) : Effects (tagsCd k) s t := by
  simp only [cdMb, Res.bind_ok, Except.ok.injEq] at h
  obtain ⟨⟨any, w⟩, h1, rfl⟩ := h
  have e1 : Effects (tagsCd k) s w := by
    refine (Effects.one (by simp [tagsCd]) (.coefClear s)).trans
      (foldlM_keeps (P := fun x : Bool × State => Effects (tagsCd k) s.clearCoef x.2) ?_ (.refl _ _) h1)
    intro x tb y hx hy
    simp only [cdMbStep, Res.bind_ok, Except.ok.injEq] at hy
    obtain ⟨z, h2, rfl⟩ := hy
    exact hx.trans (cdBlock_effects h2)
  refine Effects.then ?_ (by simp [tagsCd]) (.res _ 0 _)
  split
  · exact e1
  · exact e1.then (by simp [tagsCd]) (.mb w _)

theorem cdSkipmb_effects (s : State) (k : Nat) : Effects (tagsCd k) s (cdSkipmb s) := by
  unfold cdSkipmb
  exact ((Effects.one (by simp [tagsCd]) (.coefClear s)).then (by simp [tagsCd])
    (.nz s.clearCoef _ _)).then (by simp [tagsCd]) (.res _ 0 0)

/-! ## IT, IP, MC, LF -/

/-- The kinds of change of the pixel units in slot `slot`. -/
def tagsPix (slot : Nat) : Set Tag := { a | a = .coef ∨ ∃ p, p < 3 ∧ a = .pix slot p }

/-- Pixels of the three planes of a slot, and nothing else. -/
def tagsPlane (slot : Nat) : Set Tag := { a | ∃ p, p < 3 ∧ a = .pix slot p }

theorem tagsPlane_sub (slot : Nat) : tagsPlane slot ⊆ tagsPix slot := fun _ h => .inr h

theorem mem_tagsPlane {slot p : Nat} (hp : p < 3) : Tag.pix slot p ∈ tagsPlane slot := ⟨p, hp, rfl⟩

theorem itWht_effects (s : State) : Effects {.coef} s (itWht s) := .one (Set.mem_singleton _) (.coef s _)

theorem itIdctAdd_effects {slot p b : Nat} (hp : p < 3) (h : itIdctAdd slot p b s = .ok t) :
    Effects (tagsPlane slot) s t := by
  simp only [itIdctAdd, Res.bind_ok, Except.ok.injEq] at h
  obtain ⟨px, -, rfl⟩ := h
  exact .one (mem_tagsPlane hp) (.ofBlock s _ _ _ _ _ _ _)

theorem residualBlocks_plane {m : MbMode} {pb : Nat × Nat} (h : pb ∈ residualBlocks m) : pb.1 < 3 := by
  simp only [residualBlocks, List.mem_append, List.mem_map] at h
  rcases h with (h | ⟨b, -, rfl⟩) | ⟨b, -, rfl⟩
  · split at h
    · simp at h
    · obtain ⟨b, -, rfl⟩ := List.mem_map.1 h; simp
  · simp
  · simp

theorem foldlM_effects_mem {α : Type} {f : State → α → Res State} {l : List α}
    (hf : ∀ s, ∀ a ∈ l, ∀ t, f s a = .ok t → Effects A s t) (h : l.foldlM f s = .ok t) :
    Effects A s t := by
  induction l generalizing s with
  | nil => simp only [List.foldlM_nil, pure, Except.pure, Except.ok.injEq] at h; exact h ▸ .refl A s
  | cons a l ih =>
    rw [List.foldlM_cons, Res.bind_ok] at h
    obtain ⟨u, h1, h2⟩ := h
    exact (hf s a (by simp) u h1).trans (ih (fun s b hb => hf s b (by simp [hb])) h2)

theorem itMb_effects {slot : Nat} (h : itMb slot s = .ok t) : Effects (tagsPix slot) s t := by
  unfold itMb at h
  have e2 := foldlM_effects_mem (A := tagsPix slot)
    (fun x pb hpb y hy => (itIdctAdd_effects (residualBlocks_plane hpb) hy).mono (tagsPlane_sub slot)) h
  refine Effects.trans ?_ e2
  split
  · exact .one (.inl rfl) (.coef s _)
  · exact .refl _ s

theorem ipFill_effects {m : UvMode} {slot p : Nat} (hp : p < 3) (h : ipFill m slot p s = .ok t) :
    Effects (tagsPlane slot) s t := by
  simp only [ipFill, Res.bind_ok, Except.ok.injEq] at h
  obtain ⟨f, -, rfl⟩ := h
  exact .one (mem_tagsPlane hp) (.ofBlock s _ _ _ _ _ _ _)

theorem ipUv8_effects {m : UvMode} {slot : Nat} (h : ipUv8 m slot s = .ok t) :
    Effects (tagsPlane slot) s t := by
  simp only [ipUv8, Res.bind_ok] at h
  obtain ⟨w, h1, h2⟩ := h
  exact (ipFill_effects (by omega) h1).trans (ipFill_effects (by omega) h2)

theorem ipY4_effects {m : BMode} {slot b : Nat} (h : ipY4 m slot b s = .ok t) :
    Effects (tagsPlane slot) s t := by
  simp only [ipY4, Res.bind_ok, Except.ok.injEq] at h
  obtain ⟨f, -, rfl⟩ := h
  exact .one (mem_tagsPlane (by omega)) (.ofBlock s _ _ _ _ _ _ _)

theorem ipSubStep_effects {slot b : Nat} (h : ipSubStep slot s b = .ok t) :
    Effects (tagsPlane slot) s t := by
  simp only [ipSubStep, Res.bind_ok] at h
  obtain ⟨w, h1, h2⟩ := h
  exact (ipY4_effects h1).trans (itIdctAdd_effects (by omega) h2)

theorem ipLuma_effects {slot : Nat} (h : ipLuma slot s = .ok t) : Effects (tagsPlane slot) s t := by
  unfold ipLuma at h
  split at h
  all_goals first
    | exact ipFill_effects (by omega) h
    | exact foldlM_effects (fun _ _ _ h => ipSubStep_effects h) h
    | cases h

theorem ipMb_effects {slot : Nat} (h : ipMb slot s = .ok t) : Effects (tagsPlane slot) s t := by
  simp only [ipMb, Res.bind_ok] at h
  obtain ⟨w, h1, h2⟩ := h
  exact (ipLuma_effects h1).trans (ipUv8_effects h2)

theorem mcBlock_effects {src dst p : Nat} (hp : p < 3) {a : SubPos} {b : Block}
    (h : mcBlock src dst p a b s = .ok t) : Effects (tagsPlane dst) s t := by
  simp only [mcBlock, Res.bind_ok, Except.ok.injEq] at h
  obtain ⟨px, -, rfl⟩ := h
  exact .one (mem_tagsPlane hp) (.ofBlock s _ _ _ _ _ _ _)

theorem mcMb_effects {src dst : Nat} (h : mcMb src dst s = .ok t) : Effects (tagsPlane dst) s t := by
  unfold mcMb at h
  split at h
  · simp only [Res.bind_ok] at h
    obtain ⟨w, h1, h2⟩ := h
    refine (foldlM_effects (fun _ _ _ h => mcBlock_effects (by omega) h) h1).trans
      (foldlM_effects (fun x j y hy => ?_) h2)
    simp only [mcSplitChroma, Res.bind_ok] at hy
    obtain ⟨z, h3, h4⟩ := hy
    exact (mcBlock_effects (by omega) h3).trans (mcBlock_effects (by omega) h4)
  · simp only [mcWhole, Res.bind_ok] at h
    obtain ⟨w, h1, x, h2, h3⟩ := h
    exact ((mcBlock_effects (by omega) h1).trans (mcBlock_effects (by omega) h2)).trans
      (mcBlock_effects (by omega) h3)

theorem lfEdge_effects {slot : Nat} {e : Edge} (hp : e.p < 3) (h : lfEdge slot s e = .ok t) :
    Effects (tagsPlane slot) s t := by
  refine foldlM_effects (fun x k y hy => ?_) h
  simp only [edgeStep, Res.bind_ok, Except.ok.injEq] at hy
  obtain ⟨px, -, rfl⟩ := hy
  exact .one (mem_tagsPlane hp) (.pix x slot e.p _)

theorem lfPlanes_lt {simple : Bool} {p : Nat} (h : p ∈ lfPlanes simple) : p < 3 := by
  cases simple <;> simp [lfPlanes] at h <;> omega

theorem mbEdges_plane {simple : Bool} {r : LfpRec} {mx my : Nat} {e : Edge}
    (h : e ∈ mbEdges simple r mx my) : e.p < 3 := by
  have ho : ∀ dir, e ∈ outerEdges simple r dir mx my → e.p < 3 := by
    intro dir he
    obtain ⟨p, hp, rfl⟩ := List.mem_map.1 he
    exact lfPlanes_lt hp
  have hi : ∀ dir, e ∈ interiorEdges simple r dir mx my → e.p < 3 := by
    intro dir he
    unfold interiorEdges at he
    split at he
    · obtain ⟨p, hp, he⟩ := List.mem_flatMap.1 he
      obtain ⟨o, -, rfl⟩ := List.mem_map.1 he
      exact lfPlanes_lt hp
    · simp at he
  simp only [mbEdges, List.mem_append] at h
  rcases h with (h | h) | (h | h)
  · split at h
    · exact ho _ h
    · simp at h
  · exact hi _ h
  · split at h
    · exact ho _ h
    · simp at h
  · exact hi _ h

theorem lfMbAt_effects {slot my mx : Nat} (h : lfMbAt slot my s mx = .ok t) :
    Effects (tagsPlane slot) s t := by
  simp only [lfMbAt, Res.bind_ok] at h
  obtain ⟨r, -, h⟩ := h
  split at h
  · simp only [Except.ok.injEq] at h; exact h ▸ .refl _ s
  · exact foldlM_effects_mem (fun x e he y hy => lfEdge_effects (mbEdges_plane he) hy) h

theorem lfRow_effects {slot : Nat} (h : lfRow slot s = .ok t) : Effects (tagsPlane slot) s t :=
  foldlM_effects (fun _ _ _ h => lfMbAt_effects h) h

theorem lfParams_effects (s : State) : Effects {.lfp, .res} s (lfParams s) := by
  unfold lfParams
  exact (Effects.one (by simp) (.lfp s _)).then (by simp) (.res _ 0 _)

end Sys2Proof.Machine
end

