-- ==== Sys2Proof/Laws/FrameEffects.lean ====
section
/-! SUPPORT. The kinds of change of frame control, of each command and of a step. -/

namespace Sys2Proof.Machine

variable {A B : Set Tag} {s t u : State}

/-! ## The header -/

/-- The kinds of change of the header's fields. -/
def tagsFields : Set Tag :=
  { a | a = .rd 0 ∨ a = .prob ∨ a = .save ∨ a = .segClear ∨
    ∃ i, i ≠ 16 ∧ i ≠ 17 ∧ i ≠ 18 ∧ i ≠ 19 ∧ a = .cr i }

theorem mem_fields_rd : Tag.rd 0 ∈ tagsFields := .inl rfl
theorem mem_fields_prob : Tag.prob ∈ tagsFields := .inr (.inl rfl)
theorem mem_fields_save : Tag.save ∈ tagsFields := .inr (.inr (.inl rfl))
theorem mem_fields_segClear : Tag.segClear ∈ tagsFields := .inr (.inr (.inr (.inl rfl)))
theorem mem_fields_cr {i : Nat} (h : i ≠ 16 ∧ i ≠ 17 ∧ i ≠ 18 ∧ i ≠ 19) : Tag.cr i ∈ tagsFields :=
  .inr (.inr (.inr (.inr ⟨i, h.1, h.2.1, h.2.2.1, h.2.2.2, rfl⟩)))

theorem fields_flag (s : State) : Effects tagsFields s (hFlag s).2 := .one mem_fields_rd (.ofBool s 0 128)

theorem fields_lit (n : Nat) (s : State) : Effects tagsFields s (hLit n s).2 :=
  .one mem_fields_rd (.ofLit s 0 n)

theorem fields_cr (s : State) {i lo len : Nat} (v : Nat) (hi : i ≠ 16 ∧ i ≠ 17 ∧ i ≠ 18 ∧ i ≠ 19)
    (h : fieldMask lo len &&& ~~~(crKeep i) = 0) : Effects tagsFields s (s.setCrField i lo len v) :=
  .one (mem_fields_cr hi) (.ofCrField s v h)

theorem fields_setCr (s : State) {i : Nat} (v : Word) (hi : i ≠ 16 ∧ i ≠ 17 ∧ i ≠ 18 ∧ i ≠ 19)
    (h : v &&& ~~~(crKeep i) = 0) : Effects tagsFields s (s.setCr i v) :=
  .one (mem_fields_cr hi) (.cr s i v fun _ => h)

theorem hOptSigned_effects (n : Nat) (s : State) : Effects tagsFields s (hOptSigned n s).2 := by
  unfold hOptSigned
  simp only
  split
  · exact (fields_flag s).trans (.one mem_fields_rd (.ofSlit _ 0 n))
  · exact fields_flag s

theorem hLitTo_effects {reg lo n : Nat} (s : State) (hi : reg ≠ 16 ∧ reg ≠ 17 ∧ reg ≠ 18 ∧ reg ≠ 19)
    (h : fieldMask lo n &&& ~~~(crKeep reg) = 0) : Effects tagsFields s (hLitTo reg lo n s) :=
  (fields_lit n s).trans (fields_cr _ _ hi h)

theorem hOptByte_effects {reg i n : Nat} (s : State) (hi : reg ≠ 16 ∧ reg ≠ 17 ∧ reg ≠ 18 ∧ reg ≠ 19)
    (h : fieldMask (8 * i) 8 &&& ~~~(crKeep reg) = 0) : Effects tagsFields s (hOptByte reg i n s) :=
  (hOptSigned_effects n s).trans (fields_cr _ _ hi h)

theorem hKeepByte_effects {reg i n : Nat} (s : State)
    (hi : reg ≠ 16 ∧ reg ≠ 17 ∧ reg ≠ 18 ∧ reg ≠ 19)
    (h : fieldMask (8 * i) 8 &&& ~~~(crKeep reg) = 0) : Effects tagsFields s (hKeepByte reg i n s) := by
  unfold hKeepByte
  simp only
  split
  · exact ((fields_flag s).then mem_fields_rd (.ofSlit _ 0 n)).trans (fields_cr _ _ hi h)
  · exact fields_flag s

theorem hProb_effects (i : Nat) (s : State) : Effects tagsFields s (hProb i s) :=
  (fields_lit 8 s).then mem_fields_prob (.ofProb _ i _)

theorem hKeyReset_effects (T : OpenTables) (s : State) : Effects tagsFields s (hKeyReset T s) := by
  unfold hKeyReset
  simp only
  have e : ∀ (w : State), Effects tagsFields w
      { w with segmap := [], prob := Memory.setAll w.prob (tokenEntries T.coefDefault ++ mvcEntries ++ modeEntries) } :=
    fun w => (Effects.one mem_fields_segClear (.segClear w)).then mem_fields_prob (.prob _ _)
  exact (((((((fields_setCr s 0 (by decide) (by decide)).trans (fields_setCr _ 0 (by decide) (by decide))).trans
    (fields_setCr _ 0 (by decide) (by decide))).trans (fields_setCr _ 0 (by decide) (by decide))).trans
    (fields_setCr _ 0 (by decide) (by decide))).trans (fields_cr _ _ (by decide) (by decide))).trans
    (fields_cr _ _ (by decide) (by decide))).trans (e _)

theorem range_effects {n : Nat} {f : State → Nat → State}
    (h : ∀ s i, i < n → Effects A s (f s i)) (s : State) : Effects A s ((List.range n).foldl f s) := by
  have : ∀ (l : List Nat), (∀ i ∈ l, i < n) → ∀ s, Effects A s (l.foldl f s) := by
    intro l
    induction l with
    | nil => exact fun _ s => .refl A s
    | cons a l ih =>
      exact fun hl s => (h s a (hl a (by simp))).trans (ih (fun i hi => hl i (by simp [hi])) _)
  exact this _ (fun i hi => List.mem_range.1 hi) s

/-- Bytes 0 to 3 of the registers that hold four signed bytes. -/
theorem byteMask_clean : ∀ reg ∈ [4, 5, 7, 8, 11], ∀ i < 4, fieldMask (8 * i) 8 &&& ~~~(crKeep reg) = 0 := by
  decide

theorem hSegData_effects (s : State) : Effects tagsFields s (hSegData s) := by
  unfold hSegData
  simp only
  exact (((fields_flag s).trans (fields_cr _ _ (by decide) (by decide))).trans
    (range_effects (fun x i hi => hOptByte_effects x (by decide) (byteMask_clean 4 (by simp) i hi)) _)).trans
    (range_effects (fun x i hi => hOptByte_effects x (by decide) (byteMask_clean 5 (by simp) i hi)) _)

theorem hSegProb_effects (s : State) (i : Nat) : Effects tagsFields s (hSegProb s i) := by
  unfold hSegProb
  simp only
  split
  · exact (fields_flag s).trans (hProb_effects _ _)
  · exact (fields_flag s).then mem_fields_prob (.ofProb _ _ _)

theorem hSegmentation_effects (s : State) : Effects tagsFields s (hSegmentation s) := by
  unfold hSegmentation
  simp only
  have e1 : Effects tagsFields s ((hFlag s).2.setCrField 3 0 1 (boolNat (hFlag s).1)) :=
    (fields_flag s).trans (fields_cr _ _ (by decide) (by decide))
  split
  · have e2 := (((e1.trans (fields_flag _)).trans (fields_flag _)).trans
      (fields_cr _ (i := 3) (lo := 1) (len := 1) (boolNat (hFlag
        ((hFlag s).2.setCrField 3 0 1 (boolNat (hFlag s).1))).1) (by decide) (by decide))).trans
      (fields_cr _ (i := 3) (lo := 2) (len := 1) (boolNat (hFlag (hFlag
        ((hFlag s).2.setCrField 3 0 1 (boolNat (hFlag s).1))).2).1) (by decide) (by decide))
    split <;> split
    · exact (e2.trans (hSegData_effects _)).trans (foldl_effects hSegProb_effects _ _)
    · exact e2.trans (foldl_effects hSegProb_effects _ _)
    · exact e2.trans (hSegData_effects _)
    · exact e2
  · exact e1.trans (fields_cr _ _ (by decide) (by decide))

theorem hDeltas_effects (s : State) : Effects tagsFields s (hDeltas s) := by
  unfold hDeltas
  simp only
  have e1 : Effects tagsFields s ((hFlag s).2.setCrField 6 10 1 (boolNat (hFlag s).1)) :=
    (fields_flag s).trans (fields_cr _ _ (by decide) (by decide))
  split
  · split
    · exact ((e1.trans (fields_flag _)).trans (range_effects (fun x i hi =>
        hKeepByte_effects x (by decide) (byteMask_clean 7 (by simp) i hi)) _)).trans
        (range_effects (fun x i hi =>
          hKeepByte_effects x (by decide) (byteMask_clean 8 (by simp) i hi)) _)
    · exact e1.trans (fields_flag _)
  · exact e1

theorem hQuant_effects (s : State) : Effects tagsFields s (hQuant s) := by
  unfold hQuant
  simp only
  exact ((hLitTo_effects s (by decide) (by decide)).trans (range_effects (fun x i hi =>
    hOptByte_effects x (by decide) (byteMask_clean 11 (by simp) i hi)) _)).trans
    (hOptByte_effects _ (by decide) (by decide))

theorem hRefField_effects {lo : Nat} (f : Bool) (s : State) (h : fieldMask lo 2 &&& ~~~(crKeep 13) = 0) :
    Effects tagsFields s (hRefField lo f s) := by
  unfold hRefField
  simp only
  split
  · exact fields_cr _ _ (by decide) h
  · exact (fields_lit 2 s).trans (fields_cr _ _ (by decide) h)

theorem hRefs_effects (s : State) : Effects tagsFields s (hRefs s) := by
  unfold hRefs
  simp only
  exact (((((fields_flag s).trans (fields_flag _)).trans (hRefField_effects _ _ (by decide))).trans
    (hRefField_effects _ _ (by decide))).trans (hLitTo_effects _ (by decide) (by decide))).trans
    (hLitTo_effects _ (by decide) (by decide))

theorem hCommit_effects (s : State) : Effects tagsFields s (hCommit s) := by
  unfold hCommit
  simp only
  have e1 : Effects tagsFields s ((hFlag s).2.setCrField 13 7 1 (boolNat (hFlag s).1)) :=
    (fields_flag s).trans (fields_cr _ _ (by decide) (by decide))
  split
  · exact e1
  · exact e1.then mem_fields_save (.save _)

theorem hTokens_effects (T : OpenTables) (s : State) : Effects tagsFields s (hTokens T s) := by
  refine foldl_effects (fun x i => ?_) _ s
  unfold hTokenUpdate
  simp only
  split
  · exact (Effects.one mem_fields_rd (.ofBool x 0 _)).trans (hProb_effects _ _)
  · exact .one mem_fields_rd (.ofBool x 0 _)

theorem hSkip_effects (s : State) : Effects tagsFields s (hSkip s) := by
  unfold hSkip
  simp only
  have e1 : Effects tagsFields s ((hFlag s).2.setCrField 14 0 1 (boolNat (hFlag s).1)) :=
    (fields_flag s).trans (fields_cr _ _ (by decide) (by decide))
  split
  · exact e1.trans (hProb_effects _ _)
  · exact e1

theorem hProbRun_effects (base n : Nat) (s : State) : Effects tagsFields s (hProbRun base n s) := by
  unfold hProbRun
  simp only
  split
  · exact (fields_flag s).trans (foldl_effects (fun x i => hProb_effects _ x) _ _)
  · exact fields_flag s

theorem hMvs_effects (T : OpenTables) (s : State) : Effects tagsFields s (hMvs T s) := by
  refine foldl_effects (fun x i => ?_) _ s
  unfold hMvUpdate
  simp only
  split
  · exact ((Effects.one mem_fields_rd (.ofBool x 0 _)).trans (fields_lit 7 _)).then mem_fields_prob
      (.ofProb _ _ _)
  · exact .one mem_fields_rd (.ofBool x 0 _)

theorem hFields_effects (T : OpenTables) (key : Bool) (s : State) :
    Effects tagsFields s (hFields T key s) := by
  have hq : ∀ w, Effects tagsFields w (hQuant (hPartCount (hDeltas (hFilter (hSegmentation w))))) :=
    fun w => (((((((hSegmentation_effects w).trans (hLitTo_effects _ (by decide) (by decide))).trans
      (hLitTo_effects _ (by decide) (by decide))).trans (hLitTo_effects _ (by decide) (by decide))).trans
      (hDeltas_effects _)).trans (hLitTo_effects _ (by decide) (by decide)))).trans (hQuant_effects _)
  cases key with
  | true =>
    simp only [hFields, if_true]
    exact ((((((hKeyReset_effects T s).trans (hLitTo_effects _ (by decide) (by decide))).trans
      (hLitTo_effects _ (by decide) (by decide))).trans (hq _)).trans (hCommit_effects _)).trans
      (hTokens_effects T _)).trans (hSkip_effects _)
  | false =>
    simp only [hFields, Bool.false_eq_true, if_false]
    exact ((((((((((((hq s).trans (hRefs_effects _)).trans (hCommit_effects _)).trans
      (hLitTo_effects _ (by decide) (by decide))).trans (hTokens_effects T _)).trans (hSkip_effects _)).trans
      (hProb_effects _ _)).trans (hProb_effects _ _)).trans (hProb_effects _ _)).trans
      (hProbRun_effects _ _ _)).trans (hProbRun_effects _ _ _))).trans (hMvs_effects T _)

/-- The kinds of change of `FC_HEADER`. -/
def tagsHeader : Set Tag :=
  { a | a ∈ tagsFields ∨ a = .rdOff ∨ (∃ k, a = .rdInit k) ∨ a = .resize ∨ a = .ask ∨ a = .dq ∨ a = .res }

theorem fields_sub_header : tagsFields ⊆ tagsHeader := fun _ h => .inl h

theorem startPart_effects (s : State) (i : Nat) (base size : Word) (hi : i ≤ 8) :
    Effects tagsHeader s (s.startPart i base size) := by
  have h1 : ∀ j ≤ 8, Tag.cr (20 + j) ∈ tagsHeader :=
    fun j hj => fields_sub_header (mem_fields_cr (by omega))
  have h2 : ∀ j ≤ 8, Tag.cr (32 + j) ∈ tagsHeader :=
    fun j hj => fields_sub_header (mem_fields_cr (by omega))
  have m1 : ∀ j ≤ 8, ∀ v : Word, v &&& ~~~(crKeep (20 + j)) = 0 := by
    intro j hj v
    have : ~~~(crKeep (20 + j)) = 0 := by revert j; decide
    rw [this]; exact BitVec.and_zero
  have m2 : ∀ j ≤ 8, ∀ v : Word, v &&& ~~~(crKeep (32 + j)) = 0 := by
    intro j hj v
    have : ~~~(crKeep (32 + j)) = 0 := by revert j; decide
    rw [this]; exact BitVec.and_zero
  exact ((Effects.one (h1 i hi) (.cr s _ _ fun _ => m1 i hi _)).then (h2 i hi)
    (.cr _ _ _ fun _ => m2 i hi _)).then (.inr (.inr (.inl ⟨i, rfl⟩))) (.rdInit _ i base size)

theorem clearPart_effects (s : State) (i : Nat) (hi : i ≤ 8) : Effects tagsHeader s (s.setPart i 0 0) := by
  have m : ∀ (w : Word), (0 : Word) &&& ~~~w = 0 := fun w => BitVec.zero_and
  exact (Effects.one (fields_sub_header (mem_fields_cr (by omega))) (.cr s _ _ fun _ => m _)).then
    (fields_sub_header (mem_fields_cr (by omega))) (.cr _ _ _ fun _ => m _)

theorem hParts_effects {base length : Word} {p n i o o' : Nat} (hi : i + n ≤ 8)
    (h : hParts base length p n i o s = .ok (o', t)) : Effects tagsHeader s t := by
  induction n generalizing s i o with
  | zero => simp only [hParts, Except.ok.injEq, Prod.mk.injEq] at h; exact h.2 ▸ .refl _ s
  | succ n ih =>
    simp only [hParts, Res.bind_ok, require_ok] at h
    obtain ⟨-, -, h⟩ := h
    exact (startPart_effects s (1 + i) _ _ (by omega)).trans (ih (by omega) h)

theorem npart_bounds (s : State) : 1 ≤ s.npart ∧ s.npart ≤ 8 := by
  have h := field_lt (s.crRaw 9) 0 2
  unfold State.npart State.crField
  have : field (s.crRaw 9) 0 2 = 0 ∨ field (s.crRaw 9) 0 2 = 1 ∨ field (s.crRaw 9) 0 2 = 2 ∨
    field (s.crRaw 9) 0 2 = 3 := by omega
  rcases this with h | h | h | h <;> rw [h] <;> decide

theorem hPartitions_effects {base length : Word} {p : Nat} (h : hPartitions base length p s = .ok t) :
    Effects tagsHeader s t := by
  have hn := npart_bounds s
  simp only [hPartitions, Res.bind_ok, require_ok, Except.ok.injEq] at h
  obtain ⟨-, -, ⟨o, w⟩, h1, rfl⟩ := h
  refine Effects.trans ?_ (range_effects (fun x j hj => clearPart_effects x _ (by omega)) _)
  exact (hParts_effects (by omega) h1).trans (startPart_effects w s.npart _ _ hn.2)

theorem setupDq_effects (s : State) : Effects tagsHeader s s.setupDq :=
  foldl_effects (fun x i => .one (by simp [tagsHeader]) (.dq x i _)) _ s

theorem headerParse_effects {T : OpenTables} {base length : Word}
    (h : headerParse T base length s = .ok t) : Effects tagsHeader s t := by
  simp only [headerParse, Res.bind_ok, require_ok] at h
  obtain ⟨-, -, -, -, h⟩ := h
  refine Effects.trans ?_ (hPartitions_effects h)
  refine Effects.trans ?_ ((hFields_effects T _ _).mono fields_sub_header)
  refine Effects.trans ?_ (startPart_effects _ 0 _ _ (by omega))
  refine Effects.trans (.one (by simp [tagsHeader]) (.rdOff s)) ?_
  exact (((fields_cr _ _ (by decide) (by decide)).trans (fields_cr _ _ (by decide) (by decide))).trans
    (fields_cr _ _ (by decide) (by decide))).mono fields_sub_header

theorem afterAsk_effects (s : State) (w : Word) : Effects {.ask} s (s.afterAsk w) := by
  unfold State.afterAsk
  split
  · exact .one (Set.mem_singleton _) (.ask s)
  · exact .refl _ s

theorem setSize_effects (s : State) (w : Word) : Effects tagsHeader s (s.setSize w) := by
  have m : w &&& ~~~(crKeep 1) = 0 := by
    rw [show ~~~(crKeep 1) = 0 from by decide]; exact BitVec.and_zero
  have e : ∀ x : State, Effects tagsHeader x (x.setCr 1 w) :=
    fun x => (fields_setCr x w (by decide) m).mono fields_sub_header
  unfold State.setSize
  split
  · exact (Effects.one (by simp [tagsHeader]) (.resize s)).trans (e _)
  · exact e s

theorem header_effects {T : OpenTables} {base length : Word} (h : header T base length s = .ok t) :
    Effects tagsHeader s t := by
  simp only [header, Res.bind_ok, require_ok, Except.ok.injEq] at h
  obtain ⟨w, h1, -, -, rfl⟩ := h
  refine Effects.then ?_ (by simp [tagsHeader]) (.res _ 0 _)
  refine Effects.trans ?_ (setupDq_effects _)
  have e1 : ∀ x, Effects tagsHeader s (w.afterAsk x) := fun x =>
    (headerParse_effects h1).trans ((afterAsk_effects w x).mono (by simp [tagsHeader]))
  unfold State.takeSize
  split
  · exact (e1 _).trans (setSize_effects _ _)
  · exact e1 _

/-! ## The frame -/

/-- The kinds of change of `FC_FRAME`: all but those of the host's own primitives. -/
def tagsFrame : Set Tag := { a | a ≠ .arg ∧ a ≠ .reset ∧ a ≠ .response }

theorem header_sub_frame : tagsHeader ⊆ tagsFrame := by
  rintro a (h | rfl | ⟨k, rfl⟩ | rfl | rfl | rfl | rfl)
  · rcases h with rfl | rfl | rfl | rfl | ⟨i, -, -, -, -, rfl⟩ <;> simp [tagsFrame]
  all_goals simp [tagsFrame]

theorem md_sub_frame : tagsMd ⊆ tagsFrame := by
  rintro a (rfl | rfl | rfl | rfl | rfl) <;> simp [tagsFrame]

theorem cd_sub_frame (k : Nat) : tagsCd k ⊆ tagsFrame := by
  rintro a (rfl | rfl | rfl | rfl | rfl) <;> simp [tagsFrame]

theorem pix_sub_frame (slot : Nat) : tagsPix slot ⊆ tagsFrame := by
  rintro a (rfl | ⟨p, -, rfl⟩) <;> simp [tagsFrame]

theorem plane_sub_frame (slot : Nat) : tagsPlane slot ⊆ tagsFrame :=
  (tagsPlane_sub slot).trans (pix_sub_frame slot)

theorem posWord_clean (x y : Nat) : posWord x y &&& ~~~(crKeep 19) = 0 :=
  setField_clean _ (setField_clean _ BitVec.zero_and (by decide)) (by decide)

theorem setMbpos_effects (s : State) (x y : Nat) : Effects {.cr 19} s (s.setMbpos x y) :=
  .one (Set.mem_singleton _) (.cr s 19 _ fun _ => posWord_clean x y)

theorem fcNextmb_effects (s : State) : Effects {.cr 19, .res} s (fcNextmb s) :=
  ((setMbpos_effects s _ _).mono (by simp)).then (by simp) (.res _ 0 _)

theorem fcRowend_effects {slot : Nat} (h : fcRowend slot s = .ok t) : Effects {.topb} s t := by
  simp only [fcRowend, State.bottomRow, Res.bind_ok, Except.ok.injEq] at h
  obtain ⟨y, ⟨ly, -, rfl⟩, u, ⟨lu, -, rfl⟩, v, ⟨lv, -, rfl⟩, rfl⟩ := h
  exact .one (Set.mem_singleton _) (.topb s _ _ ly lu lv)

theorem fcFramestart_effects (s : State) :
    Effects { .newSlot s.freeSlot, .cr 18, .cr 19, .nzClear, .nzLeft, .topb, .res } s (fcFramestart s) := by
  unfold fcFramestart
  exact (((((((Effects.one (by simp) (.newSlot s _)).then (by simp) (.ofCrField _ s.freeSlot (by decide))).trans
    ((setMbpos_effects _ 0 0).mono (by simp))).then (by simp) (.nzClear _)).then (by simp) (.nzLeft _)).then
    (by simp) (.topbOff _)).then (by simp) (.res _ 0 _))

theorem reassign_effects (s : State) : Effects {.cr 18} s s.reassign := by
  unfold State.reassign
  exact ((Effects.one (Set.mem_singleton _) (.ofCrField s (i := 18) (lo := 8) (len := 3) _ (by decide))).then
    (Set.mem_singleton _) (.ofCrField _ (i := 18) (lo := 12) (len := 3) _ (by decide))).then
    (Set.mem_singleton _) (.ofCrField _ (i := 18) (lo := 4) (len := 3) _ (by decide))

theorem endProbs_effects (s : State) : Effects {.save, .restore} s s.endProbs := by
  unfold State.endProbs
  split
  · exact .one (by simp) (.save s)
  · exact .one (by simp) (.restore s)

theorem fcFrameend_effects (s : State) :
    Effects { .cr 18, .cr 16, .save, .restore, .res } s (fcFrameend s) := by
  unfold fcFrameend
  have e : ∀ x : State, Effects { .cr 18, .cr 16, .save, .restore, .res } x x.noteKeyframe := by
    intro x
    unfold State.noteKeyframe
    split
    · exact .one (by simp) (.ofCrField x 1 (by decide))
    · exact .refl _ x
  exact ((((((reassign_effects s).mono (by simp)).trans ((endProbs_effects _).mono (by
    simp [Set.insert_subset_iff]))).trans (e _)).then (by simp) (.ofCrField _ _ (by decide))).then (by simp) (.res _ 0 _)).then (by simp)
    (.res _ 1 _)

theorem frameCoefs_effects (h : frameCoefs s = .ok t) : Effects tagsFrame s t := by
  simp only [frameCoefs, Res.bind_ok, require_ok] at h
  obtain ⟨-, -, h⟩ := h
  split at h
  · simp only [Except.ok.injEq] at h
    exact h ▸ (cdSkipmb_effects s 0).mono (cd_sub_frame 0)
  · simp only [Res.bind_ok] at h
    obtain ⟨-, -, h⟩ := h
    exact (cdMb_effects h).mono (cd_sub_frame _)

theorem framePredict_effects (h : framePredict s = .ok t) : Effects tagsFrame s t := by
  unfold framePredict at h
  split at h
  · simp only [Res.bind_ok] at h
    obtain ⟨slot, -, h⟩ := h
    exact (ipMb_effects h).mono (plane_sub_frame slot)
  · simp only [Res.bind_ok] at h
    obtain ⟨-, -, src, -, dst, -, h⟩ := h
    exact (mcMb_effects h).mono (plane_sub_frame dst)

theorem frameResidual_effects (h : frameResidual s = .ok t) : Effects tagsFrame s t := by
  simp only [frameResidual, Res.bind_ok] at h
  obtain ⟨-, -, slot, -, h⟩ := h
  exact (itMb_effects h).mono (pix_sub_frame slot)

theorem frameMb_effects {T : OpenTables} (h : frameMb T s = .ok t) : Effects tagsFrame s t := by
  simp only [frameMb, stepRes, Res.bind_ok, Except.ok.injEq] at h
  obtain ⟨w, ⟨-, -, h1⟩, x, h2, y, h3, z, h4, rfl⟩ := h
  exact (((((mdMb_effects h1).mono md_sub_frame).trans (frameCoefs_effects h2)).trans
    (framePredict_effects h3)).trans (frameResidual_effects h4)).trans
    ((lfParams_effects z).mono (by simp [tagsFrame, Set.insert_subset_iff]))

theorem nextmb_frame (s : State) : Effects tagsFrame s (fcNextmb s) :=
  (fcNextmb_effects s).mono (by simp [tagsFrame, Set.insert_subset_iff])

theorem frameCol_effects {T : OpenTables} {mx : Nat} (h : frameCol T s mx = .ok t) :
    Effects tagsFrame s t := by
  simp only [frameCol, Res.bind_ok, Except.ok.injEq] at h
  obtain ⟨w, h1, rfl⟩ := h
  split
  · exact (frameMb_effects h1).trans (nextmb_frame w)
  · exact frameMb_effects h1

theorem frameRowEnd_effects (h : frameRowEnd s = .ok t) : Effects tagsFrame s t := by
  simp only [frameRowEnd, Res.bind_ok, Except.ok.injEq] at h
  obtain ⟨slot, -, w, h1, x, h2, rfl⟩ := h
  refine (((fcRowend_effects h1).mono (by simp [tagsFrame])).trans ?_).trans (nextmb_frame x)
  unfold frameFilter at h2
  split at h2
  · simp only [Except.ok.injEq] at h2; exact h2 ▸ .refl _ w
  · exact (lfRow_effects h2).mono (plane_sub_frame slot)

theorem frameLoop_effects {T : OpenTables} (h : frameLoop T s = .ok t) : Effects tagsFrame s t := by
  refine foldlM_effects (fun x my y hy => ?_) h
  simp only [frameRow, Res.bind_ok] at hy
  obtain ⟨z, h1, h2⟩ := hy
  exact ((Effects.one (by simp [tagsFrame]) (.nzLeft x)).trans
    (foldlM_effects (fun _ _ _ h => frameCol_effects h) h1)).trans (frameRowEnd_effects h2)

theorem noFrame_effects (s : State) : Effects {.res} s s.noFrame :=
  (Effects.one (Set.mem_singleton _) (.res s 0 0)).then (Set.mem_singleton _) (.res _ 1 7)

theorem frameBody_effects {T : OpenTables} (h : frameBody T s = .ok t) : Effects tagsFrame s t := by
  have hn : ∀ x : State, Effects tagsFrame x x.noFrame :=
    fun x => (noFrame_effects x).mono (by simp [tagsFrame])
  unfold frameBody at h
  split at h
  · simp only [Except.ok.injEq] at h
    exact h ▸ ((endProbs_effects s).mono (by simp [tagsFrame, Set.insert_subset_iff])).trans (hn _)
  · simp only [Res.bind_ok, Except.ok.injEq] at h
    obtain ⟨-, -, w, h1, -, -, h⟩ := h
    have e : Effects tagsFrame s (fcFrameend w) :=
      (((fcFramestart_effects s).mono (by simp [tagsFrame, Set.insert_subset_iff])).trans
        (frameLoop_effects h1)).trans
        ((fcFrameend_effects w).mono (by simp [tagsFrame, Set.insert_subset_iff]))
    rw [← h]
    split
    · exact e
    · exact e.trans (hn _)

theorem frameBegin_effects (s : State) : Effects {.cr 16} s s.frameBegin :=
  (Effects.one (Set.mem_singleton _) (.ofCrField s (i := 16) (lo := 4) (len := 4) 0 (by decide))).then
    (Set.mem_singleton _) (.ofCrField _ (i := 16) (lo := 1) (len := 1) _ (by decide))

theorem frame_effects {T : OpenTables} {base length : Word} (h : frame T base length s = .ok t) :
    Effects tagsFrame s t := by
  simp only [frame, Res.bind_ok] at h
  obtain ⟨w, h1, h2⟩ := h
  exact (((frameBegin_effects s).mono (by simp [tagsFrame])).trans
    ((header_effects h1).mono header_sub_frame)).trans (frameBody_effects h2)

end Sys2Proof.Machine
end

