-- ==== Sys2Proof/Laws/CommandEffects.lean ====
section
/-! SUPPORT. The kinds of change of each command and of a step, and the fields that each kind leaves
alone. -/

namespace Sys2Proof.Machine

variable {A B : Set Tag} {s t u : State}

/-! ## What a change leaves alone -/

theorem State.askAllocator_eq (s : State) : s.askAllocator.2 =
    { s with allocAnswers := s.allocAnswers.tail, allocCount := s.allocCount + 1 } := by
  unfold State.askAllocator
  split <;> rename_i h <;> simp [h]

theorem Micro.args_eq {a : Tag} (h : Micro a s t) (h0 : a ≠ .arg) (h1 : a ≠ .reset) : t.args = s.args := by
  cases h <;> first | rfl | rw [State.askAllocator_eq] | simp at *

theorem Micro.res_eq {a : Tag} (h : Micro a s t) (h0 : a ≠ .res) (h1 : a ≠ .freeRes) (h2 : a ≠ .reset) : t.res = s.res := by
  cases h <;> first | rfl | rw [State.askAllocator_eq] | simp at *

theorem Micro.rd_eq {a : Tag} (h : Micro a s t) (h0 : ∀ k, a ≠ .rd k) (h1 : ∀ k, a ≠ .rdInit k) (h2 : a ≠ .rdOff) (h3 : a ≠ .reset) : t.rd = s.rd := by
  cases h <;> first | rfl | rw [State.askAllocator_eq] | simp at *

theorem Micro.prob_eq {a : Tag} (h : Micro a s t) (h0 : a ≠ .prob) (h1 : a ≠ .restore) (h2 : a ≠ .reset) : t.prob = s.prob := by
  cases h <;> first | rfl | rw [State.askAllocator_eq] | simp at *

theorem Micro.probSaved_eq {a : Tag} (h : Micro a s t) (h0 : a ≠ .save) (h1 : a ≠ .reset) : t.probSaved = s.probSaved := by
  cases h <;> first | rfl | rw [State.askAllocator_eq] | simp at *

theorem Micro.dq_eq {a : Tag} (h : Micro a s t) (h0 : a ≠ .dq) (h1 : a ≠ .reset) : t.dq = s.dq := by
  cases h <;> first | rfl | rw [State.askAllocator_eq] | simp at *

theorem Micro.mbinfo_eq {a : Tag} (h : Micro a s t) (h0 : a ≠ .mb) (h1 : a ≠ .resize) (h2 : a ≠ .reset) : t.mbinfo = s.mbinfo := by
  cases h <;> first | rfl | rw [State.askAllocator_eq] | simp at *

theorem Micro.segmap_eq {a : Tag} (h : Micro a s t) (h0 : a ≠ .seg) (h1 : a ≠ .segClear) (h2 : a ≠ .resize) (h3 : a ≠ .reset) : t.segmap = s.segmap := by
  cases h <;> first | rfl | rw [State.askAllocator_eq] | simp at *

theorem Micro.nzAbove_eq {a : Tag} (h : Micro a s t) (h0 : a ≠ .nz) (h1 : a ≠ .nzClear) (h2 : a ≠ .resize) (h3 : a ≠ .reset) : t.nzAbove = s.nzAbove := by
  cases h <;> first | rfl | rw [State.askAllocator_eq] | simp at *

theorem Micro.nzLeft_eq {a : Tag} (h : Micro a s t) (h0 : a ≠ .nz) (h1 : a ≠ .nzLeft) (h2 : a ≠ .reset) : t.nzLeft = s.nzLeft := by
  cases h <;> first | rfl | rw [State.askAllocator_eq] | simp at *

theorem Micro.coef_eq {a : Tag} (h : Micro a s t) (h0 : a ≠ .coef) (h1 : a ≠ .reset) : t.coef = s.coef := by
  cases h <;> first | rfl | rw [State.askAllocator_eq] | simp at *

theorem Micro.cand_eq {a : Tag} (h : Micro a s t) (h0 : a ≠ .cand) (h1 : a ≠ .reset) : t.cand = s.cand := by
  cases h <;> first | rfl | rw [State.askAllocator_eq] | simp at *

theorem Micro.lfp_eq {a : Tag} (h : Micro a s t) (h0 : a ≠ .lfp) (h1 : a ≠ .resize) (h2 : a ≠ .reset) : t.lfp = s.lfp := by
  cases h <;> first | rfl | rw [State.askAllocator_eq] | simp at *

theorem Micro.fb_eq {a : Tag} (h : Micro a s t) (h0 : ∀ n p, a ≠ .pix n p) (h1 : a ≠ .resize) (h2 : a ≠ .reset)
    (h3 : ∀ n, a ≠ .newSlot n) : t.fb = s.fb := by
  cases h <;> first | rfl | rw [State.askAllocator_eq] | simp at *

theorem Micro.topb_eq {a : Tag} (h : Micro a s t) (h0 : a ≠ .topb) (h1 : a ≠ .resize) (h2 : a ≠ .reset) : t.topb = s.topb := by
  cases h <;> first | rfl | rw [State.askAllocator_eq] | simp at *

theorem Micro.cbuf_eq {a : Tag} (h : Micro a s t) : t.cbuf = s.cbuf := by
  cases h <;> first | rfl | rw [State.askAllocator_eq]

theorem Micro.response_eq {a : Tag} (h : Micro a s t) (h0 : a ≠ .response) (h1 : a ≠ .reset) : t.response = s.response := by
  cases h <;> first | rfl | rw [State.askAllocator_eq] | simp at *

theorem Micro.hostq_eq {a : Tag} (h : Micro a s t) : t.hostq = s.hostq := by
  cases h <;> first | rfl | rw [State.askAllocator_eq]

theorem Micro.allocAnswers_eq {a : Tag} (h : Micro a s t) (h0 : a ≠ .ask) : t.allocAnswers = s.allocAnswers := by
  cases h <;> first | rfl | (rw [State.askAllocator_eq]; done) | simp at *

theorem Micro.allocCount_eq {a : Tag} (h : Micro a s t) (h0 : a ≠ .ask) : t.allocCount = s.allocCount := by
  cases h <;> first | rfl | (rw [State.askAllocator_eq]; done) | simp at *

theorem Micro.freeCount_eq {a : Tag} (h : Micro a s t) (h0 : a ≠ .freeRes) : t.freeCount = s.freeCount := by
  cases h <;> first | rfl | rw [State.askAllocator_eq] | simp at *

theorem Micro.changeCount_eq {a : Tag} (h : Micro a s t) : t.changeCount = s.changeCount := by
  cases h <;> first | rfl | rw [State.askAllocator_eq]

theorem Micro.cr_eq {a : Tag} (h : Micro a s t) (h0 : ∀ k, a ≠ .cr k) (h1 : a ≠ .resize) (h2 : a ≠ .reset) : t.cr = s.cr := by
  cases h <;> first | rfl | rw [State.askAllocator_eq] | simp at *


theorem Micro.crRaw_eq {a : Tag} {i : Nat} (h : Micro a s t) (h0 : a ≠ .cr i) (h1 : a ≠ .reset)
    (h2 : a ≠ .resize) : t.crRaw i = s.crRaw i := by
  cases h with
  | cr j v g => exact s.crRaw_setCr_other _ (fun e => h0 (by rw [e]))
  | ask => rw [s.askAllocator_eq]; rfl
  | _ => first | rfl | simp at *

theorem Micro.rdAt_eq {a : Tag} {k : Nat} (h : Micro a s t) (h0 : a ≠ .rd k) (h1 : a ≠ .rdInit k)
    (h2 : a ≠ .rdOff) (h3 : a ≠ .reset) : t.rdAt k = s.rdAt k := by
  cases h with
  | rd j r g => exact s.rdAt_setRd_other _ (fun e => h0 (by rw [e]))
  | rdInit j b z => exact s.rdAt_setRd_other _ (fun e => h1 (by rw [e]))
  | ask => rw [s.askAllocator_eq]; rfl
  | _ => first | rfl | simp at *

theorem Micro.plane_eq {a : Tag} {n p : Nat} (h : Micro a s t) (h0 : ∀ q, a ≠ .pix n q) (h1 : a ≠ .resize)
    (h2 : a ≠ .reset) (h3 : a ≠ .newSlot n) : t.plane n p = s.plane n p := by
  by_cases hp : ∃ m q, a = .pix m q
  · obtain ⟨m, q, rfl⟩ := hp
    cases h with
    | pix m q l => exact s.plane_setPlane_slot q p _ (fun e => h0 q (by rw [e]))
  · by_cases hc : ∃ m, a = .newSlot m
    · obtain ⟨m, rfl⟩ := hc
      cases h with
      | newSlot m => exact s.plane_clearSlot_other p (fun e => h3 (by rw [e]))
    · unfold State.plane
      rw [h.fb_eq (fun m q e => hp ⟨m, q, e⟩) h1 h2 (fun m e => hc ⟨m, e⟩)]

/-! ## The kinds of each command -/

/-- Pixels of the slot that holds CUR. -/
def tagsCur (s : State) : Set Tag := { a | ∃ slot, s.curSlot = some slot ∧ a ∈ tagsPlane slot }

/-- How a command ends. -/
def tagsEnd : Set Tag := {.response, .cr 16}

/-- The kinds of change of a command that starts in `s`, but for those of its end. -/
def cmdTags (i : Instr) (s : State) : Set Tag :=
  match i with
  | .rdInit k => {.rdInit k.toNat}
  | .rdBool _ k => {.rd k.toNat, .res}
  | .rdLit _ k => {.rd k.toNat, .res}
  | .rdSlit _ k => {.rd k.toNat, .res}
  | .rdTree _ _ k => {.rd k.toNat, .res}
  | .mdSegid => tagsMd
  | .mdSkip => tagsMd
  | .mdYmodeKf => tagsMd
  | .mdYmodeIf => tagsMd
  | .mdBmodesKf => tagsMd
  | .mdBmodesIf => tagsMd
  | .mdUvmodeKf => tagsMd
  | .mdUvmodeIf => tagsMd
  | .mdRef => tagsMd
  | .mdMb => tagsMd
  | .mpNear => {.cand, .res}
  | .mpMode => tagsMd
  | .mpReadmv => tagsMd
  | .mpSplit => tagsMd
  | .mpClamp => {.res}
  | .mpMb => tagsMd
  | .cdBlock _ _ k => tagsCd k.toNat
  | .cdMb k => tagsCd k.toNat
  | .cdSkipmb => {.nz, .coef, .res}
  | .ipY16Dc => tagsCur s
  | .ipY16V => tagsCur s
  | .ipY16H => tagsCur s
  | .ipY16Tm => tagsCur s
  | .ipUv8Dc => tagsCur s
  | .ipUv8V => tagsCur s
  | .ipUv8H => tagsCur s
  | .ipUv8Tm => tagsCur s
  | .ipY4Dc _ => tagsCur s
  | .ipY4Tm _ => tagsCur s
  | .ipY4Ve _ => tagsCur s
  | .ipY4He _ => tagsCur s
  | .ipY4Ld _ => tagsCur s
  | .ipY4Rd _ => tagsCur s
  | .ipY4Vr _ => tagsCur s
  | .ipY4Vl _ => tagsCur s
  | .ipY4Hd _ => tagsCur s
  | .ipY4Hu _ => tagsCur s
  | .ipMb => tagsCur s
  | .mcLuma _ => tagsCur s
  | .mcChroma _ _ => tagsCur s
  | .mcMb => tagsCur s
  | .itDqsetup _ => {.dq}
  | .itWht => {.coef}
  | .itIdctAdd _ _ => tagsCur s
  | .itMb => tagsCur s ∪ {.coef}
  | .lfParams => {.lfp, .res}
  | .lfMb => tagsCur s
  | .lfRow => tagsCur s
  | .lfsEdge _ _ => tagsCur s
  | .lfnMbedge _ _ => tagsCur s
  | .lfnInner _ _ => tagsCur s
  | .fcReset => {.reset}
  | .fcSetmb => {.cr 19}
  | .fcNextmb => {.cr 19, .res}
  | .fcRowstart => {.nzLeft}
  | .fcRowend => {.topb}
  | .fcWrctl reg => {.ask, .resize, .cr reg.toNat}
  | .fcRdctl _ => {.res}
  | .fcWrprob _ => {.prob}
  | .fcRdprob _ => {.res}
  | .fcProbsave => {.save}
  | .fcProbrestore => {.restore}
  | .fcHeader => tagsHeader ∪ {.freeRes}
  | .fcFramestart => {.newSlot s.freeSlot, .cr 18, .cr 19, .nzClear, .nzLeft, .topb, .res}
  | .fcFrameend => {.cr 18, .cr 16, .save, .restore, .res}
  | .fcFrame => tagsFrame
  | .fcWrarg _ => {.arg}

/-! ## Each command -/


theorem raise_effects (s : State) (c : ErrCode) : Effects tagsEnd s (s.raise c) := by
  unfold State.raise State.noteError
  split
  · exact (Effects.one (by simp [tagsEnd]) (.ofCrField s (i := 16) (lo := 4) (len := 4) _ (by decide))).then
      (by simp [tagsEnd]) (.response _ _)
  · exact .one (by simp [tagsEnd]) (.response s _)

theorem finish_effects {r : Res State} (h : finish s r = .next t) (hr : ∀ u, r = .ok u → Effects A s u) :
    Effects (A ∪ tagsEnd) s t := by
  rcases finish_next.1 h with ⟨u, hu, rfl⟩ | ⟨c, -, rfl⟩
  · exact ((hr u hu).mono (by simp)).then (by simp [tagsEnd]) (.response u _)
  · exact (raise_effects s c).mono (by simp)

theorem raiseFrame_effects (s : State) (c : ErrCode) :
    Effects ({.rdOff, .freeRes} ∪ tagsEnd) s (s.raiseFrame c) :=
  ((((raise_effects s c).mono (by simp)).then (by simp) (.rdOff _))).then (by simp) (.freeRes _)

/-- A command's whole effect is a chain of changes of its kinds and of the end's. -/
theorem exec_effects {i : Instr} (h : exec i s = .next t) : Effects (cmdTags i s ∪ tagsEnd) s t := by
  have slot_effects : ∀ {f : Nat → State → Res State} {slot : Nat} {u : State},
      s.curSlot = some slot → Effects (tagsPlane slot) s u → Effects (tagsCur s) s u :=
    fun hs he => he.mono fun a ha => ⟨_, hs, ha⟩
  have ipc : ∀ {slot : Nat}, ipCheck s = .ok slot → s.curSlot = some slot := by
    intro slot hc
    simp only [ipCheck, Res.bind_ok, needSlot_ok, Except.ok.injEq] at hc
    obtain ⟨-, -, x, hx, -, -, rfl⟩ := hc
    exact hx
  have y16 : ∀ {m : UvMode}, finish s (do let slot ← ipCheck s; ipY16 m slot s) = .next t →
      Effects (tagsCur s ∪ tagsEnd) s t := by
    intro m hm
    refine finish_effects hm fun u hu => ?_
    obtain ⟨slot, h1, h2⟩ := Res.bind_ok.1 hu
    exact (ipFill_effects (by omega) h2).mono fun a ha => ⟨slot, ipc h1, ha⟩
  have uv8 : ∀ {m : UvMode}, finish s (do let slot ← ipCheck s; ipUv8 m slot s) = .next t →
      Effects (tagsCur s ∪ tagsEnd) s t := by
    intro m hm
    refine finish_effects hm fun u hu => ?_
    obtain ⟨slot, h1, h2⟩ := Res.bind_ok.1 hu
    exact (ipUv8_effects h2).mono fun a ha => ⟨slot, ipc h1, ha⟩
  have y4 : ∀ {m : BMode} {b : Byte}, ipY4Cmd m b s = .next t → Effects (tagsCur s ∪ tagsEnd) s t := by
    intro m b hm
    refine finish_effects hm fun u hu => ?_
    simp only [Res.bind_ok] at hu
    obtain ⟨-, -, slot, h1, h2⟩ := hu
    exact (ipY4_effects h2).mono fun a ha => ⟨slot, ipc h1, ha⟩
  have edge : ∀ {b : Bool} {e : Edge}, (b = true → e.p < 3) → edgeCmd b e s = .next t →
      Effects (tagsCur s ∪ tagsEnd) s t := by
    intro b e hp hm
    refine finish_effects hm fun u hu => ?_
    simp only [Res.bind_ok, require_ok, needSlot_ok] at hu
    obtain ⟨-, hb, -, -, slot, h1, h2⟩ := hu
    exact (lfEdge_effects (hp hb) h2).mono fun a ha => ⟨slot, h1, ha⟩
  have md : ∀ {f : State → Res State}, (∀ u, f s = .ok u → Effects tagsMd s u) →
      finish s (do mdCheck s; f s) = .next t → Effects (tagsMd ∪ tagsEnd) s t := by
    intro f hf hm
    refine finish_effects hm fun u hu => ?_
    obtain ⟨-, -, h2⟩ := Res.bind_ok.1 hu
    exact hf u h2
  have mp : ∀ {f : State → Res State}, (∀ u, f s = .ok u → Effects tagsMd s u) →
      finish s (do require s.posOk .badMbpos; require (s.rdValid 0) .rdUninit; f s) = .next t →
      Effects (tagsMd ∪ tagsEnd) s t := by
    intro f hf hm
    refine finish_effects hm fun u hu => ?_
    simp only [Res.bind_ok] at hu
    obtain ⟨-, -, -, -, h2⟩ := hu
    exact hf u h2
  cases i with
  | rdInit k =>
    refine finish_effects h fun u hu => ?_
    simp only [Res.bind_ok, Except.ok.injEq] at hu
    obtain ⟨-, -, -, -, rfl⟩ := hu
    exact .one (by simp [cmdTags]) (.rdInit s _ _ _)
  | rdBool p k =>
    refine finish_effects h fun u hu => ?_
    simp only [Res.bind_ok, Except.ok.injEq] at hu
    obtain ⟨-, -, -, -, rfl⟩ := hu
    exact (Effects.one (by simp [cmdTags]) (.ofBool s _ p)).then (by simp [cmdTags]) (.res _ 0 _)
  | rdLit n k =>
    refine finish_effects h fun u hu => ?_
    simp only [Res.bind_ok, Except.ok.injEq] at hu
    obtain ⟨-, -, -, -, rfl⟩ := hu
    exact (Effects.one (by simp [cmdTags]) (.ofLit s _ _)).then (by simp [cmdTags]) (.res _ 0 _)
  | rdSlit n k =>
    refine finish_effects h fun u hu => ?_
    simp only [Res.bind_ok, Except.ok.injEq] at hu
    obtain ⟨-, -, -, -, rfl⟩ := hu
    exact (Effects.one (by simp [cmdTags]) (.ofSlit s _ _)).then (by simp [cmdTags]) (.res _ 0 _)
  | rdTree tree start k =>
    refine finish_effects h fun u hu => ?_
    simp only [Res.bind_ok, Except.ok.injEq] at hu
    obtain ⟨-, -, -, -, ⟨v, w⟩, h1, rfl⟩ := hu
    exact (Effects.one (by simp [cmdTags]) (.ofTree h1)).then (by simp [cmdTags]) (.res _ 0 _)
  | mdSegid => exact md (fun u hu => mdSegid_effects hu) h
  | mdSkip => exact md (fun u hu => mdSkip_effects hu) h
  | mdYmodeKf => exact md (fun u hu => mdYmodeKf_effects hu) h
  | mdYmodeIf => exact md (fun u hu => mdYmodeIf_effects hu) h
  | mdBmodesKf => exact md (fun u hu => mdBmodesKf_effects hu) h
  | mdBmodesIf => exact md (fun u hu => mdBmodesIf_effects hu) h
  | mdUvmodeKf => exact md (fun u hu => mdUvmode_effects hu) h
  | mdUvmodeIf => exact md (fun u hu => mdUvmode_effects hu) h
  | mdRef => exact md (fun u hu => mdRef_effects hu) h
  | mdMb => exact md (fun u hu => mdMb_effects hu) h
  | mpNear =>
    refine finish_effects h fun u hu => ?_
    simp only [Res.bind_ok, Except.ok.injEq] at hu
    obtain ⟨-, -, rfl⟩ := hu
    exact (((((Effects.one (by simp [cmdTags]) (.cand s _)).then (by simp [cmdTags]) (.res _ 0 _)).then
      (by simp [cmdTags]) (.res _ 1 _)).then (by simp [cmdTags]) (.res _ 2 _)).then (by simp [cmdTags])
        (.res _ 3 _))
  | mpMode => exact mp (fun u hu => mpMode_effects hu) h
  | mpReadmv => exact mp (fun u hu => mpReadmv_effects hu) h
  | mpSplit => exact mp (fun u hu => mpSplit_effects hu) h
  | mpClamp =>
    refine finish_effects h fun u hu => ?_
    simp only [Res.bind_ok, Except.ok.injEq] at hu
    obtain ⟨-, -, rfl⟩ := hu
    exact .one (by simp [cmdTags]) (.res s 0 _)
  | mpMb => exact mp (fun u hu => mpMb_effects hu) h
  | cdBlock type block k =>
    refine finish_effects h fun u hu => ?_
    simp only [Res.bind_ok] at hu
    obtain ⟨-, -, -, -, -, -, hu⟩ := hu
    exact cdBlock_effects hu
  | cdMb k =>
    refine finish_effects h fun u hu => ?_
    simp only [Res.bind_ok] at hu
    obtain ⟨-, -, -, -, -, -, hu⟩ := hu
    exact cdMb_effects hu
  | cdSkipmb =>
    refine finish_effects h fun u hu => ?_
    simp only [Res.bind_ok, Except.ok.injEq] at hu
    obtain ⟨-, -, rfl⟩ := hu
    exact ((Effects.one (by simp [cmdTags]) (.coefClear s)).then (by simp [cmdTags])
      (.nz s.clearCoef _ _)).then (by simp [cmdTags]) (.res _ 0 0)
  | ipY16Dc => exact y16 h
  | ipY16V => exact y16 h
  | ipY16H => exact y16 h
  | ipY16Tm => exact y16 h
  | ipUv8Dc => exact uv8 h
  | ipUv8V => exact uv8 h
  | ipUv8H => exact uv8 h
  | ipUv8Tm => exact uv8 h
  | ipY4Dc b => exact y4 h
  | ipY4Tm b => exact y4 h
  | ipY4Ve b => exact y4 h
  | ipY4He b => exact y4 h
  | ipY4Ld b => exact y4 h
  | ipY4Rd b => exact y4 h
  | ipY4Vr b => exact y4 h
  | ipY4Vl b => exact y4 h
  | ipY4Hd b => exact y4 h
  | ipY4Hu b => exact y4 h
  | ipMb =>
    refine finish_effects h fun u hu => ?_
    obtain ⟨slot, h1, h2⟩ := Res.bind_ok.1 hu
    exact (ipMb_effects h2).mono fun a ha => ⟨slot, ipc h1, ha⟩
  | mcLuma ref =>
    refine finish_effects h fun u hu => ?_
    simp only [Res.bind_ok, needSlot_ok] at hu
    obtain ⟨-, -, -, -, src, -, dst, h1, hu⟩ := hu
    exact (mcBlock_effects (by omega) hu).mono fun a ha => ⟨dst, h1, ha⟩
  | mcChroma ref plane =>
    refine finish_effects h fun u hu => ?_
    simp only [Res.bind_ok, needSlot_ok, require_ok, Bool.and_eq_true] at hu
    obtain ⟨-, hp, -, -, src, -, dst, h1, hu⟩ := hu
    have : plane.toNat < 3 := by
      have := hp.2
      simp only [okChromaPlane, Bool.and_eq_true, decide_eq_true_eq] at this
      omega
    exact (mcBlock_effects this hu).mono fun a ha => ⟨dst, h1, ha⟩
  | mcMb =>
    refine finish_effects h fun u hu => ?_
    simp only [Res.bind_ok, needSlot_ok] at hu
    obtain ⟨-, -, -, -, src, -, dst, h1, hu⟩ := hu
    exact (mcMb_effects hu).mono fun a ha => ⟨dst, h1, ha⟩
  | itDqsetup segment =>
    refine finish_effects h fun u hu => ?_
    simp only [Res.bind_ok, Except.ok.injEq] at hu
    obtain ⟨-, -, rfl⟩ := hu
    exact .one (by simp [cmdTags]) (.dq s _ _)
  | itWht =>
    refine finish_effects (r := .ok _) h fun u hu => ?_
    simp only [Except.ok.injEq] at hu
    exact hu ▸ itWht_effects s
  | itIdctAdd plane block =>
    refine finish_effects h fun u hu => ?_
    simp only [Res.bind_ok, needSlot_ok, require_ok] at hu
    obtain ⟨-, hp, -, -, slot, h1, hu⟩ := hu
    have : plane.toNat < 3 := by
      simp only [okPlaneBlock, Bool.and_eq_true, decide_eq_true_eq] at hp
      omega
    exact (itIdctAdd_effects this hu).mono fun a ha => ⟨slot, h1, ha⟩
  | itMb =>
    refine finish_effects h fun u hu => ?_
    simp only [Res.bind_ok, needSlot_ok] at hu
    obtain ⟨-, -, slot, h1, hu⟩ := hu
    refine (itMb_effects hu).mono fun a ha => ?_
    rcases ha with rfl | ha
    · exact .inr rfl
    · exact .inl ⟨slot, h1, ha⟩
  | lfParams =>
    refine finish_effects h fun u hu => ?_
    simp only [Res.bind_ok, Except.ok.injEq] at hu
    obtain ⟨-, -, -, -, rfl⟩ := hu
    exact lfParams_effects s
  | lfMb =>
    refine finish_effects h fun u hu => ?_
    simp only [Res.bind_ok, needSlot_ok] at hu
    obtain ⟨-, -, slot, h1, hu⟩ := hu
    exact (lfMbAt_effects hu).mono fun a ha => ⟨slot, h1, ha⟩
  | lfRow =>
    refine finish_effects h fun u hu => ?_
    simp only [Res.bind_ok, needSlot_ok] at hu
    obtain ⟨-, -, slot, h1, hu⟩ := hu
    exact (lfRow_effects hu).mono fun a ha => ⟨slot, h1, ha⟩
  | lfsEdge plane dir =>
    refine edge (fun hb => ?_) h
    simp only [okSimpleEdge, Bool.and_eq_true, beq_iff_eq] at hb
    show plane.toNat < 3
    omega
  | lfnMbedge plane dir =>
    refine edge (fun hb => ?_) h
    simp only [okNormalEdge, Bool.and_eq_true, decide_eq_true_eq] at hb
    show plane.toNat < 3
    omega
  | lfnInner plane dir =>
    refine edge (fun hb => ?_) h
    simp only [okNormalEdge, Bool.and_eq_true, decide_eq_true_eq] at hb
    show plane.toNat < 3
    omega
  | fcReset =>
    refine finish_effects (r := .ok _) h fun u hu => ?_
    simp only [Except.ok.injEq] at hu
    exact hu ▸ .one (by simp [cmdTags]) (.reset s)
  | fcSetmb =>
    refine finish_effects (r := .ok _) h fun u hu => ?_
    simp only [Except.ok.injEq] at hu
    exact hu ▸ .one (by simp [cmdTags]) (.cr s 19 _ fun _ => and_mask_clean _ _)
  | fcNextmb =>
    refine finish_effects h fun u hu => ?_
    simp only [Res.bind_ok, Except.ok.injEq] at hu
    obtain ⟨-, -, rfl⟩ := hu
    exact fcNextmb_effects s
  | fcRowstart =>
    refine finish_effects (r := .ok _) h fun u hu => ?_
    simp only [Except.ok.injEq] at hu
    exact hu ▸ .one (by simp [cmdTags]) (.nzLeft s)
  | fcRowend =>
    refine finish_effects h fun u hu => ?_
    simp only [Res.bind_ok] at hu
    obtain ⟨-, -, slot, -, hu⟩ := hu
    exact fcRowend_effects hu
  | fcWrctl reg =>
    have h : execFcWrctl reg s = .next t := h
    unfold execFcWrctl at h
    split at h
    · rename_i hr
      have ea := (afterAsk_effects s (s.arg 0)).mono (B := cmdTags (.fcWrctl reg) s ∪ tagsEnd)
        (by simp [cmdTags])
      refine ea.trans ((finish_effects (A := {.resize, .cr 1}) h fun u hu => ?_).mono ?_)
      · simp only [Res.bind_ok, Except.ok.injEq] at hu
        obtain ⟨-, -, rfl⟩ := hu
        have m : s.arg 0 &&& ~~~(crKeep 1) = 0 := by
          rw [show ~~~(crKeep 1) = 0 from by decide]; exact BitVec.and_zero
        unfold State.setSize
        split
        · exact (Effects.one (by simp) (.resize _)).then (by simp) (.cr _ 1 _ fun _ => m)
        · exact .one (by simp) (.cr _ 1 _ fun _ => m)
      · rw [← hr]
        exact Set.union_subset_union_left _ (by simp [cmdTags])
    · refine finish_effects h fun u hu => ?_
      simp only [Res.bind_ok, Except.ok.injEq] at hu
      obtain ⟨-, -, rfl⟩ := hu
      unfold State.writeCr
      split
      · exact .refl _ s
      · rename_i hne
        refine .one (by simp [cmdTags]) (.cr s _ _ fun _ => ?_)
        have : crKeep reg.toNat = crMask reg.toNat := by
          unfold crKeep
          rw [if_neg (by omega), if_neg (by omega)]
        rw [this]
        exact and_mask_clean _ _
  | fcRdctl reg =>
    refine finish_effects h fun u hu => ?_
    simp only [Res.bind_ok, Except.ok.injEq] at hu
    obtain ⟨-, -, rfl⟩ := hu
    exact .one (by simp [cmdTags]) (.res s 0 _)
  | fcWrprob value =>
    refine finish_effects h fun u hu => ?_
    simp only [Res.bind_ok, Except.ok.injEq] at hu
    obtain ⟨-, -, rfl⟩ := hu
    exact .one (by simp [cmdTags]) (.ofProb s _ _)
  | fcRdprob copy =>
    refine finish_effects h fun u hu => ?_
    simp only [Res.bind_ok, Except.ok.injEq] at hu
    obtain ⟨-, -, v, -, rfl⟩ := hu
    exact .one (by simp [cmdTags]) (.res s 0 _)
  | fcProbsave =>
    refine finish_effects (r := .ok _) h fun u hu => ?_
    simp only [Except.ok.injEq] at hu
    exact hu ▸ .one (by simp [cmdTags]) (.save s)
  | fcProbrestore =>
    refine finish_effects (r := .ok _) h fun u hu => ?_
    simp only [Except.ok.injEq] at hu
    exact hu ▸ .one (by simp [cmdTags]) (.restore s)
  | fcHeader =>
    rcases finishFrame_next.1 h with ⟨u, hu, rfl⟩ | ⟨c, -, rfl⟩
    · exact ((header_effects hu).mono fun a ha => .inl (.inl ha)).then (by simp [tagsEnd]) (.response u _)
    · have eb : Effects {.ask} s (headerBase Config.openTables (s.arg 0) (s.arg 1) s) := by
        unfold headerBase
        split
        · exact afterAsk_effects _ _
        · exact .refl _ s
      refine (eb.mono ?_).trans ((raiseFrame_effects _ c).mono ?_)
      · rintro a rfl; exact .inl (.inl (by simp [tagsHeader]))
      · rintro a ((rfl | rfl) | ha)
        · exact .inl (.inl (by simp [tagsHeader]))
        · exact .inl (.inr rfl)
        · exact .inr ha
  | fcFramestart =>
    refine finish_effects h fun u hu => ?_
    simp only [Res.bind_ok, Except.ok.injEq] at hu
    obtain ⟨-, -, rfl⟩ := hu
    exact fcFramestart_effects s
  | fcFrameend =>
    refine finish_effects h fun u hu => ?_
    simp only [Res.bind_ok, Except.ok.injEq] at hu
    obtain ⟨-, -, rfl⟩ := hu
    exact fcFrameend_effects s
  | fcFrame =>
    rcases finishFrame_next.1 h with ⟨u, hu, rfl⟩ | ⟨c, -, rfl⟩
    · exact ((frame_effects hu).mono fun a ha => .inl ha).then (by simp [tagsEnd]) (.response u _)
    · have eb : Effects tagsFrame s (headerBase Config.openTables (s.arg 0) (s.arg 1) s.frameBegin) := by
        unfold headerBase
        split
        · exact ((frameBegin_effects s).mono (by simp [tagsFrame])).trans
            ((afterAsk_effects _ _).mono (by simp [tagsFrame]))
        · exact (frameBegin_effects s).mono (by simp [tagsFrame])
      refine (eb.mono fun a ha => .inl ha).trans ((raiseFrame_effects _ c).mono ?_)
      rintro a ((rfl | rfl) | ha)
      · exact .inl (by simp [cmdTags, tagsFrame])
      · exact .inl (by simp [cmdTags, tagsFrame])
      · exact .inr ha
  | fcWrarg index =>
    refine finish_effects h fun u hu => ?_
    simp only [Res.bind_ok, Except.ok.injEq] at hu
    obtain ⟨-, -, rfl⟩ := hu
    exact .one (by simp [cmdTags]) (.arg s _ _)

/-! ## A step -/

/-- The four things a step can do. -/
theorem step_cases (h : step s = .next t) :
    (s.hostq = [] ∧ t = s) ∨
    (∃ i v rest, s.hostq = .writeArg i v :: rest ∧ t = hostWriteArg i v (s.withQueue rest)) ∨
    (∃ a b rest, s.hostq = .writeCbuf a b :: rest ∧ t = hostWriteCbuf a b (s.withQueue rest)) ∨
    (∃ w rest, s.hostq = .command w :: rest ∧
      ((∃ i, decode w = .ok i ∧ exec i (s.withQueue rest) = .next t) ∨
        ∃ e, decode w = .error e ∧ t = rejectWord e (s.withQueue rest))) := by
  unfold step at h
  split at h
  · rename_i hq
    exact .inl ⟨hq, (Host.Outcome.next.inj h).symm⟩
  · rename_i i v rest hq
    exact .inr (.inl ⟨i, v, rest, hq, (Host.Outcome.next.inj h).symm⟩)
  · rename_i a b rest hq
    exact .inr (.inr (.inl ⟨a, b, rest, hq, (Host.Outcome.next.inj h).symm⟩))
  · rename_i w rest hq
    refine .inr (.inr (.inr ⟨w, rest, hq, ?_⟩))
    split at h
    · rename_i i hd
      exact .inl ⟨i, hd, h⟩
    · rename_i e hd
      exact .inr ⟨e, hd, (Host.Outcome.next.inj h).symm⟩

/-- A property that every change, the host's events and the queue keep is kept by every step. -/
theorem step_keeps {P : State → Prop} (hm : ∀ a s t, Micro a s t → P s → P t)
    (hq : ∀ s q, P s → P (s.withQueue q)) (hb : ∀ s a b, P s → P (hostWriteCbuf a b s))
    (h : step s = .next t) (hs : P s) : P t := by
  rcases step_cases h with ⟨-, rfl⟩ | ⟨i, v, rest, -, rfl⟩ | ⟨a, b, rest, -, rfl⟩ | ⟨w, rest, -, hw⟩
  · exact hs
  · exact hm _ _ _ (.arg _ _ _) (hq s rest hs)
  · exact hb _ _ _ (hq s rest hs)
  · rcases hw with ⟨i, -, he⟩ | ⟨e, -, rfl⟩
    · exact (exec_effects he).keeps (fun a _ => hm a) (hq s rest hs)
    · exact (raise_effects _ _).keeps (fun a _ => hm a) (hq s rest hs)

end Sys2Proof.Machine
end

