-- ==== Sys2Proof/Laws/Trees.lean ====
section
/-! SUPPORT. Tree reads complete: from an even start inside a tree whose probabilities are given, the walk
of 40_range_decoder.md R135 ends at a leaf. -/

namespace Sys2Proof.Machine

/-- Every entry of a tree that is no leaf names a later node. -/
abbrev TreeOk (T : List Int) : Prop :=
  T.length % 2 = 0 ∧
    ∀ j < T.length, 0 < T.getD j 0 → (T.getD j 0).toNat % 2 = 0 ∧ j < (T.getD j 0).toNat ∧
      (T.getD j 0).toNat < T.length

theorem treeOf_ok : ∀ n ≤ 9, TreeOk (treeOf n) := by decide

theorem boolNat_le (b : Bool) : boolNat b ≤ 1 := by cases b <;> decide

theorem getD_eq (T : List Int) (i : Nat) : T[i]?.getD 0 = T.getD i 0 := by simp [List.getD]

/-- The walk ends at a leaf, its number is the leaf's, and the instance has read some bools. -/
theorem readTreeFrom_ok {cbuf : Memory Byte} {T : List Int} (hT : TreeOk T) {P : Nat → Res Byte}
    (hP : ∀ j < T.length / 2, ∃ p, P j = .ok p) {n i : Nat} (hi : i % 2 = 0) (hl : i < T.length)
    (hn : T.length ≤ n + i) (r : Rd) :
    ∃ j v r', j < T.length ∧ T.getD j 0 ≤ 0 ∧ v = (-(T.getD j 0)).toNat ∧
      readTreeFrom cbuf T P n i r = .ok (v, r') := by
  induction n generalizing i r with
  | zero => omega
  | succ n ih =>
    obtain ⟨p, hp⟩ := hP (i / 2) (by omega)
    have hb := boolNat_le (readBool cbuf p r).1
    have hlt : i + boolNat (readBool cbuf p r).1 < T.length := by have := hT.1; omega
    simp only [readTreeFrom, hp, Res.ok_bind, getD_eq]
    split
    · rename_i he
      exact ⟨_, _, _, hlt, he, rfl, rfl⟩
    · rename_i he
      obtain ⟨h1, h2, h3⟩ := hT.2 _ hlt (by omega)
      exact ih h1 h3 (by omega) _

theorem readTree_ok {cbuf : Memory Byte} {T : List Int} (hT : TreeOk T) {P : Nat → Res Byte}
    (hP : ∀ j < T.length / 2, ∃ p, P j = .ok p) {start : Nat} (hs : start % 2 = 0)
    (hl : start < T.length) (r : Rd) :
    ∃ j v r', j < T.length ∧ T.getD j 0 ≤ 0 ∧ v = (-(T.getD j 0)).toNat ∧
      readTree cbuf T P start r = .ok (v, r') :=
  readTreeFrom_ok hT hP hs hl (by omega) r

/-- A tree read of the machine completes, with a leaf that a property of all leaves holds of. -/
theorem getTree_ok {s : State} {k : Nat} {T : List Int} (hT : TreeOk T) {P : Nat → Res Byte}
    (hP : ∀ j < T.length / 2, ∃ p, P j = .ok p) {start : Nat} (hs : start % 2 = 0)
    (hl : start < T.length) {Q : Nat → Prop}
    (hQ : ∀ j < T.length, T.getD j 0 ≤ 0 → Q (-(T.getD j 0)).toNat) :
    ∃ v r', readTree s.cbuf T P start (s.rdAt k) = .ok (v, r') ∧ Q v ∧
      s.getTree k T P start = .ok (v, s.setRd k r') := by
  obtain ⟨j, v, r', h1, h2, rfl, h4⟩ := readTree_ok (cbuf := s.cbuf) hT hP hs hl (s.rdAt k)
  exact ⟨_, r', h4, hQ j h1 h2, by unfold State.getTree; rw [h4]; rfl⟩

/-- The walk does not depend on how much more than enough turns it is given. -/
theorem readTreeFrom_fuel {cbuf : Memory Byte} {T : List Int} (hT : TreeOk T) {P : Nat → Res Byte}
    {n m i : Nat} (hi : i % 2 = 0) (hl : i < T.length) (hn : T.length ≤ n + i) (hm : T.length ≤ m + i)
    (r : Rd) : readTreeFrom cbuf T P n i r = readTreeFrom cbuf T P m i r := by
  induction n generalizing i m r with
  | zero => omega
  | succ n ih =>
    cases m with
    | zero => omega
    | succ m =>
      simp only [readTreeFrom]
      cases hp : P (i / 2) with
      | error e => rfl
      | ok p =>
        simp only [Res.ok_bind, getD_eq]
        have hb := boolNat_le (readBool cbuf p r).1
        have hlt : i + boolNat (readBool cbuf p r).1 < T.length := by have := hT.1; omega
        split
        · rfl
        · rename_i he
          obtain ⟨h1, h2, h3⟩ := hT.2 _ hlt (by omega)
          exact ih h1 h3 (by omega) (by omega) _

theorem probs_ok {s : State} {lo n : Nat} (h : s.ProbKnown lo n) : ∀ j < n, ∃ p, s.probs lo j = .ok p := by
  intro j hj
  obtain ⟨p, -, hp⟩ := need_of_isSome .probUnspecified (h j hj)
  exact ⟨p, hp⟩

theorem tableProb_ok (l : List Byte) (n : Nat) : ∀ j < n, ∃ p, tableProb l j = .ok p :=
  fun _ _ => ⟨_, rfl⟩

end Sys2Proof.Machine
end

