-- ==== Sys2Proof/Laws/Completes.lean ====
section
/-! SUPPORT. The work of MD, MP and CD completes where the probabilities and multipliers that it uses are
specified: a range decoder never fails (spec 40_range_decoder.md R141). -/

namespace Sys2Proof.Machine

variable {s t u : State}

/-! ## What a unit leaves of the tables -/

theorem rd_prob {k : Nat} (h : Effects {.rd k} s t) : t.prob = s.prob :=
  h.same (fun x : State => x.prob) fun a ha _ _ hm => by
    have : a = .rd k := ha
    subst this
    exact hm.prob_eq (by simp) (by simp) (by simp)

theorem md_prob (h : Effects tagsMd s t) : t.prob = s.prob :=
  h.same (fun x : State => x.prob) fun a ha _ _ hm =>
    hm.prob_eq (by rintro rfl; simp [tagsMd] at ha) (by rintro rfl; simp [tagsMd] at ha)
      (by rintro rfl; simp [tagsMd] at ha)

theorem cd_prob {k : Nat} (h : Effects (tagsCd k) s t) : t.prob = s.prob :=
  h.same (fun x : State => x.prob) fun a ha _ _ hm =>
    hm.prob_eq (by rintro rfl; simp [tagsCd] at ha) (by rintro rfl; simp [tagsCd] at ha)
      (by rintro rfl; simp [tagsCd] at ha)

theorem md_cr (h : Effects tagsMd s t) : t.cr = s.cr :=
  h.same (fun x : State => x.cr) fun a ha _ _ hm =>
    hm.cr_eq (by rintro k rfl; simp [tagsMd] at ha) (by rintro rfl; simp [tagsMd] at ha)
      (by rintro rfl; simp [tagsMd] at ha)

theorem cd_cr {k : Nat} (h : Effects (tagsCd k) s t) : t.cr = s.cr :=
  h.same (fun x : State => x.cr) fun a ha _ _ hm =>
    hm.cr_eq (by rintro k rfl; simp [tagsCd] at ha) (by rintro rfl; simp [tagsCd] at ha)
      (by rintro rfl; simp [tagsCd] at ha)

theorem cd_dq {k : Nat} (h : Effects (tagsCd k) s t) : t.dq = s.dq :=
  h.same (fun x : State => x.dq) fun a ha _ _ hm =>
    hm.dq_eq (by rintro rfl; simp [tagsCd] at ha) (by rintro rfl; simp [tagsCd] at ha)

theorem cd_segmap {k : Nat} (h : Effects (tagsCd k) s t) : t.segmap = s.segmap :=
  h.same (fun x : State => x.segmap) fun a ha _ _ hm =>
    hm.segmap_eq (by rintro rfl; simp [tagsCd] at ha) (by rintro rfl; simp [tagsCd] at ha)
      (by rintro rfl; simp [tagsCd] at ha) (by rintro rfl; simp [tagsCd] at ha)

theorem State.ProbKnown.of_prob {lo n : Nat} (h : s.ProbKnown lo n) (hp : t.prob = s.prob) : t.ProbKnown lo n := by
  unfold State.ProbKnown State.probAt at *
  rw [hp]
  exact h

theorem State.ProbKnown.part {lo n lo' n' : Nat} (h : s.ProbKnown lo n) (h1 : lo ≤ lo') (h2 : lo' + n' ≤ lo + n) :
    s.ProbKnown lo' n' := by
  intro i hi
  have := h (lo' - lo + i) (by omega)
  rwa [show lo + (lo' - lo + i) = lo' + i by omega] at this

/-- The multipliers of the macroblock are the same where the tables, the segment and the position are. -/
theorem State.DqKnown.of_same (h : s.DqKnown) (hd : t.dq = s.dq) (hc : t.cr = s.cr) (hs : t.segmap = s.segmap) :
    t.DqKnown := by
  unfold State.DqKnown State.seg State.segment State.mbx State.mby State.crBit State.crField State.crRaw at *
  rw [hd, hc, hs]
  exact h

/-! ## Reads -/

theorem getBoolAt_completes (s : State) (k : Nat) {p : Res Byte} (hp : ∃ q, p = .ok q) :
    ∃ b t, s.getBoolAt k p = .ok (b, t) := by
  obtain ⟨q, rfl⟩ := hp
  exact ⟨_, _, rfl⟩

theorem getTree_completes (s : State) (k n : Nat) (hn : n ≤ 9) {P : Nat → Res Byte}
    (hP : ∀ j < (treeOf n).length / 2, ∃ p, P j = .ok p) : ∃ v t, s.getTree k (treeOf n) P 0 = .ok (v, t) := by
  have hl : ∀ n ≤ 9, 0 < (treeOf n).length := by decide
  obtain ⟨v, r, -, -, h⟩ := getTree_ok (s := s) (k := k) (treeOf_ok n hn) hP (start := 0) rfl (hl n hn)
    (Q := fun _ => True) (fun _ _ _ => trivial)
  exact ⟨v, _, h⟩

/-! ## MP -/

theorem mvBits_completes {p : Nat → Res Byte} (hp : ∀ j < 19, ∃ q, p j = .ok q) {l : List Nat}
    (hl : ∀ i ∈ l, i < 10) (s : State) (a : Nat) : ∃ b t, s.mvBits p l a = .ok (b, t) := by
  induction l generalizing s a with
  | nil => exact ⟨_, _, rfl⟩
  | cons i l ih =>
    obtain ⟨b, t, h⟩ := getBoolAt_completes s 0 (hp (9 + i) (by have := hl i (by simp); omega))
    simp only [State.mvBits, h, Res.ok_bind]
    exact ih (fun j hj => hl j (by simp [hj])) t _

theorem mvLong_completes {p : Nat → Res Byte} (hp : ∀ j < 19, ∃ q, p j = .ok q) (s : State) :
    ∃ b t, s.mvLong p = .ok (b, t) := by
  obtain ⟨a, t, h⟩ := mvBits_completes hp (l := [0, 1, 2, 9, 8, 7, 6, 5, 4]) (by decide) s 0
  obtain ⟨b, u, h2⟩ := getBoolAt_completes t 0 (hp 12 (by omega))
  simp only [State.mvLong, h, Res.ok_bind, h2]
  split <;> exact ⟨_, _, rfl⟩

theorem mvMagnitude_completes {p : Nat → Res Byte} (hp : ∀ j < 19, ∃ q, p j = .ok q) (s : State) :
    ∃ b t, s.mvMagnitude p = .ok (b, t) := by
  obtain ⟨b, t, h⟩ := getBoolAt_completes s 0 (hp 0 (by omega))
  simp only [State.mvMagnitude, h, Res.ok_bind]
  split
  · exact mvLong_completes hp t
  · exact getTree_completes t 0 8 (by omega) fun j hj => hp (2 + j) (by
      have : (treeOf 8).length / 2 = 7 := by decide
      omega)

theorem mvComponent_completes {p : Nat → Res Byte} (hp : ∀ j < 19, ∃ q, p j = .ok q) (s : State) :
    ∃ b t, s.mvComponent p = .ok (b, t) := by
  obtain ⟨a, t, h⟩ := mvMagnitude_completes hp s
  obtain ⟨b, u, h2⟩ := getBoolAt_completes t 0 (hp 1 (by omega))
  simp only [State.mvComponent, h, Res.ok_bind, h2]
  split <;> exact ⟨_, _, rfl⟩

theorem readMv_completes (h : s.ProbKnown (mvcIndex 0) 38) : ∃ d t, s.readMv = .ok (d, t) := by
  obtain ⟨dy, t, h1⟩ := mvComponent_completes (probs_ok (h.part (lo' := mvcIndex 0) (n' := 19) (by decide) (by decide))) s
  have ht : t.ProbKnown (mvcIndex 0) 38 := h.of_prob (rd_prob (mvComponent_effects h1))
  obtain ⟨dx, u, h2⟩ := mvComponent_completes (probs_ok (ht.part (lo' := mvcIndex 1) (n' := 19) (by decide) (by decide))) t
  exact ⟨_, u, by simp only [State.readMv, h1, Res.ok_bind, h2]; rfl⟩

theorem mpReadmv_completes (h : s.ProbKnown (mvcIndex 0) 38) : ∃ t, mpReadmv s = .ok t := by
  obtain ⟨d, t, h1⟩ := readMv_completes h
  exact ⟨_, by simp only [mpReadmv, h1, Res.ok_bind]; rfl⟩

theorem mpMode_completes (s : State) : ∃ t, mpMode s = .ok t := by
  obtain ⟨v, t, h⟩ := getTree_completes s 0 5 (by omega) (P := fun k => .ok (s.cand.modeProb k)) fun j _ => ⟨_, rfl⟩
  exact ⟨_, by simp only [mpMode]; rw [show mvrefTree = treeOf 5 from rfl, h]; rfl⟩

theorem readSub_completes (h : s.ProbKnown (mvcIndex 0) 38) (l a : Mv) : ∃ v t, s.readSub l a = .ok (v, t) := by
  obtain ⟨c, t, h1⟩ := getTree_completes s 0 7 (by omega)
    (P := tableProb (submvProbs[subCtx l a]?.getD [])) fun j _ => ⟨_, rfl⟩
  have ht : t.ProbKnown (mvcIndex 0) 38 := h.of_prob (rd_prob (.one (Set.mem_singleton _) (.ofTree h1)))
  obtain ⟨d, u, h2⟩ := readMv_completes ht
  simp only [State.readSub]
  rw [show submvrefTree = treeOf 7 from rfl, h1]
  simp only [Res.ok_bind, h2]
  split
  · exact ⟨_, _, rfl⟩
  · split
    · exact ⟨_, _, rfl⟩
    · split <;> exact ⟨_, _, rfl⟩

theorem splitStep_completes (h : s.ProbKnown (mvcIndex 0) 38) (shape : Nat) (p : Nat × Nat) :
    ∃ t, splitStep shape s p = .ok t ∧ t.ProbKnown (mvcIndex 0) 38 := by
  obtain ⟨v, t, h1⟩ := readSub_completes h (s.leftSub p.1) (s.aboveSub p.1)
  have ht : t.ProbKnown (mvcIndex 0) 38 := h.of_prob (rd_prob (readSub_effects h1))
  exact ⟨t.setCur { t.cur with bmv := fillPart shape p.2 v t.cur.bmv }, by
    simp only [splitStep, h1, Res.ok_bind], ht⟩

theorem mpSplit_completes (h : s.ProbKnown (mvcIndex 0) 38) : ∃ t, mpSplit s = .ok t := by
  obtain ⟨v, t, h1⟩ := getTree_completes s 0 6 (by omega) (P := tableProb splitProbs) fun j _ => ⟨_, rfl⟩
  have ht : t.ProbKnown (mvcIndex 0) 38 := h.of_prob (rd_prob (.one (Set.mem_singleton _) (.ofTree h1)))
  obtain ⟨u, h2, -⟩ := foldlM_completes (P := fun x : State => x.ProbKnown (mvcIndex 0) 38)
    (f := splitStep v) (l := (splitFirst[v]?.getD []).zipIdx) (fun x hx p _ => splitStep_completes hx v p)
    (s := t.setCur { t.cur with split := SplitShape.ofNum v }) ht
  exact ⟨_, by simp only [mpSplit]; rw [show splitTree = treeOf 6 from rfl, h1]; simp only [Res.ok_bind, h2]; rfl⟩

theorem mpVector_completes (h : s.ProbKnown (mvcIndex 0) 38) : ∃ t, mpVector s = .ok t := by
  unfold mpVector
  split
  case h_3 =>
    obtain ⟨d, t, h1⟩ := readMv_completes h
    exact ⟨_, by simp only [h1, Res.ok_bind]; rfl⟩
  case h_4 => exact mpSplit_completes h
  all_goals exact ⟨_, rfl⟩

theorem mpMb_completes (h : s.ProbKnown (mvcIndex 0) 38) : ∃ t, mpMb s = .ok t := by
  obtain ⟨t, h1⟩ := mpMode_completes (mpNear s)
  have ht : t.ProbKnown (mvcIndex 0) 38 := h.of_prob ((md_prob (mpMode_effects h1)).trans (md_prob (mpNear_effects s)))
  obtain ⟨u, h2⟩ := mpVector_completes ht
  exact ⟨_, by simp only [mpMb, h1, Res.ok_bind, h2]; rfl⟩

/-! ## MD -/

theorem readSegid_completes (h : (s.crBit 3 0 && s.crBit 3 1) = true → s.ProbKnown segidIndex 3) :
    ∃ t, readSegid s = .ok t := by
  unfold readSegid
  split
  · rename_i hb
    obtain ⟨v, t, h1⟩ := getTree_completes s 0 0 (by omega) (P := s.probs segidIndex) fun j hj =>
      probs_ok (h hb) j (by have : (treeOf 0).length / 2 = 3 := by decide
                            omega)
    rw [show segmentTree = treeOf 0 from rfl, h1]
    exact ⟨_, rfl⟩
  · exact ⟨_, rfl⟩

theorem mdSegid_completes (h : (s.crBit 3 0 && s.crBit 3 1) = true → s.ProbKnown segidIndex 3) :
    ∃ t, mdSegid s = .ok t := by
  obtain ⟨t, h1⟩ := readSegid_completes h
  exact ⟨_, by simp only [mdSegid, h1, Res.ok_bind]; rfl⟩

theorem mdSkip_completes (h : s.crBit 14 0 = true → s.ProbKnown mbskipIndex 1) : ∃ t, mdSkip s = .ok t := by
  have : ∃ b t, readSkip s = .ok (b, t) := by
    unfold readSkip
    split
    · rename_i hb
      exact getBoolAt_completes s 0 (probs_ok (h hb) 0 (by omega))
    · exact ⟨_, _, rfl⟩
  obtain ⟨b, t, h1⟩ := this
  exact ⟨_, by simp only [mdSkip, h1, Res.ok_bind]; rfl⟩

theorem mdYmodeKf_completes (s : State) : ∃ t, mdYmodeKf s = .ok t := by
  obtain ⟨v, t, h1⟩ := getTree_completes s 0 1 (by omega) (P := tableProb kfYmodeProbs) fun j _ => ⟨_, rfl⟩
  exact ⟨_, by simp only [mdYmodeKf]; rw [show kfYmodeTree = treeOf 1 from rfl, h1]; rfl⟩

theorem mdYmodeIf_completes (h : s.ProbKnown ymodeIndex 4) : ∃ t, mdYmodeIf s = .ok t := by
  obtain ⟨v, t, h1⟩ := getTree_completes s 0 2 (by omega) (P := s.probs ymodeIndex) fun j hj =>
    probs_ok h j (by have : (treeOf 2).length / 2 = 4 := by decide
                     omega)
  exact ⟨_, by simp only [mdYmodeIf]; rw [show ymodeTree = treeOf 2 from rfl, h1]; rfl⟩

theorem bmodeStep_completes {P : State → Nat → Nat → Res Byte} (hP : ∀ s b n, ∃ p, P s b n = .ok p) (s : State)
    (b : Nat) : ∃ t, bmodeStep P s b = .ok t := by
  obtain ⟨v, t, h1⟩ := getTree_completes s 0 4 (by omega) (P := P s b) fun j _ => hP s b j
  exact ⟨_, by simp only [bmodeStep]; rw [show bmodeTree = treeOf 4 from rfl, h1]; rfl⟩

theorem mdBmodesKf_completes (T : OpenTables) (s : State) : ∃ t, mdBmodesKf T s = .ok t := by
  obtain ⟨t, h, -⟩ := foldlM_completes (P := fun _ => True) (f := bmodeStep (keyBModeProbs T)) (l := List.range 16)
    (fun x _ b _ => by
      obtain ⟨y, hy⟩ := bmodeStep_completes (P := keyBModeProbs T) (fun _ _ _ => ⟨_, rfl⟩) x b
      exact ⟨y, hy, trivial⟩) (s := s) trivial
  exact ⟨t, h⟩

theorem mdBmodesIf_completes (s : State) : ∃ t, mdBmodesIf s = .ok t := by
  obtain ⟨t, h, -⟩ := foldlM_completes (P := fun _ => True) (f := bmodeStep fun _ _ => tableProb bmodeProbs)
    (l := List.range 16)
    (fun x _ b _ => by
      obtain ⟨y, hy⟩ := bmodeStep_completes (P := fun _ _ => tableProb bmodeProbs) (fun _ _ _ => ⟨_, rfl⟩) x b
      exact ⟨y, hy, trivial⟩) (s := s) trivial
  exact ⟨t, h⟩

theorem mdUvmode_completes {P : Nat → Res Byte} (hP : ∀ j < 3, ∃ p, P j = .ok p) (s : State) :
    ∃ t, mdUvmode P s = .ok t := by
  obtain ⟨v, t, h1⟩ := getTree_completes s 0 3 (by omega) (P := P) fun j hj =>
    hP j (by have : (treeOf 3).length / 2 = 3 := by decide
             omega)
  exact ⟨_, by simp only [mdUvmode]; rw [show uvmodeTree = treeOf 3 from rfl, h1]; rfl⟩

theorem readRef_completes (h : s.ProbKnown intraIndex 3) : ∃ r t, s.readRef = .ok (r, t) := by
  obtain ⟨b1, t, h1⟩ := getBoolAt_completes s 0
    (probs_ok (h.part (lo' := intraIndex) (n' := 1) (by decide) (by decide)) 0 (by omega))
  have ht : t.ProbKnown intraIndex 3 := h.of_prob (rd_prob (.one (Set.mem_singleton _) (.ofBoolAt h1)))
  obtain ⟨b2, u, h2⟩ := getBoolAt_completes t 0
    (probs_ok (ht.part (lo' := lastIndex) (n' := 1) (by decide) (by decide)) 0 (by omega))
  have hu : u.ProbKnown intraIndex 3 := ht.of_prob (rd_prob (.one (Set.mem_singleton _) (.ofBoolAt h2)))
  obtain ⟨b3, w, h3⟩ := getBoolAt_completes u 0
    (probs_ok (hu.part (lo' := goldenIndex) (n' := 1) (by decide) (by decide)) 0 (by omega))
  simp only [State.readRef, h1, Res.ok_bind, h2, h3]
  split
  · exact ⟨_, _, rfl⟩
  · split <;> exact ⟨_, _, rfl⟩

theorem mdRef_completes (h : s.ProbKnown intraIndex 3) : ∃ t, mdRef s = .ok t := by
  obtain ⟨r, t, h1⟩ := readRef_completes h
  exact ⟨_, by simp only [mdRef, h1, Res.ok_bind]; rfl⟩

theorem mdIntraKf_completes (T : OpenTables) (s : State) : ∃ t, mdIntraKf T s = .ok t := by
  obtain ⟨t, h1⟩ := mdYmodeKf_completes s
  have : ∃ u, mdSubKf T t = .ok u := by
    unfold mdSubKf
    split
    · exact mdBmodesKf_completes T t
    · exact ⟨_, rfl⟩
  obtain ⟨u, h2⟩ := this
  obtain ⟨w, h3⟩ := mdUvmode_completes (tableProb_ok kfUvmodeProbs 3) u
  exact ⟨w, by simp only [mdIntraKf, h1, Res.ok_bind, h2]; exact h3⟩

theorem mdIntraIf_completes (h4 : s.ProbKnown ymodeIndex 4) (h3 : s.ProbKnown uvmodeIndex 3) :
    ∃ t, mdIntraIf s = .ok t := by
  obtain ⟨t, h1⟩ := mdYmodeIf_completes h4
  have : ∃ u, mdSubIf t = .ok u := by
    unfold mdSubIf
    split
    · exact mdBmodesIf_completes t
    · exact ⟨_, rfl⟩
  obtain ⟨u, h2⟩ := this
  have hu : u.ProbKnown uvmodeIndex 3 :=
    h3.of_prob ((md_prob (mdSubIf_effects h2)).trans (md_prob (mdYmodeIf_effects h1)))
  obtain ⟨w, h5⟩ := mdUvmode_completes (probs_ok hu) u
  exact ⟨w, by simp only [mdIntraIf, h1, Res.ok_bind, h2]; exact h5⟩

/-- The probabilities that an interframe's macroblock uses, apart from its segment and skip flag. -/
abbrev State.InterKnown (s : State) : Prop :=
  s.ProbKnown ymodeIndex 4 ∧ s.ProbKnown uvmodeIndex 3 ∧ s.ProbKnown intraIndex 3 ∧ s.ProbKnown (mvcIndex 0) 38

theorem State.InterKnown.of_prob (h : s.InterKnown) (hp : t.prob = s.prob) : t.InterKnown :=
  ⟨h.1.of_prob hp, h.2.1.of_prob hp, h.2.2.1.of_prob hp, h.2.2.2.of_prob hp⟩

theorem mdInterframe_completes (h : s.InterKnown) : ∃ t, mdInterframe s = .ok t := by
  obtain ⟨t, h1⟩ := mdRef_completes h.2.2.1
  have ht := State.InterKnown.of_prob h (md_prob (mdRef_effects h1))
  simp only [mdInterframe, h1, Res.ok_bind]
  split
  · exact mdIntraIf_completes ht.1 ht.2.1
  · exact mpMb_completes ht.2.2.2

theorem mdModes_completes (T : OpenTables) (h : s.crBit 0 0 = false → s.InterKnown) : ∃ t, mdModes T s = .ok t := by
  unfold mdModes
  split
  · exact mdIntraKf_completes T s
  · rename_i hb
    exact mdInterframe_completes (h (by simpa using hb))

theorem mdMb_completes (T : OpenTables)
    (h1 : (s.crBit 3 0 && s.crBit 3 1) = true → s.ProbKnown segidIndex 3)
    (h2 : s.crBit 14 0 = true → s.ProbKnown mbskipIndex 1) (h3 : s.crBit 0 0 = false → s.InterKnown) :
    ∃ t, mdMb T s = .ok t := by
  have hcr : ∀ {x y : State}, y.cr = x.cr → ∀ i b, y.crBit i b = x.crBit i b := by
    intro x y h i b
    unfold State.crBit State.crRaw
    rw [h]
  obtain ⟨t, e1⟩ := mdSegid_completes h1
  have c1 := mdSegid_effects e1
  obtain ⟨u, e2⟩ := mdSkip_completes (s := t) fun hb =>
    (h2 (by rwa [hcr (md_cr c1)] at hb)).of_prob (md_prob c1)
  have c2 := mdSkip_effects e2
  obtain ⟨w, e3⟩ := mdModes_completes (s := u) T fun hb =>
    State.InterKnown.of_prob (h3 (by rwa [hcr (md_cr c2), hcr (md_cr c1)] at hb)) ((md_prob c2).trans (md_prob c1))
  exact ⟨_, by simp only [mdMb, e1, Res.ok_bind, e2, e3]; rfl⟩

/-! ## CD -/

theorem dqCur_completes (h : s.DqKnown) : ∃ d, s.dqCur = .ok d := by
  obtain ⟨d, -, hd⟩ := need_of_isSome .dqUnspecified h
  exact ⟨d, hd⟩

theorem storeToken_completes {k : Nat} (h : s.DqKnown) (ty b i tok : Nat) :
    ∃ m t, s.storeToken ty b k i tok = .ok (m, t) := by
  have e : Effects (tagsCd k) s ((s.tokenMagnitude k tok).2.getBool k 128).2 :=
    ((tokenMagnitude_effects s).mono (by simp [tagsCd])).then (by simp [tagsCd]) (.ofBool _ k 128)
  obtain ⟨d, hd⟩ := dqCur_completes (h.of_same (cd_dq e) (cd_cr e) (cd_segmap e))
  simp only [State.storeToken, hd, Res.ok_bind]
  exact ⟨_, _, rfl⟩

theorem bands_lt : ∀ i < 16, bands[i]?.getD 0 < 8 := by decide

/-- The loop of a block completes, from either of the two places in the tree where it may start. -/
theorem cdLoop_completes {ty k : Nat} (hp : s.ProbKnown (264 * ty) 264) (hd : s.DqKnown) (b n i : Nat)
    {ctx start : Nat} (hc : ctx ≤ 2) (hs : start = 0 ∨ start = 2) :
    ∃ j t, cdLoop ty b k n s i ctx start = .ok (j, t) := by
  induction n generalizing s i ctx start with
  | zero => exact ⟨_, _, rfl⟩
  | succ n ih =>
    unfold cdLoop
    split
    · exact ⟨_, _, rfl⟩
    · rename_i hi
      have hb := bands_lt i (by omega)
      have h0 : start % 2 = 0 ∧ start < tokenTree.length := by rcases hs with rfl | rfl <;> decide
      obtain ⟨tok, r, -, -, h1⟩ := getTree_ok (s := s) (k := k) (T := tokenTree) (treeOf_ok 9 (by omega))
        (P := s.probs (tokenIndex ty (bands[i]?.getD 0) ctx)) (fun j hj => probs_ok (hp.part
          (lo' := tokenIndex ty (bands[i]?.getD 0) ctx) (n' := 11) (by unfold tokenIndex; omega)
          (by unfold tokenIndex; omega)) j (by have : tokenTree.length / 2 = 11 := by decide
                                               omega))
        h0.1 h0.2 (Q := fun _ => True) (fun _ _ _ => trivial)
      have e1 : Effects (tagsCd k) s (s.setRd k r) := .one (by simp [tagsCd]) (.ofTree h1)
      have hp1 := hp.of_prob (cd_prob e1)
      have hd1 := hd.of_same (cd_dq e1) (cd_cr e1) (cd_segmap e1)
      simp only [h1, Res.ok_bind]
      split
      · exact ⟨_, _, rfl⟩
      · split
        · exact ih hp1 hd1 _ (by omega) (.inr rfl)
        · obtain ⟨m, w, h2⟩ := storeToken_completes (k := k) hd1 ty b i tok
          have e2 := storeToken_effects h2
          simp only [h2, Res.ok_bind]
          exact ih (hp1.of_prob (cd_prob e2)) (hd1.of_same (cd_dq e2) (cd_cr e2) (cd_segmap e2)) _
            (by split <;> omega) (.inl rfl)

theorem firstCtx_le (s : State) (b : Nat) : s.firstCtx b ≤ 2 := by
  have h1 := boolNat_le (s.nzAboveOf b)
  have h2 := boolNat_le (s.nzLeftOf b)
  unfold State.firstCtx
  omega

theorem cdTokens_completes {ty k : Nat} (hp : s.ProbKnown (264 * ty) 264) (hd : s.DqKnown) (b : Nat) :
    ∃ j t, cdTokens ty b k s = .ok (j, t) := by
  obtain ⟨j, t, h⟩ := cdLoop_completes (k := k) hp hd b 16 (firstPos ty) (firstCtx_le s b) (.inl rfl)
  exact ⟨_, _, by simp only [cdTokens, h, Res.ok_bind]; rfl⟩

theorem cdBlock_completes {ty k : Nat} (hp : s.ProbKnown (264 * ty) 264) (hd : s.DqKnown) (b : Nat) :
    ∃ t, cdBlock ty b k s = .ok t := by
  obtain ⟨j, t, h⟩ := cdTokens_completes (k := k) hp hd b
  exact ⟨_, by simp only [cdBlock, h, Res.ok_bind]; rfl⟩

/-- The plane types of a macroblock's blocks. -/
theorem mbBlocks_type : ∀ y2 : Bool, ∀ e ∈ mbBlocks y2,
    (y2 = true → e.1 ≤ 2) ∧ (y2 = false → e.1 = 2 ∨ e.1 = 3) := by decide

theorem cdMb_completes {k : Nat} (hd : s.DqKnown) (h1 : hasY2 s.cur.mode = true → s.ProbKnown 0 792)
    (h2 : hasY2 s.cur.mode = false → s.ProbKnown 528 528) : ∃ t, cdMb k s = .ok t := by
  obtain ⟨⟨any, t⟩, h, -⟩ := foldlM_completes
    (P := fun x : Bool × State => x.2.DqKnown ∧ ∀ e ∈ mbBlocks (hasY2 s.cur.mode), x.2.ProbKnown (264 * e.1) 264)
    (f := cdMbStep k) (l := mbBlocks (hasY2 s.cur.mode)) (fun x hx e he => by
      obtain ⟨t, h⟩ := cdBlock_completes (k := k) (hx.2 e he) hx.1 e.2
      have c := cdBlock_effects h
      exact ⟨_, by simp only [cdMbStep, h, Res.ok_bind]; rfl, hx.1.of_same (cd_dq c) (cd_cr c) (cd_segmap c),
        fun e he => (hx.2 e he).of_prob (cd_prob c)⟩) (s := (false, s.clearCoef)) ⟨hd, fun e he => by
      have ht := mbBlocks_type (hasY2 s.cur.mode) e he
      cases hy : hasY2 s.cur.mode with
      | true => exact (h1 hy).part (s := s.clearCoef) (by omega) (by have := ht.1 hy; omega)
      | false => exact (h2 hy).part (s := s.clearCoef) (by have := ht.2 hy; omega) (by have := ht.2 hy; omega)⟩
  exact ⟨_, by simp only [cdMb, h, Res.ok_bind]; rfl⟩

end Sys2Proof.Machine
end

