-- ==== Sys2Proof/Machine/Configured.lean ====
section
/-! DEFINITION. CORE with any setting of the general-knowledge tables (spec 00_scope.md R15). `exec` and
`step` are these with the given values; their types, which the host fixes, leave no argument for a
setting (Laws/Configured.lean proves both). -/

namespace Sys2Proof.Machine

variable [Configured]

/-- Run one command with the tables that are set. -/
def execWith (i : Instr) (s : State) : Host.Outcome State Fault Refusal :=
  match i with
  | .rdInit k => execRdInit k s
  | .rdBool p k => execRdBool p k s
  | .rdLit n k => execRdLit n k s
  | .rdSlit n k => execRdSlit n k s
  | .rdTree tree start k => execRdTree tree start k s
  | .mdSegid => execMdSegid s
  | .mdSkip => execMdSkip s
  | .mdYmodeKf => execMdYmodeKf s
  | .mdYmodeIf => execMdYmodeIf s
  | .mdBmodesKf => execMdBmodesKf s
  | .mdBmodesIf => execMdBmodesIf s
  | .mdUvmodeKf => execMdUvmodeKf s
  | .mdUvmodeIf => execMdUvmodeIf s
  | .mdRef => execMdRef s
  | .mdMb => execMdMb s
  | .mpNear => execMpNear s
  | .mpMode => execMpMode s
  | .mpReadmv => execMpReadmv s
  | .mpSplit => execMpSplit s
  | .mpClamp => execMpClamp s
  | .mpMb => execMpMb s
  | .cdBlock type block k => execCdBlock type block k s
  | .cdMb k => execCdMb k s
  | .cdSkipmb => execCdSkipmb s
  | .ipY16Dc => execIpY16Dc s
  | .ipY16V => execIpY16V s
  | .ipY16H => execIpY16H s
  | .ipY16Tm => execIpY16Tm s
  | .ipUv8Dc => execIpUv8Dc s
  | .ipUv8V => execIpUv8V s
  | .ipUv8H => execIpUv8H s
  | .ipUv8Tm => execIpUv8Tm s
  | .ipY4Dc block => execIpY4Dc block s
  | .ipY4Tm block => execIpY4Tm block s
  | .ipY4Ve block => execIpY4Ve block s
  | .ipY4He block => execIpY4He block s
  | .ipY4Ld block => execIpY4Ld block s
  | .ipY4Rd block => execIpY4Rd block s
  | .ipY4Vr block => execIpY4Vr block s
  | .ipY4Vl block => execIpY4Vl block s
  | .ipY4Hd block => execIpY4Hd block s
  | .ipY4Hu block => execIpY4Hu block s
  | .ipMb => execIpMb s
  | .mcLuma ref => execMcLuma ref s
  | .mcChroma ref plane => execMcChroma ref plane s
  | .mcMb => execMcMb s
  | .itDqsetup segment => execItDqsetup segment s
  | .itWht => execItWht s
  | .itIdctAdd plane block => execItIdctAdd plane block s
  | .itMb => execItMb s
  | .lfParams => execLfParams s
  | .lfMb => execLfMb s
  | .lfRow => execLfRow s
  | .lfsEdge plane dir => execLfsEdge plane dir s
  | .lfnMbedge plane dir => execLfnMbedge plane dir s
  | .lfnInner plane dir => execLfnInner plane dir s
  | .fcReset => execFcReset s
  | .fcSetmb => execFcSetmb s
  | .fcNextmb => execFcNextmb s
  | .fcRowstart => execFcRowstart s
  | .fcRowend => execFcRowend s
  | .fcWrctl reg => execFcWrctl reg s
  | .fcRdctl reg => execFcRdctl reg s
  | .fcWrprob value => execFcWrprob value s
  | .fcRdprob copy => execFcRdprob copy s
  | .fcProbsave => execFcProbsave s
  | .fcProbrestore => execFcProbrestore s
  | .fcHeader => execFcHeader s
  | .fcFramestart => execFcFramestart s
  | .fcFrameend => execFcFrameend s
  | .fcFrame => execFcFrame s
  | .fcWrarg index => execFcWrarg index s

/-- One step with the tables that are set. -/
def stepWith (s : State) : Host.Outcome State Fault Refusal :=
  match s.hostq with
  | [] => .next s
  | .writeArg i v :: rest => .next (hostWriteArg i v (s.withQueue rest))
  | .writeCbuf addr b :: rest => .next (hostWriteCbuf addr b (s.withQueue rest))
  | .command w :: rest =>
    match decode w with
    | .ok i => execWith i (s.withQueue rest)
    | .error e => .next (rejectWord e (s.withQueue rest))

end Sys2Proof.Machine
end

