-- ==== Sys2Proof/Laws/Configured.lean ====
section
/-! SUPPORT. `exec` and `step` are CORE with the given values of the general-knowledge tables (spec
00_scope.md R15). -/

namespace Sys2Proof.Machine

/-- A command of `exec` is the command with the given values. -/
theorem exec_eq_execWith (i : Instr) (s : State) : exec i s = execWith i s := by cases i <;> rfl

/-- A step of `step` is the step with the given values. -/
theorem step_eq_stepWith (s : State) : step s = stepWith s := by
  unfold step stepWith
  rcases s.hostq with _ | ⟨e, rest⟩
  · rfl
  · cases e with
    | command w =>
      show (match decode w with | .ok i => _ | .error e => _) = match decode w with | .ok i => _ | .error e => _
      cases decode w
      · rfl
      · exact exec_eq_execWith _ _
    | writeArg i v => rfl
    | writeCbuf a b => rfl

end Sys2Proof.Machine
end

