-- ==== Sys2Proof/Laws/Encoding.lean ====
section
/-! SUPPORT. The four fields of a command word: taking a word apart and putting it together. -/

namespace Sys2Proof

theorem getLsbD_packWord (o a b c : Byte) (i : Nat) : (packWord o a b c).getLsbD i =
    if i < 8 then c.getLsbD i else if i - 8 < 8 then b.getLsbD (i - 8)
    else if i - 8 - 8 < 8 then a.getLsbD (i - 8 - 8) else o.getLsbD (i - 8 - 8 - 8) := by
  simp only [packWord, BitVec.getLsbD_append]

@[simp] theorem opField_packWord (o a b c : Byte) : opField (packWord o a b c) = o := by
  apply BitVec.eq_of_getLsbD_eq
  intro i hi
  rw [opField, BitVec.getLsbD_extractLsb', getLsbD_packWord, if_neg (by omega), if_neg (by omega),
    if_neg (by omega), show 24 + i - 8 - 8 - 8 = i by omega]
  simp [hi]

@[simp] theorem aField_packWord (o a b c : Byte) : aField (packWord o a b c) = a := by
  apply BitVec.eq_of_getLsbD_eq
  intro i hi
  rw [aField, BitVec.getLsbD_extractLsb', getLsbD_packWord, if_neg (by omega), if_neg (by omega),
    if_pos (by omega), show 16 + i - 8 - 8 = i by omega]
  simp [hi]

@[simp] theorem bField_packWord (o a b c : Byte) : bField (packWord o a b c) = b := by
  apply BitVec.eq_of_getLsbD_eq
  intro i hi
  rw [bField, BitVec.getLsbD_extractLsb', getLsbD_packWord, if_neg (by omega), if_pos (by omega),
    show 8 + i - 8 = i by omega]
  simp [hi]

@[simp] theorem cField_packWord (o a b c : Byte) : cField (packWord o a b c) = c := by
  apply BitVec.eq_of_getLsbD_eq
  intro i hi
  rw [cField, BitVec.getLsbD_extractLsb', getLsbD_packWord, if_pos (by omega), Nat.zero_add]
  simp [hi]

/-- A word is its four fields. -/
theorem packWord_fields (w : Word) : packWord (opField w) (aField w) (bField w) (cField w) = w := by
  apply BitVec.eq_of_getLsbD_eq
  intro i hi
  rw [getLsbD_packWord, opField, aField, bField, cField]
  simp only [BitVec.getLsbD_extractLsb']
  split
  · simp [*]
  · split
    · rw [show 8 + (i - 8) = i by omega]; simp [*]
    · split
      · rw [show 16 + (i - 8 - 8) = i by omega]; simp [*]
      · rw [show 24 + (i - 8 - 8 - 8) = i by omega]
        have : i - 8 - 8 - 8 < 8 := by omega
        simp [this]

theorem packWord_inj {o a b c o' a' b' c' : Byte} :
    packWord o a b c = packWord o' a' b' c' ↔ o = o' ∧ a = a' ∧ b = b' ∧ c = c' := by
  constructor
  · intro h
    exact ⟨by simpa using congrArg opField h, by simpa using congrArg aField h,
      by simpa using congrArg bField h, by simpa using congrArg cField h⟩
  · rintro ⟨rfl, rfl, rfl, rfl⟩; rfl

/-- Decoding a word put together from its fields. -/
theorem decode_packWord (o a b c : Byte) : decode (packWord o a b c) = decodeFields o a b c := by
  simp [decode]

end Sys2Proof
end

