-- ==== Sys2Proof/Laws/Pixels.lean ====
section
/-! SUPPORT. What writing a block of pixels does to every pixel (spec 00_scope.md R13). -/

namespace Sys2Proof.Machine

variable (s : State)

/-- Addresses of a plane are those of its pixels: no plane is wider than 16384 pixels (10_state.md R30). -/
theorem pixKey_inj {x y a b : Nat} (hx : x < 16384) (ha : a < 16384) (h : pixKey x y = pixKey a b) :
    x = a ∧ y = b := by
  unfold pixKey at h
  omega

theorem mem_blockPixels {x0 y0 w h : Nat} {f : Nat → Nat → Byte} {p : Nat × Byte} :
    p ∈ blockPixels x0 y0 w h f ↔
      ∃ r < h, ∃ c < w, p = (pixKey (x0 + c) (y0 + r), f r c) := by
  simp only [blockPixels, List.mem_flatMap, List.mem_range, List.mem_map]
  constructor
  · rintro ⟨r, hr, c, hc, rfl⟩; exact ⟨r, hr, c, hc, rfl⟩
  · rintro ⟨r, hr, c, hc, rfl⟩; exact ⟨r, hr, c, hc, rfl⟩

/-- The first entry of an address, where all its entries hold the same. -/
theorem Memory.find_of_mem {α : Type} {m : Memory α} {k : Nat} {v : α} (h : (k, v) ∈ m)
    (hu : ∀ p ∈ m, p.1 = k → p.2 = v) : Memory.find m k = some v := by
  induction m with
  | nil => simp at h
  | cons p m ih =>
    rw [Memory.find_cons]
    split
    · rename_i hp; rw [hu p (by simp) hp]
    · rename_i hp
      refine ih ?_ fun q hq => hu q (by simp [hq])
      rcases List.mem_cons.1 h with rfl | h
      · exact absurd rfl hp
      · exact h

theorem find_blockPixels {x0 y0 w h : Nat} (f : Nat → Nat → Byte) {x y : Nat} (hw : x0 + w ≤ 16384)
    (hx : x < 16384) :
    Memory.find (blockPixels x0 y0 w h f) (pixKey x y) =
      if x0 ≤ x ∧ x < x0 + w ∧ y0 ≤ y ∧ y < y0 + h then some (f (y - y0) (x - x0)) else none := by
  split
  · rename_i hb
    refine Memory.find_of_mem (mem_blockPixels.2 ⟨y - y0, by omega, x - x0, by omega, ?_⟩) ?_
    · rw [show x0 + (x - x0) = x by omega, show y0 + (y - y0) = y by omega]
    · rintro p hp hk
      obtain ⟨r, hr, c, hc, rfl⟩ := mem_blockPixels.1 hp
      obtain ⟨h1, h2⟩ := pixKey_inj (by omega) hx hk
      show f r c = _
      rw [show r = y - y0 by omega, show c = x - x0 by omega]
  · rename_i hb
    refine Memory.find_eq_none fun p hp hk => hb ?_
    obtain ⟨r, hr, c, hc, rfl⟩ := mem_blockPixels.1 hp
    obtain ⟨h1, h2⟩ := pixKey_inj (by omega) hx hk
    omega

/-- A block written to a plane: its pixels, and every other pixel as before. -/
theorem State.pix_writeBlock {n p x0 y0 w h : Nat} (f : Nat → Nat → Byte) (hn : n < 4) (hp : p < 3)
    (hw : x0 + w ≤ 16384) {a q x y : Nat} (hq : q < 3) (hx : x < 16384) :
    (s.writeBlock n p x0 y0 w h f).pix a q x y =
      if a = n ∧ q = p ∧ x0 ≤ x ∧ x < x0 + w ∧ y0 ≤ y ∧ y < y0 + h then some (f (y - y0) (x - x0))
      else s.pix a q x y := by
  unfold State.pix State.writeBlock
  rw [State.plane_setPlane _ _ _ _ _ _ hn hp hq]
  by_cases h1 : a = n ∧ q = p
  · rw [if_pos h1, Memory.find_setAll, find_blockPixels f hw hx, h1.1, h1.2]
    by_cases h2 : x0 ≤ x ∧ x < x0 + w ∧ y0 ≤ y ∧ y < y0 + h
    · rw [if_pos h2, if_pos ⟨rfl, rfl, h2⟩]; rfl
    · rw [if_neg h2, if_neg (fun hh => h2 hh.2.2)]; rfl
  · rw [if_neg h1, if_neg (fun hh => h1 ⟨hh.1, hh.2.1⟩)]

/-- A block written leaves every pixel known that was known. -/
theorem State.pix_writeBlock_isSome {n p x0 y0 w h : Nat} (f : Nat → Nat → Byte) (hn : n < 4) (hp : p < 3)
    (hw : x0 + w ≤ 16384) {a q x y : Nat} (hq : q < 3) (hx : x < 16384)
    (hs : (s.pix a q x y).isSome = true) : ((s.writeBlock n p x0 y0 w h f).pix a q x y).isSome = true := by
  rw [s.pix_writeBlock f hn hp hw hq hx]
  split
  · rfl
  · exact hs

end Sys2Proof.Machine
end

