-- ==== Sys2Proof/Laws/PixelCompletes.lean ====
section
/-! SUPPORT. The work of IP, MC, IT and LF completes where the pixels that it reads are specified, and
leaves the pixels that it writes specified (spec 44 to 47; 10_state.md R59). -/

namespace Sys2Proof.Machine

variable {s t u : State}

/-! ## What the pixel units leave -/

/-- A pixel that is specified stays so under the pixel units. -/
theorem pix_known {slot n q x y : Nat} (h : Effects (tagsPix slot) s t) (hq : q < 3)
    (hs : (s.pix n q x y).isSome = true) : (t.pix n q x y).isSome = true := by
  refine h.keeps (P := fun v : State => (v.pix n q x y).isSome = true) (fun a ha v w hm hv => ?_) hs
  rcases ha with rfl | ⟨p, hp, rfl⟩
  · unfold State.pix at *
    rwa [hm.plane_eq (by simp) (by simp) (by simp) (by simp)]
  · cases hm with
    | pix =>
      rename_i l
      unfold State.pix at *
      by_cases hn : slot < 4
      · rw [State.plane_setPlane _ _ _ _ _ _ hn hp hq]
        split
        · rename_i e
          rw [e.1, e.2] at hv
          exact Memory.isSome_setAll _ _ hv
        · exact hv
      · have : v.setPlane slot p (Memory.setAll (v.plane slot p) l) = v := by
          unfold State.setPlane
          rw [Vector.setIfInBounds_eq_of_size_le (by omega)]
        rwa [this]

theorem plane_known {slot n q x y : Nat} (h : Effects (tagsPlane slot) s t) (hq : q < 3)
    (hs : (s.pix n q x y).isSome = true) : (t.pix n q x y).isSome = true :=
  pix_known (h.mono (tagsPlane_sub slot)) hq hs

/-- A pixel of another slot is the same. -/
theorem pix_other {slot n q x y : Nat} (h : Effects (tagsPix slot) s t) (hn : n ≠ slot) :
    t.pix n q x y = s.pix n q x y :=
  h.same (fun v : State => v.pix n q x y) fun a ha v w hm => by
    have e : w.plane n q = v.plane n q := hm.plane_eq
      (by rintro p rfl
          rcases ha with ha | ⟨p', -, ha⟩
          · cases ha
          · exact hn (by cases ha; rfl))
      (by rintro rfl; rcases ha with ha | ⟨p', -, ha⟩ <;> cases ha)
      (by rintro rfl; rcases ha with ha | ⟨p', -, ha⟩ <;> cases ha)
      (by rintro rfl; rcases ha with ha | ⟨p', -, ha⟩ <;> cases ha)
    simp only [State.pix, e]

/-- What the pixel units leave alone: everything but pixels and coefficients. -/
structure State.SameButPix (s t : State) : Prop where
  cr : t.cr = s.cr
  mbinfo : t.mbinfo = s.mbinfo
  topb : t.topb = s.topb
  lfp : t.lfp = s.lfp
  prob : t.prob = s.prob
  dq : t.dq = s.dq
  rd : t.rd = s.rd
  segmap : t.segmap = s.segmap

theorem pix_same {slot : Nat} (h : Effects (tagsPix slot) s t) : s.SameButPix t where
  cr := h.same (fun x : State => x.cr) fun a ha v w hm => by
    rcases ha with rfl | ⟨p, -, rfl⟩ <;> exact hm.cr_eq (by simp) (by simp) (by simp)
  mbinfo := h.same (fun x : State => x.mbinfo) fun a ha v w hm => by
    rcases ha with rfl | ⟨p, -, rfl⟩ <;> exact hm.mbinfo_eq (by simp) (by simp) (by simp)
  topb := h.same (fun x : State => x.topb) fun a ha v w hm => by
    rcases ha with rfl | ⟨p, -, rfl⟩ <;> exact hm.topb_eq (by simp) (by simp) (by simp)
  lfp := h.same (fun x : State => x.lfp) fun a ha v w hm => by
    rcases ha with rfl | ⟨p, -, rfl⟩ <;> exact hm.lfp_eq (by simp) (by simp) (by simp)
  prob := h.same (fun x : State => x.prob) fun a ha v w hm => by
    rcases ha with rfl | ⟨p, -, rfl⟩ <;> exact hm.prob_eq (by simp) (by simp) (by simp)
  dq := h.same (fun x : State => x.dq) fun a ha v w hm => by
    rcases ha with rfl | ⟨p, -, rfl⟩ <;> exact hm.dq_eq (by simp) (by simp)
  rd := h.same (fun x : State => x.rd) fun a ha v w hm => by
    rcases ha with rfl | ⟨p, -, rfl⟩ <;> exact hm.rd_eq (by simp) (by simp) (by simp) (by simp)
  segmap := h.same (fun x : State => x.segmap) fun a ha v w hm => by
    rcases ha with rfl | ⟨p, -, rfl⟩ <;> exact hm.segmap_eq (by simp) (by simp) (by simp) (by simp)

theorem plane_same {slot : Nat} (h : Effects (tagsPlane slot) s t) : s.SameButPix t :=
  pix_same (h.mono (tagsPlane_sub slot))

/-! What depends on the control registers and the records alone. -/

theorem crField_of_cr (h : t.cr = s.cr) (i lo n : Nat) : t.crField i lo n = s.crField i lo n := by
  unfold State.crField State.crRaw
  rw [h]

theorem crBit_of_cr (h : t.cr = s.cr) (i b : Nat) : t.crBit i b = s.crBit i b := by
  unfold State.crBit State.crRaw
  rw [h]

theorem mbx_of_cr (h : t.cr = s.cr) : t.mbx = s.mbx := crField_of_cr h _ _ _

theorem mby_of_cr (h : t.cr = s.cr) : t.mby = s.mby := crField_of_cr h _ _ _

theorem mbW_of_cr (h : t.cr = s.cr) : t.mbW = s.mbW := by
  unfold State.mbW State.crRaw
  rw [h]

theorem mbH_of_cr (h : t.cr = s.cr) : t.mbH = s.mbH := by
  unfold State.mbH State.crRaw
  rw [h]

theorem planeW_of_cr (h : t.cr = s.cr) (p : Nat) : t.planeW p = s.planeW p := by
  unfold State.planeW
  rw [mbW_of_cr h]

theorem planeH_of_cr (h : t.cr = s.cr) (p : Nat) : t.planeH p = s.planeH p := by
  unfold State.planeH
  rw [mbH_of_cr h]

theorem posOk_of_cr (h : t.cr = s.cr) : t.posOk = s.posOk := by
  unfold State.posOk
  rw [mbx_of_cr h, mby_of_cr h, mbW_of_cr h, mbH_of_cr h]

theorem curSlot_of_cr (h : t.cr = s.cr) : t.curSlot = s.curSlot := by
  unfold State.curSlot
  rw [crField_of_cr h]

theorem refSlot_of_cr (h : t.cr = s.cr) (r : Nat) : t.refSlot r = s.refSlot r := by
  unfold State.refSlot
  rw [crField_of_cr h]

theorem cur_of_same (h : t.cr = s.cr) (hm : t.mbinfo = s.mbinfo) : t.cur = s.cur := by
  unfold State.cur State.mbRec
  rw [mbx_of_cr h, mby_of_cr h, hm]

/-- No plane is wider than an address of a row allows. -/
theorem planeW_le (s : State) (p : Nat) : s.planeW p ≤ 16384 := by
  have h : s.mbW ≤ 1024 := by
    unfold State.mbW sizeMbW mbCount
    have := field_lt (s.crRaw 1) 0 14
    omega
  unfold State.planeW
  split <;> omega

/-- A specified neighbour stays so under the pixel units. -/
theorem nb_known {slot p : Nat} {x y : Int} (h : Effects (tagsPlane slot) s t) (hp : p < 3)
    (hs : (s.nb slot p x y).isSome = true) : (t.nb slot p x y).isSome = true := by
  have e := plane_same h
  unfold State.nb at *
  rw [planeW_of_cr e.cr, mby_of_cr e.cr, e.topb]
  split
  · rfl
  · split
    · rfl
    · rename_i h1 h2
      rw [if_neg h1, if_neg h2] at hs
      split
      · rename_i h3; rwa [if_pos h3] at hs
      · rename_i h3
        rw [if_neg h3] at hs
        exact plane_known h hp hs

/-- A block written is specified, and what was specified stays so. -/
theorem block_known {n p x0 y0 w h : Nat} (f : Nat → Nat → Byte) (hn : n < 4) (hp : p < 3)
    (hw : x0 + w ≤ 16384) {x y : Nat} (hb : inBlock x0 y0 w h x y) :
    ((s.writeBlock n p x0 y0 w h f).pix n p x y).isSome = true := by
  unfold inBlock at hb
  rw [s.pix_writeBlock f hn hp hw hp (by omega), if_pos ⟨rfl, rfl, hb⟩]
  rfl

/-! ## IP -/

theorem nbs_completes {slot p : Nat} {l : List (Int × Int)} (h : s.NbKnown slot p l) :
    ∃ as, s.nbs slot p l = .ok as := by
  obtain ⟨as, h1, -⟩ := collect_ok (f := .pixelUnspecified) (l := l.map fun q => s.nb slot p q.1 q.2)
    (by intro o ho
        obtain ⟨q, hq, rfl⟩ := List.mem_map.1 ho
        exact h q hq)
  exact ⟨as, h1⟩

theorem State.NbKnown.sub {slot p : Nat} {l m : List (Int × Int)} (h : s.NbKnown slot p l) (hs : m ⊆ l) :
    s.NbKnown slot p m := fun q hq => h q (hs hq)

theorem predOf_completes {m : UvMode} {slot p : Nat} (h : s.NbKnown slot p (s.wholeReads p m)) :
    ∃ f, predOf m s slot p = .ok f := by
  cases m with
  | dcPred =>
    unfold predOf predDc State.aboveRow State.leftCol
    by_cases h1 : 0 < s.mby <;> by_cases h2 : 0 < s.mbx <;> simp only [State.wholeReads, h1, h2, if_true, if_false] at h ⊢
    · obtain ⟨a, ha⟩ := nbs_completes (h.sub (m := s.aboveAts p) (by simp))
      obtain ⟨l, hl⟩ := nbs_completes (h.sub (m := s.leftAts p) (by simp))
      unfold State.aboveAts at ha
      unfold State.leftAts at hl
      exact ⟨_, by rw [ha, hl]; rfl⟩
    · obtain ⟨a, ha⟩ := nbs_completes (h.sub (m := s.aboveAts p) (by simp))
      unfold State.aboveAts at ha
      exact ⟨_, by rw [ha]; rfl⟩
    · obtain ⟨l, hl⟩ := nbs_completes (h.sub (m := s.leftAts p) (by simp))
      unfold State.leftAts at hl
      exact ⟨_, by rw [hl]; rfl⟩
    · exact ⟨_, rfl⟩
  | vPred =>
    obtain ⟨a, ha⟩ := nbs_completes h
    exact ⟨_, by unfold predOf predV State.aboveRow; unfold State.wholeReads State.aboveAts at ha; rw [ha]; rfl⟩
  | hPred =>
    obtain ⟨a, ha⟩ := nbs_completes h
    exact ⟨_, by unfold predOf predH State.leftCol; unfold State.wholeReads State.leftAts at ha; rw [ha]; rfl⟩
  | tmPred =>
    unfold State.wholeReads at h
    obtain ⟨a, ha⟩ := nbs_completes (h.sub (m := s.aboveAts p) (by simp))
    obtain ⟨l, hl⟩ := nbs_completes (h.sub (m := s.leftAts p) (by simp))
    obtain ⟨k, -, hk⟩ := need_of_isSome .pixelUnspecified (h (s.cornerAt p) (by simp))
    unfold State.aboveAts at ha
    unfold State.leftAts at hl
    exact ⟨_, by unfold predOf predTm State.aboveRow State.leftCol; rw [ha, hl]; simp only [Res.ok_bind, hk]; rfl⟩

theorem mb_fits (hpos : s.posOk = true) {p : Nat} : s.mbX p + mbSize p ≤ s.planeW p := by
  unfold State.posOk at hpos
  simp only [Bool.and_eq_true, decide_eq_true_eq] at hpos
  unfold State.mbX mbSize State.planeW
  split <;> omega

/-- A whole-block predictor completes and specifies the macroblock's pixels in its plane. -/
theorem ipFill_completes {m : UvMode} {slot p : Nat} (hpos : s.posOk = true) (hn : slot < 4) (hp : p < 3)
    (h : s.NbKnown slot p (s.wholeReads p m)) :
    ∃ t, ipFill m slot p s = .ok t ∧ ∀ x y, s.inMb p x y → (t.pix slot p x y).isSome = true := by
  obtain ⟨f, hf⟩ := predOf_completes h
  refine ⟨s.writeBlock slot p (s.mbX p) (s.mbY p) (mbSize p) (mbSize p) f, by simp only [ipFill, hf, Res.ok_bind],
    fun x y hx => ?_⟩
  exact block_known f hn hp (le_trans (mb_fits hpos) (planeW_le s p)) hx

/-- The places around the macroblock that intra prediction can read in a plane: the corner, the left
column, and the row above with four more pixels. -/
def State.aroundAts (s : State) (p : Nat) : List (Int × Int) :=
  s.cornerAt p :: s.leftAts p ++ (List.range (mbSize p + 4)).map (s.aboveAt p)

theorem wholeReads_sub (s : State) (p : Nat) (m : UvMode) : s.wholeReads p m ⊆ s.aroundAts p := by
  have ha : s.aboveAts p ⊆ s.aroundAts p := by
    intro q hq
    obtain ⟨c, hc, rfl⟩ := List.mem_map.1 hq
    have := List.mem_range.1 hc
    exact List.mem_append_right _ (List.mem_map.2 ⟨c, List.mem_range.2 (by omega), rfl⟩)
  have hl : s.leftAts p ⊆ s.aroundAts p := fun q hq => List.mem_append_left _ (List.mem_cons_of_mem _ hq)
  have hk : s.cornerAt p ∈ s.aroundAts p := List.mem_append_left _ List.mem_cons_self
  intro q hq
  cases m with
  | dcPred =>
    rcases List.mem_append.1 hq with hq | hq
    · split at hq
      · exact ha hq
      · simp at hq
    · split at hq
      · exact hl hq
      · simp at hq
  | vPred => exact ha hq
  | hPred => exact hl hq
  | tmPred =>
    rcases List.mem_append.1 hq with hq | hq
    · rcases List.mem_append.1 hq with hq | hq
      · exact ha hq
      · exact hl hq
    · simp only [List.mem_singleton] at hq
      exact hq ▸ hk

/-- The places around a sub-block that a 4x4 predictor can read: its edge and the row above. -/
def State.subAts (s : State) (b : Nat) : List (Int × Int) :=
  (List.range 9).map (s.subEdgeAt b) ++ (List.range 8).map (s.subAboveAt b)

theorem mem_subAts_edge (s : State) (b : Nat) {i : Nat} (h : i < 9) : s.subEdgeAt b i ∈ s.subAts b :=
  List.mem_append_left _ (List.mem_map.2 ⟨i, List.mem_range.2 h, rfl⟩)

theorem mem_subAts_above (s : State) (b : Nat) {i : Nat} (h : i < 8) : s.subAboveAt b i ∈ s.subAts b :=
  List.mem_append_right _ (List.mem_map.2 ⟨i, List.mem_range.2 h, rfl⟩)

theorem mem_subAts_left (s : State) (b : Nat) {i : Nat} (h : i < 4) : s.subLeftAt b i ∈ s.subAts b := by
  have := mem_subAts_edge s b (i := 3 - i) (by omega)
  unfold State.subEdgeAt at this
  rwa [if_pos (by omega), show 3 - (3 - i) = i by omega] at this

theorem y4Reads_sub (s : State) (b : Nat) (m : BMode) : s.y4Reads b m ⊆ s.subAts b := by
  intro q hq
  cases m <;> simp only [State.y4Reads, List.mem_append, List.mem_map, List.mem_range, List.mem_cons] at hq
  case dc =>
    rcases hq with ⟨i, hi, rfl⟩ | ⟨i, hi, rfl⟩
    · exact mem_subAts_above s b (by omega)
    · exact mem_subAts_left s b hi
  case ve =>
    rcases hq with rfl | ⟨i, hi, rfl⟩
    · exact mem_subAts_edge s b (by omega)
    · exact mem_subAts_above s b (by omega)
  case hu => obtain ⟨i, hi, rfl⟩ := hq; exact mem_subAts_left s b hi
  all_goals
    obtain ⟨i, hi, rfl⟩ := hq
    first
    | exact mem_subAts_edge s b (by omega)
    | exact mem_subAts_above s b (by omega)

theorem subAbove_completes {slot b n : Nat} (h : ∀ i < n, (s.nb slot 0 (s.subAboveAt b i).1 (s.subAboveAt b i).2).isSome = true) :
    ∃ a, s.subAbove slot b n = .ok a :=
  nbs_completes (by
    intro q hq
    obtain ⟨i, hi, rfl⟩ := List.mem_map.1 hq
    exact h i (List.mem_range.1 hi))

theorem subLeft_completes {slot b : Nat} (h : ∀ i < 4, (s.nb slot 0 (s.subLeftAt b i).1 (s.subLeftAt b i).2).isSome = true) :
    ∃ a, s.subLeft slot b = .ok a :=
  nbs_completes (by
    intro q hq
    obtain ⟨i, hi, rfl⟩ := List.mem_map.1 hq
    exact h i (List.mem_range.1 hi))

theorem subEdge_completes {slot b lo n : Nat}
    (h : ∀ i < n, (s.nb slot 0 (s.subEdgeAt b (lo + i)).1 (s.subEdgeAt b (lo + i)).2).isSome = true) :
    ∃ a, s.subEdge slot b lo n = .ok a :=
  nbs_completes (by
    intro q hq
    obtain ⟨i, hi, rfl⟩ := List.mem_map.1 hq
    exact h i (List.mem_range.1 hi))

/-- The three left pixels and the corner that the edge `E` has in common with `L`. -/
theorem subLeft_of_edge {slot b : Nat} (h : ∀ i < 4, (s.nb slot 0 (s.subEdgeAt b i).1 (s.subEdgeAt b i).2).isSome = true) :
    ∀ i < 4, (s.nb slot 0 (s.subLeftAt b i).1 (s.subLeftAt b i).2).isSome = true := by
  intro i hi
  have := h (3 - i) (by omega)
  unfold State.subEdgeAt at this
  rwa [if_pos (by omega), show 3 - (3 - i) = i by omega] at this

theorem subAbove_of_edge {slot b : Nat} (h : ∀ i < 4, (s.nb slot 0 (s.subEdgeAt b (5 + i)).1 (s.subEdgeAt b (5 + i)).2).isSome = true) :
    ∀ i < 4, (s.nb slot 0 (s.subAboveAt b i).1 (s.subAboveAt b i).2).isSome = true := by
  intro i hi
  have := h i hi
  unfold State.subEdgeAt at this
  rwa [if_neg (by omega), if_neg (by omega), show 5 + i - 5 = i by omega] at this

/-- A 4x4 predictor completes where the neighbours that it reads are specified. -/
theorem y4Of_completes {m : BMode} {slot b : Nat} (h : s.NbKnown slot 0 (s.y4Reads b m)) :
    ∃ f, y4Of m s slot b = .ok f := by
  cases m with
  | dc =>
    obtain ⟨a, ha⟩ := subAbove_completes (s := s) (slot := slot) (b := b) (n := 4) fun i hi =>
      h _ (List.mem_append_left _ (List.mem_map.2 ⟨i, List.mem_range.2 hi, rfl⟩))
    obtain ⟨l, hl⟩ := subLeft_completes (s := s) (slot := slot) (b := b) fun i hi =>
      h _ (List.mem_append_right _ (List.mem_map.2 ⟨i, List.mem_range.2 hi, rfl⟩))
    exact ⟨_, by simp only [y4Of, y4Dc, ha, hl, Res.ok_bind]; rfl⟩
  | tm =>
    have he : ∀ i < 9, (s.nb slot 0 (s.subEdgeAt b i).1 (s.subEdgeAt b i).2).isSome = true := fun i hi =>
      h _ (List.mem_map.2 ⟨i, List.mem_range.2 hi, rfl⟩)
    obtain ⟨a, ha⟩ := subAbove_completes (n := 4) (subAbove_of_edge fun i hi => he (5 + i) (by omega))
    obtain ⟨l, hl⟩ := subLeft_completes (subLeft_of_edge fun i hi => he i (by omega))
    obtain ⟨k, hk⟩ := subEdge_completes (lo := 4) (n := 1) fun i hi => he (4 + i) (by omega)
    exact ⟨_, by simp only [y4Of, y4Tm, ha, hl, hk, Res.ok_bind]; rfl⟩
  | ve =>
    obtain ⟨k, hk⟩ := subEdge_completes (s := s) (slot := slot) (b := b) (lo := 4) (n := 1) fun i hi =>
      h _ (List.mem_cons.2 (.inl (by rw [show i = 0 by omega])))
    obtain ⟨a, ha⟩ := subAbove_completes (s := s) (slot := slot) (b := b) (n := 5) fun i hi =>
      h _ (List.mem_cons_of_mem _ (List.mem_map.2 ⟨i, List.mem_range.2 hi, rfl⟩))
    exact ⟨_, by simp only [y4Of, y4Ve, ha, hk, Res.ok_bind]; rfl⟩
  | he =>
    have he : ∀ i < 5, (s.nb slot 0 (s.subEdgeAt b i).1 (s.subEdgeAt b i).2).isSome = true := fun i hi =>
      h _ (List.mem_map.2 ⟨i, List.mem_range.2 hi, rfl⟩)
    obtain ⟨l, hl⟩ := subLeft_completes (subLeft_of_edge fun i hi => he i (by omega))
    obtain ⟨k, hk⟩ := subEdge_completes (lo := 4) (n := 1) fun i hi => he (4 + i) (by omega)
    exact ⟨_, by simp only [y4Of, y4He, hl, hk, Res.ok_bind]; rfl⟩
  | ld =>
    obtain ⟨a, ha⟩ := subAbove_completes (s := s) (slot := slot) (b := b) (n := 8) fun i hi =>
      h _ (List.mem_map.2 ⟨i, List.mem_range.2 hi, rfl⟩)
    exact ⟨_, by simp only [y4Of, y4Ld, ha, Res.ok_bind]; rfl⟩
  | rd =>
    obtain ⟨k, hk⟩ := subEdge_completes (s := s) (slot := slot) (b := b) (lo := 0) (n := 9) fun i hi =>
      h _ (List.mem_map.2 ⟨i, List.mem_range.2 hi, by rw [Nat.zero_add]⟩)
    exact ⟨_, by simp only [y4Of, y4Rd, hk, Res.ok_bind]; rfl⟩
  | vr =>
    obtain ⟨k, hk⟩ := subEdge_completes (s := s) (slot := slot) (b := b) (lo := 1) (n := 8) fun i hi =>
      h _ (List.mem_map.2 ⟨i, List.mem_range.2 hi, by rw [Nat.add_comm]⟩)
    exact ⟨_, by simp only [y4Of, y4Vr, hk, Res.ok_bind]; rfl⟩
  | vl =>
    obtain ⟨a, ha⟩ := subAbove_completes (s := s) (slot := slot) (b := b) (n := 8) fun i hi =>
      h _ (List.mem_map.2 ⟨i, List.mem_range.2 hi, rfl⟩)
    exact ⟨_, by simp only [y4Of, y4Vl, ha, Res.ok_bind]; rfl⟩
  | hd =>
    obtain ⟨k, hk⟩ := subEdge_completes (s := s) (slot := slot) (b := b) (lo := 0) (n := 8) fun i hi =>
      h _ (List.mem_map.2 ⟨i, List.mem_range.2 hi, by rw [Nat.zero_add]⟩)
    exact ⟨_, by simp only [y4Of, y4Hd, hk, Res.ok_bind]; rfl⟩
  | hu =>
    obtain ⟨l, hl⟩ := subLeft_completes (s := s) (slot := slot) (b := b) fun i hi =>
      h _ (List.mem_map.2 ⟨i, List.mem_range.2 hi, rfl⟩)
    exact ⟨_, by simp only [y4Of, y4Hu, hl, Res.ok_bind]; rfl⟩

theorem sub_fits (hpos : s.posOk = true) (b : Nat) : s.subX b + 4 ≤ s.planeW 0 := by
  have := mb_fits hpos (p := 0)
  unfold State.mbX mbSize at this
  unfold State.subX
  simp only [if_true] at this
  omega

theorem ipY4_completes {m : BMode} {slot b : Nat} (hpos : s.posOk = true) (hn : slot < 4)
    (h : s.NbKnown slot 0 (s.y4Reads b m)) :
    ∃ t, ipY4 m slot b s = .ok t ∧ ∀ x y, inBlock (s.subX b) (s.subY b) 4 4 x y → (t.pix slot 0 x y).isSome = true := by
  obtain ⟨f, hf⟩ := y4Of_completes h
  refine ⟨s.writeBlock slot 0 (s.subX b) (s.subY b) 4 4 f, by simp only [ipY4, hf, Res.ok_bind], fun x y hx => ?_⟩
  exact block_known f hn (by omega) (le_trans (sub_fits hpos b) (planeW_le s 0)) hx

/-! ## IT -/

/-- A block of the residual completes where the pixels that it adds to are specified. -/
theorem itIdctAdd_completes {slot p b : Nat}
    (h : ∀ x y, inBlock (s.blockX p b) (s.blockY p b) 4 4 x y → (s.pix slot p x y).isSome = true) :
    ∃ t, itIdctAdd slot p b s = .ok t := by
  obtain ⟨px, h1, -⟩ := collect_ok (f := .pixelUnspecified)
    (l := (List.range 16).map fun i => s.pix slot p (s.blockX p b + i % 4) (s.blockY p b + i / 4))
    (by intro o ho
        obtain ⟨i, hi, rfl⟩ := List.mem_map.1 ho
        have := List.mem_range.1 hi
        refine h _ _ ?_
        unfold inBlock
        omega)
  exact ⟨_, by simp only [itIdctAdd, State.blockPix, h1, Res.ok_bind]; rfl⟩

/-- The block lies in the macroblock. -/
theorem block_inMb {p b x y : Nat} (hb : b < (if p = 0 then 16 else 4))
    (h : inBlock (s.blockX p b) (s.blockY p b) 4 4 x y) : s.inMb p x y := by
  unfold State.inMb inBlock mbSize
  unfold inBlock State.blockX State.blockY at h
  by_cases hp : p = 0
  · simp only [hp, if_true] at h hb ⊢
    omega
  · simp only [hp, if_false] at h hb ⊢
    omega

theorem residualBlocks_lt {m : MbMode} {pb : Nat × Nat} (h : pb ∈ residualBlocks m) :
    pb.2 < if pb.1 = 0 then 16 else 4 := by
  simp only [residualBlocks, List.mem_append, List.mem_map] at h
  rcases h with (h | ⟨b, hb, rfl⟩) | ⟨b, hb, rfl⟩
  · split at h
    · simp at h
    · obtain ⟨b, hb, rfl⟩ := List.mem_map.1 h
      simpa using hb
  · simpa using hb
  · simpa using hb

/-- Every pixel of the macroblock is specified. -/
def State.MbKnown (s : State) (slot : Nat) : Prop :=
  ∀ p < 3, ∀ x y, s.inMb p x y → (s.pix slot p x y).isSome = true

theorem inMb_of_cr (h : t.cr = s.cr) (p x y : Nat) : t.inMb p x y ↔ s.inMb p x y := by
  unfold State.inMb
  rw [mbx_of_cr h, mby_of_cr h]

theorem State.MbKnown.after {slot n : Nat} (h : s.MbKnown n) (e : Effects (tagsPix slot) s t) : t.MbKnown n :=
  fun p hp x y hx => pix_known e hp (h p hp x y ((inMb_of_cr (pix_same e).cr p x y).1 hx))

theorem itMb_completes {slot : Nat} (h : s.MbKnown slot) : ∃ t, itMb slot s = .ok t := by
  unfold itMb
  have h0 : ∀ u : State, u.cr = s.cr → u.fb = s.fb → u.MbKnown slot := by
    intro u hc hf p hp x y hx
    have := h p hp x y ((inMb_of_cr hc p x y).1 hx)
    unfold State.pix State.plane at *
    rwa [hf]
  obtain ⟨t, ht, -⟩ := foldlM_completes (P := fun u : State => u.MbKnown slot)
    (f := fun u pb => itIdctAdd slot pb.1 pb.2 u) (l := residualBlocks s.cur.mode)
    (fun u hu pb hpb => by
      obtain ⟨w, hw⟩ := itIdctAdd_completes (s := u) (slot := slot) (p := pb.1) (b := pb.2) fun x y hx =>
        hu pb.1 (residualBlocks_plane hpb) x y (block_inMb (residualBlocks_lt hpb) hx)
      exact ⟨w, hw, hu.after ((itIdctAdd_effects (residualBlocks_plane hpb) hw).mono (tagsPlane_sub slot))⟩)
    (s := if hasY2 s.cur.mode then itWht s else s)
    (by split
        · exact h0 _ rfl rfl
        · exact h)
  exact ⟨t, ht⟩

/-! ## The whole macroblock of IP -/

/-- A loop over numbers completes, with a property that may speak of the number reached. -/
theorem range_completes {β : Type} {f : β → Nat → Res β} {P : Nat → β → Prop} {n : Nat}
    (hf : ∀ i < n, ∀ s, P i s → ∃ t, f s i = .ok t ∧ P (i + 1) t) {s : β} (hs : P 0 s) :
    ∃ t, (List.range n).foldlM f s = .ok t ∧ P n t := by
  induction n with
  | zero => exact ⟨s, rfl, hs⟩
  | succ n ih =>
    obtain ⟨t, h1, h2⟩ := ih fun i hi => hf i (by omega)
    obtain ⟨u, h3, h4⟩ := hf n (by omega) t h2
    exact ⟨u, by simp only [List.range_succ, List.foldlM_append, h1, Res.ok_bind, List.foldlM_cons, h3,
      List.foldlM_nil]; rfl, h4⟩

/-- The pixels around the macroblock, in all planes, are specified. -/
def State.AroundKnown (s : State) (slot : Nat) : Prop := ∀ p < 3, s.NbKnown slot p (s.aroundAts p)

theorem aroundAts_of_cr (h : t.cr = s.cr) (p : Nat) : t.aroundAts p = s.aroundAts p := by
  have e1 : t.aboveAt p = s.aboveAt p := by
    funext c
    unfold State.aboveAt State.mbX State.mbY
    rw [mbx_of_cr h, mby_of_cr h]
  have e2 : t.leftAts p = s.leftAts p := by
    unfold State.leftAts State.leftAt State.mbX State.mbY
    rw [mbx_of_cr h, mby_of_cr h]
  have e3 : t.cornerAt p = s.cornerAt p := by
    unfold State.cornerAt State.mbX State.mbY
    rw [mbx_of_cr h, mby_of_cr h]
  unfold State.aroundAts
  rw [e1, e2, e3]

theorem State.AroundKnown.after {slot : Nat} (h : s.AroundKnown slot) (e : Effects (tagsPlane slot) s t) :
    t.AroundKnown slot := by
  intro p hp q hq
  rw [aroundAts_of_cr (plane_same e).cr] at hq
  exact nb_known e hp (h p hp q hq)

/-- The pixels of sub-block `b` of the macroblock. -/
def State.inSub (s : State) (b x y : Nat) : Prop := inBlock (s.subX b) (s.subY b) 4 4 x y

theorem inSub_of_cr (h : t.cr = s.cr) (b x y : Nat) : t.inSub b x y ↔ s.inSub b x y := by
  unfold State.inSub State.subX State.subY
  rw [mbx_of_cr h, mby_of_cr h]

/-- The luma pixels that are specified while a macroblock's first `b` sub-blocks are done, by their
distance from the macroblock's corner. -/
theorem sub_known {slot b : Nat} (h : s.NbKnown slot 0 (s.aroundAts 0))
    (hb : ∀ k < b, ∀ x y, s.inSub k x y → (s.pix slot 0 x y).isSome = true) (hb16 : b ≤ 16) {x y : Int} (dx dy : Int)
    (hx : x = 16 * s.mbx + dx) (hy : y = 16 * s.mby + dy)
    (hd : (dy = -1 ∧ -1 ≤ dx ∧ dx < 20) ∨ (dx = -1 ∧ 0 ≤ dy ∧ dy < 16) ∨
      (0 ≤ dx ∧ dx < 16 ∧ 0 ≤ dy ∧ 4 * (dy / 4) + dx / 4 < b)) :
    (s.nb slot 0 x y).isSome = true := by
  rcases hd with ⟨h1, h2, h3⟩ | ⟨h1, h2, h3⟩ | ⟨h1, h2, h3, h4⟩
  · by_cases h0 : dx = -1
    · have := h (s.cornerAt 0) (List.mem_append_left _ List.mem_cons_self)
      simp only [State.cornerAt, State.mbX, State.mbY, mbSize, if_true] at this
      rwa [show x = ((16 * s.mbx : Nat) : Int) - 1 by omega, show y = ((16 * s.mby : Nat) : Int) - 1 by omega]
    · have := h (s.aboveAt 0 dx.toNat) (List.mem_append_right _
        (List.mem_map.2 ⟨dx.toNat, List.mem_range.2 (by simp only [mbSize, if_true]; omega), rfl⟩))
      simp only [State.aboveAt, State.mbX, State.mbY, mbSize, if_true] at this
      rwa [show x = ((16 * s.mbx : Nat) : Int) + dx.toNat by omega, show y = ((16 * s.mby : Nat) : Int) - 1 by omega]
  · have := h (s.leftAt 0 dy.toNat) (List.mem_append_left _ (List.mem_cons_of_mem _
      (List.mem_map.2 ⟨dy.toNat, List.mem_range.2 (by simp only [mbSize, if_true]; omega), rfl⟩)))
    simp only [State.leftAt, State.mbX, State.mbY, mbSize, if_true] at this
    rwa [show x = ((16 * s.mbx : Nat) : Int) - 1 by omega, show y = ((16 * s.mby : Nat) : Int) + dy.toNat by omega]
  · have := hb (4 * (dy / 4) + dx / 4).toNat (by omega) (16 * s.mbx + dx.toNat) (16 * s.mby + dy.toNat) (by
      unfold State.inSub inBlock State.subX State.subY
      omega)
    unfold State.nb
    split
    · rfl
    · split
      · rfl
      · split
        · rename_i h5
          simp only [mbSize, if_true] at h5
          omega
        · rwa [show x.toNat = 16 * s.mbx + dx.toNat by omega, show y.toNat = 16 * s.mby + dy.toNat by omega]

/-- Sub-block `b`'s neighbours are specified once the sub-blocks before it are done. -/
theorem subAts_known {slot b : Nat} (h : s.NbKnown slot 0 (s.aroundAts 0)) (hb16 : b < 16)
    (hb : ∀ k < b, ∀ x y, s.inSub k x y → (s.pix slot 0 x y).isSome = true) : s.NbKnown slot 0 (s.subAts b) := by
  have hA : ∀ j < 8, (s.nb slot 0 (s.subAboveAt b j).1 (s.subAboveAt b j).2).isSome = true := by
    intro j hj
    unfold State.subAboveAt State.subX State.subY
    split
    · exact sub_known h hb (by omega) (4 * ((b % 4 : Nat) : Int) + j) (-1) (by push_cast; omega) (by push_cast; omega)
        (by omega)
    · exact sub_known h hb (by omega) (4 * ((b % 4 : Nat) : Int) + j) (4 * ((b / 4 : Nat) : Int) - 1)
        (by push_cast; omega) (by push_cast; omega) (by omega)
  intro q hq
  rcases List.mem_append.1 hq with hq | hq
  · obtain ⟨i, hi, rfl⟩ := List.mem_map.1 hq
    have hi := List.mem_range.1 hi
    unfold State.subEdgeAt
    split
    · unfold State.subLeftAt State.subX State.subY
      exact sub_known h hb (by omega) (4 * ((b % 4 : Nat) : Int) - 1) (4 * ((b / 4 : Nat) : Int) + (3 - i : Nat))
        (by push_cast; omega) (by push_cast; omega) (by omega)
    · split
      · unfold State.subX State.subY
        exact sub_known h hb (by omega) (4 * ((b % 4 : Nat) : Int) - 1) (4 * ((b / 4 : Nat) : Int) - 1)
          (by push_cast; omega) (by push_cast; omega) (by omega)
      · exact hA _ (by omega)
  · obtain ⟨i, hi, rfl⟩ := List.mem_map.1 hq
    exact hA _ (List.mem_range.1 hi)

theorem blockX_luma (s : State) (b : Nat) : s.blockX 0 b = s.subX b := rfl

theorem blockY_luma (s : State) (b : Nat) : s.blockY 0 b = s.subY b := rfl

/-- The luma pixels of the first `b` sub-blocks, in a state reached from `s` by the pixel units. -/
structure State.SubsKnown (s : State) (slot b : Nat) (u : State) : Prop where
  effects : Effects (tagsPlane slot) s u
  pixels : ∀ k < b, ∀ x y, s.inSub k x y → (u.pix slot 0 x y).isSome = true

theorem ipSubStep_completes {slot b : Nat} (hpos : s.posOk = true) (hn : slot < 4) (hb : b < 16)
    (ha : s.AroundKnown slot) (hu : s.SubsKnown slot b u) :
    ∃ t, ipSubStep slot u b = .ok t ∧ s.SubsKnown slot (b + 1) t := by
  have hc := (plane_same hu.effects).cr
  obtain ⟨v, h1, h2⟩ := ipY4_completes (m := u.cur.bmodeAt b) (by rw [posOk_of_cr hc]; exact hpos) hn
    ((subAts_known ((ha.after hu.effects) 0 (by omega)) hb fun k hk x y hx =>
      hu.pixels k hk x y ((inSub_of_cr hc k x y).1 hx)).sub (y4Reads_sub u b _))
  have e1 := ipY4_effects h1
  have hcv := (plane_same e1).cr
  obtain ⟨w, h3⟩ := itIdctAdd_completes (s := v) (slot := slot) (p := 0) (b := b) fun x y hx => by
    refine h2 x y ?_
    have := (inSub_of_cr hcv b x y).1 hx
    exact this
  have e2 := itIdctAdd_effects (by omega) h3
  refine ⟨w, by simp only [ipSubStep, h1, Res.ok_bind, h3], (hu.effects.trans e1).trans e2, fun k hk x y hx => ?_⟩
  by_cases hkb : k = b
  · subst hkb
    exact plane_known e2 (by omega) (h2 x y ((inSub_of_cr hc k x y).2 hx))
  · exact plane_known (e1.trans e2) (by omega) (hu.pixels k (by omega) x y hx)

/-- Every luma pixel of the macroblock lies in one of its sub-blocks. -/
theorem inSub_of_inMb {x y : Nat} (h : s.inMb 0 x y) : ∃ b < 16, s.inSub b x y := by
  unfold State.inMb inBlock mbSize at h
  simp only [if_true] at h
  refine ⟨4 * ((y - 16 * s.mby) / 4) + (x - 16 * s.mbx) / 4, by omega, ?_⟩
  unfold State.inSub inBlock State.subX State.subY
  omega

/-- The luma part of `IP_MB` completes on an intra macroblock with specified surroundings. -/
theorem ipLuma_completes {slot : Nat} (hpos : s.posOk = true) (hn : slot < 4) (hm : s.cur.mode.num ≤ 4)
    (ha : s.AroundKnown slot) :
    ∃ t, ipLuma slot s = .ok t ∧ ∀ x y, s.inMb 0 x y → (t.pix slot 0 x y).isSome = true := by
  have hw : ∀ m : UvMode, ∃ t, ipY16 m slot s = .ok t ∧ ∀ x y, s.inMb 0 x y → (t.pix slot 0 x y).isSome = true :=
    fun m => ipFill_completes hpos hn (by omega) ((ha 0 (by omega)).sub (wholeReads_sub s 0 m))
  unfold ipLuma
  cases h : s.cur.mode with
  | dcPred => exact hw _
  | vPred => exact hw _
  | hPred => exact hw _
  | tmPred => exact hw _
  | bPred =>
    obtain ⟨t, h1, h2⟩ := range_completes (f := ipSubStep slot) (P := fun b u => s.SubsKnown slot b u) (n := 16)
      (fun b hb u hu => ipSubStep_completes hpos hn hb ha hu) (s := s) ⟨.refl _ s, fun k hk => absurd hk (by omega)⟩
    refine ⟨t, h1, fun x y hx => ?_⟩
    obtain ⟨b, hb, hx⟩ := inSub_of_inMb hx
    exact h2.pixels b hb x y hx
  | _ => rw [h] at hm; simp [MbMode.num] at hm

/-- `IP_MB` completes on an intra macroblock with specified surroundings, and specifies its pixels. -/
theorem ipMb_completes {slot : Nat} (hpos : s.posOk = true) (hn : slot < 4) (hm : s.cur.mode.num ≤ 4)
    (ha : s.AroundKnown slot) : ∃ t, ipMb slot s = .ok t ∧ t.MbKnown slot := by
  obtain ⟨t, h1, k1⟩ := ipLuma_completes hpos hn hm ha
  have e1 := ipLuma_effects h1
  have c1 := (plane_same e1).cr
  have a1 := ha.after e1
  have p1 : t.posOk = true := by rw [posOk_of_cr c1]; exact hpos
  obtain ⟨u, h2, k2⟩ := ipFill_completes (m := t.cur.uvmode) p1 hn (p := 1) (by omega)
    ((a1 1 (by omega)).sub (wholeReads_sub t 1 _))
  have e2 := ipFill_effects (by omega) h2
  have c2 := (plane_same e2).cr
  obtain ⟨w, h3, k3⟩ := ipFill_completes (s := u) (m := t.cur.uvmode) (by rw [posOk_of_cr c2]; exact p1) hn (p := 2)
    (by omega) (((a1.after e2) 2 (by omega)).sub (wholeReads_sub u 2 _))
  have e3 := ipFill_effects (by omega) h3
  refine ⟨w, by simp only [ipMb, h1, Res.ok_bind, ipUv8, h2, h3], fun p hp x y hx => ?_⟩
  have hx := (inMb_of_cr (plane_same e3).cr p x y).1 hx
  rcases (by omega : p = 0 ∨ p = 1 ∨ p = 2) with rfl | rfl | rfl
  · exact plane_known (e2.trans e3) hp (k1 x y ((inMb_of_cr c1 _ x y).1 ((inMb_of_cr c2 _ x y).1 hx)))
  · exact plane_known e3 hp (k2 x y ((inMb_of_cr c2 _ x y).1 hx))
  · exact k3 x y hx

/-! ## MC -/

/-- A loop completes, and what each of its steps brings about stays. -/
theorem foldlM_each {α β : Type} {P : β → Prop} {Q : α → β → Prop} {f : β → α → Res β} {l : List α}
    (hf : ∀ s, P s → ∀ a ∈ l, ∃ t, f s a = .ok t ∧ P t ∧ Q a t ∧ ∀ b, Q b s → Q b t) {s : β} (hs : P s) :
    ∃ t, l.foldlM f s = .ok t ∧ P t ∧ (∀ a ∈ l, Q a t) ∧ ∀ b, Q b s → Q b t := by
  induction l generalizing s with
  | nil => exact ⟨s, rfl, hs, by simp, fun _ h => h⟩
  | cons a l ih =>
    obtain ⟨u, h1, h2, h3, h4⟩ := hf s hs a (by simp)
    obtain ⟨t, h5, h6, h7, h8⟩ := ih (fun s hs a ha => hf s hs a (by simp [ha])) h2
    refine ⟨t, by rw [List.foldlM_cons, h1]; exact h5, h6, ?_, fun b hb => h8 b (h4 b hb)⟩
    intro b hb
    rcases List.mem_cons.1 hb with rfl | hb
    · exact h8 _ h3
    · exact h7 b hb

theorem tapSum_completes {l : List Int} {f : Nat → Res Int} (h : ∀ i, ∃ v, f i = .ok v) : ∃ v, tapSum l f = .ok v := by
  induction l generalizing f with
  | nil => exact ⟨0, rfl⟩
  | cons w l ih =>
    obtain ⟨r, hr⟩ := ih (f := fun i => f (i + 1)) fun i => h (i + 1)
    obtain ⟨v, hv⟩ := h 0
    unfold tapSum
    split
    · exact ⟨r, hr⟩
    · exact ⟨_, by rw [hv, Res.ok_bind, hr]; rfl⟩

theorem refPix_completes {src p : Nat} (hw : 0 < s.planeW p) (hh : 0 < s.planeH p) (h : s.PlaneKnown src p)
    (x y : Int) : ∃ v, s.refPix src p x y = .ok v := by
  have hc : ∀ (v : Int) (n : Nat), 0 < n → (clamp v 0 ((n : Int) - 1)).toNat < n := by
    intro v n hn
    unfold clamp
    omega
  obtain ⟨b, -, hb⟩ := need_of_isSome .pixelUnspecified (h _ _ (hc x _ hw) (hc y _ hh))
  exact ⟨_, by simp only [State.refPix, hb, Res.ok_bind]; rfl⟩

theorem tapPixel_completes {src p : Nat} (hw : 0 < s.planeW p) (hh : 0 < s.planeH p) (h : s.PlaneKnown src p)
    (fx fy : Nat) (x y : Int) : ∃ v, s.tapPixel src p fx fy x y = .ok v := by
  obtain ⟨v, hv⟩ := tapSum_completes (l := s.kernel.taps fy)
    (f := fun t => s.tapRow src p fx x (y + s.kernel.first + t)) fun i => by
      obtain ⟨w, hw⟩ := tapSum_completes (l := s.kernel.taps fx)
        (f := fun t => s.refPix src p (x + s.kernel.first + t) (y + s.kernel.first + i)) fun j =>
          refPix_completes hw hh h _ _
      exact ⟨_, by simp only [State.tapRow, hw, Res.ok_bind]; rfl⟩
  exact ⟨_, by simp only [State.tapPixel, hv, Res.ok_bind]; rfl⟩

theorem allOk_completes {α : Type} {l : List (Res α)} (h : ∀ r ∈ l, ∃ a, r = .ok a) : ∃ as, allOk l = .ok as := by
  induction l with
  | nil => exact ⟨[], rfl⟩
  | cons r l ih =>
    obtain ⟨a, rfl⟩ := h r (by simp)
    obtain ⟨as, has⟩ := ih fun r hr => h r (by simp [hr])
    exact ⟨a :: as, by simp only [allOk, Res.ok_bind, has]⟩

/-- A block completes where the reference plane is specified, and specifies its pixels. -/
theorem mcBlock_completes {src dst p : Nat} {at_ : SubPos} {b : Block} (hn : dst < 4) (hp : p < 3)
    (hw : 0 < s.planeW p) (hh : 0 < s.planeH p) (hb : b.x + b.w ≤ s.planeW p) (h : s.PlaneKnown src p) :
    ∃ t, mcBlock src dst p at_ b s = .ok t ∧ ∀ x y, inBlock b.x b.y b.w b.h x y → (t.pix dst p x y).isSome = true := by
  obtain ⟨px, h1⟩ := allOk_completes (l := (List.range (b.w * b.h)).map fun n =>
      s.tapPixel src p at_.fx at_.fy (at_.xi + (n % b.w : Nat)) (at_.yi + (n / b.w : Nat)))
    (by intro r hr
        obtain ⟨n, -, rfl⟩ := List.mem_map.1 hr
        exact tapPixel_completes hw hh h _ _ _ _)
  refine ⟨s.writeBlock dst p b.x b.y b.w b.h fun r c => px[r * b.w + c]?.getD 0,
    by simp only [mcBlock, State.predictBlock, h1, Res.ok_bind], fun x y hx => ?_⟩
  exact block_known _ hn hp (le_trans hb (planeW_le s p)) hx

theorem State.PlaneKnown.after {slot n p : Nat} (h : s.PlaneKnown n p) (hp : p < 3)
    (e : Effects (tagsPix slot) s t) : t.PlaneKnown n p := by
  intro x y hx hy
  rw [planeW_of_cr (pix_same e).cr] at hx
  rw [planeH_of_cr (pix_same e).cr] at hy
  exact pix_known e hp (h x y hx hy)

theorem State.SlotKnown.after {slot n : Nat} (h : s.SlotKnown n) (e : Effects (tagsPix slot) s t) :
    t.SlotKnown n := fun p hp => (h p hp).after hp e

/-- The partitions of each shape cover the macroblock. -/
theorem splitBlocks_cover (sh : SplitShape) {x y : Nat} (hx : x < 16) (hy : y < 16) :
    ∃ e ∈ splitBlocks sh, inBlock e.2.x e.2.y e.2.w e.2.h x y := by
  unfold inBlock
  cases sh with
  | halves16x8 =>
    by_cases h : y < 8
    · exact ⟨(0, ⟨0, 0, 16, 8⟩), by simp [splitBlocks], by simp only; omega⟩
    · exact ⟨(8, ⟨0, 8, 16, 8⟩), by simp [splitBlocks], by simp only; omega⟩
  | halves8x16 =>
    by_cases h : x < 8
    · exact ⟨(0, ⟨0, 0, 8, 16⟩), by simp [splitBlocks], by simp only; omega⟩
    · exact ⟨(2, ⟨8, 0, 8, 16⟩), by simp [splitBlocks], by simp only; omega⟩
  | quarters8x8 =>
    by_cases h : x < 8 <;> by_cases h2 : y < 8
    · exact ⟨(0, ⟨0, 0, 8, 8⟩), by simp [splitBlocks], by simp only; omega⟩
    · exact ⟨(8, ⟨0, 8, 8, 8⟩), by simp [splitBlocks], by simp only; omega⟩
    · exact ⟨(2, ⟨8, 0, 8, 8⟩), by simp [splitBlocks], by simp only; omega⟩
    · exact ⟨(10, ⟨8, 8, 8, 8⟩), by simp [splitBlocks], by simp only; omega⟩
  | sixteen4x4 =>
    refine ⟨(4 * (y / 4) + x / 4, ⟨4 * ((4 * (y / 4) + x / 4) % 4), 4 * ((4 * (y / 4) + x / 4) / 4), 4, 4⟩),
      List.mem_map.2 ⟨_, List.mem_range.2 (by omega), rfl⟩, by simp only; omega⟩

theorem splitBlocks_fit {sh : SplitShape} {e : Nat × Block} (h : e ∈ splitBlocks sh) : e.2.x + e.2.w ≤ 16 := by
  cases sh with
  | sixteen4x4 => obtain ⟨b, hb, rfl⟩ := List.mem_map.1 h; simp only; omega
  | _ => simp only [splitBlocks, List.mem_cons, List.not_mem_nil, or_false] at h
         rcases h with rfl | rfl | rfl | rfl <;> simp

theorem pos_of_posOk (h : s.posOk = true) : s.mbx < s.mbW ∧ s.mby < s.mbH := by
  unfold State.posOk at h
  simpa using h

theorem planes_pos (h : s.posOk = true) (p : Nat) : 0 < s.planeW p ∧ 0 < s.planeH p := by
  have := pos_of_posOk h
  unfold State.planeW State.planeH
  split <;> omega

/-- The two chroma blocks of a split macroblock complete. -/
theorem mcSplitChroma_completes {src dst j : Nat} (hpos : s.posOk = true) (hn : dst < 4)
    (h : s.SlotKnown src) :
    ∃ t, mcSplitChroma src dst s j = .ok t ∧ Effects (tagsPlane dst) s t ∧
      ∀ p, p = 1 ∨ p = 2 → ∀ x y,
        inBlock (8 * s.mbx + 4 * (j % 2)) (8 * s.mby + 4 * (j / 2)) 4 4 x y → (t.pix dst p x y).isSome = true := by
  have hpp := pos_of_posOk hpos
  have hfit : ∀ p, p ≠ 0 → 8 * s.mbx + 4 * (j % 2) + 4 ≤ s.planeW p := by
    intro p hp
    unfold State.planeW
    rw [if_neg hp]
    omega
  obtain ⟨t, h1, k1⟩ := mcBlock_completes (src := src) (dst := dst) (p := 1) (at_ := chromaPos _ _ _)
    (b := ⟨8 * s.mbx + 4 * (j % 2), 8 * s.mby + 4 * (j / 2), 4, 4⟩) hn (by omega) (planes_pos hpos 1).1
    (planes_pos hpos 1).2 (hfit 1 (by omega)) (h 1 (by omega))
  have e1 := mcBlock_effects (by omega) h1
  have c1 := (plane_same e1).cr
  obtain ⟨u, h2, k2⟩ := mcBlock_completes (s := t) (src := src) (dst := dst) (p := 2) (at_ := chromaPos _ _ _)
    (b := ⟨8 * s.mbx + 4 * (j % 2), 8 * s.mby + 4 * (j / 2), 4, 4⟩) hn (by omega)
    (by rw [planeW_of_cr c1]; exact (planes_pos hpos 2).1) (by rw [planeH_of_cr c1]; exact (planes_pos hpos 2).2)
    (by rw [planeW_of_cr c1]; exact hfit 2 (by omega)) ((h 2 (by omega)).after (by omega) (e1.mono (tagsPlane_sub dst)))
  have e2 := mcBlock_effects (by omega) h2
  refine ⟨u, by simp only [mcSplitChroma, mcChroma]; rw [h1, Res.ok_bind]; exact h2, e1.trans e2, fun p hp x y hx => ?_⟩
  rcases hp with rfl | rfl
  · exact plane_known e2 (by omega) (k1 x y hx)
  · exact k2 x y hx

/-- `MC_MB` completes where the reference slot is specified, and specifies the macroblock's pixels. -/
theorem mcMb_completes {src dst : Nat} (hpos : s.posOk = true) (hn : dst < 4) (h : s.SlotKnown src) :
    ∃ t, mcMb src dst s = .ok t ∧ t.MbKnown dst := by
  have hpp := pos_of_posOk hpos
  unfold mcMb
  split
  · obtain ⟨t, h1, ⟨e1, hs1⟩, k1, -⟩ := foldlM_each (f := mcSplitLuma src dst) (l := splitBlocks s.cur.split)
      (P := fun u : State => Effects (tagsPlane dst) s u ∧ u.SlotKnown src)
      (Q := fun (e : Nat × Block) (u : State) => ∀ x y,
        inBlock (16 * s.mbx + e.2.x) (16 * s.mby + e.2.y) e.2.w e.2.h x y → (u.pix dst 0 x y).isSome = true)
      (fun u hu e he => by
        have c := (plane_same hu.1).cr
        have hf := splitBlocks_fit he
        have hpu : u.posOk = true := by rw [posOk_of_cr c]; exact hpos
        obtain ⟨w, h2, k2⟩ := mcBlock_completes (s := u) (src := src) (dst := dst) (p := 0)
          (at_ := lumaPos (u.cur.bmvAt e.1) (e.2.shift (16 * u.mbx) (16 * u.mby)))
          (b := e.2.shift (16 * u.mbx) (16 * u.mby)) hn (by omega) (planes_pos hpu 0).1 (planes_pos hpu 0).2
          (by rw [planeW_of_cr c, mbx_of_cr c]
              unfold Block.shift State.planeW
              simp only [if_true]
              omega) (hu.2 0 (by omega))
        have ew := mcBlock_effects (by omega) h2
        refine ⟨w, h2, ⟨hu.1.trans ew, hu.2.after (ew.mono (tagsPlane_sub dst))⟩, fun x y hx => k2 x y ?_,
          fun b hb x y hx => plane_known ew (by omega) (hb x y hx)⟩
        rw [mbx_of_cr c, mby_of_cr c]
        exact hx)
      (s := s) ⟨.refl _ s, h⟩
    have c1 := (plane_same e1).cr
    have hp1 : t.posOk = true := by rw [posOk_of_cr c1]; exact hpos
    obtain ⟨w, h3, ⟨e3, -⟩, k3, -⟩ := foldlM_each (f := mcSplitChroma src dst) (l := List.range 4)
      (P := fun u : State => Effects (tagsPlane dst) t u ∧ u.SlotKnown src)
      (Q := fun (j : Nat) (u : State) => ∀ p, p = 1 ∨ p = 2 → ∀ x y,
        inBlock (8 * t.mbx + 4 * (j % 2)) (8 * t.mby + 4 * (j / 2)) 4 4 x y → (u.pix dst p x y).isSome = true)
      (fun u hu j _ => by
        have c := (plane_same hu.1).cr
        obtain ⟨w, h2, e2, k2⟩ := mcSplitChroma_completes (s := u) (j := j)
          (by rw [posOk_of_cr c]; exact hp1) hn hu.2
        rw [mbx_of_cr c, mby_of_cr c] at k2
        exact ⟨w, h2, ⟨hu.1.trans e2, hu.2.after (e2.mono (tagsPlane_sub dst))⟩, k2,
          fun b hb p hp x y hx => plane_known e2 (by omega) (hb p hp x y hx)⟩)
      (s := t) ⟨.refl _ t, hs1⟩
    refine ⟨w, by rw [h1, Res.ok_bind, h3], fun p hp x y hx => ?_⟩
    have hx := (inMb_of_cr (plane_same e3).cr p x y).1 hx
    by_cases hp0 : p = 0
    · subst hp0
      have hx := (inMb_of_cr c1 0 x y).1 hx
      unfold State.inMb inBlock mbSize at hx
      simp only [if_true] at hx
      obtain ⟨e, he, hb⟩ := splitBlocks_cover s.cur.split (x := x - 16 * s.mbx) (y := y - 16 * s.mby)
        (by omega) (by omega)
      refine plane_known e3 hp (k1 e he x y ?_)
      unfold inBlock at hb ⊢
      omega
    · unfold State.inMb inBlock mbSize at hx
      rw [if_neg hp0] at hx
      refine k3 (2 * ((y - 8 * t.mby) / 4) + (x - 8 * t.mbx) / 4) (List.mem_range.2 (by omega)) p (by omega) x y ?_
      unfold inBlock
      omega
  · have hfit : ∀ p, mbSize p * s.mbx + mbSize p ≤ s.planeW p := fun p => mb_fits hpos (p := p)
    obtain ⟨t, h1, k1⟩ := mcBlock_completes (s := s) (src := src) (dst := dst) (p := 0)
      (at_ := lumaPos s.cur.mv ⟨16 * s.mbx, 16 * s.mby, 16, 16⟩) (b := ⟨16 * s.mbx, 16 * s.mby, 16, 16⟩) hn
      (by omega) (planes_pos hpos 0).1 (planes_pos hpos 0).2 (hfit 0) (h 0 (by omega))
    have e1 := mcBlock_effects (by omega) h1
    have c1 := (plane_same e1).cr
    obtain ⟨u, h2, k2⟩ := mcBlock_completes (s := t) (src := src) (dst := dst) (p := 1)
      (at_ := chromaPos (s.fullPixel s.cur.mv.x.toInt) (s.fullPixel s.cur.mv.y.toInt) ⟨8 * s.mbx, 8 * s.mby, 8, 8⟩)
      (b := ⟨8 * s.mbx, 8 * s.mby, 8, 8⟩) hn (by omega) (by rw [planeW_of_cr c1]; exact (planes_pos hpos 1).1)
      (by rw [planeH_of_cr c1]; exact (planes_pos hpos 1).2) (by rw [planeW_of_cr c1]; exact hfit 1)
      ((h 1 (by omega)).after (by omega) (e1.mono (tagsPlane_sub dst)))
    have e2 := mcBlock_effects (by omega) h2
    have c2 := (plane_same (e1.trans e2)).cr
    obtain ⟨w, h3, k3⟩ := mcBlock_completes (s := u) (src := src) (dst := dst) (p := 2)
      (at_ := chromaPos (s.fullPixel s.cur.mv.x.toInt) (s.fullPixel s.cur.mv.y.toInt) ⟨8 * s.mbx, 8 * s.mby, 8, 8⟩)
      (b := ⟨8 * s.mbx, 8 * s.mby, 8, 8⟩) hn (by omega) (by rw [planeW_of_cr c2]; exact (planes_pos hpos 2).1)
      (by rw [planeH_of_cr c2]; exact (planes_pos hpos 2).2) (by rw [planeW_of_cr c2]; exact hfit 2)
      ((h 2 (by omega)).after (by omega) ((e1.trans e2).mono (tagsPlane_sub dst)))
    have e3 := mcBlock_effects (by omega) h3
    refine ⟨w, by simp only [mcWhole, mcLuma, mcChroma]; rw [h1, Res.ok_bind, h2, Res.ok_bind, h3], fun p hp x y hx => ?_⟩
    have hx := (inMb_of_cr (plane_same ((e1.trans e2).trans e3)).cr p x y).1 hx
    rcases (by omega : p = 0 ∨ p = 1 ∨ p = 2) with rfl | rfl | rfl
    · exact plane_known (e2.trans e3) hp (k1 x y hx)
    · exact plane_known e3 hp (k2 x y hx)
    · exact k3 x y hx

/-! ## LF -/

/-- An edge completes where the pixels that its filter reads are specified. -/
theorem lfEdge_completes {slot : Nat} {e : Edge} (hp : e.p < 3)
    (h : ∀ k < e.len, ∀ i ∈ e.kind.reads, (s.pix slot e.p (e.px k i) (e.py k i)).isSome = true) :
    ∃ t, lfEdge slot s e = .ok t := by
  obtain ⟨t, h1, -⟩ := foldlM_completes (P := fun u : State => Effects (tagsPlane slot) s u) (f := edgeStep slot e)
    (l := List.range e.len) (fun u hu k hk => by
      obtain ⟨px, h2, -⟩ := collect_ok (f := .pixelUnspecified)
        (l := e.kind.reads.map fun i => u.pix slot e.p (e.px k i) (e.py k i))
        (by intro o ho
            obtain ⟨i, hi, rfl⟩ := List.mem_map.1 ho
            exact plane_known hu hp (h k (List.mem_range.1 hk) i hi))
      refine ⟨u.setPlane slot e.p (Memory.setAll (u.plane slot e.p)
        (e.stores k (e.kind.run e.lim (e.kind.line px)))), by simp only [edgeStep, h2, Res.ok_bind], ?_⟩
      exact hu.then (mem_tagsPlane hp) (.pix u slot e.p _)) (s := s) (.refl _ s)
  exact ⟨t, h1⟩

theorem reads_lt {k : EdgeKind} {i : Nat} (h : i ∈ k.reads) : i < 8 := by
  cases k <;> simp only [EdgeKind.reads, List.mem_cons, List.not_mem_nil, or_false] at h <;> omega

/-- The pixels of the first `n` macroblock rows are specified. -/
def State.RowsKnown (s : State) (slot n : Nat) : Prop :=
  ∀ p < 3, ∀ x y, x < s.planeW p → y < mbSize p * n → (s.pix slot p x y).isSome = true

theorem State.RowsKnown.after {slot m n : Nat} (h : s.RowsKnown m n) (e : Effects (tagsPix slot) s t) :
    t.RowsKnown m n := by
  intro p hp x y hx hy
  rw [planeW_of_cr (pix_same e).cr] at hx
  exact pix_known e hp (h p hp x y hx hy)

theorem State.SlotKnown.rows {slot n : Nat} (h : s.SlotKnown slot) (hn : n ≤ s.mbH) : s.RowsKnown slot n := by
  intro p hp x y hx hy
  refine h p hp x y hx ?_
  unfold mbSize at hy
  unfold State.planeH
  split at hy
  · rename_i hp0; rw [if_pos hp0]; omega
  · rename_i hp0; rw [if_neg hp0]; omega

theorem innerOffsets_le {p o : Nat} (h : o ∈ innerOffsets p) : o + 4 ≤ mbSize p := by
  unfold innerOffsets at h
  unfold mbSize
  split at h <;> simp only [List.mem_cons, List.not_mem_nil, or_false] at h
  · rename_i h0; rw [if_pos h0]; omega
  · rename_i h0; rw [if_neg h0]; omega

/-- The edges of a macroblock read pixels of its own macroblock row, or above, only. -/
theorem mbEdges_inside {simple : Bool} {r : LfpRec} {mx my : Nat} {e : Edge} (he : e ∈ mbEdges simple r mx my)
    (hm : mx < s.mbW) {k i : Nat} (hk : k < e.len) (hi : i < 8) :
    e.px k i < s.planeW e.p ∧ e.py k i < mbSize e.p * (my + 1) := by
  have ho : ∀ dir, e ∈ outerEdges simple r dir mx my →
      e.px k i < s.planeW e.p ∧ e.py k i < mbSize e.p * (my + 1) := by
    intro dir he
    obtain ⟨p, -, rfl⟩ := List.mem_map.1 he
    simp only [outerEdge] at hk
    simp only [Edge.px, Edge.py, outerEdge]
    unfold lfSize at hk ⊢
    unfold State.planeW mbSize
    by_cases h0 : p = 0 <;> by_cases hd : dir = 0 <;> simp only [h0, hd, if_true, if_false] at hk ⊢ <;> omega
  have hin : ∀ dir, e ∈ interiorEdges simple r dir mx my →
      e.px k i < s.planeW e.p ∧ e.py k i < mbSize e.p * (my + 1) := by
    intro dir he
    unfold interiorEdges at he
    split at he
    · obtain ⟨p, -, he⟩ := List.mem_flatMap.1 he
      obtain ⟨o, hoff, rfl⟩ := List.mem_map.1 he
      simp only [interiorEdge] at hk
      simp only [Edge.px, Edge.py, interiorEdge]
      unfold lfSize at hk ⊢
      have hb := innerOffsets_le hoff
      unfold mbSize at hb
      unfold State.planeW mbSize
      by_cases h0 : p = 0 <;> by_cases hd : dir = 0 <;> simp only [h0, hd, if_true, if_false] at hk hb ⊢ <;> omega
    · simp at he
  simp only [mbEdges, List.mem_append] at he
  rcases he with (he | he) | (he | he)
  · split at he
    · exact ho _ he
    · simp at he
  · exact hin _ he
  · split at he
    · exact ho _ he
    · simp at he
  · exact hin _ he

/-- A macroblock's filter completes where its record and the rows up to its own are specified. -/
theorem lfMbAt_completes {slot my mx : Nat} (hm : mx < s.mbW) (hr : (Memory.find s.lfp mx).isSome = true)
    (h : s.RowsKnown slot (my + 1)) : ∃ t, lfMbAt slot my s mx = .ok t := by
  obtain ⟨r, -, h1⟩ := need_of_isSome .lfpUnspecified hr
  simp only [lfMbAt, h1, Res.ok_bind]
  split
  · exact ⟨s, rfl⟩
  · obtain ⟨t, h2, -⟩ := foldlM_completes (P := fun u : State => Effects (tagsPlane slot) s u) (f := lfEdge slot)
      (l := mbEdges (s.crBit 6 0) r mx my) (fun u hu e he => by
        have hp := mbEdges_plane he
        obtain ⟨t, ht⟩ := lfEdge_completes (s := u) (slot := slot) hp fun k hk i hi => by
          have hin := mbEdges_inside (s := s) he hm hk (reads_lt hi)
          exact plane_known hu hp (h e.p hp _ _ hin.1 hin.2)
        exact ⟨t, ht, hu.trans (lfEdge_effects hp ht)⟩) (s := s) (.refl _ s)
    exact ⟨t, h2⟩

/-- A row's filter completes where its records and the rows up to its own are specified. -/
theorem lfRow_completes {slot : Nat} (hr : s.LfpKnown) (h : s.RowsKnown slot (s.mby + 1)) :
    ∃ t, lfRow slot s = .ok t := by
  obtain ⟨t, h1, -⟩ := foldlM_completes (P := fun u : State => Effects (tagsPlane slot) s u) (f := lfMbAt slot s.mby)
    (l := List.range s.mbW) (fun u hu mx hm => by
      have hs := plane_same hu
      obtain ⟨t, ht⟩ := lfMbAt_completes (s := u) (slot := slot) (my := s.mby) (mx := mx)
        (by rw [mbW_of_cr hs.cr]; exact List.mem_range.1 hm)
        (by rw [hs.lfp]; exact hr mx (List.mem_range.1 hm)) (h.after (hu.mono (tagsPlane_sub slot)))
      exact ⟨t, ht, hu.trans (lfMbAt_effects ht)⟩) (s := s) (.refl _ s)
  exact ⟨t, h1⟩

end Sys2Proof.Machine
end

