-- ==== Sys2Proof/Laws/FrameCompletes.lean ====
section
/-! SUPPORT. The loop over a frame's macroblocks completes and specifies every pixel of the CUR slot, where
what it uses is specified (spec 48_frame_control_host.md R430; 10_state.md R59). -/

namespace Sys2Proof.Machine

variable {s t u : State}

/-! ## The record that MD_MB leaves -/

theorem rd_cur {k : Nat} (h : Effects {.rd k} s t) : t.cur = s.cur := by
  have hc : t.cr = s.cr := h.same (fun x : State => x.cr) fun a ha _ _ hm => by
    have : a = .rd k := ha
    subst this
    exact hm.cr_eq (by simp) (by simp) (by simp)
  have hm : t.mbinfo = s.mbinfo := h.same (fun x : State => x.mbinfo) fun a ha _ _ hm => by
    have : a = .rd k := ha
    subst this
    exact hm.mbinfo_eq (by simp) (by simp) (by simp)
  exact cur_of_same hc hm

theorem rd_cur_tree {k start v : Nat} {T : List Int} {P : Nat → Res Byte}
    (h : s.getTree k T P start = .ok (v, t)) : t.cur = s.cur :=
  rd_cur (.one (Set.mem_singleton _) (.ofTree h))

/-- The macroblock is intra: reference 0 and one of the five intra modes. -/
structure MbRec.IsIntra (r : MbRec) : Prop where
  ref : r.ref = .current
  mode : r.mode.num ≤ 4

theorem ymode_leaf : ∀ n, n = 1 ∨ n = 2 → ∀ j < (treeOf n).length, (treeOf n).getD j 0 ≤ 0 →
    (MbMode.ofNum (-((treeOf n).getD j 0)).toNat).num ≤ 4 := by
  rintro n (rfl | rfl) <;> decide

/-- A whole-macroblock intra mode is one of the five. -/
theorem getTree_ymode {n v : Nat} (hn : n = 1 ∨ n = 2) {P : Nat → Res Byte}
    (hP : ∀ j < (treeOf n).length / 2, ∃ p, P j = .ok p) (h : s.getTree 0 (treeOf n) P 0 = .ok (v, t)) :
    (MbMode.ofNum v).num ≤ 4 := by
  have hl : 0 < (treeOf n).length := by rcases hn with rfl | rfl <;> decide
  obtain ⟨v', r', -, hq, h'⟩ := getTree_ok (s := s) (k := 0) (treeOf_ok n (by omega)) hP (start := 0) rfl hl
    (Q := fun v => (MbMode.ofNum v).num ≤ 4) (ymode_leaf n hn)
  rw [h'] at h
  simp only [Except.ok.injEq, Prod.mk.injEq] at h
  exact h.1 ▸ hq

theorem mdYmodeKf_intra (h : mdYmodeKf s = .ok t) : t.cur.IsIntra := by
  simp only [mdYmodeKf, Res.bind_ok, Except.ok.injEq] at h
  obtain ⟨⟨v, w⟩, h1, rfl⟩ := h
  have := getTree_ymode (.inl rfl) (fun j _ => ⟨_, rfl⟩) h1
  simp only [State.setRes_cur, State.cur_setCur]
  exact ⟨rfl, this⟩

theorem mdYmodeIf_intra (hp : s.ProbKnown ymodeIndex 4) (h : mdYmodeIf s = .ok t) : t.cur.IsIntra := by
  simp only [mdYmodeIf, Res.bind_ok, Except.ok.injEq] at h
  obtain ⟨⟨v, w⟩, h1, rfl⟩ := h
  have := getTree_ymode (.inr rfl) (fun j hj => probs_ok hp j (by
    have : (treeOf 2).length / 2 = 4 := by decide
    omega)) h1
  simp only [State.setRes_cur, State.cur_setCur]
  exact ⟨rfl, this⟩

theorem bmodeStep_intra {P : State → Nat → Nat → Res Byte} {b : Nat} (h : bmodeStep P s b = .ok t)
    (hs : s.cur.IsIntra) : t.cur.IsIntra := by
  simp only [bmodeStep, Res.bind_ok, Except.ok.injEq] at h
  obtain ⟨⟨v, w⟩, h1, rfl⟩ := h
  unfold State.setBMode
  rw [State.cur_setCur]
  exact ⟨by rw [rd_cur_tree h1]; exact hs.ref, by rw [rd_cur_tree h1]; exact hs.mode⟩

theorem bmodes_intra {P : State → Nat → Nat → Res Byte} {l : List Nat} (h : l.foldlM (bmodeStep P) s = .ok t)
    (hs : s.cur.IsIntra) : t.cur.IsIntra :=
  foldlM_keeps (P := fun x : State => x.cur.IsIntra) (fun _ _ _ hx hy => bmodeStep_intra hy hx) hs h

theorem mdUvmode_intra {P : Nat → Res Byte} (h : mdUvmode P s = .ok t) (hs : s.cur.IsIntra) : t.cur.IsIntra := by
  simp only [mdUvmode, Res.bind_ok, Except.ok.injEq] at h
  obtain ⟨⟨v, w⟩, h1, rfl⟩ := h
  simp only [State.setRes_cur, State.cur_setCur]
  exact ⟨by rw [rd_cur_tree h1]; exact hs.ref, by rw [rd_cur_tree h1]; exact hs.mode⟩

theorem mdIntraKf_intra {T : OpenTables} (h : mdIntraKf T s = .ok t) : t.cur.IsIntra := by
  simp only [mdIntraKf, Res.bind_ok] at h
  obtain ⟨w, h1, x, h2, h3⟩ := h
  refine mdUvmode_intra h3 ?_
  unfold mdSubKf at h2
  split at h2
  · exact bmodes_intra h2 (mdYmodeKf_intra h1)
  · simp only [Except.ok.injEq] at h2
    exact h2 ▸ mdYmodeKf_intra h1

theorem mdIntraIf_intra (hp : s.ProbKnown ymodeIndex 4) (h : mdIntraIf s = .ok t) : t.cur.IsIntra := by
  simp only [mdIntraIf, Res.bind_ok] at h
  obtain ⟨w, h1, x, h2, h3⟩ := h
  refine mdUvmode_intra h3 ?_
  unfold mdSubIf at h2
  split at h2
  · exact bmodes_intra h2 (mdYmodeIf_intra hp h1)
  · simp only [Except.ok.injEq] at h2
    exact h2 ▸ mdYmodeIf_intra hp h1

theorem mpNear_ref (s : State) : (mpNear s).cur = s.cur := rfl

theorem mpMode_ref (h : mpMode s = .ok t) : t.cur.ref = s.cur.ref := by
  simp only [mpMode, Res.bind_ok, Except.ok.injEq] at h
  obtain ⟨⟨v, w⟩, h1, rfl⟩ := h
  simp only [State.setRes_cur, State.cur_setCur]
  rw [rd_cur_tree h1]

theorem mpSplit_ref (h : mpSplit s = .ok t) : t.cur.ref = s.cur.ref := by
  simp only [mpSplit, Res.bind_ok, Except.ok.injEq] at h
  obtain ⟨⟨v, w⟩, h1, x, h2, rfl⟩ := h
  simp only [State.setRes_cur, State.cur_setCur]
  refine foldlM_keeps (P := fun y : State => y.cur.ref = s.cur.ref) (fun y a z hy hz => ?_) ?_ h2
  · simp only [splitStep, Res.bind_ok, Except.ok.injEq] at hz
    obtain ⟨⟨v, w⟩, h3, rfl⟩ := hz
    rw [State.cur_setCur]
    show w.cur.ref = _
    rw [rd_cur (readSub_effects h3)]
    exact hy
  · rw [State.cur_setCur]
    show w.cur.ref = _
    rw [rd_cur_tree h1]

theorem mpVector_ref (h : mpVector s = .ok t) : t.cur.ref = s.cur.ref := by
  have hw : ∀ (x : State) (v : Mv), (x.setWholeMv v).cur.ref = x.cur.ref := by
    intro x v
    unfold State.setWholeMv
    rw [State.cur_setCur]
  unfold mpVector at h
  split at h
  case h_3 =>
    simp only [Res.bind_ok, Except.ok.injEq] at h
    obtain ⟨⟨d, w⟩, h1, rfl⟩ := h
    rw [hw, State.setRes_cur, rd_cur (readMv_effects h1)]
  case h_4 => exact mpSplit_ref h
  all_goals simp only [Except.ok.injEq] at h; rw [← h, hw]

theorem mpMb_ref (h : mpMb s = .ok t) : t.cur.ref = s.cur.ref := by
  simp only [mpMb, Res.bind_ok, Except.ok.injEq] at h
  obtain ⟨w, h1, x, h2, rfl⟩ := h
  simp only [State.setRes_cur]
  rw [mpVector_ref h2, mpMode_ref h1, mpNear_ref]

/-- After `MD_MB` a macroblock of reference 0 is intra; on a keyframe every macroblock is. -/
theorem mdMb_intra {T : OpenTables} (hp : s.crBit 0 0 = false → s.ProbKnown ymodeIndex 4) (h : mdMb T s = .ok t) :
    (t.cur.ref = .current → t.cur.IsIntra) ∧ (s.crBit 0 0 = true → t.cur.IsIntra) := by
  simp only [mdMb, Res.bind_ok, Except.ok.injEq] at h
  obtain ⟨w, h1, x, h2, y, h3, rfl⟩ := h
  simp only [State.setRes_cur]
  have e := (mdSegid_effects h1).trans (mdSkip_effects h2)
  unfold mdModes at h3
  split at h3
  · exact ⟨fun _ => mdIntraKf_intra h3, fun _ => mdIntraKf_intra h3⟩
  · rename_i hk
    rw [crBit_of_cr (md_cr e)] at hk
    have hk : s.crBit 0 0 = false := by simpa using hk
    refine ⟨fun hr => ?_, fun ht => by rw [hk] at ht; cases ht⟩
    simp only [mdInterframe, Res.bind_ok] at h3
    obtain ⟨z, h4, h5⟩ := h3
    have hz : z.ProbKnown ymodeIndex 4 := (hp hk).of_prob (md_prob (e.trans (mdRef_effects h4)))
    split at h5
    · exact mdIntraIf_intra hz h5
    · rename_i hn
      rw [mpMb_ref h5] at hr
      exact absurd hr hn

/-! ## What the loop leaves -/

/-- The kinds of change of one macroblock of the loop, its pixels in slot `slot`. -/
def tagsMb (slot : Nat) : Set Tag :=
  { a | (∃ k, a = .rd k) ∨ a = .mb ∨ a = .seg ∨ a = .cand ∨ a = .nz ∨ a = .coef ∨ a = .lfp ∨ a = .res ∨
    ∃ p, p < 3 ∧ a = .pix slot p }

/-- The kinds of change of the whole loop. -/
def tagsLoop (slot : Nat) : Set Tag :=
  { a | a ∈ tagsMb slot ∨ a = .nzLeft ∨ a = .topb ∨ a = .cr 19 }

theorem md_sub_mb (slot : Nat) : tagsMd ⊆ tagsMb slot := by
  rintro a (rfl | rfl | rfl | rfl | rfl) <;> simp [tagsMb]

theorem cd_sub_mb (slot k : Nat) : tagsCd k ⊆ tagsMb slot := by
  rintro a (rfl | rfl | rfl | rfl | rfl) <;> simp [tagsMb]

theorem pix_sub_mb (slot : Nat) : tagsPix slot ⊆ tagsMb slot := by
  rintro a (rfl | ⟨p, hp, rfl⟩)
  · simp [tagsMb]
  · simp [tagsMb, hp]

theorem mb_sub_loop (slot : Nat) : tagsMb slot ⊆ tagsLoop slot := fun _ h => .inl h

theorem mem_loop {slot : Nat} {a : Tag} (h : a ∈ tagsLoop slot) :
    a ≠ .reset ∧ a ≠ .resize ∧ a ≠ .prob ∧ a ≠ .restore ∧ a ≠ .dq ∧ a ≠ .rdOff ∧ (∀ k, a ≠ .rdInit k) ∧
      (∀ i, i ≠ 19 → a ≠ .cr i) ∧ (∀ n p, n ≠ slot → a ≠ .pix n p) ∧ a ≠ .freeRes ∧
      ∀ n, a ≠ .newSlot n := by
  rcases h with h | rfl | rfl | rfl
  · rcases h with ⟨k, rfl⟩ | rfl | rfl | rfl | rfl | rfl | rfl | rfl | ⟨p, hp, rfl⟩
    all_goals refine ⟨by simp, by simp, by simp, by simp, by simp, by simp, by simp, by simp, ?_, by simp, by simp⟩
    all_goals first
      | simp; done
      | rintro n q hn e
        cases e
        exact hn rfl
  · simp
  · simp
  · refine ⟨by simp, by simp, by simp, by simp, by simp, by simp, by simp, fun i hi e => ?_, by simp, by simp,
      by simp⟩
    cases e
    exact hi rfl

theorem loop_prob {slot : Nat} (h : Effects (tagsLoop slot) s t) : t.prob = s.prob :=
  h.same (fun x : State => x.prob) fun a ha _ _ hm => by
    have := mem_loop ha
    exact hm.prob_eq this.2.2.1 this.2.2.2.1 this.1

theorem loop_dq {slot : Nat} (h : Effects (tagsLoop slot) s t) : t.dq = s.dq :=
  h.same (fun x : State => x.dq) fun a ha _ _ hm => by
    have := mem_loop ha
    exact hm.dq_eq this.2.2.2.2.1 this.1

theorem loop_crRaw {slot i : Nat} (hi : i ≠ 19) (h : Effects (tagsLoop slot) s t) : t.crRaw i = s.crRaw i :=
  h.same (fun x : State => x.crRaw i) fun a ha _ _ hm => by
    have := mem_loop ha
    exact hm.crRaw_eq (this.2.2.2.2.2.2.2.1 i hi) this.1 this.2.1

theorem mb_cr {slot : Nat} (h : Effects (tagsMb slot) s t) : t.cr = s.cr :=
  h.same (fun x : State => x.cr) fun a ha _ _ hm =>
    hm.cr_eq
      (by rintro k rfl; rcases ha with ⟨j, h⟩ | h | h | h | h | h | h | h | ⟨p, -, h⟩ <;> cases h)
      (mem_loop (.inl ha)).2.1 (mem_loop (.inl ha)).1

theorem mb_topb {slot : Nat} (h : Effects (tagsMb slot) s t) : t.topb = s.topb :=
  h.same (fun x : State => x.topb) fun a ha _ _ hm =>
    hm.topb_eq
      (by rintro rfl; rcases ha with ⟨j, h⟩ | h | h | h | h | h | h | h | ⟨p, -, h⟩ <;> cases h)
      (mem_loop (.inl ha)).2.1 (mem_loop (.inl ha)).1

theorem loop_other {slot n q x y : Nat} (hn : n ≠ slot) (h : Effects (tagsLoop slot) s t) :
    t.pix n q x y = s.pix n q x y :=
  h.same (fun v : State => v.pix n q x y) fun a ha v w hm => by
    have := mem_loop ha
    have e : w.plane n q = v.plane n q := by
      by_cases hp : ∃ p, a = .pix slot p
      · obtain ⟨p, rfl⟩ := hp
        cases hm with
        | pix =>
          exact State.plane_setPlane_slot _ _ _ _ hn
      · exact hm.plane_eq (fun p => this.2.2.2.2.2.2.2.2.1 n p hn) this.2.1 this.1 (this.2.2.2.2.2.2.2.2.2.2 n)
    simp only [State.pix, e]

/-- A specified pixel stays so. -/
theorem loop_known {slot n q x y : Nat} (h : Effects (tagsLoop slot) s t) (hq : q < 3)
    (hs : (s.pix n q x y).isSome = true) : (t.pix n q x y).isSome = true := by
  refine h.keeps (P := fun v : State => (v.pix n q x y).isSome = true) (fun a ha v w hm hv => ?_) hs
  by_cases hp : ∃ p, a = .pix slot p
  · obtain ⟨p, rfl⟩ := hp
    have hp : p < 3 := by
      rcases ha with ha | ha | ha | ha
      · rcases ha with ⟨j, h⟩ | h | h | h | h | h | h | h | ⟨p', hp', h⟩ <;> cases h
        exact hp'
      all_goals cases ha
    exact pix_known (.one (.inr ⟨p, hp, rfl⟩) hm) hq hv
  · have := mem_loop ha
    have e : w.plane n q = v.plane n q := hm.plane_eq
      (fun p e => by
        by_cases hn : n = slot
        · exact hp ⟨p, hn ▸ e⟩
        · exact this.2.2.2.2.2.2.2.2.1 n p hn e) this.2.1 this.1 (this.2.2.2.2.2.2.2.2.2.2 n)
    unfold State.pix at *
    rwa [e]

/-- A valid range decoder instance stays valid. -/
theorem loop_valid {slot k : Nat} (h : Effects (tagsLoop slot) s t) (hs : s.rdValid k = true) :
    t.rdValid k = true := by
  refine h.keeps (P := fun v : State => v.rdValid k = true) (fun a ha v w hm hv => ?_) hs
  have := mem_loop ha
  by_cases hk : a = .rd k
  · subst hk
    cases hm with
    | rd =>
      rename_i r hr
      unfold State.rdValid at *
      by_cases h9 : k < 9
      · rw [v.rdAt_setRd _ _ _ h9, if_pos rfl, hr.buffer.valid]
        exact hv
      · unfold State.rdAt at hv
        rw [show v.rd[k]? = none from by simp; omega] at hv
        cases hv
  · have e : w.rdAt k = v.rdAt k := hm.rdAt_eq hk (this.2.2.2.2.2.2.1 k) this.2.2.2.2.2.1 this.1
    unfold State.rdValid at *
    rwa [e]

/-- A specified loop-filter record stays so. -/
theorem loop_lfp {slot x : Nat} (h : Effects (tagsLoop slot) s t) (hs : (Memory.find s.lfp x).isSome = true) :
    (Memory.find t.lfp x).isSome = true := by
  refine h.keeps (P := fun v : State => (Memory.find v.lfp x).isSome = true) (fun a ha v w hm hv => ?_) hs
  have := mem_loop ha
  by_cases hl : a = .lfp
  · subst hl
    cases hm with
    | lfp =>
      simp only [Memory.find_set]
      split
      · rfl
      · exact hv
  · show (Memory.find w.lfp x).isSome = true
    rw [hm.lfp_eq hl this.2.1 this.1]
    exact hv

/-! ## What the loop needs -/

/-- What decoding the frame into slot `slot` needs to be specified, and the loop keeps: the probabilities,
the multipliers, the decoders, and on an interframe the reference slots. -/
structure State.Ready (s : State) (slot : Nat) : Prop where
  cur : s.curSlot = some slot
  tokens : s.ProbKnown 0 1101
  segid : (s.crBit 3 0 && s.crBit 3 1) = true → s.ProbKnown segidIndex 3
  skip : s.crBit 14 0 = true → s.ProbKnown mbskipIndex 1
  inter : s.crBit 0 0 = false → s.ProbKnown intraIndex 3
  dq : ∀ g < 4, (Memory.find s.dq g).isSome = true
  modes : s.rdValid 0 = true
  parts : ∀ i < s.npart, s.rdValid (1 + i) = true
  refs : s.crBit 0 0 = false → ∀ r, 1 ≤ r → r ≤ 3 → ∃ src, s.refSlot r = some src ∧ src ≠ slot ∧ s.SlotKnown src

theorem crBit_of_raw {i b : Nat} (h : t.crRaw i = s.crRaw i) : t.crBit i b = s.crBit i b := by
  unfold State.crBit
  rw [h]

theorem crField_of_raw {i lo n : Nat} (h : t.crRaw i = s.crRaw i) : t.crField i lo n = s.crField i lo n := by
  unfold State.crField
  rw [h]

theorem planeW_of_raw (h : t.crRaw 1 = s.crRaw 1) (p : Nat) : t.planeW p = s.planeW p := by
  unfold State.planeW State.mbW
  rw [h]

theorem planeH_of_raw (h : t.crRaw 1 = s.crRaw 1) (p : Nat) : t.planeH p = s.planeH p := by
  unfold State.planeH State.mbH
  rw [h]

theorem State.Ready.keep {slot : Nat} (r : s.Ready slot) (e : Effects (tagsLoop slot) s t) : t.Ready slot where
  cur := by
    unfold State.curSlot
    rw [crField_of_raw (loop_crRaw (by omega) e)]
    exact r.cur
  tokens := r.tokens.of_prob (loop_prob e)
  segid := fun h => by
    rw [crBit_of_raw (loop_crRaw (by omega) e), crBit_of_raw (loop_crRaw (by omega) e)] at h
    exact (r.segid h).of_prob (loop_prob e)
  skip := fun h => by
    rw [crBit_of_raw (loop_crRaw (by omega) e)] at h
    exact (r.skip h).of_prob (loop_prob e)
  inter := fun h => by
    rw [crBit_of_raw (loop_crRaw (by omega) e)] at h
    exact (r.inter h).of_prob (loop_prob e)
  dq := by
    rw [loop_dq e]
    exact r.dq
  modes := loop_valid e r.modes
  parts := fun i hi => by
    unfold State.npart at hi
    rw [crField_of_raw (loop_crRaw (by omega) e)] at hi
    exact loop_valid e (r.parts i hi)
  refs := fun h q h1 h3 => by
    rw [crBit_of_raw (loop_crRaw (by omega) e)] at h
    obtain ⟨src, k1, k2, k3⟩ := r.refs h q h1 h3
    refine ⟨src, ?_, k2, fun p hp x y hx hy => ?_⟩
    · unfold State.refSlot
      rw [crField_of_raw (loop_crRaw (by omega) e)]
      exact k1
    · rw [planeW_of_raw (loop_crRaw (by omega) e)] at hx
      rw [planeH_of_raw (loop_crRaw (by omega) e)] at hy
      exact loop_known e hp (k3 p hp x y hx hy)

theorem State.Ready.dqKnown {slot : Nat} (r : s.Ready slot) : s.DqKnown := by
  refine r.dq s.seg ?_
  unfold State.seg
  split
  · exact s.segment.isLt
  · omega

theorem State.Ready.interKnown {slot : Nat} (r : s.Ready slot) (h : s.crBit 0 0 = false) : s.InterKnown :=
  ⟨r.tokens.part (by decide) (by decide), r.tokens.part (by decide) (by decide), r.inter h,
    r.tokens.part (by decide) (by decide)⟩

/-! ## One macroblock -/

/-- The kinds of change of one block's tokens. -/
def tagsTok (k : Nat) : Set Tag := { .rd k, .nz, .coef }

theorem storeToken_tok {ty b k i tok m : Nat} (h : s.storeToken ty b k i tok = .ok (m, t)) :
    Effects (tagsTok k) s t := by
  simp only [State.storeToken, Res.bind_ok, Except.ok.injEq, Prod.mk.injEq] at h
  obtain ⟨d, -, -, rfl⟩ := h
  exact (((tokenMagnitude_effects s).mono (by simp [tagsTok])).then (by simp [tagsTok])
    (.ofBool _ k 128)).then (by simp [tagsTok]) (.ofCoef _ _ _ _)

theorem cdLoop_tok {ty b k n i ctx start j : Nat} (h : cdLoop ty b k n s i ctx start = .ok (j, t)) :
    Effects (tagsTok k) s t := by
  induction n generalizing s i ctx start with
  | zero => simp only [cdLoop, Except.ok.injEq, Prod.mk.injEq] at h; exact h.2 ▸ .refl _ s
  | succ n ih =>
    unfold cdLoop at h
    split at h
    · simp only [Except.ok.injEq, Prod.mk.injEq] at h; exact h.2 ▸ .refl _ s
    · simp only [Res.bind_ok] at h
      obtain ⟨⟨tok, w⟩, h1, h⟩ := h
      have e1 : Effects (tagsTok k) s w := .one (by simp [tagsTok]) (.ofTree h1)
      split at h
      · simp only [Except.ok.injEq, Prod.mk.injEq] at h; exact h.2 ▸ e1
      · split at h
        · exact e1.trans (ih h)
        · simp only [Res.bind_ok] at h
          obtain ⟨⟨m, x⟩, h2, h3⟩ := h
          exact (e1.trans (storeToken_tok h2)).trans (ih h3)

theorem tok_cur {k : Nat} (h : Effects (tagsTok k) s t) : t.cur = s.cur := by
  refine cur_of_same (h.same (fun x : State => x.cr) fun a ha _ _ hm => ?_)
    (h.same (fun x : State => x.mbinfo) fun a ha _ _ hm => ?_)
  · rcases ha with rfl | rfl | rfl <;> exact hm.cr_eq (by simp) (by simp) (by simp)
  · rcases ha with rfl | rfl | rfl <;> exact hm.mbinfo_eq (by simp) (by simp) (by simp)

theorem cdTokens_cur {ty b k j : Nat} (h : cdTokens ty b k s = .ok (j, t)) : t.cur = s.cur := by
  simp only [cdTokens, Res.bind_ok, Except.ok.injEq, Prod.mk.injEq] at h
  obtain ⟨⟨i, w⟩, h1, -, rfl⟩ := h
  exact tok_cur ((cdLoop_tok h1).then (by simp [tagsTok]) (.ofNz w _ _))

theorem cdBlock_cur {ty b k : Nat} (h : cdBlock ty b k s = .ok t) : t.cur = s.cur := by
  simp only [cdBlock, Res.bind_ok, Except.ok.injEq] at h
  obtain ⟨⟨i, w⟩, h1, rfl⟩ := h
  simp only [State.setRes_cur]
  exact cdTokens_cur h1

/-- `CD_MB` leaves the mode and the reference of the macroblock. -/
theorem cdMb_modes {k : Nat} (h : cdMb k s = .ok t) : t.cur.ref = s.cur.ref ∧ t.cur.mode = s.cur.mode := by
  simp only [cdMb, Res.bind_ok, Except.ok.injEq] at h
  obtain ⟨⟨any, w⟩, h1, rfl⟩ := h
  have hw : w.cur = s.cur := by
    refine foldlM_keeps (P := fun x : Bool × State => x.2.cur = s.cur) (fun x tb y hx hy => ?_)
      (s := (false, s.clearCoef)) s.clearCoef_cur h1
    simp only [cdMbStep, Res.bind_ok, Except.ok.injEq] at hy
    obtain ⟨z, h2, rfl⟩ := hy
    exact (cdBlock_cur h2).trans hx
  simp only [State.setRes_cur]
  split
  · rw [hw]; exact ⟨rfl, rfl⟩
  · rw [State.cur_setCur]
    exact ⟨by rw [← hw], by rw [← hw]⟩

/-- The coefficients of a macroblock complete, and leave its mode and reference. -/
theorem frameCoefs_completes {slot : Nat} (r : s.Ready slot) (hpos : s.posOk = true) :
    ∃ t, frameCoefs s = .ok t ∧ Effects (tagsMb slot) s t ∧ t.cur.ref = s.cur.ref ∧ t.cur.mode = s.cur.mode := by
  simp only [frameCoefs, hpos, require_true, Res.ok_bind]
  split
  · exact ⟨_, rfl, (cdSkipmb_effects s 0).mono (cd_sub_mb slot 0), rfl, rfl⟩
  · have hn : 0 < s.npart := Nat.two_pow_pos _
    have hv := r.parts (s.mby % s.npart) (Nat.mod_lt _ hn)
    obtain ⟨t, h⟩ := cdMb_completes (k := 1 + s.mby % s.npart) r.dqKnown
      (fun _ => r.tokens.part (by omega) (by omega)) (fun _ => r.tokens.part (by omega) (by omega))
    refine ⟨t, by rw [hv, require_true, Res.ok_bind, h], (cdMb_effects h).mono (cd_sub_mb slot _), cdMb_modes h⟩

/-- The pixels around the macroblock are specified where the planes, the border and the position are the
same. -/
theorem State.AroundKnown.of_mb {slot : Nat} (h : s.AroundKnown slot) (e : Effects (tagsMb slot) s t) :
    t.AroundKnown slot := by
  intro p hp q hq
  rw [aroundAts_of_cr (mb_cr e)] at hq
  have hs := h p hp q hq
  unfold State.nb at *
  rw [planeW_of_cr (mb_cr e), mby_of_cr (mb_cr e), mb_topb e]
  split
  · rfl
  · split
    · rfl
    · rename_i h1 h2
      rw [if_neg h1, if_neg h2] at hs
      split
      · rename_i h3; rwa [if_pos h3] at hs
      · rename_i h3
        rw [if_neg h3] at hs
        exact loop_known (e.mono (mb_sub_loop slot)) hp hs

theorem topbOk_of_mb {slot : Nat} (e : Effects (tagsMb slot) s t) : t.topbOk = s.topbOk := by
  unfold State.topbOk
  rw [mby_of_cr (mb_cr e), mb_topb e]

theorem slot_lt {slot : Nat} (r : s.Ready slot) : slot < 4 := slotOf_lt r.cur

/-- The prediction of a macroblock completes and specifies its pixels. -/
theorem framePredict_completes {slot : Nat} (r : s.Ready slot) (hpos : s.posOk = true) (htop : s.topbOk = true)
    (ha : s.AroundKnown slot) (hi : s.cur.ref = .current → s.cur.mode.num ≤ 4)
    (hr : s.cur.ref ≠ .current → s.crBit 0 0 = false) :
    ∃ t, framePredict s = .ok t ∧ Effects (tagsMb slot) s t ∧ t.MbKnown slot := by
  have hp := (tagsPlane_sub slot).trans (pix_sub_mb slot)
  unfold framePredict
  split
  · rename_i hc
    obtain ⟨t, h, hk⟩ := ipMb_completes hpos (slot_lt r) (hi hc) ha
    refine ⟨t, ?_, (ipMb_effects h).mono hp, hk⟩
    simp only [ipCheck, hpos, htop, r.cur, require_true, needSlot_some, Res.ok_bind, h]
  · rename_i hc
    obtain ⟨src, h1, -, h3⟩ := r.refs (hr hc) s.cur.ref.num
      (by cases hh : s.cur.ref <;> simp_all [RefTag.num]) (by cases s.cur.ref <;> simp [RefTag.num])
    obtain ⟨t, h, hk⟩ := mcMb_completes hpos (slot_lt r) h3
    refine ⟨t, ?_, (mcMb_effects h).mono hp, hk⟩
    simp only [hpos, require_true, h1, r.cur, needSlot_some, Res.ok_bind, h]

/-- One macroblock of the loop completes: its pixels and its loop-filter record are then specified. -/
theorem frameMb_completes (T : OpenTables) {slot : Nat} (r : s.Ready slot) (hpos : s.posOk = true)
    (htop : s.topbOk = true) (ha : s.AroundKnown slot) :
    ∃ t, frameMb T s = .ok t ∧ Effects (tagsMb slot) s t ∧ t.MbKnown slot ∧
      (Memory.find t.lfp s.mbx).isSome = true := by
  obtain ⟨t1, h1⟩ := mdMb_completes T r.segid r.skip r.interKnown
  have e1 := (mdMb_effects h1).mono (md_sub_mb slot)
  have c1 := mb_cr e1
  have i1 := mdMb_intra (fun hk => (r.interKnown hk).1) h1
  have r1 := r.keep (e1.mono (mb_sub_loop slot))
  have p1 : t1.posOk = true := by rw [posOk_of_cr c1]; exact hpos
  obtain ⟨t2, h2, e2, m2⟩ := frameCoefs_completes r1 p1
  have c2 := mb_cr e2
  have e12 := e1.trans e2
  have r2 := r.keep (e12.mono (mb_sub_loop slot))
  have p2 : t2.posOk = true := by rw [posOk_of_cr c2]; exact p1
  obtain ⟨t3, h3, e3, k3⟩ := framePredict_completes r2 p2 (by rw [topbOk_of_mb e12]; exact htop) (ha.of_mb e12)
    (fun hc => by rw [m2.2]; exact (i1.1 (m2.1 ▸ hc)).mode)
    (fun hc => by
      rw [crBit_of_cr (mb_cr e12)]
      by_contra hb
      exact hc (by rw [m2.1]; exact (i1.2 (by simpa using hb)).ref))
  have e123 := e12.trans e3
  have r3 := r.keep (e123.mono (mb_sub_loop slot))
  have p3 : t3.posOk = true := by rw [posOk_of_cr (mb_cr e123)]; exact hpos
  obtain ⟨t4, h4⟩ := itMb_completes k3
  have e4 := itMb_effects h4
  have e5 : Effects (tagsMb slot) s (lfParams t4) := (e123.trans (e4.mono (pix_sub_mb slot))).trans
    ((lfParams_effects t4).mono (by rintro a (rfl | rfl) <;> simp [tagsMb]))
  refine ⟨lfParams t4, ?_, e5, ?_, ?_⟩
  · simp only [frameMb, stepRes, mdCheck, hpos, r.modes, require_true, Res.ok_bind, h1, h2, h3, frameResidual, p3,
      r3.cur, needSlot_some, h4]
  · intro p hp x y hx
    have := k3.after e4
    exact this p hp x y ((inMb_of_cr (s := t4) (t := lfParams t4) rfl p x y).1 hx)
  · have hx : t4.mbx = s.mbx := mbx_of_cr (mb_cr (e123.trans (e4.mono (pix_sub_mb slot))))
    show (Memory.find (Memory.set t4.lfp t4.mbx t4.lfpOf) s.mbx).isSome = true
    rw [hx, Memory.find_set_self]
    rfl

/-! ## Rows -/

/-- `TOPB` holds a specified row above row `my`, or there is none. -/
def State.TopKnown (s : State) (my : Nat) : Prop :=
  my = 0 ∨ (s.topb.valid = true ∧ s.topb.row.toNat + 1 = my ∧
    ∀ p < 3, ∀ x < s.planeW p, (Memory.find (s.topb.plane p) x).isSome = true)

/-- The pixels of the first `mx` macroblocks of row `my` are specified. -/
def State.ColsKnown (s : State) (slot my mx : Nat) : Prop :=
  ∀ p < 3, ∀ x y, x < mbSize p * mx → y < mbSize p * (my + 1) → mbSize p * my ≤ y → (s.pix slot p x y).isSome = true

/-- Where the loop stands in row `my` before column `mx`, or after the last column. -/
structure State.InRow (s : State) (slot my mx : Nat) : Prop where
  ready : s.Ready slot
  row : my < s.mbH
  mby : s.mby = my
  mbx : s.mbx = if mx < s.mbW then mx else s.mbW - 1
  rows : s.RowsKnown slot my
  cols : s.ColsKnown slot my mx
  top : s.TopKnown my
  lfp : ∀ x < mx, (Memory.find s.lfp x).isSome = true

theorem State.InRow.topbOk {slot my mx : Nat} (h : s.InRow slot my mx) : s.topbOk = true := by
  unfold State.topbOk
  rw [h.mby]
  rcases h.top with h0 | ⟨h1, h2, -⟩
  · simp [h0]
  · simp [h1, h2]

/-- Everything that intra prediction reads around the macroblock is specified. -/
theorem State.InRow.around {slot my mx : Nat} (h : s.InRow slot my mx) (hm : mx < s.mbW) : s.AroundKnown slot := by
  have hx : s.mbx = mx := by rw [h.mbx, if_pos hm]
  have hS : ∀ p, 0 < mbSize p := by intro p; unfold mbSize; split <;> omega
  have hW : ∀ p, 0 < s.planeW p := by intro p; unfold State.planeW; split <;> omega
  -- above the macroblock row, at any column
  have up : ∀ p < 3, ∀ x : Int, (s.nb slot p x ((s.mbY p : Int) - 1)).isSome = true := by
    intro p hp x
    unfold State.nb
    split
    · rfl
    · split
      · rfl
      · rename_i h1 h2
        have hy : s.mbY p = mbSize p * my := by unfold State.mbY; rw [h.mby]
        have hmy : my ≠ 0 := by
          rintro rfl
          rw [hy, Nat.mul_zero] at h1
          simp at h1
        rw [if_pos (by rw [h.mby, hy]; push_cast; omega)]
        rcases h.top with h0 | ⟨-, -, h3⟩
        · exact absurd h0 hmy
        · exact h3 p hp _ (by have := hW p; omega)
  intro p hp q hq
  rcases List.mem_append.1 hq with hq | hq
  · rcases List.mem_cons.1 hq with rfl | hq
    · exact up p hp _
    · obtain ⟨r, hr, rfl⟩ := List.mem_map.1 hq
      have hr := List.mem_range.1 hr
      have hy : s.mbY p = mbSize p * my := by unfold State.mbY; rw [h.mby]
      have hX : s.mbX p = mbSize p * mx := by unfold State.mbX; rw [hx]
      have hs : mbSize p * (my + 1) = mbSize p * my + mbSize p := Nat.mul_succ _ _
      simp only [State.leftAt, State.nb, h.mby, hy, hX]
      split
      · rfl
      · split
        · rfl
        · rename_i h1 h2
          rw [if_neg (by push_cast; omega)]
          refine h.cols p hp _ _ (by omega) (by omega) (by omega)
  · obtain ⟨c, hc, rfl⟩ := List.mem_map.1 hq
    exact up p hp _

theorem nextmb_keeps (s : State) (slot : Nat) : Effects (tagsLoop slot) s (fcNextmb s) :=
  (fcNextmb_effects s).mono (by rintro a (rfl | rfl) <;> simp [tagsLoop, tagsMb])

theorem fcNextmb_cr (s : State) : (fcNextmb s).crRaw 19 = posWord s.nextPos.1 s.nextPos.2 := by
  unfold fcNextmb State.setMbpos
  simp [State.crRaw_setCr]

theorem fcNextmb_mbx (s : State) : (fcNextmb s).mbx = s.nextPos.1 % 2048 := by
  show field ((fcNextmb s).crRaw 19) 0 11 = _
  rw [fcNextmb_cr, field_posWord_x]

theorem fcNextmb_mby (s : State) : (fcNextmb s).mby = s.nextPos.2 % 2048 := by
  show field ((fcNextmb s).crRaw 19) 16 11 = _
  rw [fcNextmb_cr, field_posWord_y]

theorem mbW_le (s : State) : s.mbW ≤ 1024 := sizeMbW_le _

theorem mbH_le (s : State) : s.mbH ≤ 1024 := sizeMbH_le _

theorem loop_mbW {slot : Nat} (h : Effects (tagsLoop slot) s t) : t.mbW = s.mbW := by
  unfold State.mbW
  rw [loop_crRaw (by omega) h]

theorem loop_mbH {slot : Nat} (h : Effects (tagsLoop slot) s t) : t.mbH = s.mbH := by
  unfold State.mbH
  rw [loop_crRaw (by omega) h]

theorem State.RowsKnown.loop {slot n : Nat} (h : s.RowsKnown slot n) (e : Effects (tagsLoop slot) s t) :
    t.RowsKnown slot n := by
  intro p hp x y hx hy
  rw [planeW_of_raw (loop_crRaw (by omega) e)] at hx
  exact loop_known e hp (h p hp x y hx hy)

theorem State.ColsKnown.loop {slot my mx : Nat} (h : s.ColsKnown slot my mx) (e : Effects (tagsLoop slot) s t) :
    t.ColsKnown slot my mx := fun p hp x y hx hy hy2 => loop_known e hp (h p hp x y hx hy hy2)

/-- The columns up to `mx` and the macroblock `mx` make the columns up to `mx + 1`. -/
theorem State.ColsKnown.add {slot my mx : Nat} (h : s.ColsKnown slot my mx) (hk : s.MbKnown slot) (hx : s.mbx = mx)
    (hy : s.mby = my) : s.ColsKnown slot my (mx + 1) := by
  intro p hp x y h1 h2 h3
  by_cases hlt : x < mbSize p * mx
  · exact h p hp x y hlt h2 h3
  · refine hk p hp x y ?_
    unfold State.inMb inBlock
    rw [hx, hy]
    rw [Nat.mul_succ] at h1 h2
    omega

/-- Column `mx` of the loop. -/
theorem frameCol_completes (T : OpenTables) {slot my mx : Nat} (h : s.InRow slot my mx) (hm : mx < s.mbW) :
    ∃ t, frameCol T s mx = .ok t ∧ t.InRow slot my (mx + 1) ∧ Effects (tagsLoop slot) s t := by
  have hx : s.mbx = mx := by rw [h.mbx, if_pos hm]
  have hpos : s.posOk = true := by
    unfold State.posOk
    rw [hx, h.mby]
    simp [hm, h.row]
  obtain ⟨t, h1, e1, k1, l1⟩ := frameMb_completes T h.ready hpos h.topbOk (h.around hm)
  have c1 := mb_cr e1
  have e1l := e1.mono (mb_sub_loop slot)
  have tx : t.mbx = mx := by rw [mbx_of_cr c1, hx]
  have ty : t.mby = my := by rw [mby_of_cr c1, h.mby]
  have tW : t.mbW = s.mbW := mbW_of_cr c1
  have tH : t.mbH = s.mbH := mbH_of_cr c1
  have htop : t.TopKnown my := by
    unfold State.TopKnown
    rw [mb_topb e1]
    rcases h.top with h0 | ⟨h2, h3, h4⟩
    · exact .inl h0
    · exact .inr ⟨h2, h3, fun p hp x hx => h4 p hp x (by rwa [planeW_of_cr c1] at hx)⟩
  have hl : ∀ x < mx + 1, (Memory.find t.lfp x).isSome = true := by
    intro x hx'
    by_cases he : x = mx
    · rw [he, ← hx]; exact l1
    · exact loop_lfp e1l (h.lfp x (by omega))
  have hcols := (h.cols.loop e1l).add k1 tx ty
  refine ⟨if mx + 1 < t.mbW then fcNextmb t else t, by simp only [frameCol, h1, Res.ok_bind], ?_, ?_⟩
  · split
    · rename_i hlt
      have en := nextmb_keeps t slot
      have hW := mbW_le s
      have hH := mbH_le s
      have hr := h.row
      have np : t.nextPos = (mx + 1, my) := by
        unfold State.nextPos
        rw [tx, ty, if_pos hlt]
      exact
        { ready := h.ready.keep (e1l.trans en)
          row := by rw [loop_mbH en, tH]; exact h.row
          mby := by
            rw [fcNextmb_mby, np]
            exact Nat.mod_eq_of_lt (by show my < 2048; omega)
          mbx := by
            rw [fcNextmb_mbx, np, loop_mbW en, if_pos hlt]
            exact Nat.mod_eq_of_lt (by show mx + 1 < 2048; omega)
          rows := (h.rows.loop e1l).loop en
          cols := hcols.loop en
          top := by
            unfold State.TopKnown
            rw [show (fcNextmb t).topb = t.topb from rfl]
            rcases htop with h0 | ⟨h2, h3, h4⟩
            · exact .inl h0
            · exact .inr ⟨h2, h3, fun p hp x hx => h4 p hp x (by rwa [planeW_of_raw (loop_crRaw (by omega) en)] at hx)⟩
          lfp := fun x hx => loop_lfp en (hl x hx) }
    · rename_i hge
      exact
        { ready := h.ready.keep e1l
          row := by rw [tH]; exact h.row
          mby := ty
          mbx := by rw [if_neg hge, tx]; omega
          rows := h.rows.loop e1l
          cols := hcols
          top := htop
          lfp := hl }
  · split
    · exact e1l.trans (nextmb_keeps t slot)
    · exact e1l

theorem find_indexed (l : List Byte) (n x : Nat) :
    Memory.find ((l.zipIdx n).map fun e => (e.2, e.1)) x = if n ≤ x then l[x - n]? else none := by
  induction l generalizing n with
  | nil => simp
  | cons b l ih =>
    rw [List.zipIdx_cons, List.map_cons, Memory.find_cons, ih]
    by_cases h1 : n = x
    · subst h1; simp
    · rw [if_neg h1]
      by_cases h2 : n ≤ x
      · rw [if_pos h2, if_pos (by omega), show x - n = (x - (n + 1)) + 1 by omega, List.getElem?_cons_succ]
      · rw [if_neg h2, if_neg (by omega)]

/-- The bottom pixels of a macroblock row, by column. -/
theorem bottomRow_completes {slot p my : Nat} (hp : p < 3) (hy : s.mby = my) (h : s.RowsKnown slot (my + 1)) :
    ∃ m, s.bottomRow slot p = .ok m ∧ ∀ x < s.planeW p, (Memory.find m x).isSome = true := by
  have hS : 0 < mbSize p := by unfold mbSize; split <;> omega
  obtain ⟨px, h1, h2⟩ := collect_ok (f := .pixelUnspecified)
    (l := (List.range (s.planeW p)).map fun x => s.pix slot p x (mbSize p * s.mby + (mbSize p - 1)))
    (by intro o ho
        obtain ⟨x, hx, rfl⟩ := List.mem_map.1 ho
        refine h p hp x _ (List.mem_range.1 hx) ?_
        rw [hy, Nat.mul_succ]
        omega)
  have hlen : px.length = s.planeW p := by
    have := congrArg List.length h2
    simpa using this.symm
  refine ⟨_, by simp only [State.bottomRow, h1, Res.ok_bind]; rfl, fun x hx => ?_⟩
  rw [find_indexed, if_pos (Nat.zero_le _), Nat.sub_zero, List.getElem?_eq_getElem (by omega)]
  rfl

/-- Where the loop stands before row `my`. -/
structure State.AtRow (s : State) (slot my : Nat) : Prop where
  ready : s.Ready slot
  mby : s.mby = my
  mbx : s.mbx = 0
  rows : s.RowsKnown slot my
  top : s.TopKnown my

/-- The whole of row `my` is specified once all its columns are. -/
theorem State.InRow.whole {slot my : Nat} (h : s.InRow slot my s.mbW) : s.RowsKnown slot (my + 1) := by
  intro p hp x y hx hy
  by_cases hlt : y < mbSize p * my
  · exact h.rows p hp x y hx hlt
  · refine h.cols p hp x y ?_ hy (by omega)
    unfold State.planeW at hx
    unfold mbSize
    split at hx
    · rename_i h0; rwa [if_pos h0]
    · rename_i h0; rwa [if_neg h0]

/-- The end of a row. -/
theorem frameRowEnd_completes {slot my : Nat} (h : s.InRow slot my s.mbW) (hW : 0 < s.mbW) :
    ∃ t, frameRowEnd s = .ok t ∧ t.AtRow slot (my + 1) ∧ Effects (tagsLoop slot) s t := by
  have hwhole := h.whole
  obtain ⟨y, hy, ky⟩ := bottomRow_completes (p := 0) (by omega) h.mby hwhole
  obtain ⟨u, hu, ku⟩ := bottomRow_completes (p := 1) (by omega) h.mby hwhole
  obtain ⟨v, hv, kv⟩ := bottomRow_completes (p := 2) (by omega) h.mby hwhole
  let t : State := { s with topb := ⟨true, BitVec.ofNat 11 s.mby, y, u, v⟩ }
  have h1 : fcRowend slot s = .ok t := by simp only [fcRowend, hy, hu, hv, Res.ok_bind]; rfl
  have e1 : Effects (tagsLoop slot) s t := (fcRowend_effects h1).mono (by rintro a rfl; simp [tagsLoop])
  have tH := mbH_le s
  have hr := h.row
  have ttop : t.TopKnown (my + 1) := by
    refine .inr ⟨rfl, ?_, fun p hp x hx => ?_⟩
    · show (BitVec.ofNat 11 s.mby).toNat + 1 = my + 1
      rw [h.mby, BitVec.toNat_ofNat, Nat.mod_eq_of_lt (by omega)]
    · rcases (by omega : p = 0 ∨ p = 1 ∨ p = 2) with rfl | rfl | rfl
      · exact ky x hx
      · exact ku x hx
      · exact kv x hx
  have trows : t.RowsKnown slot (my + 1) := hwhole
  have hf : ∃ w, frameFilter slot t = .ok w ∧ Effects (tagsPlane slot) t w := by
    unfold frameFilter
    split
    · exact ⟨t, rfl, .refl _ t⟩
    · obtain ⟨w, hw⟩ := lfRow_completes (s := t) (slot := slot) (fun x hx => h.lfp x hx)
        (by rw [show t.mby = my from h.mby]; exact trows)
      exact ⟨w, hw, lfRow_effects hw⟩
  obtain ⟨w, h2, e2⟩ := hf
  have e2m := e2.mono (((tagsPlane_sub slot).trans (pix_sub_mb slot)).trans (mb_sub_loop slot))
  have s2 := plane_same e2
  have en := nextmb_keeps w slot
  have ew := (e1.trans e2m).trans en
  have np : w.nextPos = (0, my + 1) := by
    unfold State.nextPos
    rw [mbx_of_cr s2.cr, mbW_of_cr s2.cr, mby_of_cr s2.cr, show t.mbx = s.mbx from rfl, show t.mbW = s.mbW from rfl,
      show t.mby = my from h.mby, h.mbx, if_neg (Nat.lt_irrefl _), if_neg (by omega)]
  refine ⟨fcNextmb w, by simp only [frameRowEnd, h.ready.cur, needSlot_some, Res.ok_bind, h1, h2], ?_, ew⟩
  exact
    { ready := h.ready.keep ew
      mby := by
        rw [fcNextmb_mby, np]
        exact Nat.mod_eq_of_lt (by show my + 1 < 2048; omega)
      mbx := by
        rw [fcNextmb_mbx, np]
        rfl
      rows := (trows.loop e2m).loop en
      top := by
        unfold State.TopKnown
        rw [show (fcNextmb w).topb = w.topb from rfl, s2.topb]
        rcases ttop with h0 | ⟨k2, k3, k4⟩
        · exact .inl h0
        · exact .inr ⟨k2, k3, fun p hp x hx => k4 p hp x
            (by rwa [planeW_of_raw (loop_crRaw (by omega) en), planeW_of_cr s2.cr] at hx)⟩ }

/-- One row of the loop. -/
theorem frameRow_completes (T : OpenTables) {slot my : Nat} (h : s.AtRow slot my) (hy : my < s.mbH) (hW : 0 < s.mbW)
    (n : Nat) : ∃ t, frameRow T s n = .ok t ∧ t.AtRow slot (my + 1) ∧ Effects (tagsLoop slot) s t := by
  have e0 : Effects (tagsLoop slot) s (fcRowstart s) := .one (by simp [tagsLoop]) (.nzLeft s)
  have h0 : (fcRowstart s).InRow slot my 0 :=
    { ready := h.ready.keep e0
      row := hy
      mby := h.mby
      mbx := by rw [show (fcRowstart s).mbx = s.mbx from rfl, h.mbx, show (fcRowstart s).mbW = s.mbW from rfl, if_pos hW]
      rows := h.rows
      cols := fun p hp x y hx => absurd hx (by simp)
      top := h.top
      lfp := fun x hx => absurd hx (by omega) }
  obtain ⟨t, h1, h2, h3⟩ := range_completes (f := frameCol T) (n := s.mbW)
    (P := fun mx u => u.InRow slot my mx ∧ Effects (tagsLoop slot) s u)
    (fun mx hm u hu => by
      obtain ⟨w, k1, k2, k3⟩ := frameCol_completes T hu.1 (by rw [loop_mbW hu.2]; exact hm)
      exact ⟨w, k1, k2, hu.2.trans k3⟩) (s := fcRowstart s) ⟨h0, e0⟩
  have hw : t.mbW = s.mbW := loop_mbW h3
  obtain ⟨u, k1, k2, k3⟩ := frameRowEnd_completes (by rw [hw]; exact h2) (by rw [hw]; exact hW)
  exact ⟨u, by simp only [frameRow, h1, Res.ok_bind, k1], k2, h3.trans k3⟩

/-- The loop over the frame completes, and specifies every pixel of the CUR slot. -/
theorem frameLoop_completes (T : OpenTables) {slot : Nat} (h : s.AtRow slot 0) (hW : 0 < s.mbW) :
    ∃ t, frameLoop T s = .ok t ∧ t.SlotKnown slot ∧ Effects (tagsLoop slot) s t := by
  obtain ⟨t, h1, h2, h3⟩ := range_completes (f := frameRow T) (n := s.mbH)
    (P := fun my u => u.AtRow slot my ∧ Effects (tagsLoop slot) s u)
    (fun my hm u hu => by
      obtain ⟨w, k1, k2, k3⟩ := frameRow_completes T hu.1 (by rw [loop_mbH hu.2]; exact hm)
        (by rw [loop_mbW hu.2]; exact hW) my
      exact ⟨w, k1, k2, hu.2.trans k3⟩) (s := s) ⟨h, .refl _ s⟩
  refine ⟨t, h1, fun p hp x y hx hy => h2.rows p hp x y hx ?_, h3⟩
  unfold State.planeH at hy
  rw [loop_mbH h3] at hy
  unfold mbSize
  split at hy
  · rename_i h0; rwa [if_pos h0]
  · rename_i h0; rwa [if_neg h0]

end Sys2Proof.Machine
end

