-- ==== Sys2Proof/Laws/HeaderCompletes.lean ====
section
/-! SUPPORT. The header of a frame that passes the checks completes, and specifies what decoding the frame
uses (spec 48_frame_control_host.md R408 to R429). -/

namespace Sys2Proof.Machine

variable {s t u : State}

/-! ## The fields: what stays -/

/-- A function of the state leaves every control register but those of a list. -/
def Leaves (l : List Nat) (f : State → State) : Prop := ∀ (s : State) (j : Nat), j ∉ l → (f s).crRaw j = s.crRaw j

theorem Leaves.mono {l m : List Nat} {f : State → State} (h : Leaves l f) (hs : l ⊆ m) : Leaves m f :=
  fun s j hj => h s j fun hl => hj (hs hl)

theorem hFlag_crRaw (s : State) (j : Nat) : (hFlag s).2.crRaw j = s.crRaw j := rfl

theorem hLit_crRaw (n : Nat) (s : State) (j : Nat) : (hLit n s).2.crRaw j = s.crRaw j := rfl

theorem hLitTo_leaves (reg lo n : Nat) : Leaves [reg] (hLitTo reg lo n) := by
  intro s j hj
  unfold hLitTo
  rw [State.crRaw_setCrField_other _ _ _ _ (by simpa using hj)]
  rfl

theorem hOptSigned_crRaw (n : Nat) (s : State) (j : Nat) : (hOptSigned n s).2.crRaw j = s.crRaw j := by
  unfold hOptSigned
  simp only
  split <;> rfl

theorem hOptByte_leaves (reg i n : Nat) : Leaves [reg] (hOptByte reg i n) := by
  intro s j hj
  unfold hOptByte State.setCrByte
  rw [State.crRaw_setCrField_other _ _ _ _ (by simpa using hj)]
  exact hOptSigned_crRaw n s j

theorem hKeepByte_leaves (reg i n : Nat) : Leaves [reg] (hKeepByte reg i n) := by
  intro s j hj
  unfold hKeepByte State.setCrByte
  simp only
  split
  · rw [State.crRaw_setCrField_other _ _ _ _ (by simpa using hj)]
    rfl
  · rfl

theorem hProb_leaves (i : Nat) : Leaves [] (hProb i) := fun _ _ _ => rfl

theorem foldl_leaves {l : List Nat} {f : State → Nat → State} (h : ∀ i, Leaves l fun s => f s i) (is : List Nat) :
    Leaves l fun s => is.foldl f s := by
  induction is with
  | nil => exact fun _ _ _ => rfl
  | cons a is ih =>
    intro s j hj
    show (is.foldl f (f s a)).crRaw j = _
    rw [ih _ j hj, h a s j hj]

theorem hColor_leaves : Leaves [0] hColor := by
  intro s j hj
  unfold hColor
  rw [hLitTo_leaves 0 6 1 _ j hj, hLitTo_leaves 0 5 1 _ j hj]

theorem hKeyReset_leaves (T : OpenTables) : Leaves [3, 4, 5, 7, 8, 13] (hKeyReset T) := by
  intro s j hj
  simp only [List.mem_cons, List.not_mem_nil, or_false, not_or] at hj
  have e : ∀ (w : State) (m : Memory (BitVec 2)) (q : Memory Byte),
      ({ w with segmap := m, prob := q } : State).crRaw j = w.crRaw j := fun _ _ _ => rfl
  unfold hKeyReset
  rw [e, State.crRaw_setCrField_other _ _ _ _ hj.2.2.2.2.2, State.crRaw_setCrField_other _ _ _ _ hj.2.2.2.2.2,
    State.crRaw_setCr_other _ _ hj.2.2.2.2.1, State.crRaw_setCr_other _ _ hj.2.2.2.1,
    State.crRaw_setCr_other _ _ hj.2.2.1, State.crRaw_setCr_other _ _ hj.2.1, State.crRaw_setCr_other _ _ hj.1]

theorem hSegProb_leaves (i : Nat) : Leaves [] fun s => hSegProb s i := by
  intro s j _
  simp only [hSegProb]
  split <;> rfl

theorem hSegData_leaves : Leaves [3, 4, 5] hSegData := by
  intro s j hj
  have h3 : j ≠ 3 := by rintro rfl; simp at hj
  unfold hSegData
  simp only
  rw [(foldl_leaves (fun i => hOptByte_leaves 5 i 6) _).mono (by simp) _ j hj,
    (foldl_leaves (fun i => hOptByte_leaves 4 i 7) _).mono (by simp) _ j hj, State.crRaw_setCrField_other _ _ _ _ h3]
  rfl

theorem hSegmentation_leaves : Leaves [3, 4, 5] hSegmentation := by
  intro s j hj
  have h3 : j ≠ 3 := by rintro rfl; simp at hj
  have hd : ∀ x : State, (hSegData x).crRaw j = x.crRaw j := fun x => hSegData_leaves x j hj
  have hp : ∀ x : State, ((List.range 3).foldl hSegProb x).crRaw j = x.crRaw j :=
    fun x => foldl_leaves hSegProb_leaves _ x j (by simp)
  have hf : ∀ (x : State) (lo n v : Nat), (x.setCrField 3 lo n v).crRaw j = x.crRaw j :=
    fun x lo n v => x.crRaw_setCrField_other _ _ _ h3
  unfold hSegmentation
  simp only
  split
  · split <;> split <;> simp only [hp, hd, hf, hFlag_crRaw]
  · simp only [hf, hFlag_crRaw]

theorem hFilter_leaves : Leaves [6] hFilter := by
  intro s j hj
  unfold hFilter
  rw [hLitTo_leaves 6 7 3 _ j hj, hLitTo_leaves 6 1 6 _ j hj, hLitTo_leaves 6 0 1 _ j hj]

theorem hDeltas_leaves : Leaves [6, 7, 8] hDeltas := by
  intro s j hj
  have h6 : j ≠ 6 := by rintro rfl; simp at hj
  unfold hDeltas
  simp only
  split
  · split
    · rw [(foldl_leaves (fun i => hKeepByte_leaves 8 i 6) _).mono (by simp) _ j hj,
        (foldl_leaves (fun i => hKeepByte_leaves 7 i 6) _).mono (by simp) _ j hj]
      simp only [hFlag_crRaw, State.crRaw_setCrField_other _ _ _ _ h6]
    · simp only [hFlag_crRaw, State.crRaw_setCrField_other _ _ _ _ h6]
  · simp only [hFlag_crRaw, State.crRaw_setCrField_other _ _ _ _ h6]

theorem hQuant_leaves : Leaves [10, 11, 12] hQuant := by
  intro s j hj
  unfold hQuant
  simp only
  rw [(hOptByte_leaves 12 0 4).mono (by simp) _ j hj, (foldl_leaves (fun i => hOptByte_leaves 11 i 4) _).mono (by simp)
    _ j hj, (hLitTo_leaves 10 0 7).mono (by simp) _ j hj]

theorem hRefField_leaves (lo : Nat) (f : Bool) : Leaves [13] (hRefField lo f) := by
  intro s j hj
  have h : j ≠ 13 := by simpa using hj
  unfold hRefField
  simp only
  split
  · exact State.crRaw_setCrField_other _ _ _ _ h
  · rw [State.crRaw_setCrField_other _ _ _ _ h]; rfl

theorem hRefs_leaves : Leaves [13] hRefs := by
  intro s j hj
  unfold hRefs
  simp only
  rw [hLitTo_leaves 13 6 1 _ j hj, hLitTo_leaves 13 5 1 _ j hj, hRefField_leaves _ _ _ j hj,
    hRefField_leaves _ _ _ j hj]
  rfl

theorem hCommit_leaves : Leaves [13] hCommit := by
  intro s j hj
  have h : j ≠ 13 := by simpa using hj
  unfold hCommit
  simp only
  split
  · rw [State.crRaw_setCrField_other _ _ _ _ h]; rfl
  · show (State.setCrField _ 13 7 1 _).crRaw j = _
    rw [State.crRaw_setCrField_other _ _ _ _ h]; rfl

theorem hTokens_leaves (T : OpenTables) : Leaves [] (hTokens T) :=
  foldl_leaves (fun i s j _ => by
    simp only [hTokenUpdate]
    split <;> rfl) _

theorem hSkip_leaves : Leaves [14] hSkip := by
  intro s j hj
  have h : j ≠ 14 := by simpa using hj
  unfold hSkip
  simp only
  split
  · show (State.setCrField _ 14 0 1 _).crRaw j = _
    rw [State.crRaw_setCrField_other _ _ _ _ h]; rfl
  · rw [State.crRaw_setCrField_other _ _ _ _ h]; rfl

theorem hProbRun_leaves (base n : Nat) : Leaves [] (hProbRun base n) := by
  intro s j _
  simp only [hProbRun]
  split
  · exact (foldl_leaves (fun i => hProb_leaves (base + i)) _ _ j (by simp)).trans rfl
  · rfl

theorem hModeProbs_leaves : Leaves [] hModeProbs := by
  intro s j hj
  unfold hModeProbs
  rw [hProbRun_leaves _ _ _ j hj, hProbRun_leaves _ _ _ j hj]

theorem hRefProbs_leaves : Leaves [] hRefProbs := by
  intro s j hj
  unfold hRefProbs
  rw [hProb_leaves _ _ j hj, hProb_leaves _ _ j hj, hProb_leaves _ _ j hj]

theorem hMvs_leaves (T : OpenTables) : Leaves [] (hMvs T) :=
  foldl_leaves (fun i s j _ => by
    simp only [hMvUpdate]
    split <;> rfl) _

/-- Entries of `PROB` that are specified stay so under the header's fields. -/
theorem fields_probKnown {lo n : Nat} (h : Effects tagsFields s t) (hs : s.ProbKnown lo n) : t.ProbKnown lo n := by
  intro i hi
  refine h.keeps (P := fun v : State => (v.probAt (lo + i)).isSome = true) (fun a ha v w hm hv => ?_) (hs i hi)
  unfold State.probAt at *
  by_cases hp : a = .prob
  · subst hp
    cases hm with
    | prob => exact Memory.isSome_setAll _ _ hv
  · rw [hm.prob_eq hp (by rintro rfl; rcases ha with h | h | h | h | ⟨k, -, -, -, -, h⟩ <;> cases h)
      (by rintro rfl; rcases ha with h | h | h | h | ⟨k, -, -, -, -, h⟩ <;> cases h)]
    exact hv

/-- A valid decoder stays valid under the header's fields. -/
theorem fields_valid {k : Nat} (h : Effects tagsFields s t) (hs : s.rdValid k = true) : t.rdValid k = true := by
  refine h.keeps (P := fun v : State => v.rdValid k = true) (fun a ha v w hm hv => ?_) hs
  have h1 : a ≠ .rdOff ∧ a ≠ .reset ∧ ∀ k, a ≠ .rdInit k := by
    rcases ha with rfl | rfl | rfl | rfl | ⟨j, -, -, -, -, rfl⟩ <;> simp
  by_cases hk : a = .rd k
  · subst hk
    have : k = 0 := by
      rcases ha with h | h | h | h | ⟨j, -, -, -, -, h⟩ <;> cases h
      rfl
    subst this
    cases hm with
    | rd =>
      rename_i r hr
      unfold State.rdValid at *
      rw [v.rdAt_setRd _ _ _ (by omega), if_pos rfl, hr.buffer.valid]
      exact hv
  · unfold State.rdValid at *
    rw [hm.rdAt_eq hk (h1.2.2 k) h1.1 h1.2.1]
    exact hv

theorem fields_cbuf (h : Effects tagsFields s t) : t.cbuf = s.cbuf :=
  h.same (fun x : State => x.cbuf) fun _ _ _ _ hm => hm.cbuf_eq

/-! ## The fields: what is specified after them -/

theorem hProb_known (i : Nat) (s : State) : ((hProb i s).probAt i).isSome = true := by
  unfold hProb
  simp only [State.probAt_setProb, if_true]
  rfl

theorem hSegProb_known (s : State) (i : Nat) : ((hSegProb s i).probAt (segidIndex + i)).isSome = true := by
  unfold hSegProb
  simp only
  split
  · exact hProb_known _ _
  · simp only [State.probAt_setProb, if_true]; rfl

theorem hSegProbs_known (s : State) : ((List.range 3).foldl hSegProb s).ProbKnown segidIndex 3 := by
  intro i hi
  have e : ∀ (x : State) (j : Nat), (x.probAt (segidIndex + i)).isSome = true →
      ((hSegProb x j).probAt (segidIndex + i)).isSome = true := fun x j hx =>
    fields_probKnown (lo := segidIndex + i) (n := 1) (hSegProb_effects x j)
      (fun k hk => by rw [show k = 0 by omega]; exact hx) 0 (by omega)
  simp only [List.range_succ, List.range_zero, List.nil_append, List.cons_append, List.foldl_cons, List.foldl_nil]
  rcases (by omega : i = 0 ∨ i = 1 ∨ i = 2) with rfl | rfl | rfl
  · exact e _ _ (e _ _ (hSegProb_known _ _))
  · exact e _ _ (hSegProb_known _ _)
  · exact hSegProb_known _ _

theorem crBit_setCrField_self {i lo : Nat} (hi : i < 44) (hl : lo < 32) (b : Bool) (s : State) :
    (s.setCrField i lo 1 (boolNat b)).crBit i lo = b := by
  unfold State.crBit
  rw [s.crRaw_setCrField_self _ _ _ hi]
  rw [bitAt_eq_field, field_setField _ _ _ _ (by omega)]
  cases b <;> rfl

theorem crBit_setCrField_other {i lo len b : Nat} (v : Nat) (hi : i < 44) (h : b < lo ∨ lo + len ≤ b) (hb : b < 32)
    (s : State) : (s.setCrField i lo len v).crBit i b = s.crBit i b := by
  unfold State.crBit
  rw [s.crRaw_setCrField_self _ _ _ hi, bitAt_setField_other _ _ h hb]

theorem hSegData_update (s : State) : (hSegData s).crBit 3 1 = s.crBit 3 1 := by
  unfold hSegData
  simp only
  rw [crBit_of_raw (foldl_leaves (fun i => hOptByte_leaves 5 i 6) (List.range 4) _ 3 (by simp)),
    crBit_of_raw (foldl_leaves (fun i => hOptByte_leaves 4 i 7) (List.range 4) _ 3 (by simp)),
    crBit_setCrField_other _ (by omega) (by omega) (by omega)]
  rfl

/-- Where the segment map is updated, the header has given the probabilities of its tree (R412). -/
theorem hSegmentation_known (s : State) (h : (hSegmentation s).crBit 3 1 = true) :
    (hSegmentation s).ProbKnown segidIndex 3 := by
  unfold hSegmentation at h ⊢
  simp only at h ⊢
  split at h
  · rename_i h1
    rw [if_pos h1]
    split at h
    · rename_i h2
      simp only [if_pos h2]
      exact hSegProbs_known _
    · rename_i h2
      exfalso
      have hf : (hFlag ((hFlag s).2.setCrField 3 0 1 (boolNat (hFlag s).1))).1 = false := by simpa using h2
      split at h
      · rw [hSegData_update, crBit_setCrField_other _ (by omega) (by omega) (by omega),
          crBit_setCrField_self (by omega) (by omega), hf] at h
        cases h
      · rw [crBit_setCrField_other _ (by omega) (by omega) (by omega),
          crBit_setCrField_self (by omega) (by omega), hf] at h
        cases h
  · exfalso
    unfold State.crBit at h
    rw [State.crRaw_setCrField_self _ _ _ _ (by omega), bitAt_eq_field] at h
    have h2 := field_setField ((hFlag s).2.setCrField 3 0 1 (boolNat (hFlag s).1) |>.crRaw 3) 1 2 0 (by omega)
    have h3 := testBit_field (setField ((hFlag s).2.setCrField 3 0 1 (boolNat (hFlag s).1) |>.crRaw 3) 1 2 0) 1 2 0
    have h4 := testBit_field (setField ((hFlag s).2.setCrField 3 0 1 (boolNat (hFlag s).1) |>.crRaw 3) 1 2 0) 1 1 0
    rw [h2] at h3
    simp only [decide_eq_true_eq] at h
    rw [h] at h4
    simp at h3 h4
    rw [h4] at h3
    cases h3

theorem hSkip_known (s : State) (h : (hSkip s).crBit 14 0 = true) : (hSkip s).ProbKnown mbskipIndex 1 := by
  unfold hSkip at h ⊢
  simp only at h ⊢
  split at h
  · rename_i h1
    rw [if_pos h1]
    intro i hi
    rw [show i = 0 by omega]
    exact hProb_known _ _
  · rename_i h1
    rw [crBit_setCrField_self (by omega) (by omega)] at h
    exact absurd h h1

theorem hRefProbs_known (s : State) : (hRefProbs s).ProbKnown intraIndex 3 := by
  have e : ∀ (x : State) (i j : Nat), (x.probAt j).isSome = true → ((hProb i x).probAt j).isSome = true := by
    intro x i j hx
    exact fields_probKnown (lo := j) (n := 1) (hProb_effects i x)
      (fun k hk => by rw [show k = 0 by omega]; exact hx) 0 (by omega)
  intro i hi
  unfold hRefProbs
  rcases (by omega : i = 0 ∨ i = 1 ∨ i = 2) with rfl | rfl | rfl
  · exact e _ _ _ (e _ _ _ (hProb_known _ _))
  · exact e _ _ _ (hProb_known _ _)
  · exact hProb_known _ _

/-- A keyframe's defaults cover the first 1101 entries of `PROB` (R409). -/
theorem hKeyReset_known (T : OpenTables) (s : State) : (hKeyReset T s).ProbKnown 0 1101 := by
  have key : ∀ (m : Memory Byte) (l : List (Nat × Byte)) (i : Nat), i ∈ l.map (·.1) →
      (Memory.find (Memory.setAll m l) i).isSome = true := by
    intro m l i hi
    obtain ⟨e, he, rfl⟩ := List.mem_map.1 hi
    rw [Memory.find_setAll]
    have := Memory.find_isSome_of_mem he
    cases h : Memory.find l e.1 with
    | none => rw [h] at this; cases this
    | some b => rfl
  intro i hi
  have e : ∀ (w : State) (m : Memory (BitVec 2)) (l : List (Nat × Byte)) (j : Nat), j ∈ l.map (·.1) →
      (({ w with segmap := m, prob := Memory.setAll w.prob l } : State).probAt j).isSome = true :=
    fun w _ l j hj => key w.prob l j hj
  unfold hKeyReset
  refine e _ _ _ _ ?_
  rw [Nat.zero_add, List.map_append, List.map_append, List.mem_append, List.mem_append]
  by_cases h1 : i < 1056
  · refine .inl (.inl ?_)
    unfold tokenEntries
    rw [List.map_map]
    exact List.mem_map.2 ⟨i, List.mem_range.2 h1, rfl⟩
  · by_cases h2 : i < 1094
    · refine .inl (.inr ?_)
      unfold mvcEntries
      rw [List.map_map]
      exact List.mem_map.2 ⟨i - 1056, List.mem_range.2 (by omega), by show 1056 + (i - 1056) = i; omega⟩
    · refine .inr ?_
      have hm : modeEntries.map (·.1) = List.range' 1094 7 := by decide
      rw [hm]
      simp only [List.mem_range'_1]
      omega

/-- The frame class bit is none of those that the colour fields write. -/
theorem hColor_key (s : State) : (hColor s).crBit 0 0 = s.crBit 0 0 := by
  unfold hColor hLitTo
  simp only
  rw [crBit_setCrField_other _ (by omega) (by omega) (by omega)]
  show (State.setCrField _ 0 5 1 _).crBit 0 0 = _
  rw [crBit_setCrField_other _ (by omega) (by omega) (by omega)]
  rfl

/-- What the header's fields specify, and what they leave. -/
structure FieldsDone (key : Bool) (s u : State) : Prop where
  effects : Effects tagsFields s u
  tokens : (key = true ∨ s.ProbKnown 0 1101) → u.ProbKnown 0 1101
  segid : u.crBit 3 1 = true → u.ProbKnown segidIndex 3
  skip : u.crBit 14 0 = true → u.ProbKnown mbskipIndex 1
  inter : key = false → u.ProbKnown intraIndex 3
  cls : u.crBit 0 0 = s.crBit 0 0
  raw : ∀ j, j = 1 ∨ 15 ≤ j → u.crRaw j = s.crRaw j

theorem hFields_done (T : OpenTables) (key : Bool) (s : State) : FieldsDone key s (hFields T key s) := by
  have hE := hFields_effects T key s
  cases key with
  | true =>
    unfold hFields at hE ⊢
    simp only [if_true] at hE ⊢
    generalize hk : hColor (hKeyReset T s) = k at hE ⊢
    have k1 : k.ProbKnown 0 1101 := by
      rw [← hk]
      exact fields_probKnown ((hLitTo_effects _ (by decide) (by decide)).trans (hLitTo_effects _ (by decide) (by decide)))
        (hKeyReset_known T s)
    have k2 : k.crBit 0 0 = s.crBit 0 0 := by
      rw [← hk, hColor_key, crBit_of_raw (hKeyReset_leaves T s 0 (by simp))]
    have k3 : ∀ j, j = 1 ∨ 15 ≤ j → k.crRaw j = s.crRaw j := by
      intro j hj
      rw [← hk, hColor_leaves _ j (by simp; omega), hKeyReset_leaves T s j (by simp; omega)]
    clear hk
    generalize hg : hSegmentation k = g at hE ⊢
    have g1 : g.crBit 3 1 = true → g.ProbKnown segidIndex 3 := by rw [← hg]; exact hSegmentation_known k
    have g2 : g.ProbKnown 0 1101 := by rw [← hg]; exact fields_probKnown (hSegmentation_effects k) k1
    have g3 : ∀ j, j ∉ [3, 4, 5] → g.crRaw j = k.crRaw j := by rw [← hg]; exact hSegmentation_leaves k
    clear hg
    generalize hm : hTokens T (hCommit (hQuant (hPartCount (hDeltas (hFilter g))))) = m at hE ⊢
    have m1 : Effects tagsFields g m := by
      rw [← hm]
      exact (((((((hLitTo_effects _ (by decide) (by decide)).trans
        (hLitTo_effects _ (by decide) (by decide))).trans (hLitTo_effects _ (by decide) (by decide))).trans
        (hDeltas_effects _)).trans (hLitTo_effects _ (by decide) (by decide))).trans (hQuant_effects _)).trans
        (hCommit_effects _)).trans (hTokens_effects T _)
    have m2 : ∀ j, j ∉ [6, 7, 8, 9, 10, 11, 12, 13] → m.crRaw j = g.crRaw j := by
      intro j hj
      simp only [List.mem_cons, List.not_mem_nil, or_false, not_or] at hj
      rw [← hm, hTokens_leaves T _ j (by simp), hCommit_leaves _ j (by simp; omega), hQuant_leaves _ j (by simp; omega),
        hPartCount, hLitTo_leaves 9 0 2 _ j (by simp; omega), hDeltas_leaves _ j (by simp; omega),
        hFilter_leaves _ j (by simp; omega)]
    clear hm
    have n2 : ∀ j, j ≠ 14 → (hSkip m).crRaw j = m.crRaw j := fun j hj => hSkip_leaves m j (by simpa using hj)
    exact
      { effects := hE
        tokens := fun _ => fields_probKnown (m1.trans (hSkip_effects m)) g2
        segid := fun h => by
          rw [crBit_of_raw (n2 3 (by omega)), crBit_of_raw (m2 3 (by simp))] at h
          exact fields_probKnown (m1.trans (hSkip_effects m)) (g1 h)
        skip := hSkip_known m
        inter := fun h => by cases h
        cls := by
          rw [crBit_of_raw (n2 0 (by omega)), crBit_of_raw (m2 0 (by simp)), crBit_of_raw (g3 0 (by simp)), k2]
        raw := fun j hj => by
          rw [n2 j (by omega), m2 j (by simp; omega), g3 j (by simp; omega), k3 j hj] }
  | false =>
    unfold hFields at hE ⊢
    simp only [Bool.false_eq_true, if_false] at hE ⊢
    generalize hg : hSegmentation s = g at hE ⊢
    have g1 : g.crBit 3 1 = true → g.ProbKnown segidIndex 3 := by rw [← hg]; exact hSegmentation_known s
    have g2 : s.ProbKnown 0 1101 → g.ProbKnown 0 1101 := by
      rw [← hg]; exact fun h => fields_probKnown (hSegmentation_effects s) h
    have g3 : ∀ j, j ∉ [3, 4, 5] → g.crRaw j = s.crRaw j := by rw [← hg]; exact hSegmentation_leaves s
    clear hg
    generalize hm : hTokens T (hUpdateLast (hCommit (hRefs (hQuant (hPartCount (hDeltas (hFilter g))))))) = m at hE ⊢
    have m1 : Effects tagsFields g m := by
      rw [← hm]
      exact (((((((((hLitTo_effects _ (by decide) (by decide)).trans
        (hLitTo_effects _ (by decide) (by decide))).trans (hLitTo_effects _ (by decide) (by decide))).trans
        (hDeltas_effects _)).trans (hLitTo_effects _ (by decide) (by decide))).trans (hQuant_effects _)).trans
        (hRefs_effects _)).trans (hCommit_effects _)).trans (hLitTo_effects _ (by decide) (by decide))).trans
        (hTokens_effects T _)
    have m2 : ∀ j, j ∉ [6, 7, 8, 9, 10, 11, 12, 13] → m.crRaw j = g.crRaw j := by
      intro j hj
      simp only [List.mem_cons, List.not_mem_nil, or_false, not_or] at hj
      rw [← hm, hTokens_leaves T _ j (by simp), hUpdateLast, hLitTo_leaves 13 4 1 _ j (by simp; omega),
        hCommit_leaves _ j (by simp; omega), hRefs_leaves _ j (by simp; omega), hQuant_leaves _ j (by simp; omega),
        hPartCount, hLitTo_leaves 9 0 2 _ j (by simp; omega), hDeltas_leaves _ j (by simp; omega),
        hFilter_leaves _ j (by simp; omega)]
    clear hm
    have n2 : ∀ j, j ≠ 14 → (hSkip m).crRaw j = m.crRaw j := fun j hj => hSkip_leaves m j (by simpa using hj)
    have n3 := hSkip_known m
    have n4 := hSkip_effects m
    generalize hSkip m = n at hE n2 n3 n4 ⊢
    have r1 := hRefProbs_known n
    have r2 : Effects tagsFields n (hRefProbs n) :=
      ((hProb_effects _ _).trans (hProb_effects _ _)).trans (hProb_effects _ _)
    have r3 := hRefProbs_leaves n
    generalize hRefProbs n = r at hE r1 r2 r3 ⊢
    have q1 : Effects tagsFields r (hMvs T (hModeProbs r)) :=
      ((hProbRun_effects _ _ _).trans (hProbRun_effects _ _ _)).trans (hMvs_effects T _)
    have q2 : ∀ j, (hMvs T (hModeProbs r)).crRaw j = n.crRaw j := fun j => by
      rw [hMvs_leaves T _ j (by simp), hModeProbs_leaves _ j (by simp), r3 j (by simp)]
    generalize hMvs T (hModeProbs r) = q at hE q1 q2 ⊢
    have e1 := ((m1.trans n4).trans r2).trans q1
    exact
      { effects := hE
        tokens := fun h => fields_probKnown e1 (g2 (h.resolve_left (by simp)))
        segid := fun h => by
          rw [crBit_of_raw (q2 3), crBit_of_raw (n2 3 (by omega)), crBit_of_raw (m2 3 (by simp))] at h
          exact fields_probKnown e1 (g1 h)
        skip := fun h => by
          rw [crBit_of_raw (q2 14)] at h
          exact fields_probKnown (r2.trans q1) (n3 h)
        inter := fun _ => fields_probKnown q1 r1
        cls := by
          rw [crBit_of_raw (q2 0), crBit_of_raw (n2 0 (by omega)), crBit_of_raw (m2 0 (by simp)),
            crBit_of_raw (g3 0 (by simp))]
        raw := fun j hj => by
          rw [q2 j, n2 j (by omega), m2 j (by simp; omega), g3 j (by simp; omega)] }

/-! ## Partitions -/

/-- The kinds of change of the partition layout. -/
def tagsParts : Set Tag := { a | (∃ k, a = .rdInit k) ∨ ∃ j, 20 ≤ j ∧ a = .cr j }

theorem mem_parts {a : Tag} (h : a ∈ tagsParts) : a ≠ .resize ∧ a ≠ .reset ∧ a ≠ .prob ∧ a ≠ .restore ∧ a ≠ .rdOff ∧
    (∀ k, a ≠ .rd k) ∧ (∀ n p, a ≠ .pix n p) ∧ ∀ i, i < 20 → a ≠ .cr i := by
  rcases h with ⟨k, rfl⟩ | ⟨j, hj, rfl⟩
  · simp
  · refine ⟨by simp, by simp, by simp, by simp, by simp, by simp, by simp, fun i hi e => ?_⟩
    cases e
    omega

theorem parts_prob (h : Effects tagsParts s t) : t.prob = s.prob :=
  h.same (fun x : State => x.prob) fun _ ha _ _ hm =>
    hm.prob_eq (mem_parts ha).2.2.1 (mem_parts ha).2.2.2.1 (mem_parts ha).2.1

theorem parts_fb (h : Effects tagsParts s t) : t.fb = s.fb :=
  h.same (fun x : State => x.fb) fun _ ha _ _ hm =>
    hm.fb_eq (mem_parts ha).2.2.2.2.2.2.1 (mem_parts ha).1 (mem_parts ha).2.1
      (by rintro n rfl; rcases ha with ⟨k, h⟩ | ⟨j, -, h⟩ <;> cases h)

theorem parts_cbuf (h : Effects tagsParts s t) : t.cbuf = s.cbuf :=
  h.same (fun x : State => x.cbuf) fun _ _ _ _ hm => hm.cbuf_eq

theorem parts_crRaw {j : Nat} (hj : j < 20) (h : Effects tagsParts s t) : t.crRaw j = s.crRaw j :=
  h.same (fun x : State => x.crRaw j) fun _ ha _ _ hm =>
    hm.crRaw_eq ((mem_parts ha).2.2.2.2.2.2.2 j hj) (mem_parts ha).2.1 (mem_parts ha).1

theorem parts_valid {k : Nat} (h : Effects tagsParts s t) (hs : s.rdValid k = true) : t.rdValid k = true := by
  refine h.keeps (P := fun v : State => v.rdValid k = true) (fun a ha v w hm hv => ?_) hs
  have hx := mem_parts ha
  by_cases hk : a = .rdInit k
  · subst hk
    cases hm with
    | rdInit =>
      unfold State.rdValid at *
      by_cases h9 : k < 9
      · rw [v.rdAt_setRd _ _ _ h9, if_pos rfl, rdStart_valid]
      · unfold State.rdAt at hv
        rw [show v.rd[k]? = none from by simp; omega] at hv
        cases hv
  · unfold State.rdValid at *
    rw [hm.rdAt_eq (hx.2.2.2.2.2.1 k) hk hx.2.2.2.2.1 hx.2.1]
    exact hv

theorem startPart_parts (s : State) (i : Nat) (base size : Word) (hi : i ≤ 8) :
    Effects tagsParts s (s.startPart i base size) := by
  have m1 : ∀ j ≤ 8, ∀ v : Word, v &&& ~~~(crKeep (20 + j)) = 0 := by
    intro j hj v
    have : ~~~(crKeep (20 + j)) = 0 := by revert j; decide
    rw [this]; exact BitVec.and_zero
  have m2 : ∀ j ≤ 8, ∀ v : Word, v &&& ~~~(crKeep (32 + j)) = 0 := by
    intro j hj v
    have : ~~~(crKeep (32 + j)) = 0 := by revert j; decide
    rw [this]; exact BitVec.and_zero
  exact ((Effects.one (.inr ⟨20 + i, by omega, rfl⟩) (.cr s _ _ fun _ => m1 i hi _)).then
    (.inr ⟨32 + i, by omega, rfl⟩) (.cr _ _ _ fun _ => m2 i hi _)).then (.inl ⟨i, rfl⟩) (.rdInit _ i base size)

theorem clearPart_parts (s : State) (i : Nat) : Effects tagsParts s (s.setPart i 0 0) := by
  have m : ∀ (w : Word), (0 : Word) &&& ~~~w = 0 := fun w => BitVec.zero_and
  exact (Effects.one (.inr ⟨20 + i, by omega, rfl⟩) (.cr s _ _ fun _ => m _)).then
    (.inr ⟨32 + i, by omega, rfl⟩) (.cr _ _ _ fun _ => m _)

theorem startPart_valid (s : State) {i : Nat} (base size : Word) (hi : i ≤ 8) :
    (s.startPart i base size).rdValid i = true := by
  unfold State.startPart State.rdValid
  rw [State.rdAt_setRd _ _ _ _ (by omega), if_pos rfl, rdStart_valid]

theorem frameLe_of_cbuf (h : t.cbuf = s.cbuf) (base : Word) (i n : Nat) : t.frameLe base i n = s.frameLe base i n := by
  induction n generalizing i with
  | zero => rfl
  | succ n ih => simp only [State.frameLe, State.frameByte, h, ih]

/-- The partitions but the last complete where they end inside the frame, and their decoders are valid. -/
theorem hParts_completes {base length : Word} {p n i o : Nat} (hi : i + n ≤ 8)
    (h : o + ((List.range n).map fun j => s.frameLe base (p + 3 * (i + j)) 3).sum ≤ length.toNat) :
    ∃ t, hParts base length p n i o s =
        .ok (o + ((List.range n).map fun j => s.frameLe base (p + 3 * (i + j)) 3).sum, t) ∧
      Effects tagsParts s t ∧ ∀ j < n, t.rdValid (1 + i + j) = true := by
  induction n generalizing s i o with
  | zero => exact ⟨s, rfl, .refl _ s, fun j hj => absurd hj (by omega)⟩
  | succ n ih =>
    rw [List.range_succ_eq_map, List.map_cons, List.map_map, List.sum_cons] at h ⊢
    have hsum : ∀ x : State, x.cbuf = s.cbuf →
        (List.range n).map ((fun j => s.frameLe base (p + 3 * (i + j)) 3) ∘ Nat.succ) =
          (List.range n).map fun j => x.frameLe base (p + 3 * (i + 1 + j)) 3 := by
      intro x hx
      refine List.map_congr_left fun j _ => ?_
      simp only [Function.comp_apply, Nat.succ_eq_add_one]
      rw [frameLe_of_cbuf hx, show i + (j + 1) = i + 1 + j by omega]
    have e1 := startPart_parts s (1 + i) (base + BitVec.ofNat 32 o)
      (BitVec.ofNat 32 (s.frameLe base (p + 3 * i) 3)) (by omega)
    rw [hsum _ (parts_cbuf e1), Nat.add_zero] at h ⊢
    obtain ⟨t, h1, h2, h3⟩ := ih (s := s.startPart (1 + i) (base + BitVec.ofNat 32 o)
      (BitVec.ofNat 32 (s.frameLe base (p + 3 * i) 3))) (i := i + 1) (o := o + s.frameLe base (p + 3 * i) 3)
      (by omega) (by omega)
    refine ⟨t, ?_, e1.trans h2, fun j hj => ?_⟩
    · have hr : require (decide (o + s.frameLe base (p + 3 * i) 3 ≤ length.toNat)) .structPartition = .ok () :=
        require_ok.2 (decide_eq_true (by omega))
      simp only [hParts]
      rw [hr, Res.ok_bind, h1, Nat.add_assoc]
      simp only [Nat.add_zero]
    · by_cases h0 : j = 0
      · subst h0
        exact parts_valid h2 (startPart_valid s _ _ (by omega))
      · have := h3 (j - 1) (by omega)
        rwa [show 1 + (i + 1) + (j - 1) = 1 + i + j by omega] at this

/-- The partition layout completes where it fits the frame; the decoders of the partitions are valid. -/
theorem hPartitions_completes {base length : Word} {p : Nat}
    (h : p + 3 * (s.npart - 1) + ((List.range (s.npart - 1)).map fun j => s.frameLe base (p + 3 * j) 3).sum ≤
      length.toNat) :
    ∃ t, hPartitions base length p s = .ok t ∧ Effects tagsParts s t ∧ ∀ j < s.npart, t.rdValid (1 + j) = true := by
  have hn := npart_bounds s
  obtain ⟨w, h1, h2, h3⟩ := hParts_completes (s := s) (base := base) (length := length) (p := p) (n := s.npart - 1)
    (i := 0) (o := p + 3 * (s.npart - 1)) (by omega) (by simpa using h)
  have e2 := startPart_parts w s.npart (base + BitVec.ofNat 32 (p + 3 * (s.npart - 1) +
      ((List.range (s.npart - 1)).map fun j => s.frameLe base (p + 3 * (0 + j)) 3).sum))
    (BitVec.ofNat 32 (length.toNat - (p + 3 * (s.npart - 1) +
      ((List.range (s.npart - 1)).map fun j => s.frameLe base (p + 3 * (0 + j)) 3).sum))) hn.2
  have v2 := startPart_valid w (base + BitVec.ofNat 32 (p + 3 * (s.npart - 1) +
      ((List.range (s.npart - 1)).map fun j => s.frameLe base (p + 3 * (0 + j)) 3).sum))
    (BitVec.ofNat 32 (length.toNat - (p + 3 * (s.npart - 1) +
      ((List.range (s.npart - 1)).map fun j => s.frameLe base (p + 3 * (0 + j)) 3).sum))) hn.2
  have e3 : ∀ x : State, Effects tagsParts x
      ((List.range (8 - s.npart)).foldl (fun w j => w.setPart (s.npart + 1 + j) 0 0) x) :=
    fun x => foldl_effects (fun y j => clearPart_parts y _) _ x
  refine ⟨_, ?_, (h2.trans e2).trans (e3 _), fun j hj => ?_⟩
  · have hr : require (decide (p + 3 * (s.npart - 1) ≤ length.toNat)) .structPartition = .ok () :=
      require_ok.2 (decide_eq_true (by omega))
    simp only [hPartitions]
    rw [hr, Res.ok_bind, h1, Res.ok_bind]
  · refine parts_valid (e3 _) ?_
    by_cases hl : j + 1 = s.npart
    · rw [show 1 + j = s.npart by omega]
      exact v2
    · have := h3 j (by omega)
      rw [show 1 + 0 + j = 1 + j by omega] at this
      exact parts_valid e2 this

/-! ## The whole header -/

theorem headerChecks_ok {base length : Word} (h : s.FrameOk base length) : s.headerChecks base length = .ok () := by
  have h1 := h.tag
  have h2 := h.profile
  have h7 := h.first
  unfold State.partTable at h7
  have h3 : (tagKey (s.frameTag base) || s.keyframeSeen) = true := by rcases h.keyframe with h | h <;> simp [h]
  have h4 : (!tagKey (s.frameTag base) || decide (10 ≤ length.toNat)) = true := by
    cases hk : tagKey (s.frameTag base) with
    | false => rfl
    | true => simpa using h.header hk
  have h5 : (!tagKey (s.frameTag base) || s.startCodeOk base) = true := by
    cases hk : tagKey (s.frameTag base) with
    | false => rfl
    | true => have := h.start hk; simp [State.startCodeOk, this]
  have h6 : (!tagKey (s.frameTag base) || sizeNonzero (s.frameSize base)) = true := by
    cases hk : tagKey (s.frameTag base) with
    | false => rfl
    | true => have := h.size hk; simp [sizeNonzero, this]
  simp only [State.headerChecks, h1, h2, h3, h4, h5, h6, h7, decide_true, require_true, Res.ok_bind]

/-- What a header that completes leaves: everything that decoding the frame uses is specified. -/
structure HeaderDone (key : Bool) (s t : State) : Prop where
  tokens : (key = true ∨ s.ProbKnown 0 1101) → t.ProbKnown 0 1101
  segid : t.crBit 3 1 = true → t.ProbKnown segidIndex 3
  skip : t.crBit 14 0 = true → t.ProbKnown mbskipIndex 1
  inter : key = false → t.ProbKnown intraIndex 3
  cls : t.crBit 0 0 = key
  dq : ∀ g < 4, (Memory.find t.dq g).isSome = true
  modes : t.rdValid 0 = true
  parts : ∀ i < t.npart, t.rdValid (1 + i) = true
  slots : key = false → t.crRaw 18 = s.crRaw 18 ∧ t.fb = s.fb
  others : ∀ j, j = 16 ∨ j = 17 ∨ j = 19 → t.crRaw j = s.crRaw j

theorem startFirst_parts (s : State) (base : Word) (g : Nat) : Effects tagsParts s (s.startFirst base g) :=
  startPart_parts s 0 _ _ (by omega)

theorem beforeFields_parts (s : State) (base : Word) :
    Effects tagsParts (s.invalidateRd.setFrmCtl (s.frameTag base)) (s.beforeFields base) := startFirst_parts _ _ _

theorem setFrmCtl_crRaw (s : State) (g j : Nat) (h : j ≠ 0) : (s.setFrmCtl g).crRaw j = s.crRaw j := by
  unfold State.setFrmCtl
  rw [State.crRaw_setCrField_other _ _ _ _ h, State.crRaw_setCrField_other _ _ _ _ h,
    State.crRaw_setCrField_other _ _ _ _ h]

theorem setFrmCtl_key (s : State) (g : Nat) : (s.setFrmCtl g).crBit 0 0 = tagKey g := by
  unfold State.setFrmCtl
  rw [crBit_setCrField_other _ (by omega) (by omega) (by omega),
    crBit_setCrField_other _ (by omega) (by omega) (by omega), crBit_setCrField_self (by omega) (by omega)]

theorem itDqsetup_dq (s : State) (g k : Nat) :
    Memory.find (itDqsetup g s).dq k = if k = g then some (s.dqOf g) else Memory.find s.dq k :=
  Memory.find_set _ _ _ _

theorem setupDq_dq (s : State) : ∀ g < 4, (Memory.find s.setupDq.dq g).isSome = true := by
  intro g hg
  unfold State.setupDq
  simp only [List.range_succ, List.range_zero, List.nil_append, List.cons_append, List.foldl_cons, List.foldl_nil,
    itDqsetup_dq]
  rcases (by omega : g = 0 ∨ g = 1 ∨ g = 2 ∨ g = 3) with rfl | rfl | rfl | rfl <;> simp

theorem setupDq_same {β : Type} (f : State → β) (hf : ∀ (x : State) (d : Memory DqRec), f { x with dq := d } = f x)
    (s : State) : f s.setupDq = f s := by
  unfold State.setupDq
  simp only [List.range_succ, List.range_zero, List.nil_append, List.cons_append, List.foldl_cons, List.foldl_nil,
    itDqsetup, hf]

/-- Everything of the header up to the size change completes on a frame that passes the checks. -/
theorem headerParse_completes {base length : Word} (h : s.FrameOk base length) :
    ∃ t, headerParse Config.openTables base length s = .ok t ∧
      FieldsDone (tagKey (s.frameTag base)) (s.beforeFields base)
        (hFields Config.openTables (tagKey (s.frameTag base)) (s.beforeFields base)) ∧
      Effects tagsParts (hFields Config.openTables (tagKey (s.frameTag base)) (s.beforeFields base)) t ∧
      t.rdValid 0 = true ∧ ∀ i < t.npart, t.rdValid (1 + i) = true := by
  have hd := hFields_done Config.openTables (tagKey (s.frameTag base)) (s.beforeFields base)
  have hc : (hFields Config.openTables (tagKey (s.frameTag base)) (s.beforeFields base)).cbuf = s.cbuf := by
    rw [fields_cbuf hd.effects, parts_cbuf (beforeFields_parts s base)]
    rfl
  have h0 : (s.beforeFields base).rdValid 0 = true := startPart_valid _ _ _ (by omega)
  have h1 := fields_valid hd.effects h0
  have hl := h.layout
  unfold State.partStart State.partTable at hl
  have hn : s.headerNpart base =
    (hFields Config.openTables (tagKey (s.frameTag base)) (s.beforeFields base)).npart := rfl
  generalize hu : hFields Config.openTables (tagKey (s.frameTag base)) (s.beforeFields base) = u at *
  obtain ⟨t, k1, k2, k3⟩ := hPartitions_completes (s := u) (base := base) (length := length)
    (p := hdrLen (tagKey (s.frameTag base)) + tagFirst (s.frameTag base)) (by
      rw [← hn]
      have : (fun j => u.frameLe base (hdrLen (tagKey (s.frameTag base)) + tagFirst (s.frameTag base) + 3 * j) 3) =
          s.partSize base := by
        funext j
        unfold State.partSize State.partTable
        exact frameLe_of_cbuf hc _ _ _
      rw [this]
      exact hl)
  refine ⟨t, ?_, hd, k2, parts_valid k2 h1, fun i hi => k3 i ?_⟩
  · have hb : bufferOk base length = true := decide_eq_true h.buffer
    simp only [headerParse, hb, require_true, Res.ok_bind, headerChecks_ok h]
    show hPartitions base length _ (hFields _ _ (s.beforeFields base)) = _
    rw [hu]
    exact k1
  · unfold State.npart at hi ⊢
    rwa [crField_of_raw (parts_crRaw (by omega) k2)] at hi

/-- What a new size leaves: everything but what belongs to the old frame. -/
theorem takeSize_same (x : State) (key : Bool) (w : Word) :
    (x.takeSize key w).prob = x.prob ∧ (x.takeSize key w).rd = x.rd ∧
      (∀ j, j ≠ 1 → j ≠ 18 → (x.takeSize key w).crRaw j = x.crRaw j) ∧
      (key = false → x.takeSize key w = x) := by
  cases key with
  | false => exact ⟨rfl, rfl, fun _ _ _ => rfl, fun _ => rfl⟩
  | true =>
    simp only [State.takeSize, if_true, State.setSize]
    split
    · refine ⟨rfl, rfl, fun j h1 h18 => ?_, by simp⟩
      rw [State.crRaw_setCr_other _ _ h1]
      exact State.crRaw_setCr_other _ _ h18
    · exact ⟨rfl, rfl, fun j h1 _ => State.crRaw_setCr_other _ _ h1, by simp⟩

theorem afterAsk_same {β : Type} (f : State → β) (hf : ∀ (x : State) (l : List Bool) (n : Nat),
    f { x with allocAnswers := l, allocCount := n } = f x) (x : State) (w : Word) : f (x.afterAsk w) = f x := by
  unfold State.afterAsk
  split
  · rw [State.askAllocator_eq, hf]
  · rfl

/-- The header of a frame that passes the checks, and whose size is granted, completes. -/
theorem header_completes {base length : Word} (h : s.FrameOk base length)
    (hg : s.sizeGranted (s.wantedSize base) = true) :
    ∃ t, header Config.openTables base length s = .ok t ∧ HeaderDone (tagKey (s.frameTag base)) s t := by
  obtain ⟨u, h1, hd, hp, hv0, hvi⟩ := headerParse_completes h
  generalize hkey : tagKey (s.frameTag base) = key at *
  generalize hfl : hFields Config.openTables key (s.beforeFields base) = f at *
  have hb1 : (s.beforeFields base).prob = s.prob := (parts_prob (beforeFields_parts s base)).trans rfl
  have hb2 : ∀ j, j ≠ 0 → j < 20 → (s.beforeFields base).crRaw j = s.crRaw j := fun j h0 hj => by
    rw [parts_crRaw hj (beforeFields_parts s base), setFrmCtl_crRaw _ _ _ h0]
    rfl
  have hb3 : (s.beforeFields base).crBit 0 0 = key := by
    rw [crBit_of_raw (parts_crRaw (by omega) (beforeFields_parts s base)), setFrmCtl_key, hkey]
  have hb4 : (s.beforeFields base).fb = s.fb := (parts_fb (beforeFields_parts s base)).trans rfl
  have hf4 : f.fb = (s.beforeFields base).fb := hd.effects.same (fun x : State => x.fb) fun a ha _ _ hm =>
    hm.fb_eq (by rintro n p rfl; rcases ha with h | h | h | h | ⟨k, -, -, -, -, h⟩ <;> cases h)
      (by rintro rfl; rcases ha with h | h | h | h | ⟨k, -, -, -, -, h⟩ <;> cases h)
      (by rintro rfl; rcases ha with h | h | h | h | ⟨k, -, -, -, -, h⟩ <;> cases h)
      (by rintro n rfl; rcases ha with h | h | h | h | ⟨k, -, -, -, -, h⟩ <;> cases h)
  let w := (u.afterAsk (s.wantedSize base)).takeSize key (s.wantedSize base)
  let t := w.setupDq.setRes 0 (boolWord key)
  have hts := takeSize_same (u.afterAsk (s.wantedSize base)) key (s.wantedSize base)
  have tp : t.prob = u.prob := by
    show w.setupDq.prob = _
    rw [setupDq_same (fun x : State => x.prob) (fun _ _ => rfl), hts.1,
      afterAsk_same (fun x : State => x.prob) (fun _ _ _ => rfl)]
  have tr : t.rd = u.rd := by
    show w.setupDq.rd = _
    rw [setupDq_same (fun x : State => x.rd) (fun _ _ => rfl), hts.2.1,
      afterAsk_same (fun x : State => x.rd) (fun _ _ _ => rfl)]
  have tc : ∀ j, j ≠ 1 → j ≠ 18 → t.crRaw j = u.crRaw j := fun j j1 j18 => by
    show w.setupDq.crRaw j = _
    rw [setupDq_same (fun x : State => x.crRaw j) (fun _ _ => rfl), hts.2.2.1 j j1 j18,
      afterAsk_same (fun x : State => x.crRaw j) (fun _ _ _ => rfl)]
  have tu : ∀ j, j < 20 → j ≠ 1 → j ≠ 18 → t.crRaw j = f.crRaw j := fun j hj j1 j18 => by
    rw [tc j j1 j18, parts_crRaw hj hp]
  have tpf : t.prob = f.prob := tp.trans (parts_prob hp)
  refine ⟨t, by simp only [header, h1, hg, require_true, Res.ok_bind, hkey]; rfl, ?_⟩
  exact
    { tokens := fun hh => (hd.tokens (hh.imp id fun x => x.of_prob hb1)).of_prob tpf
      segid := fun hh => (hd.segid (by rwa [crBit_of_raw (tu 3 (by omega) (by omega) (by omega))] at hh)).of_prob tpf
      skip := fun hh => (hd.skip (by rwa [crBit_of_raw (tu 14 (by omega) (by omega) (by omega))] at hh)).of_prob tpf
      inter := fun hh => (hd.inter hh).of_prob tpf
      cls := by rw [crBit_of_raw (tu 0 (by omega) (by omega) (by omega)), hd.cls, hb3]
      dq := setupDq_dq w
      modes := by
        unfold State.rdValid State.rdAt at hv0 ⊢
        rwa [tr]
      parts := fun i hi => by
        have := hvi i (by
          unfold State.npart at hi ⊢
          rwa [crField_of_raw (tc 9 (by omega) (by omega))] at hi)
        unfold State.rdValid State.rdAt at this ⊢
        rwa [tr]
      slots := fun hh => by
        have hw : w = u.afterAsk (s.wantedSize base) := hts.2.2.2 hh
        constructor
        · show w.setupDq.crRaw 18 = _
          rw [setupDq_same (fun x : State => x.crRaw 18) (fun _ _ => rfl), hw,
            afterAsk_same (fun x : State => x.crRaw 18) (fun _ _ _ => rfl), parts_crRaw (by omega) hp,
            hd.raw 18 (.inr (by omega)), hb2 18 (by omega) (by omega)]
        · show w.setupDq.fb = _
          rw [setupDq_same (fun x : State => x.fb) (fun _ _ => rfl), hw,
            afterAsk_same (fun x : State => x.fb) (fun _ _ _ => rfl), parts_fb hp, hf4, hb4]
      others := fun j hj => by
        rw [tu j (by omega) (by omega) (by omega), hd.raw j (.inr (by omega)), hb2 j (by omega) (by omega)] }

/-! ## The body of a frame -/

theorem freeSlot_lt (s : State) : s.freeSlot < 4 := by
  unfold State.freeSlot
  repeat' split
  all_goals omega

/-- Of four slots three roles leave one. -/
theorem freeSlot_free (s : State) : s.slotFree s.freeSlot = true := by
  unfold State.freeSlot
  split
  · assumption
  · split
    · assumption
    · split
      · assumption
      · rename_i h0 h1 h2
        unfold State.slotFree at *
        simp only [Bool.and_eq_true, bne_iff_ne, ne_eq, not_and, Decidable.not_not] at *
        omega

theorem fcFramestart_crRaw (s : State) {j : Nat} (h1 : j ≠ 18) (h2 : j ≠ 19) : (fcFramestart s).crRaw j = s.crRaw j := by
  unfold fcFramestart
  show (((s.clearSlot s.freeSlot).setCrField 18 0 3 s.freeSlot).setMbpos 0 0).crRaw j = _
  rw [State.crRaw_setMbpos_other _ _ _ h2, State.crRaw_setCrField_other _ _ _ _ h1, State.clearSlot_crRaw]

theorem fcFramestart_roles (s : State) : (fcFramestart s).crRaw 18 = setField (s.crRaw 18) 0 3 s.freeSlot := by
  unfold fcFramestart
  show (((s.clearSlot s.freeSlot).setCrField 18 0 3 s.freeSlot).setMbpos 0 0).crRaw 18 = _
  rw [State.crRaw_setMbpos_other _ _ _ (by omega), State.crRaw_setCrField_self _ _ _ _ (by omega), State.clearSlot_crRaw]

theorem fcFramestart_pos (s : State) : (fcFramestart s).crRaw 19 = posWord 0 0 := by
  unfold fcFramestart
  show (((s.clearSlot s.freeSlot).setCrField 18 0 3 s.freeSlot).setMbpos 0 0).crRaw 19 = _
  rw [State.crRaw_setMbpos]

theorem fcFramestart_pix (s : State) {n : Nat} (h : n ≠ s.freeSlot) (p x y : Nat) :
    (fcFramestart s).pix n p x y = s.pix n p x y := by
  unfold State.pix
  rw [show (fcFramestart s).plane n p = (s.clearSlot s.freeSlot).plane n p from rfl, s.plane_clearSlot_other p h]

/-- After a header that completes, a frame is decoded whatever its partitions hold: the loop completes,
specifies the CUR slot's pixels and leaves every other slot's. -/
theorem frameLoop_after_header (T : OpenTables) {key : Bool} (h : HeaderDone key s t)
    (htok : key = true ∨ s.ProbKnown 0 1101) (hW : t.mbW ≠ 0)
    (hrefs : key = false → ∀ ref, 1 ≤ ref → ref ≤ 3 → ∃ slot, t.refSlot ref = some slot ∧ t.SlotKnown slot) :
    ∃ u, frameLoop T (fcFramestart t) = .ok u ∧ u.SlotKnown t.freeSlot ∧
      Effects (tagsLoop t.freeSlot) (fcFramestart t) u := by
  have hraw : ∀ {j : Nat}, j ≠ 18 → j ≠ 19 → (fcFramestart t).crRaw j = t.crRaw j := fun h1 h2 => fcFramestart_crRaw t h1 h2
  have hlt := freeSlot_lt t
  have hrole : ∀ r, 1 ≤ r → r ≤ 3 → (fcFramestart t).refSlot r = t.refSlot r := by
    intro r h1 h3
    unfold State.refSlot State.crField roleLow
    rw [fcFramestart_roles, field_setField_other _ _ (by omega) (by omega)]
  have hready : (fcFramestart t).Ready t.freeSlot :=
    { cur := by
        unfold State.curSlot State.crField
        rw [fcFramestart_roles, field_setField _ _ _ _ (by omega), Nat.mod_eq_of_lt (by omega)]
        unfold slotOf
        rw [if_pos (by omega)]
      tokens := h.tokens htok
      segid := fun hh => by
        rw [crBit_of_raw (hraw (j := 3) (by omega) (by omega)), crBit_of_raw (hraw (j := 3) (by omega) (by omega))] at hh
        exact h.segid (by simp only [Bool.and_eq_true] at hh; exact hh.2)
      skip := fun hh => by
        rw [crBit_of_raw (hraw (j := 14) (by omega) (by omega))] at hh
        exact h.skip hh
      inter := fun hh => by
        rw [crBit_of_raw (hraw (j := 0) (by omega) (by omega)), h.cls] at hh
        exact h.inter hh
      dq := h.dq
      modes := h.modes
      parts := fun i hi => by
        unfold State.npart at hi
        rw [crField_of_raw (hraw (j := 9) (by omega) (by omega))] at hi
        exact h.parts i hi
      refs := fun hh r h1 h3 => by
        rw [crBit_of_raw (hraw (j := 0) (by omega) (by omega)), h.cls] at hh
        obtain ⟨src, k1, k2⟩ := hrefs hh r h1 h3
        have hne : src ≠ t.freeSlot := by
          rintro rfl
          have hf := freeSlot_free t
          unfold State.slotFree State.roleBits at hf
          simp only [Bool.and_eq_true, bne_iff_ne, ne_eq] at hf
          unfold State.refSlot slotOf roleLow at k1
          split at k1
          · have := Option.some.inj k1
            rcases (by omega : r = 1 ∨ r = 2 ∨ r = 3) with rfl | rfl | rfl
            · exact hf.1.1 this.symm
            · exact hf.1.2 this.symm
            · exact hf.2 this.symm
          · cases k1
        refine ⟨src, by rw [hrole r h1 h3]; exact k1, hne, fun p hp x y hx hy => ?_⟩
        rw [planeW_of_raw (hraw (by omega) (by omega))] at hx
        rw [planeH_of_raw (hraw (by omega) (by omega))] at hy
        rw [fcFramestart_pix t hne]
        exact k2 p hp x y hx hy }
  have hat : (fcFramestart t).AtRow t.freeSlot 0 :=
    { ready := hready
      mby := by
        show field ((fcFramestart t).crRaw 19) 16 11 = 0
        rw [fcFramestart_pos, field_posWord_y]
      mbx := by
        show field ((fcFramestart t).crRaw 19) 0 11 = 0
        rw [fcFramestart_pos, field_posWord_x]
      rows := fun p hp x y hx hy => absurd hy (by simp)
      top := .inl rfl }
  refine frameLoop_completes T hat ?_
  unfold State.mbW at hW ⊢
  rw [hraw (by omega) (by omega)]
  omega

end Sys2Proof.Machine
end

