-- ==== Sys2Proof/Laws/HeaderFields.lean ====
section
/-! SUPPORT. The header parser of the model reads, field by field, what the rules of the header say
(spec 48_frame_control_host.md R409 to R428): each of its functions is, on the fields, the function of
Safety.lean of the same rule. -/

namespace Sys2Proof.Machine

variable {s : State} {c : Memory Byte}

/-! ## Signed bytes -/

/-- A literal with a sign. -/
theorem readSlit_bounds (n : Nat) (r : Rd) :
    -(2 ^ n : Int) < (readSlit c n r).1 ∧ (readSlit c n r).1 < 2 ^ n := by
  have h := readLit_lt c n r
  have h2 : ((readLit c n r).1 : Int) < 2 ^ n := by exact_mod_cast h
  unfold readSlit
  simp only
  split <;> omega

theorem sbyte_setField (w : Word) {i j : Nat} (hi : i < 4) (v : Int) (h1 : -128 < v) (h2 : v < 128) :
    sbyte (setField w (8 * i) 8 (BitVec.ofInt 8 v).toNat) j = if j = i then v else sbyte w j := by
  by_cases hj : j < 4
  · by_cases e : j = i
    · subst e
      rw [if_pos rfl]
      have hf := field_setField w (8 * j) 8 (BitVec.ofInt 8 v).toNat (by omega)
      rw [Nat.mod_eq_of_lt (BitVec.isLt _)] at hf
      unfold sbyte
      rw [BitVec.eq_of_toNat_eq hf, BitVec.toInt_ofInt]
      simp only [Int.bmod_def]
      omega
    · rw [if_neg e]
      unfold sbyte
      rw [BitVec.eq_of_toNat_eq (field_setField_other w (lo2 := 8 * j) (len2 := 8)
        (BitVec.ofInt 8 v).toNat (by omega) (by omega))]
  · have hz : ∀ x : Word, sbyte x j = 0 := by
      intro x
      unfold sbyte
      rw [show x.extractLsb' (8 * j) 8 = 0 from by
        ext k hk
        rw [BitVec.getElem_extractLsb', BitVec.getLsbD_of_ge x (8 * j + k) (by omega)]
        simp]
      rfl
    rw [hz, hz, if_neg (by omega)]

/-! ## The fields after one write -/

theorem headerFields_setRd (r : Rd) : (s.setRd 0 r).headerFields = { s.headerFields with rd := r } := by
  unfold State.headerFields
  rw [State.rdAt_setRd _ _ _ _ (by omega)]
  rfl

theorem headerFields_setProb (i : Nat) (v : Byte) :
    (s.setProb i v).headerFields = { s.headerFields with prob := upd s.headerFields.prob i (some v) } := by
  unfold State.headerFields
  congr 1
  funext j
  exact State.probAt_setProb _ _ _ _

/-- Fields of a control register after a write of a field of another, or of another field of its own. -/
theorem crBit_other_reg {i j lo len b : Nat} (v : Nat) (h : j ≠ i) (s : State) :
    (s.setCrField i lo len v).crBit j b = s.crBit j b := crBit_of_raw (State.crRaw_setCrField_other _ _ _ _ h)

theorem crField_other_reg {i j lo len lo2 n : Nat} (v : Nat) (h : j ≠ i) (s : State) :
    (s.setCrField i lo len v).crField j lo2 n = s.crField j lo2 n :=
  crField_of_raw (State.crRaw_setCrField_other _ _ _ _ h)

theorem crField_same_reg {i lo len lo2 n : Nat} (v : Nat) (hi : i < 44) (h : lo2 + n ≤ lo ∨ lo + len ≤ lo2)
    (h2 : lo2 + n ≤ 32) (s : State) : (s.setCrField i lo len v).crField i lo2 n = s.crField i lo2 n := by
  unfold State.crField
  rw [State.crRaw_setCrField_self _ _ _ _ hi, field_setField_other _ _ h h2]

theorem crField_self {i lo len v : Nat} (hi : i < 44) (h : lo + len ≤ 32) (hv : v < 2 ^ len) (s : State) :
    (s.setCrField i lo len v).crField i lo len = v := by
  unfold State.crField
  rw [State.crRaw_setCrField_self _ _ _ _ hi, field_setField _ _ _ _ h, Nat.mod_eq_of_lt hv]

theorem sbyte_setCrByte {reg i : Nat} (hr : reg < 44) (hi : i < 4) {v : Int} (h1 : -128 < v) (h2 : v < 128) (s : State) :
    sbyte ((s.setCrByte reg i v).crRaw reg) = upd (sbyte (s.crRaw reg)) i v := by
  funext j
  unfold State.setCrByte
  rw [State.crRaw_setCrField_self _ _ _ _ hr, sbyte_setField _ hi _ h1 h2]
  rfl

theorem probAt_setCrField (i lo len v : Nat) : (s.setCrField i lo len v).probAt = s.probAt := rfl

theorem rdAt_setCrField (i lo len v k : Nat) : (s.setCrField i lo len v).rdAt k = s.rdAt k := rfl

theorem headerFields_colorSpace (b : Bool) : (s.setCrField 0 5 1 (boolNat b)).headerFields =
    { s.headerFields with colorSpace := b } := by
  unfold State.headerFields
  simp (disch := omega) [probAt_setCrField, crBit_other_reg, crField_other_reg,
    crBit_setCrField_other, crBit_setCrField_self]

theorem headerFields_clampType (b : Bool) : (s.setCrField 0 6 1 (boolNat b)).headerFields =
    { s.headerFields with clampType := b } := by
  unfold State.headerFields
  simp (disch := omega) [probAt_setCrField, crBit_other_reg, crField_other_reg,
    crBit_setCrField_other, crBit_setCrField_self]

theorem headerFields_enabled (b : Bool) : (s.setCrField 3 0 1 (boolNat b)).headerFields =
    { s.headerFields with enabled := b } := by
  unfold State.headerFields
  simp (disch := omega) [probAt_setCrField, crBit_other_reg, crField_other_reg,
    crBit_setCrField_other, crBit_setCrField_self]

theorem headerFields_updateMap (b : Bool) : (s.setCrField 3 1 1 (boolNat b)).headerFields =
    { s.headerFields with updateMap := b } := by
  unfold State.headerFields
  simp (disch := omega) [probAt_setCrField, crBit_other_reg, crField_other_reg,
    crBit_setCrField_other, crBit_setCrField_self]

theorem headerFields_updateData (b : Bool) : (s.setCrField 3 2 1 (boolNat b)).headerFields =
    { s.headerFields with updateData := b } := by
  unfold State.headerFields
  simp (disch := omega) [probAt_setCrField, crBit_other_reg, crField_other_reg,
    crBit_setCrField_other, crBit_setCrField_self]

theorem headerFields_absolute (b : Bool) : (s.setCrField 3 3 1 (boolNat b)).headerFields =
    { s.headerFields with absolute := b } := by
  unfold State.headerFields
  simp (disch := omega) [probAt_setCrField, crBit_other_reg, crField_other_reg,
    crBit_setCrField_other, crBit_setCrField_self]

theorem headerFields_simple (b : Bool) : (s.setCrField 6 0 1 (boolNat b)).headerFields =
    { s.headerFields with simple := b } := by
  unfold State.headerFields
  simp (disch := omega) [probAt_setCrField, crBit_other_reg, crField_other_reg,
    crBit_setCrField_other, crField_same_reg, crBit_setCrField_self]

theorem headerFields_deltaEn (b : Bool) : (s.setCrField 6 10 1 (boolNat b)).headerFields =
    { s.headerFields with deltaEn := b } := by
  unfold State.headerFields
  simp (disch := omega) [probAt_setCrField, crBit_other_reg, crField_other_reg,
    crBit_setCrField_other, crField_same_reg, crBit_setCrField_self]

theorem headerFields_updLast (b : Bool) : (s.setCrField 13 4 1 (boolNat b)).headerFields =
    { s.headerFields with updLast := b } := by
  unfold State.headerFields
  simp (disch := omega) [probAt_setCrField, crBit_other_reg, crField_other_reg,
    crBit_setCrField_other, crField_same_reg, crBit_setCrField_self]

theorem headerFields_biasGolden (b : Bool) : (s.setCrField 13 5 1 (boolNat b)).headerFields =
    { s.headerFields with biasGolden := b } := by
  unfold State.headerFields
  simp (disch := omega) [probAt_setCrField, crBit_other_reg, crField_other_reg,
    crBit_setCrField_other, crField_same_reg, crBit_setCrField_self]

theorem headerFields_biasAltref (b : Bool) : (s.setCrField 13 6 1 (boolNat b)).headerFields =
    { s.headerFields with biasAltref := b } := by
  unfold State.headerFields
  simp (disch := omega) [probAt_setCrField, crBit_other_reg, crField_other_reg,
    crBit_setCrField_other, crField_same_reg, crBit_setCrField_self]

theorem headerFields_updProbs (b : Bool) : (s.setCrField 13 7 1 (boolNat b)).headerFields =
    { s.headerFields with updProbs := b } := by
  unfold State.headerFields
  simp (disch := omega) [probAt_setCrField, crBit_other_reg, crField_other_reg,
    crBit_setCrField_other, crField_same_reg, crBit_setCrField_self]

theorem headerFields_mbskipEn (b : Bool) : (s.setCrField 14 0 1 (boolNat b)).headerFields =
    { s.headerFields with mbskipEn := b } := by
  unfold State.headerFields
  simp (disch := omega) [probAt_setCrField, crBit_other_reg, crField_other_reg,
    crBit_setCrField_self]

theorem headerFields_level {v : Nat} (hv : v < 64) : (s.setCrField 6 1 6 v).headerFields =
    { s.headerFields with level := v } := by
  unfold State.headerFields
  simp (disch := omega) [probAt_setCrField, crBit_other_reg, crField_other_reg,
    crBit_setCrField_other, crField_same_reg, crField_self]

theorem headerFields_sharpness {v : Nat} (hv : v < 8) : (s.setCrField 6 7 3 v).headerFields =
    { s.headerFields with sharpness := v } := by
  unfold State.headerFields
  simp (disch := omega) [probAt_setCrField, crBit_other_reg, crField_other_reg,
    crBit_setCrField_other, crField_same_reg, crField_self]

theorem headerFields_log2Npart {v : Nat} (hv : v < 4) : (s.setCrField 9 0 2 v).headerFields =
    { s.headerFields with log2Npart := v } := by
  unfold State.headerFields
  simp (disch := omega) [probAt_setCrField, crBit_other_reg, crField_other_reg,
    crField_self]

theorem headerFields_yacQi {v : Nat} (hv : v < 128) : (s.setCrField 10 0 7 v).headerFields =
    { s.headerFields with yacQi := v } := by
  unfold State.headerFields
  simp (disch := omega) [probAt_setCrField, crBit_other_reg, crField_other_reg,
    crField_self]

theorem headerFields_updGolden {v : Nat} (hv : v < 4) : (s.setCrField 13 0 2 v).headerFields =
    { s.headerFields with updGolden := v } := by
  unfold State.headerFields
  simp (disch := omega) [probAt_setCrField, crBit_other_reg, crField_other_reg,
    crBit_setCrField_other, crField_same_reg, crField_self]

theorem headerFields_updAltref {v : Nat} (hv : v < 4) : (s.setCrField 13 2 2 v).headerFields =
    { s.headerFields with updAltref := v } := by
  unfold State.headerFields
  simp (disch := omega) [probAt_setCrField, crBit_other_reg, crField_other_reg,
    crBit_setCrField_other, crField_same_reg, crField_self]

theorem headerFields_segQuant {i : Nat} (hi : i < 4) {v : Int} (h1 : -128 < v) (h2 : v < 128) :
    (s.setCrByte 4 i v).headerFields = { s.headerFields with segQuant := upd s.headerFields.segQuant i v } := by
  have h := sbyte_setCrByte (reg := 4) (by omega) hi h1 h2 s
  unfold State.headerFields State.setCrByte at *
  generalize (BitVec.ofInt 8 v).toNat = x at h ⊢
  simp (disch := omega) [probAt_setCrField, crBit_other_reg, crField_other_reg]
  exact h

theorem headerFields_segFilter {i : Nat} (hi : i < 4) {v : Int} (h1 : -128 < v) (h2 : v < 128) :
    (s.setCrByte 5 i v).headerFields = { s.headerFields with segFilter := upd s.headerFields.segFilter i v } := by
  have h := sbyte_setCrByte (reg := 5) (by omega) hi h1 h2 s
  unfold State.headerFields State.setCrByte at *
  generalize (BitVec.ofInt 8 v).toNat = x at h ⊢
  simp (disch := omega) [probAt_setCrField, crBit_other_reg, crField_other_reg]
  exact h

theorem headerFields_refDelta {i : Nat} (hi : i < 4) {v : Int} (h1 : -128 < v) (h2 : v < 128) :
    (s.setCrByte 7 i v).headerFields = { s.headerFields with refDelta := upd s.headerFields.refDelta i v } := by
  have h := sbyte_setCrByte (reg := 7) (by omega) hi h1 h2 s
  unfold State.headerFields State.setCrByte at *
  generalize (BitVec.ofInt 8 v).toNat = x at h ⊢
  simp (disch := omega) [probAt_setCrField, crBit_other_reg, crField_other_reg]
  exact h

theorem headerFields_modeDelta {i : Nat} (hi : i < 4) {v : Int} (h1 : -128 < v) (h2 : v < 128) :
    (s.setCrByte 8 i v).headerFields = { s.headerFields with modeDelta := upd s.headerFields.modeDelta i v } := by
  have h := sbyte_setCrByte (reg := 8) (by omega) hi h1 h2 s
  unfold State.headerFields State.setCrByte at *
  generalize (BitVec.ofInt 8 v).toNat = x at h ⊢
  simp (disch := omega) [probAt_setCrField, crBit_other_reg, crField_other_reg]
  exact h

theorem headerFields_quantDelta {i : Nat} (hi : i < 4) {v : Int} (h1 : -128 < v) (h2 : v < 128) :
    (s.setCrByte 11 i v).headerFields = { s.headerFields with quantDelta := upd s.headerFields.quantDelta i v } := by
  have h := sbyte_setCrByte (reg := 11) (by omega) hi h1 h2 s
  unfold State.headerFields State.setCrByte at *
  generalize (BitVec.ofInt 8 v).toNat = x at h ⊢
  simp (disch := omega) [probAt_setCrField, crBit_other_reg, crField_other_reg]
  exact h

theorem headerFields_uvacDelta {v : Int} (h1 : -128 < v) (h2 : v < 128) :
    (s.setCrByte 12 0 v).headerFields = { s.headerFields with uvacDelta := v } := by
  have h : sbyte ((s.setCrByte 12 0 v).crRaw 12) 0 = v :=
    congrFun (sbyte_setCrByte (reg := 12) (by omega) (by omega : 0 < 4) h1 h2 s) 0
  unfold State.headerFields State.setCrByte at *
  generalize (BitVec.ofInt 8 v).toNat = x at h ⊢
  simp (disch := omega) [probAt_setCrField, crBit_other_reg, crField_other_reg] at h ⊢
  exact h

/-! ## Each function of the parser on the fields -/

/-- On the fields, and with `CBUF` as it is, one function of the parser is another. -/
def Follows (c : Memory Byte) (f : State → State) (g : Header → Header) : Prop :=
  ∀ s : State, s.cbuf = c → (f s).cbuf = c ∧ (f s).headerFields = g s.headerFields

theorem Follows.comp {f f' : State → State} {g g' : Header → Header} (h : Follows c f g) (h' : Follows c f' g') :
    Follows c (fun s => f' (f s)) (fun x => g' (g x)) := fun s hs => by
  obtain ⟨h1, h2⟩ := h s hs
  have := h' _ h1
  rwa [h2] at this

theorem Follows.foldl {α β : Type} {f : State → α → State} {g : Header → β → Header} (e : α → β) {l : List α}
    (h : ∀ a ∈ l, Follows c (fun s => f s a) (fun x => g x (e a))) :
    Follows c (fun s => l.foldl f s) (fun x => (l.map e).foldl g x) := by
  induction l with
  | nil => exact fun s hs => ⟨hs, rfl⟩
  | cons a l ih =>
    exact (h a (List.mem_cons_self ..)).comp (ih fun b hb => h b (List.mem_cons_of_mem _ hb))

/-- Two functions that read a value, the same one, and go on by it. -/
theorem Follows.read {α : Type} {P : α → Prop} {rs : State → α × State} {rh : Header → α × Header}
    (hr : ∀ s : State, s.cbuf = c → P (rs s).1 ∧ (rs s).1 = (rh s.headerFields).1 ∧ (rs s).2.cbuf = c ∧
      (rs s).2.headerFields = (rh s.headerFields).2)
    {f : α → State → State} {g : α → Header → Header} (h : ∀ v, P v → Follows c (f v) (g v)) :
    Follows c (fun s => f (rs s).1 (rs s).2) (fun x => g (rh x).1 (rh x).2) := fun s hs => by
  obtain ⟨h0, h1, h2, h3⟩ := hr s hs
  show _ ∧ _ = g (rh s.headerFields).1 (rh s.headerFields).2
  rw [← h1, ← h3]
  exact h _ h0 _ h2

/-- A flag. -/
theorem Follows.flag {f : Bool → State → State} {g : Bool → Header → Header} (h : ∀ b, Follows c (f b) (g b)) :
    Follows c (fun s => f (hFlag s).1 (hFlag s).2) (fun x => g (x.flag c).1 (x.flag c).2) :=
  .read (P := fun _ => True) (rs := hFlag) (rh := Header.flag c)
    (by rintro s rfl; exact ⟨trivial, rfl, rfl, headerFields_setRd _⟩) fun b _ => h b

/-- A bool with a probability of its own. -/
theorem Follows.bool {p : Byte} {f : Bool → State → State} {g : Bool → Header → Header}
    (h : ∀ b, Follows c (f b) (g b)) :
    Follows c (fun s => f (s.getBool 0 p).1 (s.getBool 0 p).2) (fun x => g (x.bool c p).1 (x.bool c p).2) :=
  .read (P := fun _ => True) (rs := fun s => s.getBool 0 p) (rh := Header.bool c p)
    (by rintro s rfl; exact ⟨trivial, rfl, rfl, headerFields_setRd _⟩) fun b _ => h b

/-- A literal. -/
theorem Follows.lit {n : Nat} {f : Nat → State → State} {g : Nat → Header → Header}
    (h : ∀ v < 2 ^ n, Follows c (f v) (g v)) :
    Follows c (fun s => f (hLit n s).1 (hLit n s).2) (fun x => g (x.lit c n).1 (x.lit c n).2) :=
  .read (P := fun v => v < 2 ^ n) (rs := hLit n) (rh := Header.lit c n)
    (by rintro s rfl; exact ⟨readLit_lt _ _ _, rfl, rfl, headerFields_setRd _⟩) h

/-- A signed literal. -/
theorem Follows.slit {n : Nat} (hn : n ≤ 7) {f : Int → State → State} {g : Int → Header → Header}
    (h : ∀ v, -128 < v → v < 128 → Follows c (f v) (g v)) :
    Follows c (fun s => f (s.getSlit 0 n).1 (s.getSlit 0 n).2) (fun x => g (x.slit c n).1 (x.slit c n).2) :=
  .read (P := fun v => -128 < v ∧ v < 128) (rs := fun s => s.getSlit 0 n) (rh := Header.slit c n)
    (by
      rintro s rfl
      have hb := readSlit_bounds (c := s.cbuf) n (s.rdAt 0)
      have hp : (2 ^ n : Int) ≤ 2 ^ 7 := pow_le_pow_right₀ (by omega) hn
      exact ⟨⟨by show _ < (readSlit s.cbuf n (s.rdAt 0)).1; omega, by show (readSlit s.cbuf n (s.rdAt 0)).1 < _; omega⟩,
        rfl, rfl, headerFields_setRd _⟩)
    fun v hv => h v hv.1 hv.2

/-- The same of an optional signed literal. -/
theorem Follows.optSlit {n : Nat} (hn : n ≤ 7) {f : Int → State → State} {g : Int → Header → Header}
    (h : ∀ v, -128 < v → v < 128 → Follows c (f v) (g v)) :
    Follows c (fun s => f (hOptSigned n s).1 (hOptSigned n s).2)
      (fun x => g (x.optSlit c n).1 (x.optSlit c n).2) := by
  have e1 : (fun s => f (hOptSigned n s).1 (hOptSigned n s).2) =
      fun s => (fun (b : Bool) t => if b then f (t.getSlit 0 n).1 (t.getSlit 0 n).2 else f 0 t) (hFlag s).1 (hFlag s).2 := by
    funext s
    simp only [hOptSigned]
    split <;> rfl
  have e2 : (fun x => g (Header.optSlit c n x).1 (Header.optSlit c n x).2) =
      fun x => (fun (b : Bool) y => if b then g (y.slit c n).1 (y.slit c n).2 else g 0 y) (x.flag c).1 (x.flag c).2 := by
    funext x
    simp only [Header.optSlit]
    split <;> rfl
  rw [e1, e2]
  refine Follows.flag (f := fun (b : Bool) t => if b then f (t.getSlit 0 n).1 (t.getSlit 0 n).2 else f 0 t)
    (g := fun (b : Bool) y => if b then g (y.slit c n).1 (y.slit c n).2 else g 0 y) fun b => ?_
  cases b with
  | true => exact Follows.slit hn h
  | false => exact h 0 (by omega) (by omega)

/-- A write whose effect on the fields is known. -/
theorem Follows.write {f : State → State} {g : Header → Header} (h : ∀ s, (f s).headerFields = g s.headerFields)
    (hc : ∀ s, (f s).cbuf = s.cbuf) : Follows c f g := fun s hs => ⟨(hc s).trans hs, h s⟩

theorem Follows.id : Follows c (fun s => s) (fun h => h) := fun _ hs => ⟨hs, rfl⟩

theorem hProb_follows (i : Nat) : Follows c (hProb i) (fun h => h.readProb c i) := by
  unfold hProb Header.readProb
  simp only
  exact Follows.lit (f := fun v s => s.setProb i (BitVec.ofNat 8 v))
    (g := fun v h => { h with prob := upd h.prob i (some (BitVec.ofNat 8 v)) }) fun _ _ =>
    .write (fun _ => headerFields_setProb _ _) fun _ => rfl

theorem hOptByte_follows {reg i n : Nat} {g : Int → Header → Header} (hn : n ≤ 7)
    (h : ∀ (s : State) (v : Int), -128 < v → v < 128 → (s.setCrByte reg i v).headerFields = g v s.headerFields) :
    Follows c (hOptByte reg i n) (fun x => g (x.optSlit c n).1 (x.optSlit c n).2) := by
  unfold hOptByte
  simp only
  exact Follows.optSlit hn (f := fun v s => s.setCrByte reg i v) (g := g) fun v h1 h2 =>
    .write (fun s => h s v h1 h2) fun _ => rfl

theorem hLitTo_follows {reg lo n : Nat} {g : Nat → Header → Header}
    (h : ∀ (s : State) (v : Nat), v < 2 ^ n → (s.setCrField reg lo n v).headerFields = g v s.headerFields) :
    Follows c (hLitTo reg lo n) (fun x => g (x.lit c n).1 (x.lit c n).2) := by
  unfold hLitTo
  simp only
  exact Follows.lit (f := fun v s => s.setCrField reg lo n v) (g := g) fun v hv => .write (fun s => h s v hv) fun _ => rfl

/-- A literal of one bit is a flag. -/
theorem readLit_one (r : Rd) : readLit c 1 r = (boolNat (readBool c 128 r).1, (readBool c 128 r).2) := by
  simp [readLit, readLitFrom]

theorem hBitTo_follows {reg lo : Nat} {g : Bool → Header → Header}
    (h : ∀ (s : State) (b : Bool), (s.setCrField reg lo 1 (boolNat b)).headerFields = g b s.headerFields) :
    Follows c (hLitTo reg lo 1) (fun x => g (x.flag c).1 (x.flag c).2) := by
  have e : hLitTo reg lo 1 = fun s => (fun b t => State.setCrField t reg lo 1 (boolNat b)) (hFlag s).1 (hFlag s).2 := by
    funext s
    unfold hLitTo hLit State.getLit hFlag State.getBool
    simp only [readLit_one]
  rw [e]
  exact Follows.flag (f := fun b t => State.setCrField t reg lo 1 (boolNat b)) (g := g) fun b =>
    .write (fun s => h s b) fun _ => rfl

/-! ## The groups of fields -/

theorem hColor_follows : Follows c hColor (Header.color c) := by
  have h := (hBitTo_follows (c := c) (reg := 0) (lo := 5) (g := fun b h => { h with colorSpace := b })
    fun _ b => headerFields_colorSpace b).comp (hBitTo_follows (reg := 0) (lo := 6)
    (g := fun b h => { h with clampType := b }) fun _ b => headerFields_clampType b)
  exact h

theorem hFilter_follows : Follows c hFilter (Header.filter c) :=
  ((hBitTo_follows (c := c) (reg := 6) (lo := 0) (g := fun b h => { h with simple := b })
    fun _ b => headerFields_simple b).comp (hLitTo_follows (reg := 6) (lo := 1) (n := 6)
    (g := fun v h => { h with level := v }) fun _ _ hv => headerFields_level hv)).comp
    (hLitTo_follows (reg := 6) (lo := 7) (n := 3) (g := fun v h => { h with sharpness := v })
    fun _ _ hv => headerFields_sharpness hv)

theorem hPartCount_follows : Follows c hPartCount (Header.partCount c) :=
  hLitTo_follows (reg := 9) (lo := 0) (n := 2) (g := fun v h => { h with log2Npart := v })
    fun _ _ hv => headerFields_log2Npart hv

theorem hUpdateLast_follows : Follows c hUpdateLast (Header.lastFlag c) :=
  hBitTo_follows (c := c) (reg := 13) (lo := 4) (g := fun b h => { h with updLast := b })
    fun _ b => headerFields_updLast b

theorem hSegQuant_follows {i : Nat} (hi : i < 4) : Follows c (hOptByte 4 i 7) (fun h => h.readSegQuant c i) :=
  hOptByte_follows (g := fun v h => { h with segQuant := upd h.segQuant i v }) (by omega) fun _ _ h1 h2 =>
    headerFields_segQuant hi h1 h2

theorem hSegFilter_follows {i : Nat} (hi : i < 4) : Follows c (hOptByte 5 i 6) (fun h => h.readSegFilter c i) :=
  hOptByte_follows (g := fun v h => { h with segFilter := upd h.segFilter i v }) (by omega) fun _ _ h1 h2 =>
    headerFields_segFilter hi h1 h2

theorem hQuantDelta_follows {i : Nat} (hi : i < 4) : Follows c (hOptByte 11 i 4) (fun h => h.readQuantDelta c i) :=
  hOptByte_follows (g := fun v h => { h with quantDelta := upd h.quantDelta i v }) (by omega) fun _ _ h1 h2 =>
    headerFields_quantDelta hi h1 h2

/-- A loop over the numbers below four, or three. -/
theorem Follows.range {f : State → Nat → State} {g : Header → Nat → Header} {n : Nat} {l : List Nat}
    (hl : l = List.range n) (h : ∀ i < n, Follows c (fun s => f s i) (fun x => g x i)) :
    Follows c (fun s => (List.range n).foldl f s) (fun x => l.foldl g x) := by
  subst hl
  have := Follows.foldl (c := c) (fun i : Nat => i) (l := List.range n) (f := f) (g := g) fun i hi =>
    h i (List.mem_range.1 hi)
  simpa using this

theorem hSegProb_follows (i : Nat) : Follows c (fun s => hSegProb s i) (fun h => h.readSegProb c i) := by
  unfold hSegProb Header.readSegProb
  simp only
  refine Follows.flag (f := fun f t => if f then hProb (segidIndex + i) t else t.setProb (segidIndex + i) 255)
    (g := fun f h => if f then h.readProb c (segidIndex + i)
      else { h with prob := upd h.prob (segidIndex + i) (some 255) }) fun b => ?_
  cases b with
  | true => exact hProb_follows _
  | false => exact .write (fun _ => headerFields_setProb _ _) fun _ => rfl

theorem hSegData_follows : Follows c hSegData (fun h =>
    [0, 1, 2, 3].foldl (Header.readSegFilter c) ([0, 1, 2, 3].foldl (Header.readSegQuant c)
      { (h.flag c).2 with absolute := (h.flag c).1 })) := by
  unfold hSegData
  simp only
  have h1 := Follows.range (c := c) (f := fun u i => hOptByte 4 i 7 u) (g := Header.readSegQuant c) (n := 4)
    (l := [0, 1, 2, 3]) rfl fun i hi => hSegQuant_follows hi
  have h2 := Follows.range (c := c) (f := fun u i => hOptByte 5 i 6 u) (g := Header.readSegFilter c) (n := 4)
    (l := [0, 1, 2, 3]) rfl fun i hi => hSegFilter_follows hi
  have h3 := Follows.flag (c := c) (f := fun b t => t.setCrField 3 3 1 (boolNat b))
    (g := fun b h => { h with absolute := b }) fun b => .write (fun _ => headerFields_absolute b) fun _ => rfl
  have h4 := (h3.comp h1).comp h2
  exact h4

theorem headerFields_noUpdate : (s.setCrField 3 1 2 0).headerFields =
    { s.headerFields with updateMap := false, updateData := false } := by
  have h : ∀ b, b = 1 ∨ b = 2 → (s.setCrField 3 1 2 0).crBit 3 b = false := by
    intro b hb
    unfold State.crBit
    rw [State.crRaw_setCrField_self _ _ _ _ (by omega)]
    unfold bitAt setField fieldMask
    rcases hb with rfl | rfl <;> simp
  unfold State.headerFields
  simp (disch := omega) [probAt_setCrField, crBit_other_reg, crField_other_reg, crBit_setCrField_other, h]

theorem Follows.ite {f f' : State → State} {g g' : Header → Header} (b : Bool) (h : Follows c f g)
    (h' : Follows c f' g') : Follows c (fun s => if b then f s else f' s) (fun x => if b then g x else g' x) := by
  cases b <;> assumption

theorem hSegmentation_follows : Follows c hSegmentation (Header.segmentation c) := by
  have w1 (b : Bool) : Follows c (fun s => s.setCrField 3 0 1 (boolNat b)) (fun h => { h with enabled := b }) :=
    .write (fun _ => headerFields_enabled b) fun _ => rfl
  have w2 (b : Bool) : Follows c (fun s => s.setCrField 3 1 1 (boolNat b)) (fun h => { h with updateMap := b }) :=
    .write (fun _ => headerFields_updateMap b) fun _ => rfl
  have w3 (b : Bool) : Follows c (fun s => s.setCrField 3 2 1 (boolNat b)) (fun h => { h with updateData := b }) :=
    .write (fun _ => headerFields_updateData b) fun _ => rfl
  have w4 : Follows c (fun s => s.setCrField 3 1 2 0) (fun h => { h with updateMap := false, updateData := false }) :=
    .write (fun _ => headerFields_noUpdate) fun _ => rfl
  have hp := Follows.range (c := c) (f := hSegProb) (g := Header.readSegProb c) (n := 3) (l := [0, 1, 2]) rfl
    fun i _ => hSegProb_follows i
  have h3 (map data : Bool) := (((w2 map).comp (w3 data)).comp (Follows.ite data hSegData_follows .id)).comp
    (Follows.ite map hp .id)
  have h2 (map : Bool) := Follows.flag (h3 map)
  have h1 := Follows.flag h2
  have h0 (en : Bool) := (w1 en).comp (Follows.ite en h1 w4)
  have h := Follows.flag h0
  exact h

theorem hKeepByte_follows {reg i n : Nat} {g : Int → Header → Header} (hn : n ≤ 7)
    (h : ∀ (s : State) (v : Int), -128 < v → v < 128 → (s.setCrByte reg i v).headerFields = g v s.headerFields) :
    Follows c (hKeepByte reg i n)
      (fun x => if (x.flag c).1 then g ((x.flag c).2.slit c n).1 ((x.flag c).2.slit c n).2 else (x.flag c).2) := by
  have h1 := Follows.slit (c := c) hn (f := fun v s => s.setCrByte reg i v) (g := g) fun v h1 h2 =>
    .write (fun s => h s v h1 h2) fun _ => rfl
  exact Follows.flag fun b => Follows.ite b h1 .id

theorem hDeltas_follows : Follows c hDeltas (Header.deltas c) := by
  have w1 (b : Bool) : Follows c (fun s => s.setCrField 6 10 1 (boolNat b)) (fun h => { h with deltaEn := b }) :=
    .write (fun _ => headerFields_deltaEn b) fun _ => rfl
  have r7 := Follows.range (c := c) (f := fun u i => hKeepByte 7 i 6 u) (g := Header.readRefDelta c) (n := 4)
    (l := [0, 1, 2, 3]) rfl fun i hi => hKeepByte_follows (g := fun v h => { h with refDelta := upd h.refDelta i v })
      (by omega) fun _ _ h1 h2 => headerFields_refDelta hi h1 h2
  have r8 := Follows.range (c := c) (f := fun u i => hKeepByte 8 i 6 u) (g := Header.readModeDelta c) (n := 4)
    (l := [0, 1, 2, 3]) rfl fun i hi => hKeepByte_follows (g := fun v h => { h with modeDelta := upd h.modeDelta i v })
      (by omega) fun _ _ h1 h2 => headerFields_modeDelta hi h1 h2
  have h1 := Follows.flag fun b => Follows.ite b (r7.comp r8) .id
  have h0 := Follows.flag fun b => (w1 b).comp (Follows.ite b h1 .id)
  exact h0

theorem hQuant_follows : Follows c hQuant (Header.quant c) := by
  have r0 := hLitTo_follows (c := c) (reg := 10) (lo := 0) (n := 7) (g := fun v h => { h with yacQi := v })
    fun _ _ hv => headerFields_yacQi hv
  have r1 := Follows.range (c := c) (f := fun u i => hOptByte 11 i 4 u) (g := Header.readQuantDelta c) (n := 4)
    (l := [0, 1, 2, 3]) rfl fun i hi => hQuantDelta_follows hi
  have r2 := hOptByte_follows (c := c) (reg := 12) (i := 0) (n := 4) (g := fun v h => { h with uvacDelta := v })
    (by omega) fun _ _ h1 h2 => headerFields_uvacDelta h1 h2
  have h := (r0.comp r1).comp r2
  exact h

theorem refMap_eq {v : Nat} (hv : v < 4) : refMap v = if v = 1 then 2 else if v = 2 then 3 else 0 := by
  rcases (by omega : v = 0 ∨ v = 1 ∨ v = 2 ∨ v = 3) with rfl | rfl | rfl | rfl <;> rfl

theorem hRefs_follows : Follows c hRefs (Header.references c) := by
  have w (lo : Nat) (g : Nat → Header → Header)
      (hg : ∀ (s : State) (v : Nat), v < 4 → (s.setCrField 13 lo 2 v).headerFields = g v s.headerFields) (b : Bool) :
      Follows c (hRefField lo b) (fun x => g (x.updateField c b).1 (x.updateField c b).2) := by
    cases b with
    | true => exact .write (fun s => hg s 1 (by omega)) fun _ => rfl
    | false =>
      have h := Follows.lit (c := c) (n := 2) (f := fun v s => s.setCrField 13 lo 2 (refMap v))
        (g := fun v x => g (if v = 1 then 2 else if v = 2 then 3 else 0) x) fun v hv =>
          .write (fun s => by
            rw [refMap_eq (by omega)]
            exact hg s _ (by split <;> (try split) <;> omega)) fun _ => rfl
      exact h
  have wg := w 0 (fun v h => { h with updGolden := v }) fun _ _ hv => headerFields_updGolden hv
  have wa := w 2 (fun v h => { h with updAltref := v }) fun _ _ hv => headerFields_updAltref hv
  have b5 := hBitTo_follows (c := c) (reg := 13) (lo := 5) (g := fun b h => { h with biasGolden := b })
    fun _ b => headerFields_biasGolden b
  have b6 := hBitTo_follows (c := c) (reg := 13) (lo := 6) (g := fun b h => { h with biasAltref := b })
    fun _ b => headerFields_biasAltref b
  have h := Follows.flag fun g => Follows.flag fun a => (((wg g).comp (wa a)).comp b5).comp b6
  exact h

theorem hCommit_follows : Follows c hCommit (Header.commit c) := by
  have w1 (b : Bool) : Follows c (fun s => s.setCrField 13 7 1 (boolNat b)) (fun h => { h with updProbs := b }) :=
    .write (fun _ => headerFields_updProbs b) fun _ => rfl
  have w2 : Follows c fcProbsave (fun h => { h with probSaved := h.prob }) := .write (fun _ => rfl) fun _ => rfl
  have h := Follows.flag fun b => (w1 b).comp (Follows.ite b .id w2)
  refine (congrArg (Follows c hCommit) (funext fun x => ?_)).mp h
  unfold Header.commit
  simp only
  split <;> simp_all

theorem tokenPlaces_eq :
    tokenPlaces = (List.range 1056).map fun i => (i / 264, i / 33 % 8, i / 11 % 3, i % 11) := by decide +kernel

theorem mvPlaces_eq : mvPlaces = (List.range 38).map fun i => (i / 19, i % 19) := by decide +kernel

theorem hTokens_follows : Follows c (hTokens Config.openTables) (Header.tokens c) := by
  have step (i : Nat) : Follows c (fun s => hTokenUpdate Config.openTables s i)
      (fun h => h.readToken c (i / 264, i / 33 % 8, i / 11 % 3, i % 11)) := by
    have hi : tokenIndex (i / 264) (i / 33 % 8) (i / 11 % 3) + i % 11 = i := by unfold tokenIndex; omega
    have h := Follows.bool (c := c) (p := Config.coefUpdateProbs (i / 264) (i / 33 % 8) (i / 11 % 3) (i % 11))
      fun b => Follows.ite b (hProb_follows i) .id
    unfold Header.readToken
    simp only [hi]
    exact h
  unfold hTokens Header.tokens
  rw [tokenPlaces_eq]
  exact Follows.foldl (fun i => (i / 264, i / 33 % 8, i / 11 % 3, i % 11)) fun i _ => step i

theorem hSkip_follows : Follows c hSkip (Header.skip c) := by
  have w1 (b : Bool) : Follows c (fun s => s.setCrField 14 0 1 (boolNat b)) (fun h => { h with mbskipEn := b }) :=
    .write (fun _ => headerFields_mbskipEn b) fun _ => rfl
  have h := Follows.flag fun b => (w1 b).comp (Follows.ite b (hProb_follows (c := c) mbskipIndex) .id)
  exact h

theorem hRefProbs_follows : Follows c hRefProbs (Header.refProbs c) :=
  ((hProb_follows intraIndex).comp (hProb_follows lastIndex)).comp (hProb_follows goldenIndex)

theorem hProbRun_follows {base n : Nat} {l : List Nat} (hl : l = (List.range n).map fun i => base + i) :
    Follows c (hProbRun base n)
      (fun x => if (x.flag c).1 then l.foldl (Header.readProb c) (x.flag c).2 else (x.flag c).2) := by
  subst hl
  have h := Follows.flag fun b => Follows.ite b (Follows.foldl (c := c) (f := fun u i => hProb (base + i) u)
    (g := Header.readProb c) (l := List.range n) (fun i => base + i) fun i _ => hProb_follows _) .id
  exact h

theorem hModeProbs_follows : Follows c hModeProbs (Header.modeProbs c) :=
  (hProbRun_follows (c := c) (base := ymodeIndex) (n := 4) (l := [1094, 1095, 1096, 1097]) rfl).comp
    (hProbRun_follows (base := uvmodeIndex) (n := 3) (l := [1098, 1099, 1100]) rfl)

theorem hMvs_follows : Follows c (hMvs Config.openTables) (Header.vectors c) := by
  have step (i : Nat) : Follows c (fun s => hMvUpdate Config.openTables s i)
      (fun h => h.readMvc c (i / 19, i % 19)) := by
    have hi : mvcIndex (i / 19) + i % 19 = 1056 + i := by unfold mvcIndex; omega
    have h1 := Follows.lit (c := c) (n := 7)
      (f := fun x s => s.setProb (1056 + i) (BitVec.ofNat 8 (if x = 0 then 1 else 2 * x)))
      (g := fun x h => { h with prob := upd h.prob (1056 + i) (some (BitVec.ofNat 8 (if x = 0 then 1 else 2 * x))) })
      fun x _ => .write (fun _ => headerFields_setProb _ _) fun _ => rfl
    have h := Follows.bool (c := c) (p := Config.mvUpdateProbs (i / 19) (i % 19)) fun b => Follows.ite b h1 .id
    unfold Header.readMvc
    simp only [hi]
    exact h
  unfold hMvs Header.vectors
  rw [mvPlaces_eq]
  exact Follows.foldl (fun i => (i / 19, i % 19)) fun i _ => step i

/-! ## The keyframe reset -/

theorem find_run {α : Type} (a n : Nat) (f : Nat → α) (j : Nat) :
    Memory.find ((List.range n).map fun i => (a + i, f i)) j =
      if a ≤ j ∧ j < a + n then some (f (j - a)) else none := by
  split
  · rename_i h
    refine Memory.find_of_mem (List.mem_map.2 ⟨j - a, List.mem_range.2 (by omega), ?_⟩) ?_
    · rw [show a + (j - a) = j by omega]
    · intro p hp he
      obtain ⟨i, -, rfl⟩ := List.mem_map.1 hp
      simp only at he ⊢
      rw [show i = j - a by omega]
  · rename_i h
    refine Memory.find_eq_none fun p hp => ?_
    obtain ⟨i, hi, rfl⟩ := List.mem_map.1 hp
    have := List.mem_range.1 hi
    simp only
    omega

theorem keyEntries_eq : mvcEntries ++ modeEntries = (List.range 45).map fun i => (1056 + i,
    ([162, 128, 225, 146, 172, 147, 214, 39, 156, 128, 129, 132, 75, 145, 178, 206, 239, 254, 254,
      164, 128, 204, 170, 119, 235, 140, 230, 228, 128, 130, 130, 74, 148, 180, 203, 236, 254, 254,
      112, 86, 140, 37, 162, 101, 204] : List Byte).getD i 0) := by decide +kernel

theorem keyProb_eq (m : Memory Byte) :
    Memory.find (Memory.setAll m (tokenEntries Config.openTables.coefDefault ++ mvcEntries ++ modeEntries)) =
      keyDefaults (Memory.find m) := by
  funext j
  rw [Memory.find_setAll, List.append_assoc, keyEntries_eq]
  have ht : tokenEntries Config.openTables.coefDefault = (List.range 1056).map fun i =>
      (0 + i, Config.coefProbsDefault (i / 264) (i / 33 % 8) (i / 11 % 3) (i % 11)) := by
    unfold tokenEntries
    simp only [Nat.zero_add]
    rfl
  have ha : ∀ (l m : Memory Byte), Memory.find (l ++ m) j = (Memory.find l j).or (Memory.find m j) := by
    intro l m
    induction l with
    | nil => rfl
    | cons p l ih =>
      rw [List.cons_append, Memory.find_cons, Memory.find_cons, ih]
      split <;> rfl
  rw [ha, ht, find_run, find_run]
  unfold keyDefaults
  by_cases h1 : j < 1056
  · rw [if_pos (by omega), if_pos h1]
    rfl
  · rw [if_neg (by omega), if_neg h1]
    by_cases h2 : j < 1101
    · rw [if_pos (by omega), if_pos h2, List.getD_eq_getElem?_getD, List.getElem?_eq_getElem (by simp; omega)]
      rfl
    · rw [if_neg (by omega), if_neg h2]
      rfl

theorem sbyte_zero : sbyte 0 = fun _ => 0 := by
  funext i
  unfold sbyte
  simp

theorem headerFields_clear3 : (s.setCr 3 0).headerFields =
    { s.headerFields with enabled := false, updateMap := false, updateData := false, absolute := false } := by
  have z : ∀ b, bitAt 0 b = false := fun b => by simp [bitAt]
  generalize (0 : Word) = w at z ⊢
  have h : (s.setCr 3 w).crRaw 3 = w := by rw [State.crRaw_setCr _ _ _ _ (by omega), if_pos rfl]
  have e : (s.setCr 3 w).probAt = s.probAt := rfl
  unfold State.headerFields State.crBit State.crField
  simp [h, e, z]

/-- A control register of four signed bytes cleared. -/
theorem headerFields_clear {i : Nat} (hi : i = 4 ∨ i = 5 ∨ i = 7 ∨ i = 8) : (s.setCr i 0).headerFields =
    { s.headerFields with
      segQuant := if i = 4 then fun _ => 0 else s.headerFields.segQuant
      segFilter := if i = 5 then fun _ => 0 else s.headerFields.segFilter
      refDelta := if i = 7 then fun _ => 0 else s.headerFields.refDelta
      modeDelta := if i = 8 then fun _ => 0 else s.headerFields.modeDelta } := by
  have z := sbyte_zero
  generalize (0 : Word) = w at z ⊢
  have h : (s.setCr i w).crRaw i = w := by rw [State.crRaw_setCr _ _ _ _ (by omega), if_pos rfl]
  have e : (s.setCr i w).probAt = s.probAt := rfl
  unfold State.headerFields State.crBit State.crField
  rcases hi with rfl | rfl | rfl | rfl <;> simp [h, e, z]

theorem headerFields_clearBiases : (s.setCrField 13 5 2 0).headerFields =
    { s.headerFields with biasGolden := false, biasAltref := false } := by
  have h : ∀ b, b = 5 ∨ b = 6 → (s.setCrField 13 5 2 0).crBit 13 b = false := by
    intro b hb
    unfold State.crBit
    rw [State.crRaw_setCrField_self _ _ _ _ (by omega)]
    unfold bitAt setField fieldMask
    rcases hb with rfl | rfl <;> simp
  unfold State.headerFields
  simp (disch := omega) [probAt_setCrField, crBit_other_reg, crField_other_reg, crBit_setCrField_other,
    crField_same_reg, h]

theorem headerFields_updateAll : (s.setCrField 13 0 5 0x15).headerFields =
    { s.headerFields with updGolden := 1, updAltref := 1, updLast := true } := by
  have hw := field_setField (s.crRaw 13) 0 5 0x15 (by omega)
  have hf : ∀ lo len, lo + len ≤ 5 → (s.setCrField 13 0 5 0x15).crField 13 lo len = 0x15 / 2 ^ lo % 2 ^ len := by
    intro lo len hl
    unfold State.crField
    rw [State.crRaw_setCrField_self _ _ _ _ (by omega)]
    apply Nat.eq_of_testBit_eq
    intro k
    have := testBit_field (setField (s.crRaw 13) 0 5 0x15) 0 5 (lo + k)
    rw [hw] at this
    rw [testBit_field, Nat.testBit_mod_two_pow, Nat.testBit_div_two_pow]
    by_cases hk : k < len
    · have h5 : lo + k < 5 := by omega
      simp only [hk, h5, decide_true, Bool.true_and, Nat.zero_add] at this ⊢
      rw [← this, Nat.testBit_mod_two_pow, decide_eq_true h5, Bool.true_and, Nat.add_comm]
    · simp [hk]
  have hb : (s.setCrField 13 0 5 0x15).crBit 13 4 = true := by
    unfold State.crBit
    rw [bitAt_eq_field]
    exact decide_eq_true (hf 4 1 (by omega))
  have h0 := hf 0 2 (by omega)
  have h2 := hf 2 2 (by omega)
  unfold State.headerFields
  simp (disch := omega) [probAt_setCrField, crBit_other_reg, crField_other_reg, crBit_setCrField_other,
    h0, h2, hb]

theorem hKeyReset_follows : Follows c (hKeyReset Config.openTables) Header.keyReset := by
  have e : ∀ (u : State) (g : Memory (BitVec 2)) (m : Memory Byte),
      ({ u with segmap := g, prob := m } : State).headerFields = { u.headerFields with prob := Memory.find m } :=
    fun _ _ _ => rfl
  have ec : ∀ (u : State) (g : Memory (BitVec 2)) (m : Memory Byte),
      ({ u with segmap := g, prob := m } : State).cbuf = u.cbuf := fun _ _ _ => rfl
  have ef : ∀ (u : State) (i lo len v : Nat), (u.setCrField i lo len v).cbuf = u.cbuf := fun _ _ _ _ _ => rfl
  have er : ∀ (u : State) (i : Nat) (v : Word), (u.setCr i v).cbuf = u.cbuf := fun _ _ _ => rfl
  have pf : ∀ (u : State) (i lo len v : Nat), (u.setCrField i lo len v).prob = u.prob := fun _ _ _ _ _ => rfl
  have pr : ∀ (u : State) (i : Nat) (v : Word), (u.setCr i v).prob = u.prob := fun _ _ _ => rfl
  refine .write (fun s => ?_) fun s => ?_
  · unfold hKeyReset
    rw [e, keyProb_eq, headerFields_clearBiases, headerFields_updateAll, headerFields_clear (by omega),
      headerFields_clear (by omega), headerFields_clear (by omega), headerFields_clear (by omega), headerFields_clear3,
      pf, pf, pr, pr, pr, pr, pr]
    rfl
  · unfold hKeyReset
    rw [ec, ef, ef, er, er, er, er, er]

/-- The fields of a header are those that the rules give (R409 to R428). -/
theorem hFields_follows (key : Bool) :
    Follows c (hFields Config.openTables key) (fun h => if key then h.parseKey c else h.parseInter c) := by
  cases key with
  | true =>
    have h := ((((((((hKeyReset_follows.comp (hColor_follows (c := c))).comp hSegmentation_follows).comp
      hFilter_follows).comp hDeltas_follows).comp hPartCount_follows).comp hQuant_follows).comp
      hCommit_follows).comp hTokens_follows).comp hSkip_follows
    unfold hFields Header.parseKey
    simp only [if_true]
    exact h
  | false =>
    have h := (((((((((((hSegmentation_follows (c := c)).comp hFilter_follows).comp hDeltas_follows).comp
      hPartCount_follows).comp hQuant_follows).comp hRefs_follows).comp hCommit_follows).comp
      hUpdateLast_follows).comp hTokens_follows).comp hSkip_follows).comp hRefProbs_follows).comp
      hModeProbs_follows |>.comp hMvs_follows
    unfold hFields Header.parseInter
    simp only [Bool.false_eq_true, if_false]
    exact h

/-! ## The whole header -/

theorem headerFields_setCr {i : Nat} (hi : 15 ≤ i ∨ i = 1) (v : Word) :
    (s.setCr i v).headerFields = s.headerFields := by
  have r : ∀ j, j ≠ 1 ∧ j < 15 → (s.setCr i v).crRaw j = s.crRaw j := fun j hj => s.crRaw_setCr_other _ (by omega)
  have e : (s.setCr i v).probAt = s.probAt := rfl
  have d : (s.setCr i v).rdAt 0 = s.rdAt 0 := rfl
  have p : (s.setCr i v).probSaved = s.probSaved := rfl
  unfold State.headerFields State.crBit State.crField
  simp (disch := omega) only [r, e, d, p]

theorem headerFields_setPart (i : Nat) (base size : Word) : (s.setPart i base size).headerFields = s.headerFields := by
  unfold State.setPart
  rw [headerFields_setCr (by omega), headerFields_setCr (by omega)]

theorem headerFields_startPart {i : Nat} (hi : 0 < i) (base size : Word) :
    (s.startPart i base size).headerFields = s.headerFields := by
  unfold State.startPart
  rw [← headerFields_setPart (s := s) i base size]
  unfold State.headerFields
  rw [State.rdAt_setRd_other _ _ (by omega)]
  rfl

theorem hParts_fields {base length : Word} {p n i o : Nat} {e : Nat × State}
    (h : hParts base length p n i o s = .ok e) : e.2.headerFields = s.headerFields := by
  induction n generalizing s i o with
  | zero => cases h; rfl
  | succ n ih =>
    simp only [hParts] at h
    obtain ⟨_, _, h⟩ := Res.bind_ok.1 h
    rw [ih h, headerFields_startPart (by omega)]

theorem hPartitions_fields {base length : Word} {p : Nat} {t : State} (h : hPartitions base length p s = .ok t) :
    t.headerFields = s.headerFields := by
  simp only [hPartitions] at h
  obtain ⟨_, _, h⟩ := Res.bind_ok.1 h
  obtain ⟨e, h1, h⟩ := Res.bind_ok.1 h
  cases h
  have hn := npart_bounds s
  have hf : ∀ (l : List Nat) (x : State),
      (l.foldl (fun w j => w.setPart (s.npart + 1 + j) 0 0) x).headerFields = x.headerFields := by
    intro l
    induction l with
    | nil => exact fun _ => rfl
    | cons j l ih => exact fun x => (ih _).trans (headerFields_setPart _ _ _)
  rw [hf, headerFields_startPart (by omega), hParts_fields h1]

theorem headerFields_frameClass {lo len : Nat} (h : lo + len ≤ 5) (v : Nat) :
    (s.setCrField 0 lo len v).headerFields = s.headerFields := by
  unfold State.headerFields
  simp (disch := omega) only [probAt_setCrField, rdAt_setCrField, crBit_other_reg, crField_other_reg,
    crBit_setCrField_other, State.crRaw_setCrField_other]
  rfl

theorem headerFields_resize : s.resize.headerFields = s.headerFields :=
  (show _ = (s.setCr 18 0x7777).headerFields from rfl).trans (headerFields_setCr (by omega) _)

theorem headerFields_takeSize (key : Bool) (w : Word) : (s.takeSize key w).headerFields = s.headerFields := by
  cases key with
  | false => rfl
  | true =>
    simp only [State.takeSize, if_true, State.setSize]
    rw [headerFields_setCr (by omega)]
    split
    · exact headerFields_resize
    · rfl

theorem headerFields_setupDq : s.setupDq.headerFields = s.headerFields :=
  setupDq_same (fun x : State => x.headerFields) (fun _ _ => rfl) s

theorem beforeFields_fields (base : Word) :
    (s.beforeFields base).headerFields = { s.headerFields with
      rd := rdStart s.cbuf (base + BitVec.ofNat 32 (hdrLen (tagKey (s.frameTag base))))
        (BitVec.ofNat 32 (tagFirst (s.frameTag base))) } := by
  have hi : s.invalidateRd.headerFields = { s.headerFields with rd := s.invalidateRd.rdAt 0 } := rfl
  unfold State.beforeFields State.startFirst State.startPart
  rw [headerFields_setRd, headerFields_setPart]
  unfold State.setFrmCtl
  rw [headerFields_frameClass (by omega), headerFields_frameClass (by omega), headerFields_frameClass (by omega), hi]
  rfl

/-- What the fields of a header leave, in the state after `FC_HEADER` (R409 to R429). -/
theorem header_fields {base length : Word} {t : State} (h : header Config.openTables base length s = .ok t) :
    t.headerFields = Header.parse s.cbuf (tagKey (s.frameTag base))
      (rdStart s.cbuf (base + BitVec.ofNat 32 (hdrLen (tagKey (s.frameTag base))))
        (BitVec.ofNat 32 (tagFirst (s.frameTag base)))) s.headerFields := by
  simp only [header, headerParse] at h
  obtain ⟨u, h1, h⟩ := Res.bind_ok.1 h
  obtain ⟨_, _, h⟩ := Res.bind_ok.1 h
  obtain ⟨_, _, h1⟩ := Res.bind_ok.1 h1
  obtain ⟨_, _, h1⟩ := Res.bind_ok.1 h1
  cases h
  have hs : ∀ (x : State) (i : Nat) (v : Word), (x.setRes i v).headerFields = x.headerFields := fun _ _ _ => rfl
  have hc : (s.beforeFields base).cbuf = s.cbuf := (parts_cbuf (beforeFields_parts s base)).trans rfl
  have hf := (hFields_follows (tagKey (s.frameTag base)) (s.beforeFields base) hc).2
  rw [hs, headerFields_setupDq, headerFields_takeSize,
    afterAsk_same (fun x : State => x.headerFields) (fun _ _ _ => rfl), hPartitions_fields h1]
  rw [beforeFields_fields] at hf
  exact hf

/-! ## What a keyframe's header keeps of its defaults -/

/-- Entry `i` of `PROB`, the update fields and the sign biases. -/
def Header.kept (i : Nat) (h : Header) : Option Byte × Nat × Nat × Bool × Bool × Bool :=
  (h.prob i, h.updGolden, h.updAltref, h.updLast, h.biasGolden, h.biasAltref)

theorem foldl_kept {α : Type} {i : Nat} {f : Header → α → Header} {l : List α}
    (h : ∀ a ∈ l, ∀ x, (f x a).kept i = x.kept i) (x : Header) : (l.foldl f x).kept i = x.kept i := by
  induction l generalizing x with
  | nil => rfl
  | cons a l ih =>
    exact (ih (fun b hb => h b (List.mem_cons_of_mem _ hb)) _).trans (h a (List.mem_cons_self ..) x)

theorem readProb_kept {i j : Nat} (hj : i ≠ j) (x : Header) : (x.readProb c j).kept i = x.kept i := by
  unfold Header.kept Header.readProb upd
  simp only [if_neg hj]
  rfl

theorem flag_kept (i : Nat) (x : Header) : (x.flag c).2.kept i = x.kept i := rfl

theorem segmentation_kept {i : Nat} (hi : i < 1101) (x : Header) : (x.segmentation c).kept i = x.kept i := by
  have hq : ∀ (l : List Nat) (y : Header), (l.foldl (Header.readSegQuant c) y).kept i = y.kept i := fun l =>
    foldl_kept fun a _ y => by
      unfold Header.readSegQuant Header.optSlit
      simp only
      split <;> rfl
  have hf : ∀ (l : List Nat) (y : Header), (l.foldl (Header.readSegFilter c) y).kept i = y.kept i := fun l =>
    foldl_kept fun a _ y => by
      unfold Header.readSegFilter Header.optSlit
      simp only
      split <;> rfl
  have hp : ∀ (l : List Nat) (y : Header), (l.foldl (Header.readSegProb c) y).kept i = y.kept i := fun l =>
    foldl_kept fun a _ y => by
      have ha : i ≠ segidIndex + a := by unfold segidIndex; omega
      unfold Header.readSegProb
      simp only
      split
      · exact readProb_kept ha _
      · unfold Header.kept upd
        simp only [if_neg ha]
        rfl
  unfold Header.segmentation
  simp only
  split
  · split <;> split <;> (try simp only [hp, hf, hq]) <;> rfl
  · rfl

theorem deltas_kept (i : Nat) (x : Header) : (x.deltas c).kept i = x.kept i := by
  have h7 : ∀ (l : List Nat) (y : Header), (l.foldl (Header.readRefDelta c) y).kept i = y.kept i := fun l =>
    foldl_kept fun a _ y => by
      unfold Header.readRefDelta
      simp only
      split <;> rfl
  have h8 : ∀ (l : List Nat) (y : Header), (l.foldl (Header.readModeDelta c) y).kept i = y.kept i := fun l =>
    foldl_kept fun a _ y => by
      unfold Header.readModeDelta
      simp only
      split <;> rfl
  unfold Header.deltas
  simp only
  split
  · split
    · simp only [h8, h7]; rfl
    · rfl
  · rfl

theorem quant_kept (i : Nat) (x : Header) : (x.quant c).kept i = x.kept i := by
  have h : ∀ (l : List Nat) (y : Header), (l.foldl (Header.readQuantDelta c) y).kept i = y.kept i := fun l =>
    foldl_kept fun a _ y => by
      unfold Header.readQuantDelta Header.optSlit
      simp only
      split <;> rfl
  have h12 : ∀ y : Header, ({ (y.optSlit c 4).2 with uvacDelta := (y.optSlit c 4).1 } : Header).kept i = y.kept i := by
    intro y
    unfold Header.optSlit
    simp only
    split <;> rfl
  unfold Header.quant
  simp only
  rw [h12, h]
  rfl

theorem tokens_kept {i : Nat} (hi : 1056 ≤ i) (x : Header) : (x.tokens c).kept i = x.kept i := by
  refine foldl_kept (fun e he y => ?_) x
  rw [tokenPlaces_eq] at he
  obtain ⟨k, hk, rfl⟩ := List.mem_map.1 he
  have := List.mem_range.1 hk
  have hj : i ≠ tokenIndex (k / 264) (k / 33 % 8) (k / 11 % 3) + k % 11 := by unfold tokenIndex; omega
  unfold Header.readToken
  simp only
  split
  · exact readProb_kept hj _
  · rfl

theorem skip_kept {i : Nat} (hi : i < 1101) (x : Header) : (x.skip c).kept i = x.kept i := by
  unfold Header.skip
  simp only
  split
  · exact (readProb_kept (by unfold mbskipIndex; omega) _).trans rfl
  · rfl

/-- Through the fields of a keyframe's header `mvc`, `ymode` and `uvmode` keep their defaults, and the roles stay
marked for update (R409, R428). -/
theorem parseKey_kept {i : Nat} (h1 : 1056 ≤ i) (h2 : i < 1101) (x : Header) :
    (x.parseKey c).kept i = x.keyReset.kept i := by
  unfold Header.parseKey
  simp only
  rw [skip_kept h2, tokens_kept h1]
  show (Header.quant c _).kept i = _
  rw [quant_kept]
  show (Header.deltas c _).kept i = _
  rw [deltas_kept]
  show (Header.segmentation c _).kept i = _
  rw [segmentation_kept h2]
  rfl

/-! ## What a header leaves alone -/

/-- A state with the items of another that a header without a new size can change. -/
def State.withHeader (s x : State) : State :=
  { x with cr := s.cr, rd := s.rd, prob := s.prob, probSaved := s.probSaved, dq := s.dq, segmap := s.segmap
           res := s.res }

theorem fields_withHeader (s0 : State) {t : State} (h : Effects tagsFields s t) : s0.withHeader t = s0.withHeader s :=
  h.same (fun x => s0.withHeader x) fun a ha _ _ hm => by
    rcases ha with rfl | rfl | rfl | rfl | ⟨i, -, -, -, -, rfl⟩ <;> cases hm <;> rfl

theorem parts_withHeader (s0 : State) {t : State} (h : Effects tagsParts s t) : s0.withHeader t = s0.withHeader s :=
  h.same (fun x => s0.withHeader x) fun a ha _ _ hm => by
    rcases ha with ⟨i, rfl⟩ | ⟨i, -, rfl⟩ <;> cases hm <;> rfl

theorem beforeFields_withHeader (s0 : State) (base : Word) :
    s0.withHeader (s.beforeFields base) = s0.withHeader s :=
  (parts_withHeader s0 (beforeFields_parts s base)).trans rfl

/-- A header that asks for no new size in macroblocks changes control registers, range decoders, probabilities,
multipliers, segments and `RES0`, and nothing else (R406, R429). -/
theorem header_withHeader {base length : Word} {t : State} (h : s.FrameOk base length)
    (hr : ¬(tagKey (s.frameTag base) = true ∧ s.sizeChanges (s.frameSize base) = true))
    (ht : header Config.openTables base length s = .ok t) : t = t.withHeader s := by
  obtain ⟨u, h1, hd, hp, -, -⟩ := headerParse_completes h
  have hw : s.sizeChanges (s.wantedSize base) = true → False := by
    unfold State.wantedSize
    split
    · rename_i hk
      exact fun hc => hr ⟨hk, hc⟩
    · unfold State.sizeChanges State.mbW State.mbH
      simp
  have hu : ∀ w : State, w.withHeader u = w.withHeader s := fun w =>
    (parts_withHeader w hp).trans ((fields_withHeader w hd.effects).trans (beforeFields_withHeader w base))
  simp only [header, h1, Res.ok_bind] at ht
  obtain ⟨_, _, ht⟩ := Res.bind_ok.1 ht
  have hone : u.crRaw 1 = s.crRaw 1 := by
    rw [parts_crRaw (by omega) hp, hd.raw 1 (.inl rfl), parts_crRaw (by omega) (beforeFields_parts s base),
      setFrmCtl_crRaw _ _ _ (by omega)]
    rfl
  have hsame : u.sizeChanges (s.wantedSize base) = s.sizeChanges (s.wantedSize base) := by
    unfold State.sizeChanges State.mbW State.mbH
    rw [hone]
  have hsz : ∀ b : Bool, (u.takeSize b (s.wantedSize base)) = if b then u.setCr 1 (s.wantedSize base) else u := by
    intro b
    cases b with
    | false => rfl
    | true =>
      simp only [State.takeSize, if_true, State.setSize]
      rw [hsame, if_neg fun hc => hw hc]
  rw [show u.afterAsk (s.wantedSize base) = u from by
    unfold State.afterAsk
    rw [hsame, if_neg fun hc => hw hc], hsz] at ht
  cases ht
  generalize hx : (if tagKey (s.frameTag base) = true then u.setCr 1 (s.wantedSize base) else u) = x
  have hxu : ∀ w : State, w.withHeader x = w.withHeader u := fun w => by
    rw [← hx]
    split <;> rfl
  have hq : ∀ w : State, w.withHeader (x.setupDq.setRes 0 (boolWord (tagKey (s.frameTag base)))) = w.withHeader s := by
    intro w
    rw [← hu w, ← hxu w]
    exact (setupDq_same (fun y : State => w.withHeader (y.setRes 0 (boolWord (tagKey (s.frameTag base)))))
      (fun _ _ => rfl) x).trans rfl
  rw [← hq]
  rfl

end Sys2Proof.Machine
end

