-- ==== Sys2Proof/Laws/Invariants.lean ====
section
/-! SUPPORT. Each kind of change keeps the canonical form of the memories, the reserved bits of the
control registers and the range decoders' invariant. -/

namespace Sys2Proof.Machine

variable {s t : State}

/-! ## Canonical memories -/

theorem Frame.wf_setPlane {f : Frame} (h : ∀ q, Memory.wf (f.plane q)) (p : Nat) {m : Memory Byte}
    (hm : Memory.wf m) (q : Nat) : Memory.wf ((f.setPlane p m).plane q) := by
  have h0 := h 0
  have h1 := h 1
  have h2 := h 2
  simp only [Frame.plane, Frame.setPlane, if_true, if_false, one_ne_zero, OfNat.ofNat_ne_zero,
    OfNat.ofNat_ne_one] at *
  split
  · split
    · exact hm
    · split <;> exact h0
  · split
    · split
      · exact h1
      · split
        · exact hm
        · exact h1
    · split
      · exact h2
      · split
        · exact h2
        · exact hm

theorem State.plane_setPlane_wf {n p : Nat} {m : Memory Byte} (h : ∀ a q, Memory.wf (s.plane a q))
    (hm : Memory.wf m) (a q : Nat) : Memory.wf ((s.setPlane n p m).plane a q) := by
  by_cases ha : a = n
  · subst ha
    unfold State.plane State.setPlane
    by_cases hn : a < 4
    · simpa [hn] using Frame.wf_setPlane (h a) p hm q
    · simp only [Vector.getElem?_setIfInBounds_self]
      simp [hn, Frame.empty, Frame.plane]
  · rw [s.plane_setPlane_slot p q m ha]
    exact h a q

/-- A list numbered by its places is canonical. -/
theorem wf_numbered (l : List Byte) (n : Nat) :
    Memory.wf ((l.zipIdx n).map fun e => (e.2, e.1)) := by
  induction l generalizing n with
  | nil => simp
  | cons a l ih =>
    simp only [List.zipIdx_cons, List.map_cons]
    refine List.pairwise_cons.2 ⟨fun p hp => ?_, ih (n + 1)⟩
    obtain ⟨e, he, rfl⟩ := List.mem_map.1 hp
    have := (List.mem_zipIdx he).1
    show n < e.2
    omega

theorem empty_plane_wf (a q : Nat) :
    Memory.wf (((Vector.replicate 4 Frame.empty)[a]?.getD Frame.empty).plane q) := by
  by_cases h : a < 4 <;> simp [h, Frame.empty, Frame.plane]

theorem Micro.memWf {a : Tag} (h : Micro a s t) (hs : s.MemWf) : t.MemWf := by
  have tp : ∀ {b : Topb} (q : Nat), (∀ q, Memory.wf (b.plane q)) →
      Memory.wf b.y ∧ Memory.wf b.u ∧ Memory.wf b.v :=
    fun q hb => ⟨hb 0, hb 1, hb 2⟩
  have pl : ∀ {b : Topb}, Memory.wf b.y ∧ Memory.wf b.u ∧ Memory.wf b.v → ∀ q, Memory.wf (b.plane q) := by
    intro b hb q
    unfold Topb.plane
    split
    · exact hb.1
    · split
      · exact hb.2.1
      · exact hb.2.2
  cases h with
  | mb _ r => exact { hs with mbinfo := Memory.wfD_put hs.mbinfo _ _ }
  | seg _ v => exact { hs with segmap := Memory.wfD_put hs.segmap _ _ }
  | segClear => exact { hs with segmap := Memory.wfD_nil _ }
  | nz _ a l => exact { hs with nzAbove := Memory.wfD_put hs.nzAbove _ _ }
  | nzClear => exact { hs with nzAbove := Memory.wfD_nil _ }
  | coefClear => exact { hs with coef := Memory.wfD_nil _ }
  | coef _ l => exact { hs with coef := Memory.wfD_putAll hs.coef _ }
  | dq _ n r => exact { hs with dq := Memory.wf_set hs.dq _ _ }
  | lfp _ r => exact { hs with lfp := Memory.wf_set hs.lfp _ _ }
  | pix _ n p l => exact { hs with fb := State.plane_setPlane_wf hs.fb (Memory.wf_setAll (hs.fb n p) l) }
  | newSlot _ n =>
    refine { hs with fb := fun a q => ?_ }
    by_cases ha : a = n
    · rw [ha, s.plane_clearSlot_self]; exact .nil
    · rw [s.plane_clearSlot_other q ha]; exact hs.fb a q
  | prob _ l => exact { hs with prob := Memory.wf_setAll hs.prob l }
  | save => exact { hs with probSaved := hs.prob }
  | restore => exact { hs with prob := hs.probSaved }
  | topbOff => exact { hs with topb := pl (tp 0 hs.topb) }
  | topb _ b r y u v =>
    exact { hs with topb := pl ⟨wf_numbered y 0, wf_numbered u 0, wf_numbered v 0⟩ }
  | resize =>
    exact { hs with mbinfo := Memory.wfD_nil _, segmap := Memory.wfD_nil _, nzAbove := Memory.wfD_nil _,
                    lfp := List.Pairwise.nil, fb := empty_plane_wf,
                    topb := pl ⟨.nil, .nil, .nil⟩ }
  | ask => rw [s.askAllocator_eq]; exact { hs with }
  | reset =>
    exact { prob := .nil, probSaved := .nil, dq := .nil, mbinfo := Memory.wfD_nil _,
            segmap := Memory.wfD_nil _, nzAbove := Memory.wfD_nil _, coef := Memory.wfD_nil _, lfp := .nil,
            fb := empty_plane_wf, topb := pl ⟨.nil, .nil, .nil⟩, cbuf := hs.cbuf }
  | _ => exact { hs with }

/-! ## Reserved bits -/

theorem crRaw_reset (i : Nat) : State.reset.crRaw i = if i = 18 then 0x7777 else 0 := by
  unfold State.crRaw State.reset
  by_cases h : i = 18
  · subst h; rfl
  · rw [if_neg h]
    by_cases h2 : i < 44
    · simp [Ne.symm h, h2]
    · simp [h2]

theorem reset_clean (i : Nat) : State.reset.crRaw i &&& ~~~(crKeep i) = 0 := by
  rw [crRaw_reset]
  split
  · subst_vars; decide
  · exact BitVec.zero_and

theorem setCr_clean {i : Nat} {v : Word} (h : s.crRaw i &&& ~~~(crKeep i) = 0 → v &&& ~~~(crKeep i) = 0)
    (hs : s.CrClean) : (s.setCr i v).CrClean := by
  intro j
  by_cases hj : j = i
  · subst hj
    by_cases hj4 : j < 44
    · rw [s.crRaw_setCr _ _ _ hj4, if_pos rfl]; exact h (hs j)
    · have : (s.setCr j v).crRaw j = 0 := by
        unfold State.crRaw State.setCr
        simp [hj4]
      rw [this]; exact BitVec.zero_and
  · rw [s.crRaw_setCr_other v hj]; exact hs j

theorem Micro.crClean {a : Tag} (h : Micro a s t) (hs : s.CrClean) : t.CrClean := by
  cases h with
  | cr _ i v h => exact setCr_clean h hs
  | resize => exact setCr_clean (s := s) (i := 18) (v := 0x7777) (fun _ => by decide) hs
  | reset => exact reset_clean
  | ask => rw [s.askAllocator_eq]; exact hs
  | _ => exact hs

/-! ## Range decoders -/

theorem setRd_inv {k : Nat} {r : Rd} (h : r.valid = true → r.Inv) (hs : s.RdInv) : (s.setRd k r).RdInv := by
  intro j
  by_cases hj : j = k
  · subst hj
    by_cases hj9 : j < 9
    · rw [s.rdAt_setRd _ _ _ hj9, if_pos rfl]; exact h
    · have : (s.setRd j r).rdAt j = Rd.reset := by
        unfold State.rdAt State.setRd
        simp [hj9]
      rw [this]
      intro hv
      cases hv
  · rw [s.rdAt_setRd_other r hj]; exact hs j

theorem Micro.rdInv {a : Tag} (h : Micro a s t) (hs : s.RdInv) : t.RdInv := by
  cases h with
  | rd _ k r h =>
    exact setRd_inv (fun hv => h.inv (hs k (by rw [← h.buffer.valid]; exact hv))) hs
  | rdInit _ k base size => exact setRd_inv (fun _ => rdStart_inv _ _ _) hs
  | rdOff =>
    intro k hv
    have := s.rdValid_invalidateRd k
    rw [State.rdValid] at this
    rw [this] at hv
    cases hv
  | reset =>
    intro k hv
    have : (fcReset s).rdAt k = Rd.reset := by
      show (Vector.replicate 9 Rd.reset)[k]?.getD Rd.reset = Rd.reset
      by_cases hk : k < 9 <;> simp [hk]
    rw [this] at hv
    cases hv
  | ask => rw [s.askAllocator_eq]; exact hs
  | _ => exact hs

end Sys2Proof.Machine
end

