-- ==== Sys2Proof/Laws/PerInstr.lean ====
section
/-! SUPPORT. One lemma per command: its encoded word carries the fixed bits of its row of
`opcode_table.json` (spec 30_encoding.md R104). -/

namespace Sys2Proof

/-- The `mask` of a command's row. -/
def rowMask : Instr → Word
  | .rdInit _ => 0xFFFFFF00
  | .rdBool _ _ => 0xFF00FF00
  | .rdLit _ _ => 0xFF00FF00
  | .rdSlit _ _ => 0xFF00FF00
  | .rdTree _ _ _ => 0xFF000000
  | .mdSegid => 0xFFFFFFFF
  | .mdSkip => 0xFFFFFFFF
  | .mdYmodeKf => 0xFFFFFFFF
  | .mdYmodeIf => 0xFFFFFFFF
  | .mdBmodesKf => 0xFFFFFFFF
  | .mdBmodesIf => 0xFFFFFFFF
  | .mdUvmodeKf => 0xFFFFFFFF
  | .mdUvmodeIf => 0xFFFFFFFF
  | .mdRef => 0xFFFFFFFF
  | .mdMb => 0xFFFFFFFF
  | .mpNear => 0xFFFFFFFF
  | .mpMode => 0xFFFFFFFF
  | .mpReadmv => 0xFFFFFFFF
  | .mpSplit => 0xFFFFFFFF
  | .mpClamp => 0xFFFFFFFF
  | .mpMb => 0xFFFFFFFF
  | .cdBlock _ _ _ => 0xFF000000
  | .cdMb _ => 0xFFFFFF00
  | .cdSkipmb => 0xFFFFFFFF
  | .ipY16Dc => 0xFFFFFFFF
  | .ipY16V => 0xFFFFFFFF
  | .ipY16H => 0xFFFFFFFF
  | .ipY16Tm => 0xFFFFFFFF
  | .ipUv8Dc => 0xFFFFFFFF
  | .ipUv8V => 0xFFFFFFFF
  | .ipUv8H => 0xFFFFFFFF
  | .ipUv8Tm => 0xFFFFFFFF
  | .ipY4Dc _ => 0xFFFF00FF
  | .ipY4Tm _ => 0xFFFF00FF
  | .ipY4Ve _ => 0xFFFF00FF
  | .ipY4He _ => 0xFFFF00FF
  | .ipY4Ld _ => 0xFFFF00FF
  | .ipY4Rd _ => 0xFFFF00FF
  | .ipY4Vr _ => 0xFFFF00FF
  | .ipY4Vl _ => 0xFFFF00FF
  | .ipY4Hd _ => 0xFFFF00FF
  | .ipY4Hu _ => 0xFFFF00FF
  | .ipMb => 0xFFFFFFFF
  | .mcLuma _ => 0xFF00FFFF
  | .mcChroma _ _ => 0xFF0000FF
  | .mcMb => 0xFFFFFFFF
  | .itDqsetup _ => 0xFF00FFFF
  | .itWht => 0xFFFFFFFF
  | .itIdctAdd _ _ => 0xFF0000FF
  | .itMb => 0xFFFFFFFF
  | .lfParams => 0xFFFFFFFF
  | .lfMb => 0xFFFFFFFF
  | .lfRow => 0xFFFFFFFF
  | .lfsEdge _ _ => 0xFF0000FF
  | .lfnMbedge _ _ => 0xFF0000FF
  | .lfnInner _ _ => 0xFF0000FF
  | .fcReset => 0xFFFFFFFF
  | .fcSetmb => 0xFFFFFFFF
  | .fcNextmb => 0xFFFFFFFF
  | .fcRowstart => 0xFFFFFFFF
  | .fcRowend => 0xFFFFFFFF
  | .fcWrctl _ => 0xFF00FFFF
  | .fcRdctl _ => 0xFF00FFFF
  | .fcWrprob _ => 0xFFFFFF00
  | .fcRdprob _ => 0xFF00FFFF
  | .fcProbsave => 0xFFFFFFFF
  | .fcProbrestore => 0xFFFFFFFF
  | .fcHeader => 0xFFFFFFFF
  | .fcFramestart => 0xFFFFFFFF
  | .fcFrameend => 0xFFFFFFFF
  | .fcFrame => 0xFFFFFFFF
  | .fcWrarg _ => 0xFF00FFFF

/-- The `match` of a command's row. -/
def rowMatch : Instr → Word
  | .rdInit _ => 0x00000000
  | .rdBool _ _ => 0x01000000
  | .rdLit _ _ => 0x02000000
  | .rdSlit _ _ => 0x03000000
  | .rdTree _ _ _ => 0x04000000
  | .mdSegid => 0x10000000
  | .mdSkip => 0x11000000
  | .mdYmodeKf => 0x12000000
  | .mdYmodeIf => 0x13000000
  | .mdBmodesKf => 0x14000000
  | .mdBmodesIf => 0x15000000
  | .mdUvmodeKf => 0x16000000
  | .mdUvmodeIf => 0x17000000
  | .mdRef => 0x18000000
  | .mdMb => 0x1F000000
  | .mpNear => 0x20000000
  | .mpMode => 0x21000000
  | .mpReadmv => 0x22000000
  | .mpSplit => 0x23000000
  | .mpClamp => 0x24000000
  | .mpMb => 0x2F000000
  | .cdBlock _ _ _ => 0x30000000
  | .cdMb _ => 0x31000000
  | .cdSkipmb => 0x32000000
  | .ipY16Dc => 0x40000000
  | .ipY16V => 0x40010000
  | .ipY16H => 0x40020000
  | .ipY16Tm => 0x40030000
  | .ipUv8Dc => 0x41000000
  | .ipUv8V => 0x41010000
  | .ipUv8H => 0x41020000
  | .ipUv8Tm => 0x41030000
  | .ipY4Dc _ => 0x42000000
  | .ipY4Tm _ => 0x42010000
  | .ipY4Ve _ => 0x42020000
  | .ipY4He _ => 0x42030000
  | .ipY4Ld _ => 0x42040000
  | .ipY4Rd _ => 0x42050000
  | .ipY4Vr _ => 0x42060000
  | .ipY4Vl _ => 0x42070000
  | .ipY4Hd _ => 0x42080000
  | .ipY4Hu _ => 0x42090000
  | .ipMb => 0x4F000000
  | .mcLuma _ => 0x50000000
  | .mcChroma _ _ => 0x51000000
  | .mcMb => 0x5F000000
  | .itDqsetup _ => 0x60000000
  | .itWht => 0x61000000
  | .itIdctAdd _ _ => 0x62000000
  | .itMb => 0x6F000000
  | .lfParams => 0x70000000
  | .lfMb => 0x71000000
  | .lfRow => 0x72000000
  | .lfsEdge _ _ => 0x73000000
  | .lfnMbedge _ _ => 0x74000000
  | .lfnInner _ _ => 0x75000000
  | .fcReset => 0x80000000
  | .fcSetmb => 0x81000000
  | .fcNextmb => 0x82000000
  | .fcRowstart => 0x83000000
  | .fcRowend => 0x84000000
  | .fcWrctl _ => 0x85000000
  | .fcRdctl _ => 0x86000000
  | .fcWrprob _ => 0x87000000
  | .fcRdprob _ => 0x88000000
  | .fcProbsave => 0x89000000
  | .fcProbrestore => 0x8A000000
  | .fcHeader => 0x8B000000
  | .fcFramestart => 0x8C000000
  | .fcFrameend => 0x8D000000
  | .fcFrame => 0x8E000000
  | .fcWrarg _ => 0x8F000000

theorem packWord_and (o a b c o' a' b' c' : Byte) :
    packWord o a b c &&& packWord o' a' b' c' = packWord (o &&& o') (a &&& a') (b &&& b') (c &&& c') := by
  apply BitVec.eq_of_getLsbD_eq
  intro i hi
  simp only [packWord, BitVec.getLsbD_and, BitVec.getLsbD_append]
  split
  · rfl
  · split
    · rfl
    · split <;> rfl

end Sys2Proof

namespace Sys2Proof.Laws.TableRow

/-- The encoded word carries the fixed bits of the row. -/
def Statement (i : Instr) : Prop := encode i &&& rowMask i = rowMatch i

theorem rdInit : ∀ k, Statement (.rdInit k) := fun _ =>
  (packWord_and _ _ _ _ 255 255 255 0).trans (by simp only [BitVec.ofNat_eq_ofNat, BitVec.and_zero]; rfl)

theorem rdBool : ∀ p k, Statement (.rdBool p k) := fun _ _ =>
  (packWord_and _ _ _ _ 255 0 255 0).trans (by simp only [BitVec.ofNat_eq_ofNat, BitVec.and_zero]; rfl)

theorem rdLit : ∀ n k, Statement (.rdLit n k) := fun _ _ =>
  (packWord_and _ _ _ _ 255 0 255 0).trans (by simp only [BitVec.ofNat_eq_ofNat, BitVec.and_zero]; rfl)

theorem rdSlit : ∀ n k, Statement (.rdSlit n k) := fun _ _ =>
  (packWord_and _ _ _ _ 255 0 255 0).trans (by simp only [BitVec.ofNat_eq_ofNat, BitVec.and_zero]; rfl)

theorem rdTree : ∀ tree start k, Statement (.rdTree tree start k) := fun _ _ _ =>
  (packWord_and _ _ _ _ 255 0 0 0).trans (by simp only [BitVec.ofNat_eq_ofNat, BitVec.and_zero]; rfl)

theorem mdSegid : Statement .mdSegid := by unfold Statement; decide

theorem mdSkip : Statement .mdSkip := by unfold Statement; decide

theorem mdYmodeKf : Statement .mdYmodeKf := by unfold Statement; decide

theorem mdYmodeIf : Statement .mdYmodeIf := by unfold Statement; decide

theorem mdBmodesKf : Statement .mdBmodesKf := by unfold Statement; decide

theorem mdBmodesIf : Statement .mdBmodesIf := by unfold Statement; decide

theorem mdUvmodeKf : Statement .mdUvmodeKf := by unfold Statement; decide

theorem mdUvmodeIf : Statement .mdUvmodeIf := by unfold Statement; decide

theorem mdRef : Statement .mdRef := by unfold Statement; decide

theorem mdMb : Statement .mdMb := by unfold Statement; decide

theorem mpNear : Statement .mpNear := by unfold Statement; decide

theorem mpMode : Statement .mpMode := by unfold Statement; decide

theorem mpReadmv : Statement .mpReadmv := by unfold Statement; decide

theorem mpSplit : Statement .mpSplit := by unfold Statement; decide

theorem mpClamp : Statement .mpClamp := by unfold Statement; decide

theorem mpMb : Statement .mpMb := by unfold Statement; decide

theorem cdBlock : ∀ type block k, Statement (.cdBlock type block k) := fun _ _ _ =>
  (packWord_and _ _ _ _ 255 0 0 0).trans (by simp only [BitVec.ofNat_eq_ofNat, BitVec.and_zero]; rfl)

theorem cdMb : ∀ k, Statement (.cdMb k) := fun _ =>
  (packWord_and _ _ _ _ 255 255 255 0).trans (by simp only [BitVec.ofNat_eq_ofNat, BitVec.and_zero]; rfl)

theorem cdSkipmb : Statement .cdSkipmb := by unfold Statement; decide

theorem ipY16Dc : Statement .ipY16Dc := by unfold Statement; decide

theorem ipY16V : Statement .ipY16V := by unfold Statement; decide

theorem ipY16H : Statement .ipY16H := by unfold Statement; decide

theorem ipY16Tm : Statement .ipY16Tm := by unfold Statement; decide

theorem ipUv8Dc : Statement .ipUv8Dc := by unfold Statement; decide

theorem ipUv8V : Statement .ipUv8V := by unfold Statement; decide

theorem ipUv8H : Statement .ipUv8H := by unfold Statement; decide

theorem ipUv8Tm : Statement .ipUv8Tm := by unfold Statement; decide

theorem ipY4Dc : ∀ block, Statement (.ipY4Dc block) := fun _ =>
  (packWord_and _ _ _ _ 255 255 0 255).trans (by simp only [BitVec.ofNat_eq_ofNat, BitVec.and_zero]; rfl)

theorem ipY4Tm : ∀ block, Statement (.ipY4Tm block) := fun _ =>
  (packWord_and _ _ _ _ 255 255 0 255).trans (by simp only [BitVec.ofNat_eq_ofNat, BitVec.and_zero]; rfl)

theorem ipY4Ve : ∀ block, Statement (.ipY4Ve block) := fun _ =>
  (packWord_and _ _ _ _ 255 255 0 255).trans (by simp only [BitVec.ofNat_eq_ofNat, BitVec.and_zero]; rfl)

theorem ipY4He : ∀ block, Statement (.ipY4He block) := fun _ =>
  (packWord_and _ _ _ _ 255 255 0 255).trans (by simp only [BitVec.ofNat_eq_ofNat, BitVec.and_zero]; rfl)

theorem ipY4Ld : ∀ block, Statement (.ipY4Ld block) := fun _ =>
  (packWord_and _ _ _ _ 255 255 0 255).trans (by simp only [BitVec.ofNat_eq_ofNat, BitVec.and_zero]; rfl)

theorem ipY4Rd : ∀ block, Statement (.ipY4Rd block) := fun _ =>
  (packWord_and _ _ _ _ 255 255 0 255).trans (by simp only [BitVec.ofNat_eq_ofNat, BitVec.and_zero]; rfl)

theorem ipY4Vr : ∀ block, Statement (.ipY4Vr block) := fun _ =>
  (packWord_and _ _ _ _ 255 255 0 255).trans (by simp only [BitVec.ofNat_eq_ofNat, BitVec.and_zero]; rfl)

theorem ipY4Vl : ∀ block, Statement (.ipY4Vl block) := fun _ =>
  (packWord_and _ _ _ _ 255 255 0 255).trans (by simp only [BitVec.ofNat_eq_ofNat, BitVec.and_zero]; rfl)

theorem ipY4Hd : ∀ block, Statement (.ipY4Hd block) := fun _ =>
  (packWord_and _ _ _ _ 255 255 0 255).trans (by simp only [BitVec.ofNat_eq_ofNat, BitVec.and_zero]; rfl)

theorem ipY4Hu : ∀ block, Statement (.ipY4Hu block) := fun _ =>
  (packWord_and _ _ _ _ 255 255 0 255).trans (by simp only [BitVec.ofNat_eq_ofNat, BitVec.and_zero]; rfl)

theorem ipMb : Statement .ipMb := by unfold Statement; decide

theorem mcLuma : ∀ ref, Statement (.mcLuma ref) := fun _ =>
  (packWord_and _ _ _ _ 255 0 255 255).trans (by simp only [BitVec.ofNat_eq_ofNat, BitVec.and_zero]; rfl)

theorem mcChroma : ∀ ref plane, Statement (.mcChroma ref plane) := fun _ _ =>
  (packWord_and _ _ _ _ 255 0 0 255).trans (by simp only [BitVec.ofNat_eq_ofNat, BitVec.and_zero]; rfl)

theorem mcMb : Statement .mcMb := by unfold Statement; decide

theorem itDqsetup : ∀ segment, Statement (.itDqsetup segment) := fun _ =>
  (packWord_and _ _ _ _ 255 0 255 255).trans (by simp only [BitVec.ofNat_eq_ofNat, BitVec.and_zero]; rfl)

theorem itWht : Statement .itWht := by unfold Statement; decide

theorem itIdctAdd : ∀ plane block, Statement (.itIdctAdd plane block) := fun _ _ =>
  (packWord_and _ _ _ _ 255 0 0 255).trans (by simp only [BitVec.ofNat_eq_ofNat, BitVec.and_zero]; rfl)

theorem itMb : Statement .itMb := by unfold Statement; decide

theorem lfParams : Statement .lfParams := by unfold Statement; decide

theorem lfMb : Statement .lfMb := by unfold Statement; decide

theorem lfRow : Statement .lfRow := by unfold Statement; decide

theorem lfsEdge : ∀ plane dir, Statement (.lfsEdge plane dir) := fun _ _ =>
  (packWord_and _ _ _ _ 255 0 0 255).trans (by simp only [BitVec.ofNat_eq_ofNat, BitVec.and_zero]; rfl)

theorem lfnMbedge : ∀ plane dir, Statement (.lfnMbedge plane dir) := fun _ _ =>
  (packWord_and _ _ _ _ 255 0 0 255).trans (by simp only [BitVec.ofNat_eq_ofNat, BitVec.and_zero]; rfl)

theorem lfnInner : ∀ plane dir, Statement (.lfnInner plane dir) := fun _ _ =>
  (packWord_and _ _ _ _ 255 0 0 255).trans (by simp only [BitVec.ofNat_eq_ofNat, BitVec.and_zero]; rfl)

theorem fcReset : Statement .fcReset := by unfold Statement; decide

theorem fcSetmb : Statement .fcSetmb := by unfold Statement; decide

theorem fcNextmb : Statement .fcNextmb := by unfold Statement; decide

theorem fcRowstart : Statement .fcRowstart := by unfold Statement; decide

theorem fcRowend : Statement .fcRowend := by unfold Statement; decide

theorem fcWrctl : ∀ reg, Statement (.fcWrctl reg) := fun _ =>
  (packWord_and _ _ _ _ 255 0 255 255).trans (by simp only [BitVec.ofNat_eq_ofNat, BitVec.and_zero]; rfl)

theorem fcRdctl : ∀ reg, Statement (.fcRdctl reg) := fun _ =>
  (packWord_and _ _ _ _ 255 0 255 255).trans (by simp only [BitVec.ofNat_eq_ofNat, BitVec.and_zero]; rfl)

theorem fcWrprob : ∀ value, Statement (.fcWrprob value) := fun _ =>
  (packWord_and _ _ _ _ 255 255 255 0).trans (by simp only [BitVec.ofNat_eq_ofNat, BitVec.and_zero]; rfl)

theorem fcRdprob : ∀ copy, Statement (.fcRdprob copy) := fun _ =>
  (packWord_and _ _ _ _ 255 0 255 255).trans (by simp only [BitVec.ofNat_eq_ofNat, BitVec.and_zero]; rfl)

theorem fcProbsave : Statement .fcProbsave := by unfold Statement; decide

theorem fcProbrestore : Statement .fcProbrestore := by unfold Statement; decide

theorem fcHeader : Statement .fcHeader := by unfold Statement; decide

theorem fcFramestart : Statement .fcFramestart := by unfold Statement; decide

theorem fcFrameend : Statement .fcFrameend := by unfold Statement; decide

theorem fcFrame : Statement .fcFrame := by unfold Statement; decide

theorem fcWrarg : ∀ index, Statement (.fcWrarg index) := fun _ =>
  (packWord_and _ _ _ _ 255 0 255 255).trans (by simp only [BitVec.ofNat_eq_ofNat, BitVec.and_zero]; rfl)

end Sys2Proof.Laws.TableRow
end

