-- ==== Sys2Proof/Laws/Response.lean ====
section
/-! SUPPORT. No work of a command reads the response to the command before it (spec 30_encoding.md R100):
each answers the same from states that differ in the response alone. So a composite command is the sequence
of its commands, each of which leaves a response of its own. -/

namespace Sys2Proof.Machine

variable {α β : Type}

/-- The state with another response. -/
def State.respond (s : State) (x : Response) : State := { s with response := x }

@[simp] theorem State.respond_response (s : State) (x : Response) : (s.respond x).response = x := rfl

@[simp] theorem State.respond_respond (s : State) (x y : Response) : (s.respond x).respond y = s.respond y := rfl

@[simp] theorem State.respond_self (s : State) : s.respond s.response = s := rfl

/-- A result with another response in its state. -/
def Res.respond (r : Res State) (x : Response) : Res State := r.map fun t => t.respond x

/-- The same of a result with a value beside the state. -/
def Res.respond2 (r : Res (α × State)) (x : Response) : Res (α × State) := r.map fun p => (p.1, p.2.respond x)

/-- The work does not read the response. -/
def Blind (f : State → Res State) : Prop := ∀ s x, f (s.respond x) = (f s).respond x

/-- The same of a work with a value beside its state. -/
def Blind2 (f : State → Res (α × State)) : Prop := ∀ s x, f (s.respond x) = (f s).respond2 x

theorem Res.respond_ok (s : State) (x : Response) : Res.respond (.ok s) x = .ok (s.respond x) := rfl
theorem Res.respond2_ok (a : α) (s : State) (x : Response) : Res.respond2 (.ok (a, s)) x = .ok (a, s.respond x) := rfl

theorem Res.bind_respond (r : Res β) (f : β → Res State) (x : Response) :
    (r >>= f).respond x = r >>= fun b => (f b).respond x := by cases r <;> rfl

theorem Res.bind_respond2 (r : Res β) (f : β → Res (α × State)) (x : Response) :
    (r >>= f).respond2 x = r >>= fun b => (f b).respond2 x := by cases r <;> rfl

theorem Res.respond_bind (r : Res State) (f : State → Res β) (x : Response) :
    (r.respond x >>= f) = r >>= fun t => f (t.respond x) := by cases r <;> rfl

theorem Res.respond2_bind (r : Res (α × State)) (f : α × State → Res β) (x : Response) :
    (r.respond2 x >>= f) = r >>= fun p => f (p.1, p.2.respond x) := by cases r <;> rfl

theorem Res.ite_respond (c : Prop) [Decidable c] (a b : Res State) (x : Response) :
    (if c then a else b).respond x = if c then a.respond x else b.respond x := by split <;> rfl

theorem Res.ite_respond2 (c : Prop) [Decidable c] (a b : Res (α × State)) (x : Response) :
    (if c then a else b).respond2 x = if c then a.respond2 x else b.respond2 x := by split <;> rfl

theorem Blind.foldlM {f : State → α → Res State} (hf : ∀ a, Blind fun s => f s a) (l : List α) (s : State)
    (x : Response) : l.foldlM f (s.respond x) = (l.foldlM f s).respond x := by
  induction l generalizing s with
  | nil => rfl
  | cons a l ih =>
    rw [List.foldlM_cons, List.foldlM_cons, Res.bind_respond, show f (s.respond x) a = _ from hf a s x,
      Res.respond_bind]
    exact congrArg _ (funext fun t => ih t)

@[simp] theorem setRes_respond (s : State) (x : Response) (i : Nat) (v : Word) :
    (s.respond x).setRes i v = (s.setRes i v).respond x := rfl

/-! ## Range decoder -/

@[simp] theorem probs_respond (s : State) (x : Response) : (s.respond x).probs = s.probs := rfl
@[simp] theorem cur_respond (s : State) (x : Response) : (s.respond x).cur = s.cur := rfl
@[simp] theorem crBit_respond (s : State) (x : Response) : (s.respond x).crBit = s.crBit := rfl

theorem getTree_respond (s : State) (x : Response) (k : Nat) (T : List Int) (P : Nat → Res Byte) (start : Nat) :
    (s.respond x).getTree k T P start = (s.getTree k T P start).respond2 x := by
  unfold State.getTree
  show (readTree s.cbuf T P start (s.rdAt k) >>= _) = _
  cases readTree s.cbuf T P start (s.rdAt k) <;> rfl

theorem getBoolAt_respond (s : State) (x : Response) (k : Nat) (p : Res Byte) :
    (s.respond x).getBoolAt k p = (s.getBoolAt k p).respond2 x := by cases p <;> rfl

/-! ## Mode decoder -/

theorem blind_readSegid : Blind readSegid := by
  intro s x
  simp only [readSegid, crBit_respond, probs_respond, getTree_respond, Res.ite_respond, Res.bind_respond, Res.respond2_bind]
  rfl

theorem blind_mdSegid : Blind mdSegid := by
  intro s x
  simp only [mdSegid, blind_readSegid s x, Res.bind_respond, Res.respond_bind]
  rfl

theorem blind_readSkip : Blind2 readSkip := by
  intro s x
  simp only [readSkip, crBit_respond, probs_respond, getBoolAt_respond, Res.ite_respond2]
  rfl

theorem blind_mdSkip : Blind mdSkip := by
  intro s x
  simp only [mdSkip, blind_readSkip s x, Res.bind_respond, Res.respond2_bind]
  rfl

theorem blind_mdYmodeKf : Blind mdYmodeKf := by
  intro s x
  simp only [mdYmodeKf, getTree_respond, Res.bind_respond, Res.respond2_bind]
  rfl

theorem blind_mdYmodeIf : Blind mdYmodeIf := by
  intro s x
  simp only [mdYmodeIf, getTree_respond, probs_respond, Res.bind_respond, Res.respond2_bind]
  rfl

theorem blind_bmodeStep {P : State → Nat → Nat → Res Byte} (hP : ∀ s x, P (s.respond x) = P s) (b : Nat) :
    Blind fun s => bmodeStep P s b := by
  intro s x
  simp only [bmodeStep, hP, getTree_respond, Res.bind_respond, Res.respond2_bind]
  rfl

theorem blind_mdBmodesKf (T : OpenTables) : Blind (mdBmodesKf T) := fun s x =>
  Blind.foldlM (fun b => blind_bmodeStep (fun _ _ => rfl) b) _ s x

theorem blind_mdBmodesIf : Blind mdBmodesIf := fun s x =>
  Blind.foldlM (fun b => blind_bmodeStep (fun _ _ => rfl) b) _ s x

theorem blind_mdUvmode {P : Nat → Res Byte} : Blind (mdUvmode P) := by
  intro s x
  simp only [mdUvmode, getTree_respond, Res.bind_respond, Res.respond2_bind]
  rfl

theorem blind_readRef : Blind2 State.readRef := by
  intro s x
  simp only [State.readRef, probs_respond, getBoolAt_respond, Res.bind_respond2, Res.respond2_bind, Res.ite_respond2]
  rfl

theorem blind_mdRef : Blind mdRef := by
  intro s x
  simp only [mdRef, blind_readRef s x, Res.bind_respond, Res.respond2_bind]
  rfl

/-! ## Motion predictor -/

theorem candOf_respond (s : State) (x : Response) :
    (s.respond x).candOf (s.respond x).searchBins = s.candOf s.searchBins := by
  simp only [State.candOf, State.searchBins, State.clampMv, State.biasedMv, State.bias, crBit_respond]
  rfl

theorem cand_respond (s : State) (x : Response) (c : Cand) :
    { s.respond x with cand := c } = State.respond { s with cand := c } x := rfl

theorem withCand_respond (s : State) (x : Response) (c : Cand) (v0 v1 v2 v3 : Word) :
    (((({ s.respond x with cand := c }).setRes 0 v0).setRes 1 v1).setRes 2 v2).setRes 3 v3 =
      ((((({ s with cand := c }).setRes 0 v0).setRes 1 v1).setRes 2 v2).setRes 3 v3).respond x := by
  rw [cand_respond]
  generalize ({ s with cand := c } : State) = u
  rw [setRes_respond, setRes_respond, setRes_respond, setRes_respond]

theorem mpNear_respond (s : State) (x : Response) : mpNear (s.respond x) = (mpNear s).respond x := by
  have h := candOf_respond s x
  unfold mpNear
  generalize (s.respond x).candOf (s.respond x).searchBins = c at h ⊢
  subst h
  exact withCand_respond s x _ _ _ _ _

theorem blind_mpMode : Blind mpMode := by
  intro s x
  simp only [mpMode, getTree_respond, Res.bind_respond, Res.respond2_bind]
  rfl

theorem blind_mvBits (p : Nat → Res Byte) (l : List Nat) (a : Nat) : Blind2 fun s => s.mvBits p l a := by
  induction l generalizing a with
  | nil => intro s x; rfl
  | cons i l ih =>
    intro s x
    show (s.respond x).mvBits p (i :: l) a = (s.mvBits p (i :: l) a).respond2 x
    simp only [State.mvBits, getBoolAt_respond, Res.bind_respond2, Res.respond2_bind]
    exact congrArg _ (funext fun q => ih _ q.2 x)

theorem blind_mvLong (p : Nat → Res Byte) : Blind2 fun s => s.mvLong p := by
  intro s x
  simp only [State.mvLong, show (s.respond x).mvBits p _ _ = _ from blind_mvBits p _ _ s x, getBoolAt_respond,
    Res.bind_respond2, Res.respond2_bind, Res.ite_respond2]
  rfl

theorem blind_mvMagnitude (p : Nat → Res Byte) : Blind2 fun s => s.mvMagnitude p := by
  intro s x
  simp only [State.mvMagnitude, getBoolAt_respond, getTree_respond, Res.bind_respond2, Res.respond2_bind,
    Res.ite_respond2, show ∀ t : State, (t.respond x).mvLong p = _ from fun t => blind_mvLong p t x]

theorem blind_mvComponent (p : Nat → Res Byte) : Blind2 fun s => s.mvComponent p := by
  intro s x
  simp only [State.mvComponent, show (s.respond x).mvMagnitude p = _ from blind_mvMagnitude p s x,
    getBoolAt_respond, Res.bind_respond2, Res.respond2_bind, Res.ite_respond2]
  rfl

theorem blind_readMv : Blind2 State.readMv := by
  intro s x
  simp only [State.readMv, probs_respond, Res.bind_respond2,
    show ∀ (t : State) p, (t.respond x).mvComponent p = _ from fun t p => blind_mvComponent p t x, Res.respond2_bind]
  rfl

theorem blind_mpReadmv : Blind mpReadmv := by
  intro s x
  simp only [mpReadmv, blind_readMv s x, Res.bind_respond, Res.respond2_bind]
  rfl

theorem blind_readSub (l a : Mv) : Blind2 fun s => s.readSub l a := by
  intro s x
  simp only [State.readSub, getTree_respond, Res.bind_respond2, Res.respond2_bind, Res.ite_respond2,
    blind_readMv _ x]
  rfl

theorem blind_splitStep (shape : Nat) (p : Nat × Nat) : Blind fun s => splitStep shape s p := by
  intro s x
  simp only [splitStep, show ∀ l a, (s.respond x).readSub l a = _ from fun l a => blind_readSub l a s x,
    Res.bind_respond, Res.respond2_bind]
  rfl

theorem blind_mpSplit : Blind mpSplit := by
  intro s x
  simp only [mpSplit, getTree_respond, Res.bind_respond, Res.respond2_bind]
  refine congrArg _ (funext fun q => ?_)
  have h (t : State) (l : List (Nat × Nat)) : l.foldlM (splitStep q.1) (t.respond x) = _ :=
    Blind.foldlM (blind_splitStep q.1) l t x
  exact (congrArg (· >>= _) (h (q.2.setCur { q.2.cur with split := SplitShape.ofNum q.1 }) _)).trans
    (Res.respond_bind _ _ x)

theorem blind_mpVector : Blind mpVector := by
  intro s x
  unfold mpVector
  rw [cur_respond]
  cases s.cur.mode
  case new =>
    simp only [blind_readMv s x, Res.bind_respond, Res.respond2_bind]
    rfl
  case split => exact blind_mpSplit s x
  all_goals rfl

theorem blind_mpMb : Blind mpMb := by
  intro s x
  simp only [mpMb, mpNear_respond, blind_mpMode _ x, blind_mpVector _ x, Res.bind_respond, Res.respond_bind]
  rfl

/-! ## The macroblock's record -/

theorem blind_mdSubKf (T : OpenTables) : Blind (mdSubKf T) := by
  intro s x
  simp only [mdSubKf, cur_respond, blind_mdBmodesKf T s x, Res.ite_respond]
  rfl

theorem blind_mdIntraKf (T : OpenTables) : Blind (mdIntraKf T) := by
  intro s x
  simp only [mdIntraKf, mdUvmodeKf, blind_mdYmodeKf s x, blind_mdSubKf T _ x, blind_mdUvmode _ x, Res.bind_respond,
    Res.respond_bind]

theorem blind_mdSubIf : Blind mdSubIf := by
  intro s x
  simp only [mdSubIf, cur_respond, blind_mdBmodesIf s x, Res.ite_respond]
  rfl

theorem blind_mdIntraIf : Blind mdIntraIf := by
  intro s x
  simp only [mdIntraIf, mdUvmodeIf, blind_mdYmodeIf s x, blind_mdSubIf _ x, blind_mdUvmode _ x, probs_respond,
    Res.bind_respond, Res.respond_bind]

theorem blind_mdInterframe : Blind mdInterframe := by
  intro s x
  simp only [mdInterframe, blind_mdRef s x, cur_respond, blind_mdIntraIf _ x, blind_mpMb _ x, Res.bind_respond,
    Res.respond_bind, Res.ite_respond]

theorem blind_mdMb (T : OpenTables) : Blind (mdMb T) := by
  intro s x
  simp only [mdMb, mdModes, blind_mdSegid s x, blind_mdSkip _ x, crBit_respond, blind_mdIntraKf T _ x,
    blind_mdInterframe _ x, Res.bind_respond, Res.respond_bind, ← Res.ite_respond]
  rfl

/-! ## Coefficient decoder -/

theorem getBool_respond (s : State) (x : Response) (k : Nat) (p : Byte) :
    (s.respond x).getBool k p = ((s.getBool k p).1, (s.getBool k p).2.respond x) := rfl

theorem extraBits_respond (k : Nat) (l : List Byte) (e : Nat) (s : State) (x : Response) :
    (s.respond x).extraBits k l e = ((s.extraBits k l e).1, (s.extraBits k l e).2.respond x) := by
  induction l generalizing e s with
  | nil => rfl
  | cons q l ih => exact ih (2 * e + boolNat (s.getBool k q).1) (s.getBool k q).2

theorem tokenMagnitude_respond (k tok : Nat) (s : State) (x : Response) :
    (s.respond x).tokenMagnitude k tok = ((s.tokenMagnitude k tok).1, (s.tokenMagnitude k tok).2.respond x) := by
  unfold State.tokenMagnitude
  split
  · rfl
  · rw [extraBits_respond]

theorem blind_storeToken (ty b k i tok : Nat) : Blind2 fun s => s.storeToken ty b k i tok := by
  intro s x
  simp only [State.storeToken, tokenMagnitude_respond, getBool_respond, Res.bind_respond2]
  rfl

theorem blind_cdLoop (ty b k n i ctx start : Nat) : Blind2 fun s => cdLoop ty b k n s i ctx start := by
  induction n generalizing i ctx start with
  | zero => intro s x; rfl
  | succ n ih =>
    intro s x
    simp only [cdLoop, probs_respond, getTree_respond, Res.ite_respond2, Res.bind_respond2, Res.respond2_bind,
      show ∀ (t : State) i c st, cdLoop ty b k n (t.respond x) i c st = _ from fun t i c st => ih i c st t x,
      show ∀ (t : State) tok, (t.respond x).storeToken ty b k i tok = _ from fun t tok => blind_storeToken ty b k i tok t x]
    rfl

theorem blind_cdBlock (ty b k : Nat) : Blind (cdBlock ty b k) := by
  intro s x
  simp only [cdBlock, cdTokens, Res.bind_respond,
    show ∀ i c st, cdLoop ty b k 16 (s.respond x) i c st = _ from fun i c st => blind_cdLoop ty b k 16 i c st s x,
    Res.respond2_bind, bind_assoc]
  rfl

theorem cdSkipmb_respond (s : State) (x : Response) : cdSkipmb (s.respond x) = (cdSkipmb s).respond x := rfl

theorem blind_cdMbFold (k : Nat) (l : List (Nat × Nat)) (a : Bool) (s : State) (x : Response) :
    l.foldlM (cdMbStep k) (a, s.respond x) = Res.respond2 (l.foldlM (cdMbStep k) (a, s)) x := by
  induction l generalizing a s with
  | nil => rfl
  | cons e l ih =>
    simp only [List.foldlM_cons, Res.bind_respond2, cdMbStep, blind_cdBlock e.1 e.2 k s x, bind_assoc,
      Res.respond_bind, Res.ok_bind]
    exact congrArg _ (funext fun t => ih _ t)

theorem blind_cdMb (k : Nat) : Blind (cdMb k) := by
  intro s x
  have h := blind_cdMbFold k (mbBlocks (hasY2 s.cur.mode)) false s.clearCoef x
  simp only [cdMb, Res.bind_respond]
  show (List.foldlM (cdMbStep k) (false, s.clearCoef.respond x) (mbBlocks (hasY2 s.cur.mode)) >>= _) = _
  rw [h, Res.respond2_bind]
  refine congrArg _ (funext fun q => ?_)
  obtain ⟨a, t⟩ := q
  cases a <;> rfl

/-! ## Pixels -/

theorem blind_itIdctAdd (slot p b : Nat) : Blind (itIdctAdd slot p b) := by
  intro s x
  simp only [itIdctAdd, Res.bind_respond]
  rfl

theorem itWht_respond (s : State) (x : Response) : itWht (s.respond x) = (itWht s).respond x := rfl

theorem blind_itMb (slot : Nat) : Blind (itMb slot) := by
  intro s x
  have h (t : State) (l : List (Nat × Nat)) :
      l.foldlM (fun u pb => itIdctAdd slot pb.1 pb.2 u) (t.respond x) = _ :=
    Blind.foldlM (fun pb => blind_itIdctAdd slot pb.1 pb.2) l t x
  unfold itMb
  rw [cur_respond]
  by_cases c : hasY2 s.cur.mode = true
  · simp only [c, if_true, itWht_respond]
    exact h (itWht s) _
  · simp only [c]
    exact h s _

theorem blind_ipFill (m : UvMode) (slot p : Nat) : Blind (ipFill m slot p) := by
  intro s x
  simp only [ipFill, Res.bind_respond]
  cases m <;> rfl

theorem blind_ipUv8 (m : UvMode) (slot : Nat) : Blind (ipUv8 m slot) := by
  intro s x
  simp only [ipUv8, blind_ipFill _ _ _ _ x, Res.bind_respond, Res.respond_bind]

theorem blind_ipY4 (m : BMode) (slot b : Nat) : Blind (ipY4 m slot b) := by
  intro s x
  simp only [ipY4, Res.bind_respond]
  cases m <;> rfl

theorem blind_ipSubStep (slot b : Nat) : Blind fun s => ipSubStep slot s b := by
  intro s x
  simp only [ipSubStep, cur_respond, blind_ipY4 _ _ _ _ x, blind_itIdctAdd _ _ _ _ x, Res.bind_respond, Res.respond_bind]

theorem blind_ipMb (slot : Nat) : Blind (ipMb slot) := by
  have h : Blind (ipLuma slot) := by
    intro s x
    unfold ipLuma
    rw [cur_respond]
    cases s.cur.mode
    case bPred => exact Blind.foldlM (blind_ipSubStep slot) _ s x
    case dcPred | vPred | hPred | tmPred => exact blind_ipFill _ slot 0 s x
    all_goals rfl
  intro s x
  simp only [ipMb, h s x, cur_respond, blind_ipUv8 _ _ _ x, Res.bind_respond, Res.respond_bind]

theorem blind_mcBlock (src dst p : Nat) (at_ : SubPos) (b : Block) : Blind (mcBlock src dst p at_ b) := by
  intro s x
  simp only [mcBlock, Res.bind_respond]
  rfl

theorem blind_mcSplitChroma (src dst j : Nat) : Blind fun s => mcSplitChroma src dst s j := by
  intro s x
  simp only [mcSplitChroma, mcChroma, blind_mcBlock _ _ _ _ _ _ x, Res.bind_respond, Res.respond_bind]
  rfl

theorem blind_mcMb (src dst : Nat) : Blind (mcMb src dst) := by
  intro s x
  unfold mcMb
  rw [cur_respond, Res.ite_respond, Res.bind_respond]
  refine if_congr Iff.rfl ?_ ?_
  · rw [Blind.foldlM (f := mcSplitLuma src dst) (fun e s x => blind_mcBlock _ _ _ _ _ s x), Res.respond_bind]
    exact congrArg _ (funext fun t => Blind.foldlM (blind_mcSplitChroma src dst) _ t x)
  · simp only [mcWhole, mcLuma, mcChroma, blind_mcBlock _ _ _ _ _ _ x, Res.bind_respond, Res.respond_bind]
    rfl

/-! ## Loop filter and frame -/

theorem lfParams_respond (s : State) (x : Response) : lfParams (s.respond x) = (lfParams s).respond x := rfl

theorem blind_edgeStep (slot : Nat) (e : Edge) (k : Nat) : Blind fun s => edgeStep slot e s k := by
  intro s x
  simp only [edgeStep, Res.bind_respond]
  rfl

theorem blind_lfEdge (slot : Nat) (e : Edge) : Blind fun s => lfEdge slot s e := fun s x =>
  Blind.foldlM (blind_edgeStep slot e) _ s x

theorem blind_lfMbAt (slot my mx : Nat) : Blind fun s => lfMbAt slot my s mx := by
  intro s x
  simp only [lfMbAt, Res.bind_respond, Res.ite_respond, crBit_respond, Blind.foldlM (blind_lfEdge slot)]
  rfl

theorem blind_lfRow (slot : Nat) : Blind (lfRow slot) := fun s x => Blind.foldlM (blind_lfMbAt slot s.mby) _ s x

theorem blind_fcRowend (slot : Nat) : Blind (fcRowend slot) := by
  intro s x
  simp only [fcRowend, Res.bind_respond]
  rfl

theorem fcNextmb_respond (s : State) (x : Response) : fcNextmb (s.respond x) = (fcNextmb s).respond x := rfl
theorem fcRowstart_respond (s : State) (x : Response) : fcRowstart (s.respond x) = (fcRowstart s).respond x := rfl
theorem fcFramestart_respond (s : State) (x : Response) : fcFramestart (s.respond x) = (fcFramestart s).respond x := rfl

end Sys2Proof.Machine
end

