-- ==== Sys2Proof/Laws/Sequence.lean ====
section
/-! SUPPORT. The work of a command whose checks hold raises no error, so a composite command is the sequence
of its commands (spec 30_encoding.md R104): what one leaves, the next begins with. -/

namespace Sys2Proof.Machine

variable {α β : Type}

/-- The work ends with a value or with a model fault. -/
def Quiet (r : Res α) : Prop := ∀ c, r ≠ .error (.raise c)

theorem Quiet.ok (a : α) : Quiet (.ok a : Res α) := fun _ h => by cases h

theorem Quiet.need (o : Option α) (f : Fault) : Quiet (need o f) := by
  intro c h; cases o <;> cases h

theorem Quiet.bind {r : Res α} {f : α → Res β} (hr : Quiet r) (hf : ∀ a, Quiet (f a)) : Quiet (r >>= f) := by
  intro c h
  rcases Res.bind_error.1 h with h | ⟨a, -, h⟩
  · exact hr c h
  · exact hf a c h

theorem Quiet.ite {p : Prop} [Decidable p] {a b : Res α} (ha : Quiet a) (hb : Quiet b) : Quiet (if p then a else b) := by
  split <;> assumption

theorem Quiet.foldlM {f : β → α → Res β} (hf : ∀ s a, Quiet (f s a)) (l : List α) (s : β) : Quiet (l.foldlM f s) := by
  induction l generalizing s with
  | nil => exact .ok s
  | cons a l ih => rw [List.foldlM_cons]; exact (hf s a).bind ih

theorem Quiet.probs (s : State) (base i : Nat) : Quiet (s.probs base i) := .need _ _

theorem Quiet.readTree (cbuf : Memory Byte) (T : List Int) {P : Nat → Res Byte} (hP : ∀ i, Quiet (P i)) (start : Nat)
    (r : Rd) : Quiet (readTree cbuf T P start r) := by
  have : ∀ n i r, Quiet (readTreeFrom cbuf T P n i r) := by
    intro n
    induction n with
    | zero => exact fun i r => .ok _
    | succ n ih => exact fun i r => (hP _).bind fun p => .ite (.ok _) (ih _ _)
  exact this _ _ _

theorem Quiet.getTree (s : State) (k : Nat) (T : List Int) {P : Nat → Res Byte} (hP : ∀ i, Quiet (P i)) (start : Nat) :
    Quiet (s.getTree k T P start) := (Quiet.readTree _ T hP _ _).bind fun _ => .ok _

theorem Quiet.getBoolAt (s : State) (k : Nat) {p : Res Byte} (hp : Quiet p) : Quiet (s.getBoolAt k p) :=
  hp.bind fun _ => .ok _

theorem quiet_mdSegid (s : State) : Quiet (mdSegid s) :=
  (Quiet.ite ((Quiet.getTree _ _ _ (Quiet.probs _ _) _).bind fun _ => .ok _) (.ok _)).bind fun _ => .ok _

theorem quiet_mdSkip (s : State) : Quiet (mdSkip s) :=
  (Quiet.ite (Quiet.getBoolAt _ _ (Quiet.probs _ _ _)) (.ok _)).bind fun _ => .ok _

theorem quiet_mdYmodeKf (s : State) : Quiet (mdYmodeKf s) :=
  (Quiet.getTree _ _ _ (fun _ => .ok _) _).bind fun _ => .ok _

theorem quiet_mdYmodeIf (s : State) : Quiet (mdYmodeIf s) :=
  (Quiet.getTree _ _ _ (Quiet.probs _ _) _).bind fun _ => .ok _

theorem quiet_mdBmodesKf (T : OpenTables) (s : State) : Quiet (mdBmodesKf T s) :=
  .foldlM (fun _ _ => (Quiet.getTree _ _ _ (fun _ => .ok _) _).bind fun _ => .ok _) _ _

theorem quiet_mdBmodesIf (s : State) : Quiet (mdBmodesIf s) :=
  .foldlM (fun _ _ => (Quiet.getTree _ _ _ (fun _ => .ok _) _).bind fun _ => .ok _) _ _

theorem quiet_mdUvmodeKf (s : State) : Quiet (mdUvmodeKf s) :=
  (Quiet.getTree _ _ _ (fun _ => .ok _) _).bind fun _ => .ok _

theorem quiet_mdUvmodeIf (s : State) : Quiet (mdUvmodeIf s) :=
  (Quiet.getTree _ _ _ (Quiet.probs _ _) _).bind fun _ => .ok _

theorem quiet_mdRef (s : State) : Quiet (mdRef s) := by
  refine Quiet.bind ?_ fun _ => .ok _
  exact (Quiet.getBoolAt _ _ (Quiet.probs _ _ _)).bind fun _ => .ite (.ok _) <|
    (Quiet.getBoolAt _ _ (Quiet.probs _ _ _)).bind fun _ => .ite (.ok _) <|
      (Quiet.getBoolAt _ _ (Quiet.probs _ _ _)).bind fun _ => .ok _

theorem quiet_mpMode (s : State) : Quiet (mpMode s) :=
  (Quiet.getTree _ _ _ (fun _ => .ok _) _).bind fun _ => .ok _

theorem quiet_mvBits {p : Nat → Res Byte} (hp : ∀ i, Quiet (p i)) (l : List Nat) (s : State) (a : Nat) :
    Quiet (s.mvBits p l a) := by
  induction l generalizing s a with
  | nil => exact .ok _
  | cons i l ih => exact (Quiet.getBoolAt _ _ (hp _)).bind fun q => ih _ _

theorem quiet_mvComponent {p : Nat → Res Byte} (hp : ∀ i, Quiet (p i)) (s : State) : Quiet (s.mvComponent p) := by
  refine Quiet.bind ?_ fun _ => .ite (.ok _) ((Quiet.getBoolAt _ _ (hp _)).bind fun _ => .ok _)
  refine (Quiet.getBoolAt _ _ (hp _)).bind fun _ => .ite ?_ (Quiet.getTree _ _ _ (fun _ => hp _) _)
  exact (quiet_mvBits hp _ _ _).bind fun _ => .ite (.ok _) ((Quiet.getBoolAt _ _ (hp _)).bind fun _ => .ok _)

theorem quiet_readMv (s : State) : Quiet s.readMv :=
  (quiet_mvComponent (Quiet.probs _ _) _).bind fun _ => (quiet_mvComponent (Quiet.probs _ _) _).bind fun _ => .ok _

theorem quiet_mpReadmv (s : State) : Quiet (mpReadmv s) := (quiet_readMv s).bind fun _ => .ok _

theorem quiet_mpSplit (s : State) : Quiet (mpSplit s) := by
  refine (Quiet.getTree _ _ _ (fun _ => .ok _) _).bind fun _ => (Quiet.foldlM (fun _ _ => ?_) _ _).bind fun _ => .ok _
  refine Quiet.bind ?_ fun _ => .ok _
  exact (Quiet.getTree _ _ _ (fun _ => .ok _) _).bind fun _ => .ite (.ok _) <| .ite (.ok _) <| .ite (.ok _) <|
    (quiet_readMv _).bind fun _ => .ok _

theorem quiet_mpVector (s : State) : Quiet (mpVector s) := by
  unfold mpVector
  split
  case h_3 => exact (quiet_readMv _).bind fun _ => .ok _
  case h_4 => exact quiet_mpSplit s
  all_goals exact .ok _

theorem quiet_mpMb (s : State) : Quiet (mpMb s) :=
  (quiet_mpMode _).bind fun _ => (quiet_mpVector _).bind fun _ => .ok _

theorem quiet_cdLoop (ty b k n : Nat) (s : State) (i ctx start : Nat) : Quiet (cdLoop ty b k n s i ctx start) := by
  induction n generalizing s i ctx start with
  | zero => exact .ok _
  | succ n ih =>
    refine .ite (.ok _) <| (Quiet.getTree _ _ _ (Quiet.probs _ _) _).bind fun _ => .ite (.ok _) <| .ite (ih _ _ _ _) ?_
    exact Quiet.bind ((Quiet.need _ _).bind fun _ => .ok _) fun _ => ih _ _ _ _

theorem quiet_cdBlock (ty b k : Nat) (s : State) : Quiet (cdBlock ty b k s) :=
  ((quiet_cdLoop _ _ _ _ _ _ _ _).bind fun _ => .ok _).bind fun _ => .ok _

/-! ## Sequences -/

theorem finish_fault (s : State) (f : Fault) : finish s (.error (.fault f)) = .fault f := rfl

/-- The end of a command does not depend on the state that it began in, where its work raises no error. -/
theorem finish_start {r : Res State} (hr : Quiet r) (s t : State) : finish s r = finish t r := by
  match r, hr with
  | .ok _, _ => rfl
  | .error (.fault _), _ => rfl
  | .error (.raise c), hr => exact absurd rfl (hr c)

/-- Nor on the response in its state. -/
theorem finish_respond {r : Res State} (hr : Quiet r) (s : State) (x : Response) :
    finish s (r.respond x) = finish s r := by
  match r, hr with
  | .ok _, _ => rfl
  | .error (.fault _), _ => rfl
  | .error (.raise c), hr => exact absurd rfl (hr c)

/-- Two works one after the other are two commands one after the other. -/
theorem finish_bind {f : State → Res State} {r : Res State} (hf : Blind f) (hr : Quiet r) (hq : ∀ u, Quiet (f u))
    (s : State) : finish s (r >>= f) = andThen (finish s r) fun t => finish t (f t) := by
  match r, hr with
  | .ok u, _ =>
    show finish s (f u) = finish (u.respond .ok) (f (u.respond .ok))
    rw [hf u .ok, finish_respond (hq u), finish_start (hq u)]
  | .error (.fault _), _ => rfl
  | .error (.raise c), hr => exact absurd rfl (hr c)

/-- A change of the state after a work is a change of the next state. -/
theorem finish_map {r : Res State} (hr : Quiet r) (s : State) {f : State → State}
    (hf : ∀ u x, f (u.respond x) = (f u).respond x) :
    finish s (r >>= fun u => .ok (f u)) = andThen (finish s r) fun w => .next (f w) := by
  match r, hr with
  | .ok u, _ => exact congrArg Host.Outcome.next (hf u .ok).symm
  | .error (.fault _), _ => rfl
  | .error (.raise c), hr => exact absurd rfl (hr c)

/-- What follows a command is asked for only in the state that it leaves. -/
theorem andThen_finish {r : Res State} (hr : Quiet r) (s : State) {F G : State → Host.Outcome State Fault Refusal}
    (h : ∀ u, r = .ok u → F (u.respond .ok) = G (u.respond .ok)) :
    andThen (finish s r) F = andThen (finish s r) G := by
  match r, hr, h with
  | .ok u, _, h => exact h u rfl
  | .error (.fault _), _, _ => rfl
  | .error (.raise c), hr, _ => exact absurd rfl (hr c)

@[simp] theorem andThen_next (o : Host.Outcome State Fault Refusal) : andThen o .next = o := by cases o <;> rfl

theorem andThen_assoc (o : Host.Outcome State Fault Refusal) (f g : State → Host.Outcome State Fault Refusal) :
    andThen (andThen o f) g = andThen o fun t => andThen (f t) g := by cases o <;> rfl

@[simp] theorem runCommands_nil (s : State) : runCommands [] s = .next s := rfl

theorem runCommands_cons (i : Instr) (l : List Instr) (s : State) :
    runCommands (i :: l) s = andThen (exec i s) (runCommands l) := rfl

theorem runCommands_one (i : Instr) (s : State) : runCommands [i] s = exec i s := andThen_next _

end Sys2Proof.Machine
end

