-- ==== Sys2Proof/Tests/Slice0.lean ====
section
/-! SUPPORT. The model's own tests. Expected results come from the spec: the worked examples of its rules
and the vectors V.. and programs P.. of 95_test_vectors.md. Then, for each statement of
Certificates/Slice0/Obligations.lean with hypotheses, states and operands that meet them. -/

namespace Sys2Proof.Tests

open Sys2Proof Sys2Proof.Machine

set_option Elab.async false

/-! ## Helpers -/

/-- A command answers `OK` and its next state passes a check. -/
def passes (o : Host.Outcome State Fault Refusal) (P : State → Bool) : Bool :=
  match o with
  | .next t => t.response == .ok && P t
  | _ => false

/-- A command answers an error. -/
def answers (o : Host.Outcome State Fault Refusal) (c : ErrCode) : Bool :=
  match o with
  | .next t => t.response == .error c
  | _ => false

/-- The step that runs a word answers an error. -/
def wordAnswers (w : Nat) (c : ErrCode) (s : State := State.reset) : Bool :=
  answers (step (s.withFetchWord 32 w)) c

/-- Bytes at the start of `CBUF`. -/
def bytes (l : List Byte) : Memory Byte := l.zipIdx.map fun e => (e.2, e.1)

/-- A range decoder instance at a canonical state, its buffer of `n` bytes at 0. -/
def rdSt (value : BitVec 16) (range : BitVec 8) (bits : BitVec 3) (cursor n : Word) : Rd :=
  ⟨value, range, bits, cursor, 0, n, true, none⟩

/-- One 16x16 macroblock, CUR slot 0, no reference. -/
def one : State := (State.reset.setCr 1 0x00100010).setCr 18 0x7770

/-- `one` with instance `k` at a state over some bytes. -/
def onBytes (l : List Byte) (k : Nat) (r : Rd) (s : State := one) : State := { s.setRd k r with cbuf := bytes l }

/-! ## Decoding (30_encoding.md R104): one word for every row -/

theorem test_decode_rd :
    decode 0x00000003 = .ok (.rdInit 3) ∧ decode 0x01F00002 = .ok (.rdBool 240 2) ∧
    decode 0x02050001 = .ok (.rdLit 5 1) ∧ decode 0x03040001 = .ok (.rdSlit 4 1) ∧
    decode 0x04090208 = .ok (.rdTree 9 2 8) := by decide +kernel

theorem test_decode_md :
    decode 0x10000000 = .ok .mdSegid ∧ decode 0x11000000 = .ok .mdSkip ∧
    decode 0x12000000 = .ok .mdYmodeKf ∧ decode 0x13000000 = .ok .mdYmodeIf ∧
    decode 0x14000000 = .ok .mdBmodesKf ∧ decode 0x15000000 = .ok .mdBmodesIf ∧
    decode 0x16000000 = .ok .mdUvmodeKf ∧ decode 0x17000000 = .ok .mdUvmodeIf ∧
    decode 0x18000000 = .ok .mdRef ∧ decode 0x1F000000 = .ok .mdMb := by decide +kernel

theorem test_decode_mp_cd :
    decode 0x20000000 = .ok .mpNear ∧ decode 0x21000000 = .ok .mpMode ∧
    decode 0x22000000 = .ok .mpReadmv ∧ decode 0x23000000 = .ok .mpSplit ∧
    decode 0x24000000 = .ok .mpClamp ∧ decode 0x2F000000 = .ok .mpMb ∧
    decode 0x30021001 = .ok (.cdBlock 2 16 1) ∧ decode 0x31000001 = .ok (.cdMb 1) ∧
    decode 0x32000000 = .ok .cdSkipmb := by decide +kernel

theorem test_decode_ip :
    decode 0x40000000 = .ok .ipY16Dc ∧ decode 0x40010000 = .ok .ipY16V ∧
    decode 0x40020000 = .ok .ipY16H ∧ decode 0x40030000 = .ok .ipY16Tm ∧
    decode 0x41000000 = .ok .ipUv8Dc ∧ decode 0x41010000 = .ok .ipUv8V ∧
    decode 0x41020000 = .ok .ipUv8H ∧ decode 0x41030000 = .ok .ipUv8Tm ∧
    decode 0x42000500 = .ok (.ipY4Dc 5) ∧ decode 0x42010500 = .ok (.ipY4Tm 5) ∧
    decode 0x42020500 = .ok (.ipY4Ve 5) ∧ decode 0x42030500 = .ok (.ipY4He 5) ∧
    decode 0x42040500 = .ok (.ipY4Ld 5) ∧ decode 0x42050500 = .ok (.ipY4Rd 5) ∧
    decode 0x42060500 = .ok (.ipY4Vr 5) ∧ decode 0x42070500 = .ok (.ipY4Vl 5) ∧
    decode 0x42080500 = .ok (.ipY4Hd 5) ∧ decode 0x42090F00 = .ok (.ipY4Hu 15) ∧
    decode 0x4F000000 = .ok .ipMb := by decide +kernel

theorem test_decode_mc_it_lf :
    decode 0x50020000 = .ok (.mcLuma 2) ∧ decode 0x51030200 = .ok (.mcChroma 3 2) ∧
    decode 0x5F000000 = .ok .mcMb ∧ decode 0x60030000 = .ok (.itDqsetup 3) ∧
    decode 0x61000000 = .ok .itWht ∧ decode 0x62020300 = .ok (.itIdctAdd 2 3) ∧
    decode 0x6F000000 = .ok .itMb ∧ decode 0x70000000 = .ok .lfParams ∧
    decode 0x71000000 = .ok .lfMb ∧ decode 0x72000000 = .ok .lfRow ∧
    decode 0x73000100 = .ok (.lfsEdge 0 1) ∧ decode 0x74010000 = .ok (.lfnMbedge 1 0) ∧
    decode 0x75020100 = .ok (.lfnInner 2 1) := by decide +kernel

theorem test_decode_fc :
    decode 0x80000000 = .ok .fcReset ∧ decode 0x81000000 = .ok .fcSetmb ∧
    decode 0x82000000 = .ok .fcNextmb ∧ decode 0x83000000 = .ok .fcRowstart ∧
    decode 0x84000000 = .ok .fcRowend ∧ decode 0x85010000 = .ok (.fcWrctl 1) ∧
    decode 0x86120000 = .ok (.fcRdctl 18) ∧ decode 0x870000C8 = .ok (.fcWrprob 200) ∧
    decode 0x88010000 = .ok (.fcRdprob 1) ∧ decode 0x89000000 = .ok .fcProbsave ∧
    decode 0x8A000000 = .ok .fcProbrestore ∧ decode 0x8B000000 = .ok .fcHeader ∧
    decode 0x8C000000 = .ok .fcFramestart ∧ decode 0x8D000000 = .ok .fcFrameend ∧
    decode 0x8E000000 = .ok .fcFrame ∧ decode 0x8F020000 = .ok (.fcWrarg 2) := by decide +kernel

/-- V10.4, V2.6, V6.4: reserved `op`, non-zero reserved fields, selectors without a row. -/
theorem test_decode_rejects :
    decode 0x05000000 = .error .illegalCmd ∧ decode 0x19000000 = .error .illegalCmd ∧
    decode 0x90000000 = .error .illegalCmd ∧ decode 0xFF000000 = .error .illegalCmd ∧
    decode 0x80000001 = .error .illegalCmd ∧ decode 0x01800100 = .error .illegalCmd ∧
    decode 0x420A0000 = .error .badOperand ∧ decode 0x40040000 = .error .badOperand := by decide +kernel

/-- The host's numbering: 32 bits, `op` on top. -/
theorem test_decode_table_word :
    decodeTableWord 32 0x30021001 = some (.cdBlock 2 16 1) ∧ decodeTableWord 32 0x05000000 = none := by
  decide +kernel

/-! ## Well-formed commands: each check refuses an ill-formed one (V2.6, V6.4, V7.5, V8.4, V10.4) -/

theorem test_wf_rd :
    (Instr.rdInit 9).wf = false ∧ (Instr.rdBool 128 9).wf = false ∧ (Instr.rdLit 33 0).wf = false ∧
    (Instr.rdLit 32 0).wf = true ∧ (Instr.rdSlit 32 0).wf = false ∧ (Instr.rdTree 10 0 0).wf = false ∧
    (Instr.rdTree 0 1 0).wf = false ∧ (Instr.rdTree 0 6 0).wf = false ∧ (Instr.rdTree 9 20 8).wf = true := by
  decide +kernel

theorem test_wf_blocks :
    (Instr.cdBlock 4 0 0).wf = false ∧ (Instr.cdBlock 0 16 0).wf = false ∧ (Instr.cdBlock 1 23 0).wf = false ∧
    (Instr.cdBlock 2 15 0).wf = false ∧ (Instr.cdBlock 2 24 0).wf = false ∧ (Instr.cdBlock 3 16 0).wf = false ∧
    (Instr.cdBlock 0 0 9).wf = false ∧ (Instr.cdMb 9).wf = false ∧ (Instr.ipY4Dc 16).wf = false ∧
    (Instr.itDqsetup 4).wf = false ∧ (Instr.itIdctAdd 3 0).wf = false ∧ (Instr.itIdctAdd 0 16).wf = false ∧
    (Instr.itIdctAdd 1 4).wf = false := by decide +kernel

theorem test_wf_planes :
    (Instr.mcLuma 0).wf = false ∧ (Instr.mcLuma 4).wf = false ∧ (Instr.mcChroma 1 0).wf = false ∧
    (Instr.mcChroma 1 3).wf = false ∧ (Instr.lfsEdge 1 0).wf = false ∧ (Instr.lfsEdge 0 2).wf = false ∧
    (Instr.lfnMbedge 3 0).wf = false ∧ (Instr.lfnInner 0 2).wf = false := by decide +kernel

theorem test_wf_fc :
    (Instr.fcWrctl 44).wf = false ∧ (Instr.fcRdctl 44).wf = false ∧ (Instr.fcRdprob 2).wf = false ∧
    (Instr.fcWrarg 4).wf = false ∧ (Instr.fcWrctl 43).wf = true := by decide +kernel

/-! ## Range decoder -/

/-- V2.1, first row: the preload. -/
theorem test_rd_init :
    passes (exec (.rdInit 0) ((onBytes [0x84, 0xEE, 0xA8, 0x66, 0x40, 0x00] 0 Rd.reset).setArg 1 6))
      (fun t => t.rdAt 0 == rdSt 0x84EE 255 0 2 6) = true := by decide +kernel

/-- V2.3 and V2.6: an empty buffer, and one that ends past 2^32. -/
theorem test_rd_init_edges :
    passes (exec (.rdInit 8) State.reset) (fun t => t.rdAt 8 == rdSt 0 255 0 0 0) = true ∧
    answers (exec (.rdInit 0) ((State.reset.setArg 0 0xFFFFFFFF).setArg 1 2)) .badOperand = true := by
  decide +kernel

/-- V2.1, second and fourth rows: the bool 1, and a byte loaded inside the shifts. -/
theorem test_rd_bool :
    passes (exec (.rdBool 128 0) (onBytes [0x84, 0xEE, 0xA8, 0x66, 0x40, 0x00] 0 (rdSt 0x84EE 255 0 2 6)))
      (fun t => t.result 0 == 1 && t.rdAt 0 == rdSt 0x09DC 254 1 2 6) = true ∧
    passes (exec (.rdBool 240 0) (onBytes [0x84, 0xEE, 0xA8, 0x66, 0x40, 0x00] 0 (rdSt 0x9DC0 160 5 2 6)))
      (fun t => t.result 0 == 1 && t.rdAt 0 == rdSt 0x7D50 160 1 3 6) = true := by decide +kernel

/-- V2.4: a shift that drops a set bit; V2.6: an instance without a buffer. -/
theorem test_rd_bool_edges :
    passes (exec (.rdBool 128 0) (onBytes [0xFF, 0xFF, 0xFF] 0 (rdSt 0xFFFE 254 1 2 3)))
      (fun t => t.result 0 == 1 && t.rdAt 0 == rdSt 0x01FC 254 2 2 3) = true ∧
    answers (exec (.rdBool 128 0) State.reset) .rdUninit = true := by decide +kernel

/-- V2.1, the two literals. -/
theorem test_rd_lit :
    passes (exec (.rdLit 5 0) (onBytes [0x84, 0xEE, 0xA8, 0x66, 0x40, 0x00] 0 (rdSt 0x5400 136 7 3 6)))
      (fun t => t.result 0 == 19 && t.rdAt 0 == rdSt 0x6E60 136 4 4 6) = true ∧
    passes (exec (.rdLit 7 0) (onBytes [0x84, 0xEE, 0xA8, 0x66, 0x40, 0x00] 0 (rdSt 0x6400 128 4 5 6)))
      (fun t => t.result 0 == 100 && t.rdAt 0 == rdSt 0x0000 128 3 6 6) = true := by decide +kernel

/-- P1, step 5. -/
theorem test_rd_slit :
    passes (exec (.rdSlit 4 1) (onBytes [0x9A, 0x5C, 0x3F, 0x00, 0xE1, 0x77] 1 (rdSt 0x89F8 254 3 3 6)))
      (fun t => t.result 0 == 0xFFFFFFF8 && t.rdAt 1 == rdSt 0x6100 254 0 4 6) = true := by decide +kernel

/-- P1, step 7, and V2.5: tree 0 on `64 00`. -/
theorem test_rd_tree :
    passes (exec (.rdTree 1 0 1) ((onBytes [0x9A, 0x5C, 0x3F, 0x00, 0xE1, 0x77] 1
      (rdSt 0xC200 198 1 4 6)).setArg 0 0x80A39C91))
      (fun t => t.result 0 == 3 && t.rdAt 1 == rdSt 0x6600 134 4 4 6) = true ∧
    passes (exec (.rdTree 0 0 0) ((onBytes [0x64, 0x00] 0 (rdSt 0x6400 255 0 2 2)).setArg 0 0x00C89664))
      (fun t => t.result 0 == 2) = true := by decide +kernel

/-! ## Mode decoder -/

/-- The state of V3.1 with instance 0 at a given state. -/
def v31 (r : Rd) : State :=
  { onBytes [0xF5, 0x17, 0x00] 0 r (((one.setCr 0 1).setCr 3 3).setCr 14 1) with
    prob := [(1101, 100), (1102, 150), (1103, 200), (1104, 200)] }

theorem test_md_segid :
    passes (exec .mdSegid (v31 (rdSt 0xF517 255 0 2 3)))
      (fun t => t.result 0 == 3 && t.segment == 3 && t.rdAt 0 == rdSt 0x605C 136 2 2 3) = true := by
  decide +kernel

theorem test_md_skip :
    passes (exec .mdSkip (v31 (rdSt 0x605C 136 2 2 3)))
      (fun t => t.result 0 == 0 && t.rdAt 0 == rdSt 0xC0B8 212 3 2 3) = true := by decide +kernel

theorem test_md_ymode_kf :
    passes (exec .mdYmodeKf (v31 (rdSt 0xC0B8 212 3 2 3)))
      (fun t => t.result 0 == 2 && t.cur.mode == .hPred && t.cur.bmodeAt 0 == .he && t.cur.bmodeAt 15 == .he &&
        t.rdAt 0 == rdSt 0x85C0 144 6 2 3) = true := by decide +kernel

theorem test_md_uvmode_kf :
    passes (exec .mdUvmodeKf (v31 (rdSt 0x85C0 144 6 2 3)))
      (fun t => t.result 0 == 3 && t.cur.uvmode == .tmPred && t.rdAt 0 == rdSt 0x0000 164 2 3 3) = true := by
  decide +kernel

/-- V3.1, the whole macroblock. -/
theorem test_md_mb :
    passes (exec .mdMb (v31 (rdSt 0xF517 255 0 2 3)))
      (fun t => t.result 0 == 2 && t.result 1 == 0 && t.result 2 == 0 && t.result 3 == 3 &&
        t.rdAt 0 == rdSt 0x0000 164 2 3 3) = true := by decide +kernel

/-- V3.2. -/
theorem test_md_ref :
    passes (exec .mdRef { onBytes [0xE9, 0x80] 0 (rdSt 0xE980 255 0 2 2) with
      prob := [(1105, 60), (1106, 200), (1107, 128)] })
      (fun t => t.result 0 == 3 && t.cur.ref == .altref && t.rdAt 0 == rdSt 0x0000 172 3 2 2) = true := by
  decide +kernel

/-- The state of V3.3 with instance 0 at a given state. -/
def v33 (r : Rd) : State :=
  { onBytes [0x2E, 0x6A, 0x0E, 0xFF, 0xD2, 0xE4, 0xE9, 0xB9, 0x00] 0 r with
    prob := [(1094, 112), (1095, 86), (1096, 140), (1097, 37), (1098, 162), (1099, 101), (1100, 204), (1105, 60)] }

theorem test_md_ymode_if :
    passes (exec .mdYmodeIf (v33 (rdSt 0xB9A8 240 2 2 9)))
      (fun t => t.result 0 == 4 && t.cur.mode == .bPred && t.rdAt 0 == rdSt 0x2B50 152 3 2 9) = true := by
  decide +kernel

/-- The sixteen sub-modes of V3.3. -/
def v33Modes : Vector BMode 16 :=
  Vector.ofFn fun i : Fin 16 => BMode.ofNum (([0, 1, 2, 3, 4, 5, 6, 7, 8, 9, 0, 0, 0, 0, 0, 9] : List Nat).getD i 0)

theorem test_md_bmodes_if :
    passes (exec .mdBmodesIf (v33 (rdSt 0x2B50 152 3 2 9)))
      (fun t => t.cur.bmode == v33Modes && t.rdAt 0 == rdSt 0x7B00 194 0 9 9) = true := by decide +kernel

/-- The open table filled, in every context, with the fixed probabilities of R167: the bytes of V3.3 then
give the same sub-modes. -/
theorem test_md_bmodes_kf :
    passes (mdBmodesKfCmd ⟨fun _ _ _ _ => 0, fun _ _ _ _ => 0, fun _ _ n => bmodeProbs.getD n 0, fun _ _ => 0⟩
      (v33 (rdSt 0x2B50 152 3 2 9)))
      (fun t => t.cur.bmode == v33Modes && t.rdAt 0 == rdSt 0x7B00 194 0 9 9) = true := by decide +kernel

theorem test_md_uvmode_if :
    passes (exec .mdUvmodeIf (v33 (rdSt 0x7B00 194 0 9 9)))
      (fun t => t.result 0 == 1 && t.cur.uvmode == .vPred && t.rdAt 0 == rdSt 0x0000 224 3 9 9) = true := by
  decide +kernel

/-- V3.4: nothing coded, nothing read. -/
theorem test_md_not_coded :
    passes (exec .mdSegid (onBytes [] 0 (rdSt 0x1234 200 2 0 0)))
      (fun t => t.result 0 == 0 && t.rdAt 0 == rdSt 0x1234 200 2 0 0) = true ∧
    passes (exec .mdSkip (onBytes [] 0 (rdSt 0x1234 200 2 0 0)))
      (fun t => t.result 0 == 0 && t.rdAt 0 == rdSt 0x1234 200 2 0 0) = true := by decide +kernel

/-! ## Motion predictor -/

/-- A vector by its two numbers. -/
def mvOf (x y : Int) : Mv := ⟨BitVec.ofInt 16 x, BitVec.ofInt 16 y⟩

/-- A neighbour with one vector. -/
def nbr (r : RefTag) (m : MbMode) (x y : Int) : MbRec :=
  { MbRec.zero with ref := r, mode := m, mv := mvOf x y, bmv := Vector.replicate 16 (mvOf x y) }

/-- The frame of V4.1: 4 x 3 macroblocks, the current one at (1, 1) with its reference and three
neighbours. -/
def v41 (bias : Word) (cur : RefTag) (above left aboveLeft : MbRec) : State :=
  (((((State.reset.setCr 1 0x00300040).setMbpos 1 1).setCr 13 bias).setMbRec 1 1
    { MbRec.zero with ref := cur }).setMbRec 1 0 above).setMbRec 0 1 left |>.setMbRec 0 0 aboveLeft

/-- V4.1 g and m: sign bias, the swap and a third bin. -/
theorem test_mp_near :
    passes (exec .mpNear (v41 0x20 .previous (nbr .golden .new 10 (-6)) (nbr .previous .new (-10) 6) MbRec.zero))
      (fun t => t.cand.best == mvOf (-10) 6 && t.cand.nearest == mvOf (-10) 6 && t.cand.near == mvOf 0 0 &&
        t.result 3 == 0x00000400) = true ∧
    passes (exec .mpNear (v41 0x60 .altref (nbr .previous .new 2 0) (nbr .golden .new 0 2) (nbr .altref .new 4 4)))
      (fun t => t.cand.best == mvOf (-2) 0 && t.cand.near == mvOf 0 2 && t.result 3 == 0x00020200) = true := by
  decide +kernel

/-- V4.1 h and i: the clamp, and the count of SPLIT neighbours. -/
theorem test_mp_near_clamp :
    passes (exec .mpNear (v41 0 .previous (nbr .previous .new (-500) 300) (nbr .previous .new 400 (-400)) MbRec.zero))
      (fun t => t.cand.best == mvOf (-128) 128 && t.cand.near == mvOf 192 (-128) && t.result 3 == 0x00020200) =
        true ∧
    passes (exec .mpNear (v41 0 .previous (nbr .previous .split 4 0) (nbr .previous .split 4 0)
      (nbr .previous .split 0 4))) (fun t => t.result 3 == 0x05010400) = true := by decide +kernel

/-- V4.2. -/
theorem test_mp_clamp :
    passes (exec .mpClamp ((v41 0 .previous MbRec.zero MbRec.zero MbRec.zero).setArg 0 0x012CFE0C))
      (fun t => t.result 0 == 0x0080FF80) = true ∧
    passes (exec .mpClamp ((v41 0 .previous MbRec.zero MbRec.zero MbRec.zero).setArg 0 0xFF9C0064))
      (fun t => t.result 0 == 0xFF9C0064) = true := by decide +kernel

/-- The macroblock of the examples of R199, R203, R211 and R214. -/
def v43 (l : List Byte) (r : Rd) : State :=
  { onBytes l 0 r (v41 0 .previous (nbr .previous .new 8 (-4)) (nbr .previous .new 12 12)
      (nbr .previous .zero 0 0)) with
    prob := mvcEntries
    cand := ⟨mvOf 8 (-4), mvOf 8 (-4), mvOf 12 12, (Vector.replicate 4 0).setIfInBounds 0 1 |>.setIfInBounds 1 2
      |>.setIfInBounds 2 2⟩ }

/-- The example of R199. -/
theorem test_mp_mode :
    passes (exec .mpMode (v43 [0x9D, 0x4C, 0x40, 0x00] (rdSt 0x9D4C 255 0 2 4)))
      (fun t => t.result 0 == 8 && t.cur.mode == .new && t.rdAt 0 == rdSt 0x5498 156 1 2 4) = true := by
  decide +kernel

/-- The example of R203: the vertical component first. -/
theorem test_mp_readmv :
    passes (exec .mpReadmv (v43 [0x9D, 0x4C, 0x40, 0x00] (rdSt 0x5498 156 1 2 4)))
      (fun t => t.result 0 == 0xFFFD0014 && t.rdAt 0 == rdSt 0x0000 180 7 3 4) = true := by decide +kernel

/-- The fifth component of R202's examples: the longest magnitude. -/
theorem test_mv_component :
    ((v43 [0x89, 0x18, 0xB9, 0x43, 0xFF, 0xFF, 0xF5, 0xA0] (rdSt 0xA180 162 7 4 8)).mvComponent
      ((v43 [] Rd.reset).probs (mvcIndex 0))).toOption.map (fun r => (r.1, r.2.rdAt 0)) =
        some (-1023, rdSt 0x0000 166 4 8 8) := by decide +kernel

/-- The example of R214: a NEW vector. -/
theorem test_mp_mb_new :
    passes (exec .mpMb (v43 [0x9D, 0x4C, 0x40, 0x00] (rdSt 0x9D4C 255 0 2 4)))
      (fun t => t.result 0 == 0xFFF9001C && t.result 1 == 8 && t.cur.mv == mvOf 28 (-7) &&
        t.cur.bmvAt 15 == mvOf 28 (-7) && t.rdAt 0 == rdSt 0x0000 180 7 3 4) = true := by decide +kernel

/-- The example of R211: an 8x8 split, through `MP_MB`. -/
theorem test_mp_mb_split :
    passes (exec .mpMb (v43 [0xE9, 0xFB, 0x9C, 0xF1, 0x90, 0x00, 0x00] (rdSt 0xE9FB 255 0 2 7)))
      (fun t => t.cur.split == .quarters8x8 && t.cur.bmvAt 0 == mvOf 12 (-12) && t.cur.bmvAt 7 == mvOf 12 (-12) &&
        t.cur.bmvAt 8 == mvOf (-4) (-2) && t.cur.mv == mvOf (-4) (-2) && t.rdAt 0 == rdSt 0x0000 146 1 6 7) =
          true := by decide +kernel

/-- `MP_SPLIT` on an empty buffer: every bool is 0, so the shape is that of the first leaf of tree 6, 4x4,
and every sub-vector the one to its left (R206, R208, R209). -/
theorem test_mp_split :
    passes (exec .mpSplit (v43 [] (rdSt 0x0000 255 0 0 0)))
      (fun t => t.result 0 == 3 && t.cur.split == .sixteen4x4 && t.cur.bmvAt 0 == mvOf 12 12 &&
        t.cur.bmvAt 15 == mvOf 12 12) = true := by decide +kernel

/-- V4.4. -/
theorem test_mp_errors :
    answers (exec .mpNear ((v41 0 .previous MbRec.zero MbRec.zero MbRec.zero).setMbpos 4 0)) .badMbpos = true ∧
    answers (exec .mpMode (v41 0 .previous MbRec.zero MbRec.zero MbRec.zero)) .rdUninit = true := by
  decide +kernel

/-! ## Coefficient decoder -/

/-- The setting of section 5 of the vectors: the synthetic table, the factors, both flags of block 0. -/
def v5 (l : List Byte) (r : Rd) (dc ac : Nat) (flag : Bool) : State :=
  { onBytes l 1 r with
    prob := (List.range 1056).map fun i =>
      (i, BitVec.ofNat 8 (128 + 8 * (i / 33 % 8) - 16 * (i / 11 % 3) + 3 * (i % 11)))
    dq := [(0, ⟨dc, ac, dc, ac, dc, ac⟩)]
    nzAbove := if flag then [(0, nzZero.setIfInBounds 0 true)] else []
    nzLeft := nzZero.setIfInBounds 0 flag }

/-- V5.2: a type-0 block, fourteen zeros, the last position. -/
theorem test_cd_block :
    passes (exec (.cdBlock 0 0 1) (v5 [0x68, 0x4D, 0x40] (rdSt 0x684D 255 0 2 3) 7 9 true))
      (fun t => t.result 0 == 16 && t.result 1 == 1 && t.coefAt 0 15 == -9 && t.coefAt 0 14 == 0 &&
        t.rdAt 1 == rdSt 0x0000 148 4 3 3) = true := by decide +kernel

/-- V5.4: the largest magnitude, exact. -/
theorem test_cd_block_large :
    passes (exec (.cdBlock 3 0 1) (v5 [0xFE, 0xFF, 0xFF, 0xFF, 0xF7, 0x00] (rdSt 0xFEFF 255 0 2 6) 157 157 true))
      (fun t => t.result 0 == 1 && t.result 1 == 1 && t.coefAt 0 0 == -331898 &&
        t.rdAt 1 == rdSt 0x0000 236 6 6 6) = true := by decide +kernel

/-- P3, step 6: blocks 24, 0 and 16, and the nine flags; R104: `RES1` is that of the last `CD_BLOCK`. -/
theorem test_cd_mb :
    passes (exec (.cdMb 1) { onBytes [0xEF, 0xAF, 0x30, 0x01, 0x19, 0x70, 0x00] 1 (rdSt 0xEFAF 255 0 2 7)
      ((one.setRes 1 7).setCur { MbRec.zero with mode := .vPred }) with
        prob := (List.range 1056).map fun i => (i, 128)
        dq := [(0, ⟨13, 14, 26, 21, 13, 14⟩)] })
      (fun t => t.result 0 == 1 && t.result 1 == 0 && t.coef == [(1, 42), (256, -26), (384, 130)] &&
        t.nzLeft == nzZero.setIfInBounds 8 true && t.nzAbove == [(0, nzZero.setIfInBounds 8 true)] &&
        t.rdAt 1 == rdSt 0x0000 158 5 7 7 && t.cur.skip == false) = true := by decide +kernel

/-- V5.6: the luma-DC flag is kept for a B_PRED macroblock and cleared for DC_PRED. -/
theorem test_cd_skipmb :
    passes (exec .cdSkipmb { one.setCur { MbRec.zero with mode := .bPred } with
      coef := [(3, 7)], nzLeft := Vector.replicate 9 true, nzAbove := [(0, Vector.replicate 9 true)] })
      (fun t => t.coef == [] && t.nzLeft == nzZero.setIfInBounds 8 true &&
        t.nzAbove == [(0, nzZero.setIfInBounds 8 true)] && t.result 0 == 0) = true ∧
    passes (exec .cdSkipmb { one with nzLeft := Vector.replicate 9 true }) (fun t => t.nzLeft == nzZero) = true := by
  decide +kernel

/-! ## Intra predictor -/

/-- Macroblock (1, 1) of a 2 x 2 frame, with the neighbours of the examples of R264 to R272. -/
def around : State :=
  let s := ((State.reset.setCr 1 0x00200020).setCr 18 0x7770).setMbpos 1 1
  let left (l : List Nat) (x y : Nat) : Memory Byte := l.zipIdx.map fun e => (pixKey x (y + e.2), BitVec.ofNat 8 e.1)
  let uv := left [10, 10, 10, 10, 20, 20, 20, 20] 7 8
  { (((s.setPlane 0 0 (left ((List.range 16).map fun r => 50 + 2 * r) 15 16)).setPlane 0 1 uv).setPlane 0 2 uv) with
    topb := ⟨true, 0, (15, 120) :: (List.range 16).map fun c => (16 + c, BitVec.ofNat 8 (100 + c)),
      (7, 200) :: (List.range 8).map fun c => (8 + c, BitVec.ofNat 8 (200 + c)),
      (7, 200) :: (List.range 8).map fun c => (8 + c, BitVec.ofNat 8 (200 + c))⟩ }

theorem test_ip_y16_dc :
    passes (exec .ipY16Dc around) (fun t => t.pix 0 0 16 16 == some 86 && t.pix 0 0 31 31 == some 86) = true ∧
    passes (exec .ipY16Dc one) (fun t => t.pix 0 0 0 0 == some 128 && t.pix 0 0 15 15 == some 128) = true := by
  decide +kernel

theorem test_ip_y16_v :
    passes (exec .ipY16V around) (fun t => t.pix 0 0 16 16 == some 100 && t.pix 0 0 31 31 == some 115) = true ∧
    passes (exec .ipY16V one) (fun t => t.pix 0 0 15 15 == some 127) = true := by decide +kernel

theorem test_ip_y16_h :
    passes (exec .ipY16H around) (fun t => t.pix 0 0 16 16 == some 50 && t.pix 0 0 16 31 == some 80) = true ∧
    passes (exec .ipY16H one) (fun t => t.pix 0 0 15 15 == some 129) = true := by decide +kernel

theorem test_ip_y16_tm :
    passes (exec .ipY16Tm around) (fun t => t.pix 0 0 31 16 == some 45 && t.pix 0 0 16 31 == some 60) = true ∧
    passes (exec .ipY16Tm one) (fun t => t.pix 0 0 15 15 == some 129) = true := by decide +kernel

theorem test_ip_uv8_dc :
    passes (exec .ipUv8Dc around) (fun t => t.pix 0 1 8 8 == some 109 && t.pix 0 2 15 15 == some 109) = true := by
  decide +kernel

theorem test_ip_uv8_v :
    passes (exec .ipUv8V around) (fun t => t.pix 0 1 8 15 == some 200 && t.pix 0 2 15 8 == some 207) = true := by
  decide +kernel

theorem test_ip_uv8_h :
    passes (exec .ipUv8H around) (fun t => t.pix 0 1 15 11 == some 10 && t.pix 0 2 8 12 == some 20) = true := by
  decide +kernel

theorem test_ip_uv8_tm :
    passes (exec .ipUv8Tm around) (fun t => t.pix 0 1 15 12 == some 27 && t.pix 0 2 8 8 == some 10) = true := by
  decide +kernel

/-- The neighbours of V6.1 around sub-block 5 of the macroblock at (0, 0). -/
def v61 : State :=
  let above : List Nat := [200, 180, 160, 140, 120, 100, 80, 60]
  let left : List Nat := [90, 70, 50, 30]
  one.setPlane 0 0 (((pixKey 3 3, 210) :: above.zipIdx.map fun e => (pixKey (4 + e.2) 3, BitVec.ofNat 8 e.1)) ++
    left.zipIdx.map fun e => (pixKey 3 (4 + e.2), BitVec.ofNat 8 e.1))

/-- The sixteen pixels of sub-block 5, row by row. -/
def sub5 (t : State) : List Nat :=
  (List.range 16).map fun i => ((t.pix 0 0 (4 + i % 4) (4 + i / 4)).getD 0).toNat

theorem test_ip_y4_dc :
    passes (exec (.ipY4Dc 5) v61) (fun t => sub5 t == List.replicate 16 115) = true := by decide +kernel

theorem test_ip_y4_tm :
    passes (exec (.ipY4Tm 5) v61) (fun t => sub5 t ==
      [80, 60, 40, 20, 60, 40, 20, 0, 40, 20, 0, 0, 20, 0, 0, 0]) = true := by decide +kernel

theorem test_ip_y4_ve :
    passes (exec (.ipY4Ve 5) v61) (fun t => sub5 t ==
      [198, 180, 160, 140, 198, 180, 160, 140, 198, 180, 160, 140, 198, 180, 160, 140]) = true := by
  decide +kernel

theorem test_ip_y4_he :
    passes (exec (.ipY4He 5) v61) (fun t => sub5 t ==
      [115, 115, 115, 115, 70, 70, 70, 70, 50, 50, 50, 50, 35, 35, 35, 35]) = true := by decide +kernel

theorem test_ip_y4_ld :
    passes (exec (.ipY4Ld 5) v61) (fun t => sub5 t ==
      [180, 160, 140, 120, 160, 140, 120, 100, 140, 120, 100, 80, 120, 100, 80, 65]) = true := by decide +kernel

theorem test_ip_y4_rd :
    passes (exec (.ipY4Rd 5) v61) (fun t => sub5 t ==
      [178, 198, 180, 160, 115, 178, 198, 180, 70, 115, 178, 198, 50, 70, 115, 178]) = true := by decide +kernel

theorem test_ip_y4_vr :
    passes (exec (.ipY4Vr 5) v61) (fun t => sub5 t ==
      [205, 190, 170, 150, 178, 198, 180, 160, 115, 205, 190, 170, 70, 178, 198, 180]) = true := by decide +kernel

theorem test_ip_y4_vl :
    passes (exec (.ipY4Vl 5) v61) (fun t => sub5 t ==
      [190, 170, 150, 130, 180, 160, 140, 120, 170, 150, 130, 100, 160, 140, 120, 80]) = true := by decide +kernel

theorem test_ip_y4_hd :
    passes (exec (.ipY4Hd 5) v61) (fun t => sub5 t ==
      [150, 178, 198, 180, 80, 115, 150, 178, 60, 70, 80, 115, 40, 50, 60, 70]) = true := by decide +kernel

theorem test_ip_y4_hu :
    passes (exec (.ipY4Hu 5) v61) (fun t => sub5 t ==
      [80, 70, 60, 50, 60, 50, 40, 35, 40, 35, 30, 30, 30, 30, 30, 30]) = true := by decide +kernel

/-- V6.2: above-right of the right column, at the last macroblock column and in row 0. -/
theorem test_above_right :
    ([3, 7, 11, 15].all fun b => ((List.range 4).all fun j =>
      let s := { ((State.reset.setCr 1 0x00200020).setMbpos 1 1) with topb := ⟨true, 0, [(31, 77)], [], []⟩ }
      s.nb 0 0 (s.subAboveAt b (4 + j)).1 (s.subAboveAt b (4 + j)).2 == some 77 &&
        one.nb 0 0 (one.subAboveAt b (4 + j)).1 (one.subAboveAt b (4 + j)).2 == some 127)) = true := by
  decide +kernel

/-- P3, step 7. -/
theorem test_ip_mb :
    passes (exec .ipMb (one.setCur { MbRec.zero with mode := .vPred }))
      (fun t => t.pix 0 0 0 0 == some 127 && t.pix 0 0 15 15 == some 127 && t.pix 0 1 7 7 == some 128 &&
        t.pix 0 2 0 0 == some 128) = true := by decide +kernel

/-- V6.4 and R288: no row above, no CUR slot, not intra. -/
theorem test_ip_errors :
    answers (exec .ipMb (around.setCr 18 0x7777)) .stateNoRef = true ∧
    answers (exec (.ipY4Dc 0) { around with topb := Topb.reset }) .sequence = true ∧
    answers (exec .ipMb (one.setCur { MbRec.zero with mode := .new })) .badOperand = true := by decide +kernel

/-! ## Motion compensator -/

/-- A 16x16 frame with slot 0 as reference 1, filled by column and row, and slot 1 as CUR. -/
def mcFrom (f : Nat → Nat → Nat) : State :=
  let s := one.setCr 18 0x7701
  let pl (n : Nat) := blockPixels 0 0 n n fun r c => BitVec.ofNat 8 (f c r)
  ((s.setPlane 0 0 (pl 16)).setPlane 0 1 (pl 8)).setPlane 0 2 (pl 8)

/-- V7.1: the step edge at `fx = 4`, six-tap. -/
theorem test_mc_luma :
    passes (exec (.mcLuma 1) (((mcFrom fun x _ => if x < 4 then 0 else 255).setArg 0 0x00000002).setArg 1 1
      |>.setArg 2 0x0404))
      (fun t => (List.range 4).map (fun c => t.pix 1 0 (1 + c) 0) == [some 6, some 0, some 128, some 255] &&
        t.pix 1 0 5 0 == none) = true := by decide +kernel

/-- V7.1: the step edge at `fx = 1`, six-tap, and at `fx = 7`, bilinear. -/
theorem test_mc_chroma :
    passes (exec (.mcChroma 1 2) (((mcFrom fun x _ => if x < 4 then 0 else 255).setArg 0 0x00000001).setArg 1 1
      |>.setArg 2 0x0404))
      (fun t => (List.range 4).map (fun c => t.pix 1 2 (1 + c) 3) == [some 0, some 0, some 22, some 255]) = true ∧
    passes (exec (.mcChroma 1 1) ((((mcFrom fun x _ => if x < 4 then 0 else 255).setCr 0 2).setArg 0 0x00000007).setArg
      1 1 |>.setArg 2 0x0404))
      (fun t => (List.range 4).map (fun c => t.pix 1 1 (1 + c) 3) == [some 0, some 0, some 223, some 255]) =
        true := by decide +kernel

/-- V7.2: the impulse, a clamp after each pass. -/
theorem test_mc_two_passes :
    ((mcFrom fun x y => if x = 4 ∧ y = 4 then 255 else 0).predictBlock 0 0 ⟨3, 3, 4, 4⟩ 4 2).toOption =
      some ([92, 92, 0, 4, 92, 92, 0, 4] : List Byte) := by decide +kernel

/-- `MC_MB` with a zero vector copies the macroblock (R304 with fraction 0); V7.5: reference 0. -/
theorem test_mc_mb :
    passes (exec .mcMb ((mcFrom fun x y => x + 2 * y).setCur { MbRec.zero with ref := .previous, mode := .zero }))
      (fun t => t.pix 1 0 15 15 == some 45 && t.pix 1 0 3 1 == some 5 && t.pix 1 2 7 7 == some 21) = true ∧
    answers (exec .mcMb one) .badOperand = true := by decide +kernel

/-- R307: halves away from zero. -/
theorem test_quarter_sum : [-9, -7, -6, -5, -2, -1, 1, 2, 5, 6, 7].map quarterSum =
    [-2, -2, -2, -1, -1, 0, 0, 1, 1, 2, 2] := by decide +kernel

/-! ## Inverse transform and dequantiser -/

/-- R15 and R332: with another `DCQ` set, every entry 9, the multipliers made from it change. -/
theorem test_other_tables :
    passes (@execWith ⟨{ dcq := List.replicate 128 9 }⟩ (.itDqsetup 0) State.reset)
      (fun t => decide (Memory.find t.dq 0 = some ⟨9, 4, 18, 8, 9, 4⟩)) = true := by decide +kernel

/-- V8.1, row `q = 50` with its deltas, and row 127. -/
theorem test_it_dqsetup :
    passes (exec (.itDqsetup 2) (((State.reset.setCr 10 50).setCr 11 0x07F80FF1).setCr 12 0xF9))
      (fun t => Memory.find t.dq 2 == some ⟨32, 54, 120, 71, 52, 47⟩) = true ∧
    passes (exec (.itDqsetup 0) ((State.reset.setCr 10 127).setCr 11 0x000F0000))
      (fun t => Memory.find t.dq 0 == some ⟨157, 284, 314, 440, 132, 284⟩) = true := by decide +kernel

/-- V8.2, the last row. -/
theorem test_it_wht :
    passes (exec .itWht { one with
      coef := ([-37, 12, 5, 0, -9, 3, 0, 1, 20, 0, 0, 0, -6, 0, 2, 15] : List Int).zipIdx.map fun e => (384 + e.2, e.1) })
      (fun t => (List.range 16).map (fun b => t.coefAt b 0) ==
        [1, -5, -5, -7, -7, -4, -12, -7, -3, -8, -7, -9, -1, 2, -4, 1]) = true := by decide +kernel

/-- V8.3, the last row, on pixels of 100: block 3 of V. -/
theorem test_it_idct_add :
    passes (exec (.itIdctAdd 2 3) { one.setPlane 0 2 (blockPixels 0 0 8 8 fun _ _ => 100) with
      coef := ([50, 10, -10, 5, 20, -5, 0, 0, -30, 0, 8, 0, 0, 3, 0, -2] : List Int).zipIdx.map fun e =>
        (coefKey 23 e.2, e.1) })
      (fun t => (List.range 16).map (fun i => t.pix 0 2 (4 + i % 4) (4 + i / 4)) ==
        ([106, 106, 106, 105, 110, 113, 115, 108, 109, 112, 110, 104, 102, 99, 100, 96] : List Byte).map some &&
        t.pix 0 2 3 3 == some 100) = true := by decide +kernel

/-- P3, step 8, chroma; of a B_PRED macroblock no luma pixel is touched (R342). -/
theorem test_it_mb :
    passes (exec .itMb { (((one.setPlane 0 0 [(0, 9)]).setPlane 0 1 (blockPixels 0 0 8 8 fun _ _ => 128)).setPlane 0 2
        (blockPixels 0 0 8 8 fun _ _ => 128)).setCur { MbRec.zero with mode := .bPred } with
          coef := [(1, 42), (256, -26), (384, 130)] })
      (fun t => t.plane 0 0 == [(0, 9)] && t.pix 0 1 3 3 == some 125 && t.pix 0 1 4 4 == some 128 &&
        t.pix 0 2 0 0 == some 128 && t.coefAt 0 0 == 0) = true := by decide +kernel

/-! ## Loop filter -/

/-- V9.2: programs P3 and P5. -/
theorem test_lf_params :
    passes (exec .lfParams (((one.setCr 0 1).setCr 6 0x28).setCur { MbRec.zero with mode := .vPred }))
      (fun t => t.result 0 == 0x01011414 && Memory.find t.lfp 0 == some ⟨20, 20, 1, true⟩) = true ∧
    passes (exec .lfParams (((one.setCr 0 1).setCr 6 0x1E).setCur { MbRec.zero with skip := true }))
      (fun t => t.result 0 == 0x00010F0F) = true := by decide +kernel

/-- R360: every LF operation needs the CUR role; R463: the position comes first. -/
theorem test_lf_params_errors :
    answers (exec .lfParams (one.setCr 18 0x7777)) .stateNoRef = true ∧
    answers (exec .lfParams State.reset) .badMbpos = true := by decide +kernel

/-- V9.1: sharpness above 4, the floor of 1, and the interframe step at 20. -/
theorem test_lf_limits :
    (interiorLimit 8 5, interiorLimit 20 4, interiorLimit 3 7, interiorLimit 63 7) = (2, 5, 1, 2) ∧
    (hevThreshold 20 false, hevThreshold 20 true, hevThreshold 40 false, hevThreshold 14 true) = (2, 1, 3, 0) := by
  decide +kernel

/-- A line of eight pixels across the vertical edge at x = 4, in row 0. -/
def lineOf (l : List Byte) (limits : Word) : State :=
  (((one.setPlane 0 0 (l.zipIdx.map fun e => (pixKey e.2 0, e.1))).setArg 0 4).setArg 1 1).setArg 2 limits

/-- The line after a command. -/
def lineAfter (t : State) : List Nat := (List.range 8).map fun x => ((t.pix 0 0 x 0).getD 0).toNat

/-- The examples of R372: `E = 40`, and `E = 20`, which leaves the line. -/
theorem test_lfs_edge :
    passes (exec (.lfsEdge 0 0) (lineOf [0, 0, 100, 104, 112, 110, 0, 0] 40))
      (fun t => lineAfter t == [0, 0, 100, 106, 110, 110, 0, 0]) = true ∧
    passes (exec (.lfsEdge 0 0) (lineOf [0, 0, 100, 104, 112, 110, 0, 0] 20))
      (fun t => lineAfter t == [0, 0, 100, 104, 112, 110, 0, 0]) = true := by decide +kernel

/-- The examples of R374: no hev, and hev. -/
theorem test_lfn_inner :
    passes (exec (.lfnInner 0 0) (lineOf [100, 101, 102, 104, 112, 113, 114, 115] 0x00020A28))
      (fun t => lineAfter t == [100, 101, 104, 107, 109, 111, 114, 115]) = true ∧
    passes (exec (.lfnInner 0 0) (lineOf [250, 252, 254, 255, 240, 238, 236, 235] 0x00030A3C))
      (fun t => lineAfter t == [250, 252, 251, 249, 246, 241, 236, 235]) = true := by decide +kernel

/-- The examples of R375 and V9.3. -/
theorem test_lfn_mbedge :
    passes (exec (.lfnMbedge 0 0) (lineOf [80, 80, 80, 80, 96, 96, 96, 96] 0x00020A2C))
      (fun t => lineAfter t == [80, 82, 84, 87, 89, 92, 94, 96]) = true ∧
    passes (exec (.lfnMbedge 0 0) (lineOf [128, 126, 120, 124, 134, 136, 134, 128] 0x00010F31))
      (fun t => lineAfter t == [128, 126, 120, 126, 132, 136, 134, 128]) = true := by decide +kernel

/-- An edge too near the border is refused (R374). -/
theorem test_lf_edge_error : answers (exec (.lfnInner 0 0) ((lineOf [] 0).setArg 0 3)) .badOperand = true := by
  decide +kernel

/-- P5: two macroblocks, at step 11 with the position at (1, 0); `w` says how many
columns on each side of the edge are there. -/
def p5At (w : Nat) : State :=
  let s := (((State.reset.setCr 0 0x11).setCr 1 0x00100020).setCr 6 0x1E).setCr 18 0x7770
  let pl (n a b : Nat) := blockPixels (n - w) 0 (2 * w) n fun _ c =>
    BitVec.ofNat 8 (if c < w then a else b)
  let s := ((s.setPlane 0 0 (pl 16 80 96)).setPlane 0 1 (pl 8 100 104)).setPlane 0 2 (pl 8 128 128)
  { s.setMbpos 1 0 with lfp := [(0, ⟨15, 15, 1, false⟩), (1, ⟨15, 15, 1, false⟩)] }

/-- P5, eight columns of every row. -/
def p5 : State := p5At 4

/-- The end pixels of P5. -/
def p5End (t : State) : Bool :=
  (List.range 8).map (fun x => t.pix 0 0 (12 + x) 15) ==
    ([80, 82, 84, 87, 89, 92, 94, 96] : List Byte).map some &&
  (List.range 8).map (fun x => t.pix 0 1 (4 + x) 7) ==
    ([100, 101, 101, 102, 102, 103, 103, 104] : List Byte).map some

theorem test_lf_mb : passes (exec .lfMb p5) p5End = true := by decide +kernel

/-- The row of P5 with the simple filter, by hand from R370 and R371: `a = 32`, `F1 = F2 = 4`; chroma
stays. -/
theorem test_lf_row :
    passes (exec .lfRow (p5.setCr 6 0x1F)) (fun t => (List.range 4).map (fun x => t.pix 0 0 (14 + x) 15) ==
      ([80, 84, 92, 96] : List Byte).map some && t.plane 0 1 == p5.plane 0 1) = true := by decide +kernel

/-! ## Frame control -/

/-- R438 and V10.5. -/
theorem test_fc_reset :
    passes (exec .fcReset p5) (fun t => t.readCr 18 == 0x7777 && t.readCr 1 == 0 && t.pix 0 0 0 0 == none) = true := by
  decide +kernel

/-- R441: a position outside the frame is stored, bits outside the two fields are not. -/
theorem test_fc_setmb :
    passes (exec .fcSetmb (one.setArg 0 0xFFFFFFFF)) (fun t => t.readCr 19 == 0x07FF07FF) = true := by
  decide +kernel

/-- P5, step 8, and P3, step 12; V10.4: beyond the last row. -/
theorem test_fc_nextmb :
    passes (exec .fcNextmb (p5.setMbpos 0 0)) (fun t => t.result 0 == 0x00000001) = true ∧
    passes (exec .fcNextmb one) (fun t => t.result 0 == 0x00010000 && t.mby == 1) = true ∧
    answers (exec .fcNextmb (one.setMbpos 0 1)) .badMbpos = true := by decide +kernel

theorem test_fc_rowstart :
    passes (exec .fcRowstart { one with nzLeft := Vector.replicate 9 true }) (fun t => t.nzLeft == nzZero) = true := by
  decide +kernel

/-- P5, step 10: the last row of each plane, here of a frame in which nothing else is specified. -/
theorem test_fc_rowend :
    passes (exec .fcRowend (((p5At 0).setPlane 0 0 (blockPixels 0 15 32 1 fun _ c => BitVec.ofNat 8 c)).setPlane 0 1
        (blockPixels 0 7 16 1 fun _ _ => 104) |>.setPlane 0 2 (blockPixels 0 7 16 1 fun _ _ => 128)))
      (fun t => t.topb.valid && t.topb.row == 0 && t.topb.y.length == 32 && Memory.find t.topb.y 31 == some 31 &&
        Memory.find t.topb.u 8 == some 104 && Memory.find t.topb.v 15 == some 128) = true := by decide +kernel

/-- V10.5: `CR1` derives `CR2`; `CR16` ignores the write. -/
theorem test_fc_wrctl :
    passes (exec (.fcWrctl 1) { State.reset.setArg 0 0x000C0014 with allocAnswers := [true] })
      (fun t => t.readCr 2 == 0x00010002 && t.readCr 18 == 0x7777) = true ∧
    passes (exec (.fcWrctl 16) (State.reset.setArg 0 0xFFFFFFFF)) (fun t => t.readCr 16 == 0) = true := by
  decide +kernel

/-- R406: the allocator refuses, and `CR1` stays. -/
theorem test_fc_wrctl_refused :
    answers (exec (.fcWrctl 1) { State.reset.setArg 0 0x000C0014 with allocAnswers := [false] }) .alloc = true := by
  decide +kernel

/-- V10.5. -/
theorem test_fc_rdctl :
    passes (exec (.fcRdctl 18) State.reset) (fun t => t.result 0 == 0x00007777) = true ∧
    passes (exec (.fcRdctl 2) one) (fun t => t.result 0 == 0x00010001) = true := by decide +kernel

/-- R445, R446 and V10.4. -/
theorem test_fc_prob :
    passes (exec (.fcWrprob 200) (State.reset.setArg 0 1107)) (fun t => t.prob == [(1107, 200)]) = true ∧
    answers (exec (.fcWrprob 200) (State.reset.setArg 0 1108)) .badOperand = true ∧
    passes (exec (.fcRdprob 1) { State.reset.setArg 0 5 with probSaved := [(5, 77)] }) (fun t => t.result 0 == 77) =
      true := by decide +kernel

theorem test_fc_probsave :
    passes (exec .fcProbsave { one with prob := [(5, 7)] }) (fun t => t.probSaved == [(5, 7)] && t.prob == [(5, 7)]) =
      true ∧
    passes (exec .fcProbrestore { one with prob := [(5, 7)] }) (fun t => t.prob == []) = true := by decide +kernel

/-- P4: slot 0 in all roles, so slot 1; V10.3: slots 0, 1, 2 hold roles; V10.4: no size. -/
theorem test_fc_framestart :
    passes (exec .fcFramestart (one.setCr 18 0x0000)) (fun t => t.readCr 18 == 0x0001 && t.result 0 == 1) = true ∧
    passes (exec .fcFramestart (one.setCr 18 0x0122)) (fun t => t.readCr 18 == 0x0123) = true ∧
    answers (exec .fcFramestart State.reset) .badSize = true := by decide +kernel

/-- R56, U2: the pixels of the slot handed out are unspecified, those of a reference stay. -/
theorem test_fc_framestart_pixels :
    passes (exec .fcFramestart (((one.setCr 18 0x2217).setPlane 0 0 [(0, 5)]).setPlane 1 0 [(0, 6)]))
      (fun t => t.curSlot == some 0 && t.pix 0 0 0 0 == none && t.pix 1 0 0 0 == some 6) = true := by decide +kernel

/-- V10.3, frame 2 (`UPD_LAST`, both from the other role), and P4's `0x0011`. -/
theorem test_fc_frameend :
    passes (exec .fcFrameend ((one.setCr 18 0x1012).setCr 13 0x9F)) (fun t => t.readCr 18 == 0x0122) = true ∧
    passes (exec .fcFrameend ((one.setCr 18 0x0001).setCr 13 0x1E)) (fun t => t.readCr 18 == 0x0011) = true ∧
    answers (exec .fcFrameend State.reset) .stateNoRef = true := by decide +kernel

theorem test_fc_wrarg :
    passes (exec (.fcWrarg 2) (State.reset.setRes 0 0x1234)) (fun t => t.arg 2 == 0x1234 && t.arg 0 == 0) = true := by
  decide +kernel

/-- Program P2's frame in `CBUF`, the allocator granting. -/
def p2 (l : List Byte) : State :=
  { (State.reset.setArg 1 (BitVec.ofNat 32 l.length)) with cbuf := bytes l, allocAnswers := [true] }

/-- Program P2's frame. -/
def p2Frame : List Byte :=
  [0x10, 0x01, 0x00, 0x9D, 0x01, 0x2A, 0x10, 0x00, 0x10, 0x00, 0x00, 0x00, 0x14, 0x08, 0x05, 0xFF, 0xC6, 0x00]

/-- P3's first partition, its fields read up to the commit flag. -/
def p3Fields : State :=
  hCommit (hQuant (hPartCount (hDeltas (hFilter (hSegmentation (hColor
    (onBytes [0x05, 0x00, 0x14, 0x08, 0x05, 0xFE, 0xAC, 0x00] 0 (rdSt 0x0500 255 0 2 8))))))))

/-- P3, step 2: `LEVEL = 20`, `YAC_QI = 10`, `UPD_PROBS = 1`, everything else 0. -/
theorem test_fc_header_fields :
    [0, 3, 6, 9, 10, 11, 12, 13].map p3Fields.crRaw = [0, 0, 0x28, 0, 10, 0, 0, 0x80] := by decide +kernel

/-- Two partitions, whose table of sizes stands at offset 17. -/
def twoParts (l : List Byte) : State := { one.setCr 9 1 with cbuf := l.zipIdx.map fun e => (17 + e.2, e.1) }

/-- V10.2 h, i, j. -/
theorem test_fc_partitions :
    (hPartitions 0 17 17 (twoParts [])).toOption = none ∧
    (hPartitions 0 22 17 (twoParts [5, 0, 0, 0xAA, 0xBB])).toOption = none ∧
    (hPartitions 0 20 17 (twoParts [0, 0, 0])).toOption.map (fun t => [21, 22, 33, 34].map t.crRaw) =
      some [20, 20, 0, 0] := by decide +kernel

/-- V10.2 a, b, e: an interframe first, a frame of two bytes, profile 4; the real open tables. -/
theorem test_fc_header_errors :
    answers (exec .fcHeader (p2 [0xB1, 0x01, 0x00, 0x00])) .stateNoKeyframe = true ∧
    answers (exec .fcHeader (p2 [0x10, 0x01])) .structTruncated = true ∧
    answers (exec .fcFrame (p2 [0x18, 0x01, 0x00])) .badProfile = true := by decide +kernel

/-- V10.2 d, f, g: the start code, a width of 0, a first partition that is too long. -/
theorem test_fc_frame_errors :
    answers (exec .fcFrame (p2 (p2Frame.set 5 0x2B))) .structStartcode = true ∧
    answers (exec .fcFrame (p2 (p2Frame.set 6 0))) .badSize = true ∧
    answers (exec .fcFrame (p2 (p2Frame.set 1 2))) .structTruncated = true := by decide +kernel

/-! ## Words through the step (V2.6, V10.4) -/

theorem test_word_errors :
    wordAnswers 0x01800009 .badOperand = true ∧ wordAnswers 0x02210000 .badOperand = true ∧
    wordAnswers 0x01800100 .illegalCmd = true ∧ wordAnswers 0xFF000000 .illegalCmd = true ∧
    wordAnswers 0x852C0000 .badOperand = true ∧ wordAnswers 0x8C000000 .badSize = true := by decide +kernel

/-- An instance on a buffer of three bytes, the host about to write a byte. -/
def hostWrites (a : Word) (b : Byte) : State :=
  { onBytes [1, 2, 3] 3 (rdSt 0x0102 255 0 2 3) with hostq := [.writeCbuf a b] }

/-- Whether the instance has a changed buffer after the step. -/
def sawChange (s : State) : Option Bool :=
  match step s with
  | .next t => some (t.rdAt 3).changed.isSome
  | _ => none

/-- R71, U14: a new byte inside the buffer is a change under the instance; the same byte, and one outside, is
none. -/
theorem test_cbuf_change :
    sawChange (hostWrites 2 9) = some true ∧ sawChange (hostWrites 2 3) = some false ∧
    sawChange (hostWrites 3 9) = some false := by decide +kernel

/-! ## States and operands that meet the hypotheses of the statements -/

theorem find_range {α : Type} (f : Nat → α) (n i : Nat) :
    Memory.find ((List.range n).map fun j => (j, f j)) i = if i < n then some (f i) else none := by
  induction n with
  | zero => rfl
  | succ n ih =>
    have happ : ∀ (m l : Memory α), Memory.find (m ++ l) i = (Memory.find m i).or (Memory.find l i) := by
      intro m l
      induction m with
      | nil => rfl
      | cons p m ih =>
        rw [List.cons_append, Memory.find_cons, Memory.find_cons, ih]
        split <;> rfl
    rw [List.range_succ, List.map_append, happ, ih]
    by_cases h : i < n
    · rw [if_pos h, if_pos (by omega)]; rfl
    · rw [if_neg h, Option.none_or, List.map_cons, List.map_nil, Memory.find_cons]
      by_cases h2 : n = i
      · subst h2; rw [if_pos rfl, if_pos (by omega)]
      · rw [if_neg (by simpa using h2), if_neg (by omega)]; rfl

/-- A slot of one macroblock, every pixel specified. -/
def fullFrame : Frame where
  y := blockPixels 0 0 16 16 fun r c => BitVec.ofNat 8 (r + c)
  u := blockPixels 0 0 8 8 fun _ _ => 128
  v := blockPixels 0 0 8 8 fun _ _ => 128

/-- Every probability specified. -/
@[irreducible] def fullProb : Memory Byte := (List.range 1108).map fun i => (i, 128)

theorem fullProb_find {i : Nat} (h : i < 1108) : Memory.find fullProb i = some 128 := by
  unfold fullProb
  rw [find_range, if_pos h]

/-- One macroblock, everything specified: CUR 0, PREV 1, GOLD 2, ALT 3. -/
def ready : State :=
  { (State.reset.setCr 1 0x00100010).setCr 18 0x3210 with
    rd := Vector.replicate 9 (rdStart [] 0 0)
    prob := fullProb
    dq := (List.range 4).map fun i => (i, ⟨13, 14, 26, 21, 13, 14⟩)
    lfp := [(0, ⟨20, 20, 1, true⟩)]
    fb := Vector.replicate 4 fullFrame }

/-- A block in the last corner of the frame, with a vector far outside. -/
def mcReady : State := ((ready.setArg 0 0x7FFF8001).setArg 1 0x000C000C).setArg 2 0x0404

theorem ready_pos : ready.posOk = true := by decide +kernel

theorem ready_rd : ∀ k < 9, ready.rdValid k = true := by decide +kernel

theorem ready_prob_eq : ready.prob = fullProb := rfl

theorem ready_probAt {i : Nat} (h : i < 1108) : ready.probAt i = some 128 := by
  unfold State.probAt
  rw [ready_prob_eq]
  exact fullProb_find h

theorem ready_prob {lo n : Nat} (h : lo + n ≤ 1108) : ready.ProbKnown lo n := by
  intro i hi
  rw [ready_probAt (by omega)]
  rfl

theorem fullFrame_pix {p x y : Nat} (hx : x < mbSize p) (hy : y < mbSize p) :
    (Memory.find (fullFrame.plane p) (pixKey x y)).isSome = true := by
  unfold Frame.plane fullFrame
  unfold mbSize at hx hy
  split
  · rw [if_pos (by assumption)] at hx hy
    rw [find_blockPixels _ (by omega) (by omega), if_pos (by omega)]; rfl
  · rw [if_neg (by assumption)] at hx hy
    split <;> (rw [find_blockPixels _ (by omega) (by omega), if_pos (by omega)]; rfl)

theorem ready_slot {n : Nat} (hn : n < 4) : ready.SlotKnown n := by
  intro p hp x y hx hy
  have hw : ready.planeW p = mbSize p := by unfold State.planeW mbSize; split <;> decide +kernel
  have hh : ready.planeH p = mbSize p := by unfold State.planeH mbSize; split <;> decide +kernel
  have hf : ready.plane n p = fullFrame.plane p := by
    unfold State.plane
    show ((Vector.replicate 4 fullFrame)[n]?.getD Frame.empty).plane p = _
    rw [Vector.getElem?_replicate, if_pos hn]
    rfl
  unfold State.pix
  rw [hf]
  exact fullFrame_pix (by omega) (by omega)

theorem ready_mb {n : Nat} (hn : n < 4) : ∀ p < 3, ∀ x y, ready.inMb p x y → (ready.pix n p x y).isSome = true := by
  intro p hp x y h
  have hx : ready.mbx = 0 := by decide +kernel
  have hy : ready.mby = 0 := by decide +kernel
  have hs : ready.planeW p = mbSize p ∧ ready.planeH p = mbSize p := by
    constructor
    · unfold State.planeW mbSize; split <;> decide +kernel
    · unfold State.planeH mbSize; split <;> decide +kernel
  unfold State.inMb inBlock at h
  rw [hx, hy] at h
  exact ready_slot hn p hp x y (by omega) (by omega)

/-- Macroblock (0, 1) of a frame of one column and two rows, with the row above in `TOPB`. -/
def second : State :=
  { (((State.reset.setCr 1 0x00200010).setCr 18 0x3210).setMbpos 0 1) with
    topb := ⟨true, 0, (List.range 16).map fun i => (i, 100), (List.range 8).map fun i => (i, 100),
      (List.range 8).map fun i => (i, 100)⟩ }

/-- A keyframe of one macroblock with a first partition of 9 bytes and an empty table: every byte of the
partitions is 0. -/
def keyFrame : State :=
  { ready.setArg 1 40 with
    cbuf := bytes ([0x30, 0x01, 0x00, 0x9D, 0x01, 0x2A, 0x10, 0x00, 0x10, 0x00] ++ List.replicate 30 0)
    allocAnswers := [true] }

theorem witness_EncodeDecodeAgree : decode 0x74020100 = .ok (.lfnMbedge 2 1) := by decide +kernel

theorem witness_RejectedWords :
    (∀ m, reservedBits (opField 0x00000100).toNat = some m → (0x00000100 : Word) &&& m ≠ 0) ∧
    reservedBits (opField 0x19000000).toNat = none ∧
    reservedBits (opField 0x420A0000).toNat = some 0xFF ∧ (0x420A0000 : Word) &&& 0xFF = 0 ∧
    selectorMax (opField 0x420A0000).toNat < (aField 0x420A0000).toNat := by
  refine ⟨fun m h => ?_, by decide +kernel⟩
  have : m = 0x0000FF00 ∨ m = 0x00FFFF00 := by
    have h' : reservedBits (opField 0x00000100).toNat = some 0x00FFFF00 := by decide +kernel
    exact .inr (Option.some.inj (h.symm.trans h'))
  rcases this with rfl | rfl <;> decide

theorem witness_StepRunsDecodedCommand :
    (ready.withFetchWord 32 0x0180000A).hostq = [.command 0x0180000A] ∧ decode 0x01800008 = .ok (.rdBool 128 8) ∧
    decode (BitVec.ofNat 32 0x8E000000) = .ok .fcFrame := by decide +kernel

theorem witness_StepTakesHostEvents :
    (∃ t, step ready = .next t) ∧ decode 0x05000000 = .error .illegalCmd ∧ decode 0x42FF0000 = .error .badOperand ∧
    (∃ t, step { ready with hostq := [.writeArg 3 5] } = .next t) ∧
    (∃ t, step { ready with hostq := [.writeCbuf 0xFFFFFFFF 7, .writeArg 0 1] } = .next t) ∧
    ((hostWrites 2 9).rdAt 3).valid = true ∧
    2 - ((hostWrites 2 9).rdAt 3).base < ((hostWrites 2 9).rdAt 3).size ∧
    Memory.find (hostWrites 2 9).cbuf 2 ≠ some 9 ∧
    ¬(3 - ((hostWrites 3 9).rdAt 3).base < ((hostWrites 3 9).rdAt 3).size) :=
  ⟨⟨_, rfl⟩, by decide +kernel, by decide +kernel, ⟨_, rfl⟩, ⟨_, rfl⟩, by decide +kernel⟩

theorem witness_IllFormedCommandRaises : (Instr.rdBool 0 9).wf = false ∧ (Instr.fcWrctl 44).wf = false := by
  decide +kernel

theorem witness_ErrorLeavesState :
    answers (exec .fcFramestart State.reset) .badSize = true ∧
    answers (exec (.fcWrctl 1) { State.reset.setArg 0 0x00100010 with allocAnswers := [false] }) .alloc = true := by
  decide +kernel

theorem witness_FrameErrorLeavesState :
    answers (exec .fcHeader ready) .structTruncated = true ∧ answers (exec .fcFrame ready) .structTruncated = true ∧
    answers (exec .fcHeader ((ready.setArg 0 0xFFFFFFFF).setArg 1 2)) .badOperand = true := by decide +kernel

/-- The last column but one past it, the last row but one past it, and a row command. -/
theorem witness_PositionIsChecked :
    Instr.mdRef.wf = true ∧ needsPosition .mdRef = true ∧ (ready.setMbpos 1 0).posOk = false ∧
    (ready.setMbpos 0 1).posOk = false ∧ (ready.setMbpos 0 1).mbH ≤ (ready.setMbpos 0 1).mby := by decide +kernel

theorem witness_DecoderIsChecked :
    (Instr.cdMb 8).wf = true ∧ readsInstance (.cdMb 8) = some 8 ∧ one.posOk = true ∧ one.rdValid 8 = false ∧
    readsInstance .mpSplit = some 0 ∧ (Instr.rdBool 0 8).wf = true ∧ State.reset.rdValid 8 = false := by
  decide +kernel

theorem needs_nothing {s : State} {i : Instr} (h : i = .itMb ∨ i = .fcRowend ∨ i = .lfParams) : s.ArgsOk i := by
  rcases h with rfl | rfl | rfl <;> constructor <;> intros <;> simp_all

/-- A whole block, a reference role that holds no slot, and an edge, each with its ARG registers in order. -/
theorem witness_SlotAndBorderAreChecked_args :
    (ready.setCr 18 0x3214).ArgsOk .itMb ∧ (mcReady.setCr 18 0x3710).ArgsOk (.mcLuma 2) ∧
    (mcReady.setCr 18 0x3710).ReadsRole (.mcLuma 2) 8 ∧
    (((ready.setArg 0 4).setArg 1 16).setCr 18 0x3217).ArgsOk (.lfnMbedge 0 0) := by
  refine ⟨needs_nothing (.inl rfl), ?_, .inl ⟨2, rfl, rfl⟩, ?_⟩
  · constructor <;> intros <;> simp_all only [Instr.mcLuma.injEq, reduceCtorEq]
    exact (lumaBlock_iff _).2 (by decide +kernel)
  · constructor <;> intros <;> simp_all only [Instr.lfnMbedge.injEq, reduceCtorEq]
    rename_i h
    obtain ⟨rfl, rfl⟩ := h
    exact (edgeInside_iff _ _).2 (by decide +kernel)

theorem witness_SlotAndBorderAreChecked :
    needsCur .itMb = true ∧ (ready.setCr 18 0x3214).posOk = true ∧ 3 < (ready.setCr 18 0x3214).crField 18 0 3 ∧
    needsCur (.mcLuma 2) = true ∧ (mcReady.setCr 18 0x3710).crField 18 0 3 ≤ 3 ∧
    3 < (mcReady.setCr 18 0x3710).crField 18 8 3 ∧ needsCur (.lfnMbedge 0 0) = true ∧
    needsCur .fcRowend = true ∧ 3 < (ready.setCr 18 0x3217).crField 18 0 3 ∧
    (ready.setCr 18 0x3217).mby < (ready.setCr 18 0x3217).mbH ∧
    (Instr.ipY4Hu 15).wf = true ∧ predictsIntra (.ipY4Hu 15) = true ∧ second.posOk = true ∧
    second.crField 18 0 3 ≤ 3 ∧ 0 < second.mby ∧ ({ second with topb := Topb.reset } : State).topb.valid = false ∧
    ({ second with topb := { second.topb with row := 1 } } : State).topb.row.toNat ≠ second.mby - 1 := by
  decide +kernel

theorem one_clean : one.CrClean :=
  setCr_clean (fun _ => by decide) (setCr_clean (fun _ => by decide) reset_clean)

theorem one_fetches : ∃ t, step (one.withFetchWord 32 0x8C000000) = .next t := ⟨_, rfl⟩

theorem witness_MemoriesStayCanonical :
    (one.withFetchWord 32 0x8C000000).MemWf ∧ ∃ t, step (one.withFetchWord 32 0x8C000000) = .next t := by
  refine ⟨⟨?_, ?_, ?_, ?_, ?_, ?_, ?_, ?_, ?_, ?_, ?_⟩, one_fetches⟩
  case refine_9 => exact fun n p => empty_plane_wf n p
  case refine_10 =>
    intro p
    show Memory.wf (Topb.reset.plane p)
    unfold Topb.plane Topb.reset
    simp
  all_goals first | exact List.Pairwise.nil | exact Memory.wfD_nil _

theorem witness_ReservedBitsStayZero :
    (one.withFetchWord 32 0x8C000000).CrClean ∧ ∃ t, step (one.withFetchWord 32 0x8C000000) = .next t :=
  ⟨one_clean, one_fetches⟩

/-- An initialised instance at a state of V2.1, five bits already shifted in. -/
def running : State := one.setRd 3 (rdSt 0x9DC0 160 5 2 6)

theorem witness_RangeDecodersStayNormal :
    (running.withFetchWord 32 0x01800003).RdInv ∧ running.rdValid 3 = true ∧
    ∃ t, step (running.withFetchWord 32 0x01800003) = .next t := by
  refine ⟨?_, by decide +kernel, ⟨_, rfl⟩⟩
  refine setRd_inv (s := one) (fun _ => ⟨by decide, by decide, by decide⟩) fun k h => ?_
  have : one.rdAt k = Rd.reset := by
    unfold State.rdAt
    show (Vector.replicate 9 Rd.reset)[k]?.getD Rd.reset = _
    rw [Vector.getElem?_replicate]
    split <;> rfl
  rw [this] at h
  cases h

theorem witness_CommandsLeaveHostItems : (∃ t, exec .itWht ready = .next t) ∧ ∀ j, Instr.itWht ≠ .fcWrarg j :=
  ⟨⟨_, rfl⟩, fun _ h => by cases h⟩

theorem witness_UnitsLeaveControlRegisters :
    writesControl .lfParams = false ∧ passes (exec .lfParams ready) (fun _ => true) = true := by decide +kernel

/-- An intra predictor, and the command that hands out slot 0 and leaves slot 1. -/
theorem witness_OnlyCurSlotIsWritten :
    passes (exec .ipY16Dc ready) (fun _ => true) = true ∧ ready.curSlot ≠ some 1 ∧ ready.curSlot ≠ some 3 ∧
    passes (exec .fcFramestart ready) (fun t => t.curSlot != some 1) = true := by
  decide +kernel

/-- The refused forms of several statements: an operand just outside its range, an instance that is not
initialised, a position outside the frame, no CUR slot. -/
theorem witness_RefusedForms :
    8 < (9 : Byte).toNat ∧ 32 < (33 : Byte).toNat ∧ 31 < (32 : Byte).toNat ∧ 9 < (10 : Byte).toNat ∧
    (21 : Byte).toNat % 2 = 1 ∧ (treeOf (0 : Byte).toNat).length ≤ (6 : Byte).toNat ∧ 3 < (4 : Byte).toNat ∧
    one.rdValid (8 : Byte).toNat = false ∧ State.reset.posOk = false ∧
    (one.setCr 18 0x7777).posOk = true ∧ (one.setCr 18 0x7777).curSlot = none ∧
    State.reset.mbH ≤ State.reset.mby ∧ (one.setCr 18 0x7777).mby < (one.setCr 18 0x7777).mbH := by decide +kernel

theorem witness_RdInitResult :
    (8 : Byte).toNat ≤ 8 ∧ ((State.reset.setArg 0 0xFFFFFFFF).arg 0).toNat + ((State.reset.setArg 0 0xFFFFFFFF).arg
      1).toNat ≤ 2 ^ 32 ∧
    (((State.reset.setArg 0 0xFFFFFFFF).setArg 1 1).arg 0).toNat + 1 = 2 ^ 32 ∧
    2 ^ 32 < (((State.reset.setArg 0 0xFFFFFFFF).setArg 1 2).arg 0).toNat +
      (((State.reset.setArg 0 0xFFFFFFFF).setArg 1 2).arg 1).toNat := by decide +kernel

/-- The second is a state in which `value < range * 256` does not hold (V2.4). -/
theorem witness_RdBoolResult :
    running.rdValid (3 : Byte).toNat = true ∧ (running.rdAt 3).Inv ∧
    (running.rdAt 3).value.toNat < 256 * (running.rdAt 3).range.toNat ∧
    (rdSt 0xFFFF 255 0 2 3).Inv ∧ ¬((rdSt 0xFFFF 255 0 2 3).value.toNat < 256 * 255) := by
  refine ⟨by decide +kernel, ?_, by decide +kernel, ⟨by decide, by decide, by decide⟩, by decide⟩
  have : running.rdAt 3 = rdSt 0x9DC0 160 5 2 6 := by decide +kernel
  rw [this]
  exact ⟨by decide, by decide, by decide⟩

theorem witness_RdLiteralResults : (8 : Byte).toNat ≤ 8 ∧ ready.rdValid (8 : Byte).toNat = true ∧
    (32 : Byte).toNat ≤ 32 ∧ (31 : Byte).toNat ≤ 31 := by decide +kernel

/-- The last node of tree 9, whose two entries are leaves, and the root of tree 0, one of which is not. -/
theorem witness_RdTreeResult :
    (20 : Byte).toNat % 2 = 0 ∧ (20 : Byte).toNat < (treeOf (9 : Byte).toNat).length ∧
    ready.rdValid (0 : Byte).toNat = true ∧ (treeOf 9).getD (20 + 1) 0 ≤ 0 ∧ 0 < (treeOf 0).getD (0 + 1) 0 := by
  decide +kernel

theorem witness_MdFlagResults :
    ready.posOk = true ∧ ready.rdValid 0 = true ∧ (ready.crBit 3 0 && ready.crBit 3 1) = false ∧
    ((ready.setCr 3 3).crBit 3 0 && (ready.setCr 3 3).crBit 3 1) = true ∧ ready.crBit 14 0 = false ∧
    (ready.setCr 14 1).crBit 14 0 = true := by decide +kernel

theorem witness_MdFlagResults_prob : (ready.setCr 3 3).ProbKnown segidIndex 3 ∧
    (ready.setCr 14 1).probAt mbskipIndex = some 128 :=
  ⟨ready_prob (lo := 1101) (n := 3) (by omega),
    ready_probAt (by decide)⟩

theorem witness_MdModeResults : ready.posOk = true ∧ ready.rdValid 0 = true ∧ ready.ProbKnown ymodeIndex 4 ∧
    ready.ProbKnown uvmodeIndex 3 :=
  ⟨ready_pos, ready_rd 0 (by omega), ready_prob (lo := 1094) (by omega), ready_prob (lo := 1098) (by omega)⟩

theorem witness_MdSubModes : (one.setRd 0 (rdStart [] 0 0)).MemWf ∧
    (one.setRd 0 (rdStart [] 0 0)).posOk = true ∧ (one.setRd 0 (rdStart [] 0 0)).rdValid 0 = true := by
  have h := witness_MemoriesStayCanonical.1
  exact ⟨⟨h.prob, h.probSaved, h.dq, h.mbinfo, h.segmap, h.nzAbove, h.coef, h.lfp, h.fb, h.topb, h.cbuf⟩,
    by decide +kernel, by decide +kernel⟩

/-- V3.2's bytes read 1, 1; an empty buffer reads 0. -/
theorem witness_MdRefResult :
    ready.posOk = true ∧ ready.rdValid 0 = true ∧ (readBool [] 60 (ready.rdAt 0)).1 = false ∧
    (readBool (bytes [0xE9, 0x80]) 60 (rdSt 0xE980 255 0 2 2)).1 = true ∧
    (readBool (bytes [0xE9, 0x80]) 200 (readBool (bytes [0xE9, 0x80]) 60 (rdSt 0xE980 255 0 2 2)).2).1 = true ∧
    (readBool (bytes [0xE9, 0x80]) 255 (readBool (bytes [0xE9, 0x80]) 60 (rdSt 0xE980 255 0 2 2)).2).1 = false := by
  decide +kernel

theorem witness_MdRefResult_prob : ready.probAt intraIndex = some 128 ∧ ready.probAt lastIndex = some 128 ∧
    ready.probAt goldenIndex = some 128 :=
  ⟨ready_probAt (by decide), ready_probAt (by decide), ready_probAt (by decide)⟩

/-- An interframe (`CR0.KEY = 0`) with everything specified; the same state is a keyframe's with bit 0. -/
theorem witness_MdMbResult : ready.posOk = true ∧ ready.rdValid 0 = true ∧ ready.ProbKnown segidIndex 3 ∧
    ready.ProbKnown mbskipIndex 1 ∧ ready.ProbKnown ymodeIndex 4 ∧ ready.ProbKnown uvmodeIndex 3 ∧
    ready.ProbKnown intraIndex 3 ∧ ready.ProbKnown (mvcIndex 0) 38 :=
  ⟨ready_pos, ready_rd 0 (by omega), ready_prob (lo := 1101) (by omega), ready_prob (lo := 1104) (by omega),
    ready_prob (lo := 1094) (by omega), ready_prob (lo := 1098) (by omega), ready_prob (lo := 1105) (by omega),
    ready_prob (lo := 1056) (by omega)⟩

theorem witness_MpClampResult : (second.setMbpos 0 0).posOk = true ∧ second.posOk = true := by decide +kernel

/-- No inter neighbour; and a lone one above. -/
theorem witness_MpNearResult :
    ready.posOk = true ∧ ready.aboveMb.ref = .current ∧ ready.leftMb.ref = .current ∧
    ready.aboveLeftMb.ref = .current ∧
    (v41 0 .previous (nbr .previous .new 8 0) MbRec.zero MbRec.zero).posOk = true ∧
    (v41 0 .previous (nbr .previous .new 8 0) MbRec.zero MbRec.zero).aboveMb.ref ≠ .current ∧
    (v41 0 .previous (nbr .previous .new 8 0) MbRec.zero MbRec.zero).aboveMb.mv ≠ Mv.zero ∧
    (v41 0 .previous (nbr .previous .new 8 0) MbRec.zero MbRec.zero).leftMb.ref = .current ∧
    (v41 0 .previous (nbr .previous .new 8 0) MbRec.zero MbRec.zero).aboveLeftMb.ref = .current := by
  decide +kernel

theorem witness_MpModeReadmvResults : ready.posOk = true ∧ ready.rdValid 0 = true ∧
    ready.ProbKnown (mvcIndex 0) 38 :=
  ⟨ready_pos, ready_rd 0 (by omega), ready_prob (lo := 1056) (by omega)⟩

/-- The last partition of the finest shape is the last sub-block. -/
theorem witness_MpSplitResult : ready.posOk = true ∧ ready.rdValid 0 = true ∧ ready.ProbKnown (mvcIndex 0) 38 ∧
    (splitFirst.getD 3 [])[15]? = some 15 :=
  ⟨ready_pos, ready_rd 0 (by omega), ready_prob (lo := 1056) (by omega), by decide +kernel⟩

theorem witness_MpMbResult : ready.posOk = true ∧ ready.rdValid 0 = true ∧ ready.ProbKnown (mvcIndex 0) 38 :=
  witness_MpModeReadmvResults

theorem witness_CdBlockResult : okTypeBlock 3 15 = true ∧ okTypeBlock 1 24 = true ∧ okTypeBlock 0 0 = true ∧
    (8 : Byte).toNat ≤ 8 ∧ ready.posOk = true ∧ ready.rdValid (8 : Byte).toNat = true ∧
    ready.ProbKnown (264 * (3 : Byte).toNat) 264 ∧
    Memory.find ready.dq ready.seg = some ⟨13, 14, 26, 21, 13, 14⟩ :=
  ⟨by decide, by decide, by decide, by decide, ready_pos, ready_rd 8 (by omega),
    ready_prob (lo := 792) (by omega), by decide +kernel⟩

theorem witness_CdMbResult : ready.posOk = true ∧ ready.rdValid (8 : Byte).toNat = true ∧ ready.DqKnown ∧
    hasY2 ready.cur.mode = true ∧ ready.ProbKnown 0 792 ∧
    hasY2 (ready.setCur { MbRec.zero with mode := .split }).cur.mode = false ∧ ready.ProbKnown 528 528 ∧
    (cdSequence true 8)[24]? = some (.cdBlock 2 23 8) ∧ (cdSequence false 8)[0]? = some (.cdBlock 3 0 8) :=
  ⟨ready_pos, ready_rd 8 (by omega), by unfold State.DqKnown; decide +kernel, by decide +kernel,
    ready_prob (by omega), by decide +kernel, ready_prob (by omega), by decide +kernel, by decide +kernel⟩

theorem witness_CdSkipmbResult : ready.posOk = true := ready_pos

theorem second_above : ∀ p < 3, second.NbKnown 0 p (second.cornerAt p :: (List.range (mbSize p)).map
    (second.aboveAt p)) := by unfold State.NbKnown; decide +kernel

/-- The corner of the frame, where every neighbour is a constant, and a macroblock below row 0. -/
theorem witness_IpWholeBlockResults :
    ready.posOk = true ∧ ready.curSlot = some 0 ∧ ready.mby = 0 ∧ ready.NbKnown 0 0 (ready.wholeReads 0 .tmPred) ∧
    ready.NbKnown 0 1 (ready.wholeReads 1 .dcPred) ∧ ready.NbKnown 0 2 (ready.wholeReads 2 .dcPred) ∧
    second.posOk = true ∧ second.curSlot = some 0 ∧ second.topb.valid = true ∧
    second.topb.row.toNat + 1 = second.mby ∧ second.NbKnown 0 0 (second.wholeReads 0 .dcPred) := by
  unfold State.NbKnown; decide +kernel

theorem witness_IpSubBlockResults :
    (15 : Byte).toNat < 16 ∧ ready.posOk = true ∧ ready.curSlot = some 0 ∧ ready.mby = 0 ∧
    ready.NbKnown 0 0 (ready.y4Reads 15 .hd) ∧ ready.NbKnown 0 0 (ready.y4Reads 3 .ld) ∧
    second.NbKnown 0 0 (second.y4Reads 3 .vl) := by unfold State.NbKnown; decide +kernel

theorem witness_IpMbResult :
    ready.posOk = true ∧ ready.curSlot = some 0 ∧ ready.mby = 0 ∧ ready.crField 18 0 3 ≤ 3 ∧
    ready.cur.mode.num ≤ 4 ∧ (ready.setCur { MbRec.zero with mode := .bPred }).cur.mode.num ≤ 4 ∧
    (∀ p < 3, ready.NbKnown 0 p (ready.cornerAt p :: ready.leftAts p ++
      (List.range (mbSize p + 4)).map (ready.aboveAt p))) ∧
    4 < (ready.setCur { MbRec.zero with mode := .zero }).cur.mode.num := by
  unfold State.NbKnown; decide +kernel

/-- A luma and a chroma block inside their planes; a size that is not legal, and a block past the edge. -/
theorem witness_McBlockResults :
    ready.refSlot (3 : Byte).toNat = some 3 ∧ ready.curSlot = some 0 ∧ mcReady.argBlockInside [4, 8, 16] 0 ∧
    (mcReady.setArg 1 0x00040004).argBlockInside [4, 8] (2 : Byte).toNat ∧
    ¬(mcReady.setArg 2 0x0405).argBlockInside [4, 8, 16] 0 ∧
    ¬mcReady.argBlockInside [4, 8] (1 : Byte).toNat :=
  ⟨by decide +kernel, by decide +kernel, (lumaBlock_iff _).2 (by decide +kernel),
    (chromaBlock_iff _ _).2 (by decide +kernel), (lumaBlock_iff _).not.2 (by decide +kernel),
    (chromaBlock_iff _ _).not.2 (by decide +kernel)⟩

theorem witness_McBlockResults_plane : mcReady.PlaneKnown 3 0 ∧ mcReady.PlaneKnown 3 2 :=
  ⟨fun x y hx hy => ready_slot (n := 3) (by omega) 0 (by omega) x y hx hy,
    fun x y hx hy => ready_slot (n := 3) (by omega) 2 (by omega) x y hx hy⟩

/-- An inter macroblock, split and whole, of another slot than CUR. -/
theorem witness_McMbResult :
    ready.cur.ref = .current ∧ (ready.setCur { MbRec.zero with ref := .altref, mode := .split }).cur.ref ≠ .current ∧
    (ready.setCur { MbRec.zero with ref := .altref, mode := .split }).refSlot 3 = some 3 ∧
    ready.curSlot = some 0 := by decide +kernel

theorem slotKnown_setCur {s : State} {n : Nat} (r : MbRec) (h : s.SlotKnown n) : (s.setCur r).SlotKnown n := h

theorem witness_McMbResult_slot :
    (ready.setCur { MbRec.zero with ref := .altref, mode := .split }).SlotKnown 3 :=
  slotKnown_setCur _ (ready_slot (by omega))

theorem witness_ItDqsetupResult : (3 : Byte).toNat ≤ 3 := by decide

theorem witness_ItIdctAddResult :
    (2 : Byte).toNat ≤ 2 ∧ (3 : Byte).toNat < (if (2 : Byte).toNat = 0 then 16 else 4) ∧ ready.posOk = true ∧
    ready.curSlot = some 0 ∧ ∀ x y, inBlock 4 4 4 4 x y → (ready.pix 0 2 x y).isSome = true := by
  refine ⟨by decide, by decide, ready_pos, by decide +kernel, fun x y h => ?_⟩
  unfold inBlock at h
  refine ready_mb (n := 0) (by omega) 2 (by omega) x y ?_
  have hx : ready.mbx = 0 := by decide +kernel
  have hy : ready.mby = 0 := by decide +kernel
  unfold State.inMb inBlock
  rw [hx, hy]
  simp [mbSize]
  omega

theorem witness_ItMbIsItsSequence : ready.posOk = true ∧ ready.curSlot = some 0 ∧
    ∀ p < 3, ∀ x y, ready.inMb p x y → (ready.pix 0 p x y).isSome = true :=
  ⟨ready_pos, by decide +kernel, ready_mb (by omega)⟩

/-- Each range of the sharpness and of the level has a value: 0, 4 and 5; 14, 15, 20 and 40. -/
theorem witness_LfParamsResult :
    ready.posOk = true ∧ ready.crField 18 0 3 ≤ 3 ∧ field ((ready.setCr 6 0x280).crRaw 6) 7 3 = 5 ∧
    field ((ready.setCr 6 0x200).crRaw 6) 7 3 = 4 ∧ field (ready.crRaw 6) 7 3 = 0 ∧
    (ready.setCr 6 0x1C).lfLevel = 14 ∧ (ready.setCr 6 0x1E).lfLevel = 15 ∧ (ready.setCr 6 0x28).lfLevel = 20 ∧
    (ready.setCr 6 0x50).lfLevel = 40 := by decide +kernel

/-- The middle edge of luma, one that begins too near the border, and one of length 0. -/
theorem witness_LfEdgeResults :
    (2 : Byte).toNat ≤ (if EdgeKind.inner = .simple then 0 else 2) ∧ (1 : Byte).toNat ≤ 1 ∧
    ready.curSlot = some 0 ∧
    ((ready.setArg 0 4).setArg 1 16).edgeInside (((ready.setArg 0 4).setArg 1 16).argEdge .mbEdge 0 0) ∧
    ¬((ready.setArg 0 3).setArg 1 16).edgeInside (((ready.setArg 0 3).setArg 1 16).argEdge .mbEdge 0 0) ∧
    ¬((ready.setArg 0 4).setArg 1 0).edgeInside (((ready.setArg 0 4).setArg 1 0).argEdge .mbEdge 0 0) :=
  ⟨by decide, by decide, by decide +kernel, (edgeInside_iff _ _).2 (by decide +kernel),
    (edgeInside_iff _ _).not.2 (by decide +kernel), (edgeInside_iff _ _).not.2 (by decide +kernel)⟩

theorem witness_LfEdgeResults_pixels :
    let e := (((ready.setArg 0 4).setArg 1 2).argEdge .mbEdge 0 0)
    ∀ k < e.len, ∀ i ∈ e.kind.reads, (ready.pix 0 e.p (e.px k i) (e.py k i)).isSome = true := by decide +kernel

/-- Lines on which the masks fail and hold, with and without a high edge variance, and a flat one. -/
theorem witness_LfFiltersAreBounded :
    (∀ i < 8, 0 ≤ (⟨80, 80, 80, 80, 96, 96, 96, 255⟩ : Line).at i ∧
      (⟨80, 80, 80, 80, 96, 96, 96, 255⟩ : Line).at i ≤ 255) ∧
    (⟨80, 80, 80, 80, 96, 96, 96, 255⟩ : Line).smask ⟨39, 63, 0⟩ = false ∧
    (⟨80, 80, 80, 80, 96, 96, 96, 255⟩ : Line).nmask ⟨49, 15, 0⟩ = false ∧
    (⟨80, 80, 80, 80, 96, 96, 96, 96⟩ : Line).nmask ⟨40, 63, 0⟩ = true ∧
    (∀ i < 8, (⟨9, 9, 9, 9, 9, 9, 9, 9⟩ : Line).at i = 9) := by
  refine ⟨fun i hi => ?_, by decide, by decide, by decide, fun i hi => ?_⟩ <;> interval_cases i <;> decide

theorem witness_LfRowResults : ready.mby < ready.mbH ∧ ready.curSlot = some 0 ∧ ready.mbx < ready.mbW ∧
    Memory.find ready.lfp ready.mbx = some ⟨20, 20, 1, true⟩ ∧ ready.SlotKnown 0 ∧
    (∀ x < ready.mbW, Memory.find ready.lfp x = some ⟨20, 20, 1, true⟩) ∧
    Memory.find ({ ready with lfp := [(0, ⟨0, 1, 0, true⟩)] } : State).lfp ready.mbx = some ⟨0, 1, 0, true⟩ ∧
    ∀ x < ready.mbW, ∃ r, Memory.find ({ ready with lfp := [(0, ⟨0, 1, 0, true⟩)] } : State).lfp x = some r ∧
      r.level = 0 := by
  have hw : ready.mbW = 1 := by decide +kernel
  refine ⟨by decide +kernel, by decide +kernel, by decide +kernel, by decide +kernel, ready_slot (by omega), ?_,
    by decide +kernel, ?_⟩
  · intro x hx
    obtain rfl : x = 0 := by omega
    decide +kernel
  · intro x hx
    obtain rfl : x = 0 := by omega
    exact ⟨⟨0, 1, 0, true⟩, by decide +kernel, rfl⟩

/-- The last column of a row, and one before it. -/
theorem witness_FcPositionResults : ready.posOk = true ∧ ¬(ready.mbx + 1 < ready.mbW) ∧
    (v41 0 .previous MbRec.zero MbRec.zero MbRec.zero).mbx + 1 < 4 := by decide +kernel

theorem witness_FcRowendResult : ready.mby < ready.mbH ∧ ready.curSlot = some 0 ∧ ∀ p < 3, ∀ x < ready.planeW p,
    (ready.pix 0 p x (mbSize p * ready.mby + (mbSize p - 1))).isSome = true := by
  refine ⟨by decide +kernel, by decide +kernel, fun p hp x hx => ready_slot (n := 0) (by omega) p hp x _ hx ?_⟩
  have hy : ready.mby = 0 := by decide +kernel
  have hh : ready.planeH p = mbSize p := by unfold State.planeH mbSize; split <;> decide +kernel
  have : 0 < mbSize p := by unfold mbSize; split <;> omega
  rw [hy, hh]
  omega

theorem witness_FcControlResults :
    (43 : Byte).toNat ≤ 43 ∧ crMask (15 : Byte).toNat = 0 ∧ (16 : Byte).toNat ≠ 1 ∧
    (one.setArg 0 0x40104010).sizeChanges 0x40104010 = false ∧ one.sizeChanges 0x00110010 = true ∧
    ({ one with allocAnswers := [true] } : State).askAllocator.1 = true ∧
    ({ one with allocAnswers := [false] } : State).askAllocator.1 = false := by decide +kernel

/-- The last index of a context, and one past it. -/
theorem witness_FcTableResults :
    (1 : Byte).toNat ≤ 1 ∧ (3 : Byte).toNat ≤ 3 ∧ ((ready.setArg 0 1107).arg 0).toNat ≤ 1107 ∧
    1107 < ((ready.setArg 0 1108).arg 0).toNat ∧ Memory.find ready.probSaved 1107 = none := by decide +kernel

theorem witness_FcTableResults_prob : Memory.find ready.prob 1107 = some 128 := by
  rw [ready_prob_eq]
  exact fullProb_find (by omega)

theorem witness_FcFramestartResult : ready.mbW ≠ 0 ∧ ready.mbH ≠ 0 ∧ State.reset.mbW = 0 := by decide +kernel

theorem witness_FcFrameendResult : ready.curSlot = some 0 := by decide +kernel

/-- An input for each check, and one byte more for the lengths. -/
theorem witness_FcHeaderChecks :
    (let t (l : List Byte) : Nat := (p2 l).frameTag 0; t [0x18, 0x01, 0x00] / 2 % 8 = 4 ∧ t [0xB1, 0x01, 0x00] % 2 = 1 ∧
      t p2Frame % 2 = 0 ∧ t p2Frame / 32 = 8 ∧ t p2Frame / 2 % 8 ≤ 3) ∧
    (p2 p2Frame).frameByte 0 3 = 0x9D ∧ (p2 p2Frame).frameLe 0 6 2 % 2 ^ 14 = 16 ∧
    (p2 (p2Frame.set 6 0)).frameLe 0 6 2 % 2 ^ 14 = 0 ∧ State.reset.keyframeSeen = false ∧
    (State.reset.setCr 16 1).keyframeSeen = true := by decide +kernel

theorem partSizes_zero (s : State) (h7 : ∀ i < 7, s.partSize 0 i = 0) (n : Nat) (hn : n ≤ 8) :
    ((List.range (n - 1)).map (s.partSize 0)).sum = 0 := by
  have h : ∀ l : List Nat, (∀ i ∈ l, i < 7) → (l.map (s.partSize 0)).sum = 0 := by
    intro l
    induction l with
    | nil => intro _; rfl
    | cons a l ih =>
      intro h
      rw [List.map_cons, List.sum_cons, h7 a (h a (List.mem_cons_self ..)),
        ih fun i hi => h i (List.mem_cons_of_mem _ hi)]
  exact h _ fun i hi => by have := List.mem_range.mp hi; omega

theorem npart_le (s : State) : s.npart ≤ 8 := by
  unfold State.npart
  have h : s.crField 9 0 2 < 2 ^ 2 := by unfold State.crField field; exact Nat.mod_lt _ (by decide)
  exact Nat.pow_le_pow_right (n := 2) (by decide) (show s.crField 9 0 2 ≤ 3 by omega)

theorem headerNpart_le (s : State) (base : Word) : s.headerNpart base ≤ 8 := npart_le _

/-- The table of sizes ends the frame's first 40 bytes, whatever the number of partitions is. -/
theorem layout_le (s : State) (h : s.partTable 0 ≤ 19) (h7 : ∀ i < 7, s.partSize 0 i = 0) :
    s.partStart 0 (s.headerNpart 0) (s.headerNpart 0 - 1) ≤ (40 : Word).toNat := by
  have hn := headerNpart_le s 0
  have h40 : (40 : Word).toNat = 40 := rfl
  unfold State.partStart
  rw [partSizes_zero s h7 _ hn, h40]
  omega

theorem keyFrame_layout (s : State) (h : s = keyFrame ∨ s = keyFrame.frameBegin ∨ s = keyFrame.setCr 1 0) :
    s.partStart 0 (s.headerNpart 0) (s.headerNpart 0 - 1) ≤ (40 : Word).toNat :=
  layout_le s (by rcases h with rfl | rfl | rfl <;> decide +kernel) (by rcases h with rfl | rfl | rfl <;> decide +kernel)

theorem keyFrame_header (s : State) (h : s = keyFrame ∨ s = keyFrame.frameBegin ∨ s = keyFrame.setCr 1 0) : s.HeaderOk 0 40 where
  buffer := by decide +kernel
  tag := by decide +kernel
  profile := by rcases h with rfl | rfl | rfl <;> decide +kernel
  keyframe := .inl (by rcases h with rfl | rfl | rfl <;> decide +kernel)
  header _ := by decide +kernel
  start _ := by rcases h with rfl | rfl | rfl <;> decide +kernel
  size _ := by rcases h with rfl | rfl | rfl <;> decide +kernel
  first := by rcases h with rfl | rfl | rfl <;> decide +kernel

theorem keyFrame_ok (s : State) (h : s = keyFrame ∨ s = keyFrame.frameBegin ∨ s = keyFrame.setCr 1 0) : s.FrameOk 0 40 where
  toHeaderOk := keyFrame_header s h
  layout := keyFrame_layout s h

/-- A keyframe whose header gives several partitions, the first of which is too long for the frame. -/
def partFrame : State :=
  { ready.setArg 1 40 with
    cbuf := bytes ([0x30, 0x01, 0x00, 0x9D, 0x01, 0x2A, 0x10, 0x00, 0x10, 0x00] ++ List.replicate 30 0xFE) }

/-- What the header reads after the number of partitions does not touch it, whatever the open tables are. -/
theorem headerNpart_eq (s : State) (base : Word) (hk : tagKey (s.frameTag base) = true) :
    s.headerNpart base = (hPartCount (hDeltas (hFilter (hSegmentation (hColor
      (hKeyReset Config.openTables (s.beforeFields base))))))).npart := by
  unfold State.headerNpart hFields State.npart State.crField
  simp only [hk, if_true]
  rw [hSkip_leaves _ 9 (by decide), hTokens_leaves _ _ 9 (by decide), hCommit_leaves _ 9 (by decide),
    hQuant_leaves _ 9 (by decide)]

theorem witness_FcHeaderChecks_partition : partFrame.arg 0 = 0 ∧ partFrame.arg 1 = 40 ∧ partFrame.HeaderOk 0 40 ∧
    ∃ i < partFrame.headerNpart 0 - 1,
      (40 : Word).toNat < partFrame.partStart 0 (partFrame.headerNpart 0) i + partFrame.partSize 0 i := by
  have hn : partFrame.headerNpart 0 = 8 := by
    rw [headerNpart_eq _ _ (by decide +kernel)]
    decide +kernel
  refine ⟨by decide +kernel, by decide +kernel, ?_, 0, by omega, by rw [hn]; decide +kernel⟩
  exact {
    buffer := by decide +kernel, tag := by decide +kernel, profile := by decide +kernel
    keyframe := .inl (by decide +kernel), header := fun _ => by decide +kernel, start := fun _ => by decide +kernel
    size := fun _ => by decide +kernel, first := by decide +kernel }

/-- The same frame as `keyFrame`, with another size than the present one, and an allocator that refuses. -/
def refusedFrame : State := { keyFrame.setCr 1 0 with allocAnswers := [false] }

theorem witness_FcHeaderChecks_alloc : refusedFrame.HeaderOk 0 40 ∧ tagKey (refusedFrame.frameTag 0) = true ∧
    refusedFrame.sizeChanges (refusedFrame.frameSize 0) = true ∧ refusedFrame.askAllocator.1 = false ∧
    refusedFrame.partTable 0 + 3 * (refusedFrame.headerNpart 0 - 1) ≤ 40 ∧
    ∀ i < refusedFrame.headerNpart 0 - 1,
      refusedFrame.partStart 0 (refusedFrame.headerNpart 0) i + refusedFrame.partSize 0 i ≤ 40 := by
  have hn := headerNpart_le refusedFrame 0
  have ht : refusedFrame.partTable 0 = 19 := by decide +kernel
  have hs : ∀ i < 7, refusedFrame.partSize 0 i = 0 := by decide +kernel
  refine ⟨?_, by decide +kernel, by decide +kernel, by decide +kernel, by omega, fun i hi => ?_⟩
  · exact {
      buffer := by decide +kernel, tag := by decide +kernel, profile := by decide +kernel
      keyframe := .inl (by decide +kernel), header := fun _ => by decide +kernel, start := fun _ => by decide +kernel
      size := fun _ => by decide +kernel, first := by decide +kernel }
  · unfold State.partStart
    rw [show i = i + 1 - 1 from rfl, partSizes_zero refusedFrame hs (i + 1) (by omega), hs (i + 1 - 1) (by omega)]
    omega

/-- An interframe after a keyframe: a first partition of 9 bytes. -/
def interFrame : State :=
  { (ready.setArg 1 40).setKeyframeSeen with cbuf := bytes ([0x31, 0x01, 0x00] ++ List.replicate 37 0) }

theorem interFrame_layout (s : State) (h : s = interFrame.frameBegin ∨ s = interFrame) :
    s.partStart 0 (s.headerNpart 0) (s.headerNpart 0 - 1) ≤ (40 : Word).toNat :=
  layout_le s (by rcases h with rfl | rfl <;> decide +kernel) (by rcases h with rfl | rfl <;> decide +kernel)

theorem interFrame_ok (s : State) (h : s = interFrame.frameBegin ∨ s = interFrame) : s.FrameOk 0 40 where
  buffer := by decide +kernel
  tag := by decide +kernel
  profile := by rcases h with rfl | rfl <;> decide +kernel
  keyframe := .inr (by rcases h with rfl | rfl <;> decide +kernel)
  header _ := by decide +kernel
  start := fun k => by revert k; rcases h with rfl | rfl <;> decide +kernel
  size := fun k => by revert k; rcases h with rfl | rfl <;> decide +kernel
  first := by rcases h with rfl | rfl <;> decide +kernel
  layout := interFrame_layout s h

/-- A keyframe of the present size, one of another size, and an interframe. -/
theorem witness_FcHeaderResult : keyFrame.arg 0 = 0 ∧ keyFrame.arg 1 = 40 ∧
    keyFrame.FrameOk 0 40 ∧ keyFrame.sizeGranted (keyFrame.wantedSize 0) = true ∧
    tagKey (keyFrame.frameTag 0) = true ∧ keyFrame.sizeChanges (keyFrame.frameSize 0) = false :=
  ⟨by decide +kernel, by decide +kernel, keyFrame_ok _ (.inl rfl), by decide +kernel, by decide +kernel,
    by decide +kernel⟩

theorem witness_FcHeaderResult_resized :
    let s := keyFrame.setCr 1 0
    s.arg 0 = 0 ∧ s.arg 1 = 40 ∧ s.FrameOk 0 40 ∧ s.sizeGranted (s.wantedSize 0) = true ∧
      tagKey (s.frameTag 0) = true ∧ s.sizeChanges (s.frameSize 0) = true :=
  ⟨by decide +kernel, by decide +kernel, keyFrame_ok _ (.inr (.inr rfl)), by decide +kernel, by decide +kernel,
    by decide +kernel⟩

theorem witness_FcHeaderResult_inter : interFrame.arg 0 = 0 ∧ interFrame.arg 1 = 40 ∧ interFrame.FrameOk 0 40 ∧
    interFrame.sizeGranted (interFrame.wantedSize 0) = true ∧ tagKey (interFrame.frameTag 0) = false :=
  ⟨by decide +kernel, by decide +kernel, interFrame_ok _ (.inr rfl), by decide +kernel, by decide +kernel⟩

theorem slotKnown_of {s t : State} {n : Nat} (h : s.SlotKnown n) (hf : t.fb = s.fb)
    (hc : t.crRaw 1 = s.crRaw 1) : t.SlotKnown n := by
  have hw : ∀ p, t.planeW p = s.planeW p := fun p => by unfold State.planeW State.mbW; rw [hc]
  have hh : ∀ p, t.planeH p = s.planeH p := fun p => by unfold State.planeH State.mbH; rw [hc]
  intro p hp x y hx hy
  have := h p hp x y (hw p ▸ hx) (hh p ▸ hy)
  unfold State.pix State.plane at this ⊢
  rw [hf]
  exact this

theorem witness_FcFrameResult : interFrame.arg 0 = 0 ∧ interFrame.arg 1 = 40 ∧
    interFrame.frameBegin.FrameOk 0 40 ∧ interFrame.sizeGranted (interFrame.wantedSize 0) = true ∧
    tagKey (interFrame.frameTag 0) = false ∧ interFrame.mbW ≠ 0 ∧ interFrame.mbH ≠ 0 :=
  ⟨by decide +kernel, by decide +kernel, interFrame_ok _ (.inl rfl), by decide +kernel, by decide +kernel,
    by decide +kernel, by decide +kernel⟩

theorem witness_FcFrameResult_tables : interFrame.ProbKnown 0 1101 ∧ ∀ ref, 1 ≤ ref → ref ≤ 3 →
    ∃ slot, interFrame.refSlot ref = some slot ∧ interFrame.SlotKnown slot := by
  refine ⟨fun i hi => ready_prob (lo := 0) (n := 1101) (by omega) i hi, fun ref h1 h3 => ⟨ref, ?_, ?_⟩⟩
  · obtain rfl | rfl | rfl : ref = 1 ∨ ref = 2 ∨ ref = 3 := by omega
    all_goals decide +kernel
  · exact slotKnown_of (ready_slot (by omega)) rfl (by decide +kernel)

/-- A keyframe; a frame that the policy discards and one that it does not; an error of the header. -/
theorem witness_FcFrameResult_key : keyFrame.frameBegin.FrameOk 0 40 ∧ (ready.setCr 17 3).discards ∧
    ¬ready.discards ∧ answers (exec .fcHeader ready.frameBegin) .structTruncated = true := by
  refine ⟨keyFrame_ok _ (.inr (.inl rfl)), .inl (by decide +kernel), ?_, by decide +kernel⟩
  have h : ready.crField 17 0 2 = 0 := by decide +kernel
  unfold State.discards
  rw [h]
  omega
end Sys2Proof.Tests
end

section
/-! PROOFS. The state (10_state.md): reset, the invariants of a step, and what commands leave alone. -/

namespace Sys2Proof.Machine

variable {A : Set Tag} {s t : State}

/-! ## The state after reset (R59) -/

theorem arg_reset (j : Nat) : State.reset.arg j = 0 := by
  show (Vector.replicate 4 (0 : Word))[j]?.getD 0 = 0
  rw [Vector.getElem?_replicate]
  split <;> rfl

theorem result_reset (j : Nat) : State.reset.result j = 0 := arg_reset j

theorem rdAt_reset (k : Nat) : State.reset.rdAt k = Rd.reset := by
  show (Vector.replicate 9 Rd.reset)[k]?.getD Rd.reset = Rd.reset
  rw [Vector.getElem?_replicate]
  split <;> rfl

theorem rdValid_reset (k : Nat) : State.reset.rdValid k = false := by rw [State.rdValid, rdAt_reset]; rfl

theorem plane_reset (n p : Nat) : State.reset.plane n p = [] := by
  show ((Vector.replicate 4 Frame.empty)[n]?.getD Frame.empty).plane p = []
  rw [Vector.getElem?_replicate]
  split <;> simp [Frame.empty, Frame.plane]

theorem topbPlane_reset (p : Nat) : State.reset.topb.plane p = [] := by
  show Topb.reset.plane p = []
  simp [Topb.reset, Topb.plane]

theorem readCr_reset (j : Nat) : State.reset.readCr j = if j = 18 then 0x7777 else 0 := by
  unfold State.readCr
  split
  · rename_i hj
    subst hj
    have hw : State.reset.mbW = 0 ∧ State.reset.mbH = 0 := by
      unfold State.mbW State.mbH
      rw [crRaw_reset]
      decide
    rw [hw.1, hw.2]
    decide
  · exact crRaw_reset j

/-- Settles O14: each item of the table of R59, and `FC_RESET`, whose work is `fcReset`. -/
theorem resetResult : Obligations.ResetResult := by
  unfold Obligations.ResetResult
  refine ⟨fun j => ⟨arg_reset j, result_reset j⟩, rdValid_reset, readCr_reset, fun _ => ⟨rfl, rfl⟩,
    fun _ => ⟨rfl, rfl⟩, fun _ _ => rfl, fun _ => ⟨rfl, rfl⟩, rfl, fun _ _ => rfl, rfl, fun n p x y => ?_, rfl,
    fun _ => rfl⟩
  rw [State.pix, plane_reset, Memory.find_nil]

theorem reset_memWf : State.reset.MemWf where
  prob := .nil
  probSaved := .nil
  dq := .nil
  mbinfo := Memory.wfD_nil _
  segmap := Memory.wfD_nil _
  nzAbove := Memory.wfD_nil _
  coef := Memory.wfD_nil _
  lfp := .nil
  fb n p := by rw [plane_reset]; exact .nil
  topb p := by rw [topbPlane_reset]; exact .nil
  cbuf := .nil

/-- No range decoder is initialised after reset. -/
theorem reset_rdInv : State.reset.RdInv := by
  intro k hv
  rw [rdAt_reset] at hv
  cases hv

/-- Settles O18: the three invariants, each of the state after reset. -/
theorem resetMeetsInvariants : Obligations.ResetMeetsInvariants :=
  ⟨reset_memWf, reset_clean, reset_rdInv⟩

/-! ## What every step keeps (R23, R29) -/

theorem hostWriteCbuf_crRaw (s : State) (a : Word) (b : Byte) (j : Nat) :
    (hostWriteCbuf a b s).crRaw j = s.crRaw j := by
  unfold hostWriteCbuf
  split <;> rfl

/-- The host's change of a buffer moves no register that R23 speaks of. -/
theorem noteChange_rdInv (hs : s.RdInv) (a : Word) : (s.noteChange a).RdInv := by
  intro k hv
  rw [State.rdAt_noteChange, Rd.noteChange_eq] at hv ⊢
  split at hv
  · obtain ⟨hr, hl, hc⟩ := hs k hv
    rw [if_pos ‹_›]
    exact ⟨hr, hl, hc⟩
  · rw [if_neg ‹_›]
    exact hs k hv

theorem hostWriteCbuf_rdInv (hs : s.RdInv) (a : Word) (b : Byte) : (hostWriteCbuf a b s).RdInv := by
  unfold hostWriteCbuf
  split
  · exact hs
  · exact noteChange_rdInv (s := { s with cbuf := Memory.set s.cbuf a.toNat b }) hs a

/-- Settles O16: every kind of change keeps the reserved bits 0, and the host's events touch no control
register. -/
theorem reservedBitsStayZero : Obligations.ReservedBitsStayZero := fun _ _ hs h =>
  step_keeps (P := State.CrClean) (fun _ _ _ hm => hm.crClean) (fun _ _ hs => hs)
    (fun s a b hs j => by rw [hostWriteCbuf_crRaw]; exact hs j) h hs

/-- Settles O17: every kind of change keeps R23, and so does the host's write under a range decoder. -/
theorem rangeDecodersStayNormal : Obligations.RangeDecodersStayNormal := fun _ _ hs h =>
  step_keeps (P := State.RdInv) (fun _ _ _ hm => hm.rdInv) (fun _ _ hs => hs)
    (fun _ a b hs => hostWriteCbuf_rdInv hs a b) h hs

/-! ## The work of a command, apart from its end -/

/-- Where the work completes, it has made changes of the kinds of a set. -/
def Works (A : Set Tag) (s : State) (r : Res State) : Prop := ∀ u, r = .ok u → Effects A s u

theorem Works.ok (h : Effects A s t) : Works A s (.ok t) := fun _ hu => Except.ok.inj hu ▸ h

/-- What precedes the work, a check or a value, may be used in it. -/
theorem Works.bind {α : Type} {x : Res α} {f : α → Res State} (h : ∀ a, x = .ok a → Works A s (f a)) :
    Works A s (x >>= f) := fun u hu =>
  let ⟨a, hx, hf⟩ := Res.bind_ok.1 hu
  h a hx u hf

/-- A check, or a value that says nothing of the kinds. -/
theorem Works.after {α : Type} {x : Res α} {f : α → Res State} (h : ∀ a, Works A s (f a)) :
    Works A s (x >>= f) := .bind fun a _ => h a

theorem Works.mono {B : Set Tag} {r : Res State} (hAB : A ⊆ B) (h : Works A s r) : Works B s r :=
  fun u hu => (h u hu).mono hAB

/-- A work on the slot that holds CUR. -/
theorem Works.onCur {f : Nat → Res State} (h : ∀ slot, Works (tagsPlane slot) s (f slot)) :
    Works (tagsCur s) s (needSlot s.curSlot >>= f) :=
  .bind fun slot hs => (h slot).mono fun _ ha => ⟨slot, needSlot_ok.1 hs, ha⟩

/-- The same after the checks of an intra predictor, which yield the slot. -/
theorem Works.onIntra {f : Nat → Res State} (h : ∀ slot, Works (tagsPlane slot) s (f slot)) :
    Works (tagsCur s) s (ipCheck s >>= f) := by
  refine .bind fun slot hs => (h slot).mono fun _ ha => ⟨slot, ?_, ha⟩
  simp only [ipCheck, Res.bind_ok, needSlot_ok, Except.ok.injEq] at hs
  obtain ⟨-, -, x, hx, -, -, rfl⟩ := hs
  exact hx

theorem ipY16_works (m : UvMode) :
    Works (tagsCur s) s (ipCheck s >>= fun slot => ipY16 m slot s) :=
  .onIntra fun _ _ => ipFill_effects (by omega)

theorem ipUv8_works (m : UvMode) :
    Works (tagsCur s) s (ipCheck s >>= fun slot => ipUv8 m slot s) :=
  .onIntra fun _ _ => ipUv8_effects

theorem ipY4_works (m : BMode) (b : Byte) :
    Works (tagsCur s) s (require (okSubBlock b) .badOperand >>= fun _ => ipCheck s >>= fun slot =>
      ipY4 m slot b.toNat s) :=
  .after fun _ => .onIntra fun _ _ => ipY4_effects

theorem edge_works {b : Bool} {e : Edge} (hp : b = true → e.p < 3) :
    Works (tagsCur s) s (require b .badOperand >>= fun _ => require (s.okEdge e) .badOperand >>= fun _ =>
      needSlot s.curSlot >>= fun slot => lfEdge slot s e) :=
  .bind fun _ hb => .after fun _ => .onCur fun _ _ => lfEdge_effects (hp (require_ok.1 hb))

theorem okSimpleEdge_plane {plane dir : Byte} (h : okSimpleEdge plane dir = true) : plane.toNat < 3 := by
  simp only [okSimpleEdge, Bool.and_eq_true, beq_iff_eq] at h
  omega

theorem okNormalEdge_plane {plane dir : Byte} (h : okNormalEdge plane dir = true) : plane.toNat < 3 := by
  simp only [okNormalEdge, Bool.and_eq_true, decide_eq_true_eq] at h
  omega

theorem okChromaPlane_lt {plane : Byte} (h : okChromaPlane plane = true) : plane.toNat < 3 := by
  simp only [okChromaPlane, Bool.and_eq_true, decide_eq_true_eq] at h
  omega

theorem okPlaneBlock_plane {plane block : Byte} (h : okPlaneBlock plane block = true) : plane.toNat < 3 := by
  simp only [okPlaneBlock, Bool.and_eq_true, decide_eq_true_eq] at h
  omega

/-- A command that is not one of the eight FC commands of `writesControl` ends as `finish` ends a work of
its kinds of change, those of the end not among them. -/
theorem exec_work {i : Instr} (hi : writesControl i = false) (s : State) :
    ∃ r, exec i s = finish s r ∧ Works (cmdTags i s) s r := by
  cases i with
  | rdInit k => exact ⟨_, rfl, .after fun _ => .after fun _ => .ok (.one rfl (.rdInit s _ _ _))⟩
  | rdBool p k =>
    exact ⟨_, rfl, .after fun _ => .after fun _ =>
      .ok ((Effects.one (.inl rfl) (.ofBool s _ p)).then (.inr rfl) (.res _ 0 _))⟩
  | rdLit n k =>
    exact ⟨_, rfl, .after fun _ => .after fun _ =>
      .ok ((Effects.one (.inl rfl) (.ofLit s _ _)).then (.inr rfl) (.res _ 0 _))⟩
  | rdSlit n k =>
    exact ⟨_, rfl, .after fun _ => .after fun _ =>
      .ok ((Effects.one (.inl rfl) (.ofSlit s _ _)).then (.inr rfl) (.res _ 0 _))⟩
  | rdTree tree start k =>
    exact ⟨_, rfl, .after fun _ => .after fun _ => .bind fun _ hv =>
      .ok ((Effects.one (.inl rfl) (.ofTree hv)).then (.inr rfl) (.res _ 0 _))⟩
  | mdSegid => exact ⟨_, rfl, .after fun _ _ => mdSegid_effects⟩
  | mdSkip => exact ⟨_, rfl, .after fun _ _ => mdSkip_effects⟩
  | mdYmodeKf => exact ⟨_, rfl, .after fun _ _ => mdYmodeKf_effects⟩
  | mdYmodeIf => exact ⟨_, rfl, .after fun _ _ => mdYmodeIf_effects⟩
  | mdBmodesKf => exact ⟨_, rfl, .after fun _ _ => mdBmodesKf_effects⟩
  | mdBmodesIf => exact ⟨_, rfl, .after fun _ _ => mdBmodesIf_effects⟩
  | mdUvmodeKf | mdUvmodeIf => exact ⟨_, rfl, .after fun _ _ => mdUvmode_effects⟩
  | mdRef => exact ⟨_, rfl, .after fun _ _ => mdRef_effects⟩
  | mdMb => exact ⟨_, rfl, .after fun _ _ => mdMb_effects⟩
  | mpNear =>
    exact ⟨_, rfl, .after fun _ => .ok <| ((((Effects.one (.inl rfl) (.cand s _)).then (.inr rfl)
      (.res _ 0 _)).then (.inr rfl) (.res _ 1 _)).then (.inr rfl) (.res _ 2 _)).then (.inr rfl) (.res _ 3 _)⟩
  | mpMode => exact ⟨_, rfl, .after fun _ => .after fun _ _ => mpMode_effects⟩
  | mpReadmv => exact ⟨_, rfl, .after fun _ => .after fun _ _ => mpReadmv_effects⟩
  | mpSplit => exact ⟨_, rfl, .after fun _ => .after fun _ _ => mpSplit_effects⟩
  | mpClamp => exact ⟨_, rfl, .after fun _ => .ok (.one rfl (.res s 0 _))⟩
  | mpMb => exact ⟨_, rfl, .after fun _ => .after fun _ _ => mpMb_effects⟩
  | cdBlock type block k => exact ⟨_, rfl, .after fun _ => .after fun _ => .after fun _ _ => cdBlock_effects⟩
  | cdMb k => exact ⟨_, rfl, .after fun _ => .after fun _ => .after fun _ _ => cdMb_effects⟩
  | cdSkipmb =>
    exact ⟨_, rfl, .after fun _ => .ok <| ((Effects.one (.inr (.inl rfl)) (.coefClear s)).then (.inl rfl)
      (.nz s.clearCoef _ _)).then (.inr (.inr rfl)) (.res _ 0 0)⟩
  | ipY16Dc | ipY16V | ipY16H | ipY16Tm => exact ⟨_, rfl, ipY16_works _⟩
  | ipUv8Dc | ipUv8V | ipUv8H | ipUv8Tm => exact ⟨_, rfl, ipUv8_works _⟩
  | ipY4Dc b | ipY4Tm b | ipY4Ve b | ipY4He b | ipY4Ld b | ipY4Rd b | ipY4Vr b | ipY4Vl b | ipY4Hd b
  | ipY4Hu b => exact ⟨_, rfl, ipY4_works _ b⟩
  | ipMb => exact ⟨_, rfl, .onIntra fun _ _ => ipMb_effects⟩
  | mcLuma ref =>
    exact ⟨_, rfl, .after fun _ => .after fun _ => .after fun _ => .onCur fun _ _ => mcBlock_effects (by omega)⟩
  | mcChroma ref plane =>
    refine ⟨_, rfl, .bind fun _ hp => .after fun _ => .after fun _ => .onCur fun _ _ => mcBlock_effects ?_⟩
    exact okChromaPlane_lt (Bool.and_eq_true_iff.1 (require_ok.1 hp)).2
  | mcMb => exact ⟨_, rfl, .after fun _ => .after fun _ => .after fun _ => .onCur fun _ _ => mcMb_effects⟩
  | itDqsetup segment => exact ⟨_, rfl, .after fun _ => .ok (.one rfl (.dq s _ _))⟩
  | itWht => exact ⟨_, rfl, .ok (itWht_effects s)⟩
  | itIdctAdd plane block =>
    exact ⟨_, rfl, .bind fun _ hp => .after fun _ => .onCur fun _ _ =>
      itIdctAdd_effects (okPlaneBlock_plane (require_ok.1 hp))⟩
  | itMb =>
    refine ⟨_, rfl, .after fun _ => .bind fun slot hs => Works.mono (A := tagsPix slot) ?_ fun _ => itMb_effects⟩
    rintro a (rfl | ha)
    · exact .inr rfl
    · exact .inl ⟨slot, needSlot_ok.1 hs, ha⟩
  | lfParams => exact ⟨_, rfl, .after fun _ => .after fun _ => .ok (lfParams_effects s)⟩
  | lfMb => exact ⟨_, rfl, .after fun _ => .onCur fun _ _ => lfMbAt_effects⟩
  | lfRow => exact ⟨_, rfl, .after fun _ => .onCur fun _ _ => lfRow_effects⟩
  | lfsEdge plane dir => exact ⟨_, rfl, edge_works okSimpleEdge_plane⟩
  | lfnMbedge plane dir | lfnInner plane dir => exact ⟨_, rfl, edge_works okNormalEdge_plane⟩
  | fcRowstart => exact ⟨_, rfl, .ok (.one rfl (.nzLeft s))⟩
  | fcRowend => exact ⟨_, rfl, .after fun _ => .after fun _ _ => fcRowend_effects⟩
  | fcRdctl reg => exact ⟨_, rfl, .after fun _ => .ok (.one rfl (.res s 0 _))⟩
  | fcWrprob value => exact ⟨_, rfl, .after fun _ => .ok (.one rfl (.ofProb s _ _))⟩
  | fcRdprob copy => exact ⟨_, rfl, .after fun _ => .after fun _ => .ok (.one rfl (.res s 0 _))⟩
  | fcProbsave => exact ⟨_, rfl, .ok (.one rfl (.save s))⟩
  | fcProbrestore => exact ⟨_, rfl, .ok (.one rfl (.restore s))⟩
  | fcWrarg index => exact ⟨_, rfl, .after fun _ => .ok (.one rfl (.arg s _ _))⟩
  | fcReset | fcSetmb | fcNextmb | fcWrctl | fcHeader | fcFramestart | fcFrameend | fcFrame => cases hi


/-! ## The kinds of change of the units -/

/-- The kinds of change that a command outside `writesControl` may make in a state: none of a control register
or of the size, and pixels of the slot that holds CUR alone. -/
def Tag.OfUnit (s : State) : Tag → Prop
  | .cr _ | .resize | .reset | .newSlot _ => False
  | .pix n _ => s.curSlot = some n
  | _ => True

theorem tagsMd_ofUnit (s : State) : ∀ a ∈ tagsMd, a.OfUnit s := by simp [tagsMd, Tag.OfUnit]

theorem tagsCd_ofUnit (k : Nat) (s : State) : ∀ a ∈ tagsCd k, a.OfUnit s := by simp [tagsCd, Tag.OfUnit]

theorem tagsCur_ofUnit (s : State) : ∀ a ∈ tagsCur s, a.OfUnit s := by
  rintro _ ⟨slot, hs, p, -, rfl⟩
  exact hs

theorem cmdTags_ofUnit {i : Instr} (hi : writesControl i = false) (s : State) :
    ∀ a ∈ cmdTags i s, a.OfUnit s := by
  cases i with
  | fcReset | fcSetmb | fcNextmb | fcWrctl | fcHeader | fcFramestart | fcFrameend | fcFrame => cases hi
  | mdSegid | mdSkip | mdYmodeKf | mdYmodeIf | mdBmodesKf | mdBmodesIf | mdUvmodeKf | mdUvmodeIf | mdRef | mdMb
  | mpMode | mpReadmv | mpSplit | mpMb => exact tagsMd_ofUnit s
  | cdBlock | cdMb => exact tagsCd_ofUnit _ s
  | ipY16Dc | ipY16V | ipY16H | ipY16Tm | ipUv8Dc | ipUv8V | ipUv8H | ipUv8Tm
  | ipY4Dc | ipY4Tm | ipY4Ve | ipY4He | ipY4Ld | ipY4Rd | ipY4Vr | ipY4Vl | ipY4Hd | ipY4Hu | ipMb
  | mcLuma | mcChroma | mcMb | itIdctAdd | lfMb | lfRow | lfsEdge | lfnMbedge | lfnInner =>
    exact tagsCur_ofUnit s
  | itMb =>
    rintro a (ha | rfl)
    · exact tagsCur_ofUnit s a ha
    · trivial
  | _ => simp [cmdTags, Tag.OfUnit]

/-! ## The control registers (R29, R43) -/

/-- No unit's work writes a control register. -/
theorem Effects.cr_eq {x : State} (h : Effects A s t) (hA : ∀ a ∈ A, a.OfUnit x) : t.cr = s.cr :=
  h.same State.cr fun a ha _ _ hm =>
    hm.cr_eq (by rintro k rfl; exact hA _ ha) (by rintro rfl; exact hA _ ha) (by rintro rfl; exact hA _ ha)

/-- `raise` writes no bit of `STATUS` below `STATUS.ERR` (R452). -/
theorem raise_crBit (s : State) (c : ErrCode) {b : Nat} (hb : b < 4) :
    (s.raise c).crBit 16 b = s.crBit 16 b := by
  unfold State.raise State.noteError
  split
  · show bitAt ((s.setCrField 16 4 4 c.num).crRaw 16) b = bitAt (s.crRaw 16) b
    rw [State.crRaw_setCrField_self _ _ _ _ (by omega), bitAt_setField_other _ _ (.inl hb) (by omega)]
  · rfl

/-- Settles O20: the work of such a command keeps every control register, and an error adds `raise`. -/
theorem unitsLeaveControlRegisters : Obligations.UnitsLeaveControlRegisters := by
  unfold Obligations.UnitsLeaveControlRegisters
  intro i s t hi h
  obtain ⟨r, hr, hw⟩ := exec_work hi s
  rw [hr] at h
  rcases finish_next.1 h with ⟨u, hu, rfl⟩ | ⟨c, -, rfl⟩
  · have hcr : u.cr = s.cr := (hw u hu).cr_eq (cmdTags_ofUnit hi s)
    have hraw : ∀ j, u.crRaw j = s.crRaw j := fun j => by rw [State.crRaw, hcr, State.crRaw]
    exact ⟨fun j _ => hraw j, congrArg (bitAt · 0) (hraw 16), congrArg (bitAt · 1) (hraw 16), fun _ => hcr⟩
  · exact ⟨fun j hj => s.raise_crRaw c hj, raise_crBit s c (by omega), raise_crBit s c (by omega),
      fun hok => by cases hok⟩

/-! ## The slots (R56) -/

/-- The kinds of change that leave slot `n` alone. -/
def Tag.Spares (n : Nat) : Tag → Prop
  | .resize | .reset => False
  | .pix m _ | .newSlot m => m ≠ n
  | _ => True

theorem Tag.OfUnit.spares {a : Tag} {n : Nat} (ha : a.OfUnit s) (hn : s.curSlot ≠ some n) : a.Spares n := by
  cases a with
  | pix m q => exact fun hm => hn (hm ▸ ha)
  | newSlot | resize | reset => exact ha.elim
  | _ => trivial

theorem tagsEnd_spares (n : Nat) : ∀ a ∈ tagsEnd, a.Spares n := by simp [tagsEnd, Tag.Spares]

theorem Effects.pix_eq {n : Nat} (h : Effects A s t) (hA : ∀ a ∈ A, a.Spares n) (p x y : Nat) :
    t.pix n p x y = s.pix n p x y := by
  have hp : t.plane n p = s.plane n p :=
    h.same (·.plane n p) fun a ha _ _ hm =>
      hm.plane_eq (by rintro q rfl; exact hA _ ha rfl) (by rintro rfl; exact hA _ ha)
        (by rintro rfl; exact hA _ ha) (by rintro rfl; exact hA _ ha rfl)
  rw [State.pix, hp, State.pix]

/-- A command whose own changes leave a slot alone leaves its pixels alone, however it ends. -/
theorem exec_pix_eq {i : Instr} {n : Nat} (h : exec i s = .next t) (hi : ∀ a ∈ cmdTags i s, a.Spares n)
    (p x y : Nat) : t.pix n p x y = s.pix n p x y :=
  (exec_effects h).pix_eq (fun a ha => ha.elim (hi a) (tagsEnd_spares n a)) p x y

theorem raise_pix (s : State) (c : ErrCode) (n p x y : Nat) : (s.raise c).pix n p x y = s.pix n p x y :=
  (raise_effects s c).pix_eq (tagsEnd_spares n) p x y

theorem writeCr_pix (s : State) (i : Nat) (v : Word) (n p x y : Nat) :
    (s.writeCr i v).pix n p x y = s.pix n p x y := by
  unfold State.writeCr
  split <;> rfl

/-- A write of a control register other than `CR1`, the size, touches no slot. -/
theorem exec_fcWrctl_pix {reg : Byte} (hr : reg ≠ 1) (h : exec (.fcWrctl reg) s = .next t) (n p x y : Nat) :
    t.pix n p x y = s.pix n p x y := by
  have h : execFcWrctl reg s = .next t := h
  have hr : reg.toNat ≠ 1 := fun e => hr (BitVec.eq_of_toNat_eq e)
  rw [execFcWrctl, if_neg hr] at h
  rcases finish_next.1 h with ⟨u, hu, rfl⟩ | ⟨c, -, rfl⟩
  · simp only [Res.bind_ok, Except.ok.injEq] at hu
    obtain ⟨-, -, rfl⟩ := hu
    exact writeCr_pix s _ _ n p x y
  · exact raise_pix s c n p x y

theorem fcFramestart_curSlot (s : State) : (fcFramestart s).curSlot = some s.freeSlot := by
  have hlt := freeSlot_lt s
  rw [State.curSlot, State.crField, fcFramestart_roles, field_setField _ _ _ _ (by omega),
    Nat.mod_eq_of_lt (by omega), slotOf, if_pos (by omega)]

/-- `FC_FRAMESTART` clears the slot that it makes CUR, and touches no other. -/
theorem exec_fcFramestart_pix {n : Nat} (h : exec .fcFramestart s = .next t) (hn : t.curSlot ≠ some n)
    (p x y : Nat) : t.pix n p x y = s.pix n p x y := by
  rcases finish_next.1 (show execFcFramestart s = .next t from h) with ⟨u, hu, rfl⟩ | ⟨c, -, rfl⟩
  · simp only [Res.bind_ok, Except.ok.injEq] at hu
    obtain ⟨-, -, rfl⟩ := hu
    refine fcFramestart_pix s (fun e => hn ?_) p x y
    rw [e]
    exact fcFramestart_curSlot s
  · exact raise_pix s c n p x y

/-- Settles O21: a unit writes pixels of the CUR slot alone; of the FC commands that write control registers,
`FC_FRAMESTART` clears the slot that it hands out, and the others write no pixel. -/
theorem onlyCurSlotIsWritten : Obligations.OnlyCurSlotIsWritten := by
  unfold Obligations.OnlyCurSlotIsWritten
  intro i s t hreset hwrctl hheader hframe h n p x y hcur hstart
  by_cases hi : writesControl i = false
  · exact exec_pix_eq h (fun a ha => (cmdTags_ofUnit hi s a ha).spares hcur) p x y
  · cases i with
    | fcReset => exact absurd rfl hreset
    | fcHeader => exact absurd rfl hheader
    | fcFrame => exact absurd rfl hframe
    | fcWrctl reg => exact exec_fcWrctl_pix (fun e => hwrctl (e ▸ rfl)) h n p x y
    | fcFramestart => exact exec_fcFramestart_pix h (hstart rfl) p x y
    | fcSetmb | fcNextmb | fcFrameend => exact exec_pix_eq h (by simp [cmdTags, Tag.Spares]) p x y
    | _ => exact absurd rfl hi

end Sys2Proof.Machine
end

section
/-! PROOFS. The memories (20_memory.md): their canonical form under every step, and what of the host's side no
command writes. -/

namespace Sys2Proof.Machine

variable {A : Set Tag} {s t : State}

/-! ## The canonical form (R70) -/

/-- The mark of a change stands in the range decoders, which are no memory. -/
theorem noteChange_memWf (hs : s.MemWf) (a : Word) : (s.noteChange a).MemWf := { hs with }

theorem hostWriteCbuf_memWf (hs : s.MemWf) (a : Word) (b : Byte) : (hostWriteCbuf a b s).MemWf := by
  have hw : State.MemWf { s with cbuf := Memory.set s.cbuf a.toNat b } :=
    { hs with cbuf := Memory.wf_set hs.cbuf _ _ }
  unfold hostWriteCbuf
  split
  · exact hw
  · exact noteChange_memWf hw a

/-- Settles O15: every kind of change keeps the canonical form, and so does the host's write of a byte. -/
theorem memoriesStayCanonical : Obligations.MemoriesStayCanonical := fun _ _ hs h =>
  step_keeps (P := State.MemWf) (fun _ _ _ hm => hm.memWf) (fun _ _ hs => { hs with })
    (fun _ a b hs => hostWriteCbuf_memWf hs a b) h hs

/-! ## What commands leave to the host (R71, 10_state.md R21) -/

/-- No kind of change, so no command, writes `CBUF`. -/
theorem Effects.cbuf_eq (h : Effects A s t) : t.cbuf = s.cbuf :=
  h.same State.cbuf fun _ _ _ _ hm => hm.cbuf_eq

theorem Effects.hostq_eq (h : Effects A s t) : t.hostq = s.hostq :=
  h.same State.hostq fun _ _ _ _ hm => hm.hostq_eq

/-- A chain without the two kinds of change that write ARG leaves the ARG registers alone. -/
theorem Effects.args_eq (h : Effects A s t) (harg : Tag.arg ∉ A) (hreset : Tag.reset ∉ A) : t.args = s.args :=
  h.same State.args fun _ ha _ _ hm => hm.args_eq (ne_of_mem_of_not_mem ha harg) (ne_of_mem_of_not_mem ha hreset)

theorem arg_notMem_cmdTags {i : Instr} (hi : ∀ j, i ≠ .fcWrarg j) (s : State) : Tag.arg ∉ cmdTags i s := by
  cases i with
  | fcWrarg j => exact absurd rfl (hi j)
  | _ => simp [cmdTags, tagsMd, tagsCd, tagsCur, tagsPlane, tagsHeader, tagsFields, tagsFrame]

theorem reset_notMem_cmdTags {i : Instr} (hi : i ≠ .fcReset) (s : State) : Tag.reset ∉ cmdTags i s := by
  cases i with
  | fcReset => exact absurd rfl hi
  | _ => simp [cmdTags, tagsMd, tagsCd, tagsCur, tagsPlane, tagsHeader, tagsFields, tagsFrame]

/-- Settles O19: a command is a chain of changes, none of which writes `CBUF` or the host's list; of the kinds that
write ARG, only `FC_WRARG` has the one and only `FC_RESET` the other. -/
theorem commandsLeaveHostItems : Obligations.CommandsLeaveHostItems := by
  unfold Obligations.CommandsLeaveHostItems
  intro i s t h
  have he : Effects (cmdTags i s ∪ tagsEnd) s t := exec_effects h
  refine ⟨he.cbuf_eq, he.hostq_eq, fun hwrarg hreset => he.args_eq ?_ ?_⟩
  · exact fun ha => ha.elim (arg_notMem_cmdTags hwrarg s) (by simp [tagsEnd])
  · exact fun ha => ha.elim (reset_notMem_cmdTags hreset s) (by simp [tagsEnd])

end Sys2Proof.Machine
end

section
/-! PROOFS. The encoding (30_encoding.md): command words and their rows, how a command and a step end. -/

namespace Sys2Proof.Machine

/-! ## Words and rows (R104 to R107) -/

/-- Settles O1: a command's word is put together from the fields of its row, and decoding works on these. -/
theorem decodeEncodeAgree : Obligations.DecodeEncodeAgree := by
  unfold Obligations.DecodeEncodeAgree
  intro i
  cases i <;> exact decode_packWord _ _ _ _

/-- Settles O3: the decoder runs on each word. -/
theorem specWordsDecode : Obligations.SpecWordsDecode := by
  unfold Obligations.SpecWordsDecode
  decide +kernel

/-- A mask without bits of `op` asks of each other field on its own that its masked bits are 0. -/
theorem packWord_and_eq_zero (o a b c : Byte) {m : Word} (hm : opField m = 0) :
    packWord o a b c &&& m = 0 ↔ a &&& aField m = 0 ∧ b &&& bField m = 0 ∧ c &&& cField m = 0 :=
  calc packWord o a b c &&& m = 0
    _ ↔ packWord o a b c &&& packWord 0 (aField m) (bField m) (cField m) = packWord 0 0 0 0 := by
      rw [show (0 : Byte) = opField m from hm.symm, packWord_fields, hm]; rfl
    _ ↔ _ := by rw [packWord_and, packWord_inj]; simp

/-- A field whose bits are all masked. -/
theorem and_255 (a : Byte) : a &&& 255#8 = a := BitVec.and_allOnes

theorem eq_ofNat_of_toNat {a : Byte} {n : Nat} (h : a.toNat = n) : a = BitVec.ofNat 8 n := by
  rw [← h, BitVec.ofNat_toNat, BitVec.setWidth_eq]

/-- The last step of decoding the word `w`, whose field `a` selects one of the commands up to `n`. -/
inductive Selects (w : Word) (a : Byte) (n : Nat) : Except DecodeError Instr → Prop where
  | badOperand : n < a.toNat → Selects w a n (.error .badOperand)
  | command (i : Instr) : a.toNat ≤ n → encode i = w → Selects w a n (.ok i)

theorem Selects.of_toNat {op a b : Byte} {n k : Nat} {i : Instr} (hk : a.toNat = k) (hn : k ≤ n)
    (hi : encode i = packWord op (BitVec.ofNat 8 k) b 0) : Selects (packWord op a b 0) a n (.ok i) :=
  .command i (hk.le.trans hn) (by rw [hi, ← eq_ofNat_of_toNat hk])

theorem decodeY16_selects (a : Byte) : Selects (packWord 0x40 a 0 0) a 3 (decodeY16 a) := by
  unfold decodeY16
  split
  case h_5 => exact .badOperand (by simp only [imp_false] at *; omega)
  all_goals exact .of_toNat ‹_› (by decide) rfl

theorem decodeUv8_selects (a : Byte) : Selects (packWord 0x41 a 0 0) a 3 (decodeUv8 a) := by
  unfold decodeUv8
  split
  case h_5 => exact .badOperand (by simp only [imp_false] at *; omega)
  all_goals exact .of_toNat ‹_› (by decide) rfl

theorem decodeY4_selects (a b : Byte) : Selects (packWord 0x42 a b 0) a 9 (decodeY4 a b) := by
  unfold decodeY4
  split
  case h_11 => exact .badOperand (by simp only [imp_false] at *; omega)
  all_goals exact .of_toNat ‹_› (by decide) rfl

/-- What the decoder answers to a word: each answer with the rows and fields for which it is the answer (R105
to R107). -/
inductive DecodeAnswer (w : Word) : Except DecodeError Instr → Prop where
  | noRow : reservedBits (opField w).toNat = none → DecodeAnswer w (.error .illegalCmd)
  | reserved (m : Word) : reservedBits (opField w).toNat = some m → w &&& m ≠ 0 →
      DecodeAnswer w (.error .illegalCmd)
  | badOperand (m : Word) : reservedBits (opField w).toNat = some m → w &&& m = 0 →
      selectorMax (opField w).toNat < (aField w).toNat → DecodeAnswer w (.error .badOperand)
  | command (m : Word) (i : Instr) : reservedBits (opField w).toNat = some m → w &&& m = 0 →
      (aField w).toNat ≤ selectorMax (opField w).toNat → encode i = w → DecodeAnswer w (.ok i)

/-- A row of R104 answers as its reserved fields and its selector say. -/
theorem DecodeAnswer.ofRow {op a b c : Byte} {n : Nat} {m : Word} {z : Bool} {r : Except DecodeError Instr}
    (hn : op.toNat = n) (hm : reservedBits n = some m) (ho : opField m = 0)
    (hz : z = true ↔ a &&& aField m = 0 ∧ b &&& bField m = 0 ∧ c &&& cField m = 0)
    (hr : z = true → Selects (packWord (BitVec.ofNat 8 n) a b c) a (selectorMax n) r) :
    DecodeAnswer (packWord op a b c) (if z = true then r else .error .illegalCmd) := by
  have hop : (opField (packWord op a b c)).toNat = n := by rw [opField_packWord, hn]
  have ha : aField (packWord op a b c) = a := aField_packWord op a b c
  rw [← packWord_and_eq_zero op a b c ho] at hz
  rw [← eq_ofNat_of_toNat hn] at hr
  split
  · next h =>
    cases hr h with
    | badOperand hlt => exact .badOperand m (hop ▸ hm) (hz.1 h) (by rwa [hop, ha])
    | command i hle hi => exact .command m i (hop ▸ hm) (hz.1 h) (by rwa [hop, ha]) hi
  · next h => exact .reserved m (hop ▸ hm) (mt hz.2 h)

/-- The same for a row without a selector, which has one command. -/
theorem DecodeAnswer.ofReservedZero {op a b c : Byte} {n : Nat} {m : Word} {l : List Byte} {i : Instr}
    (hn : op.toNat = n) (hm : reservedBits n = some m) (ho : opField m = 0) (hs : selectorMax n = 255)
    (hl : (∀ x ∈ l, x = 0) ↔ a &&& aField m = 0 ∧ b &&& bField m = 0 ∧ c &&& cField m = 0)
    (hi : (∀ x ∈ l, x = 0) → encode i = packWord (BitVec.ofNat 8 n) a b c) :
    DecodeAnswer (packWord op a b c) (reservedZero l i) := by
  have hall : (l.all (· == 0)) = true ↔ ∀ x ∈ l, x = 0 := by simp
  refine .ofRow hn hm ho (hall.trans hl) fun h => .command i ?_ (hi (hall.1 h))
  exact hs ▸ Nat.le_of_lt_succ a.isLt

/-- The rows of R104 by `op`, in the decoder's order: the two without a reserved field (`RD_TREE`, `CD_BLOCK`), the
three with a selector (`IP_Y16`, `IP_UV8`, `IP_Y4`), no row, and all others. -/
theorem decodeFields_answer (op a b c : Byte) : DecodeAnswer (packWord op a b c) (decodeFields op a b c) := by
  unfold decodeFields
  split
  case h_5 h | h_22 h =>
    exact .ofReservedZero (l := []) h rfl rfl rfl (by simp [aField, bField, cField]) fun _ => rfl
  case h_25 h =>
    refine .ofRow h rfl rfl (by simp [aField, bField, cField, and_255]) fun hz => ?_
    obtain ⟨rfl, rfl⟩ : b = 0 ∧ c = 0 := by simpa using hz
    exact decodeY16_selects a
  case h_26 h =>
    refine .ofRow h rfl rfl (by simp [aField, bField, cField, and_255]) fun hz => ?_
    obtain ⟨rfl, rfl⟩ : b = 0 ∧ c = 0 := by simpa using hz
    exact decodeUv8_selects a
  case h_27 h =>
    refine .ofRow h rfl rfl (by simp [aField, bField, cField, and_255]) fun hz => ?_
    obtain rfl : c = 0 := by simpa using hz
    exact decodeY4_selects a b
  case h_58 =>
    refine .noRow ?_
    rw [opField_packWord]
    simp only [imp_false] at *
    unfold reservedBits
    repeat rw [if_neg (by omega)]
  all_goals
    rename_i h
    refine .ofReservedZero h rfl rfl rfl ?_ ?_
    · simp [aField, bField, cField, and_255]
    · simp +contextual [encode]

/-- Every word has its answer. -/
theorem decode_answer (w : Word) : DecodeAnswer w (decode w) := by
  have h := decodeFields_answer (opField w) (aField w) (bField w) (cField w)
  rwa [packWord_fields] at h

/-- Settles O2: the decoder answers with a command only where the word is that command's. -/
theorem encodeDecodeAgree : Obligations.EncodeDecodeAgree := by
  unfold Obligations.EncodeDecodeAgree
  intro w i h
  have hw := decode_answer w
  rw [h] at hw
  cases hw with
  | command m _ hm hz hle hi => exact hi

/-- Settles O4: each answer excludes the rows and fields of the others. -/
theorem rejectedWords : Obligations.RejectedWords := by
  unfold Obligations.RejectedWords
  intro w
  generalize decode w = r, decode_answer w = hw
  cases hw with
  | noRow hm => simp [hm]
  | reserved m hm hne => simp [hm, show ¬w &&& m = 0#32 from hne]
  | badOperand m hm hz hlt => simp [hm, hz, hlt]
  | command m i hm hz hle hi => simp [hm, hz, hle]

/-! ## Operands out of range (R107) -/

/-- A command whose first check fails answers its error. -/
theorem finish_require_false {b : Bool} {c : ErrCode} {f : Unit → Res State} {s : State} (hb : b = false) :
    finish s (require b c >>= f) = .next (s.raise c) := by
  subst hb; rfl

theorem exec_fcWrctl_of_ne {reg : Byte} (h : reg.toNat ≠ 1) (s : State) : exec (.fcWrctl reg) s =
    finish s (require (okControl reg) .badOperand >>= fun _ => .ok (s.writeCr reg.toNat (s.arg 0))) := if_neg h

/-- Settles O8: the check of the operand fields comes first in every command that has such fields. -/
theorem illFormedCommandRaises : Obligations.IllFormedCommandRaises := by
  unfold Obligations.IllFormedCommandRaises
  intro i s h
  cases i with
  | rdInit | rdBool | rdLit | rdSlit | rdTree | cdBlock | cdMb | ipY4Dc | ipY4Tm | ipY4Ve | ipY4He | ipY4Ld | ipY4Rd
  | ipY4Vr | ipY4Vl | ipY4Hd | ipY4Hu | mcLuma | mcChroma | itDqsetup | itIdctAdd | lfsEdge | lfnMbedge | lfnInner
  | fcRdctl | fcWrarg => exact finish_require_false h
  | fcRdprob copy =>
    have h : okCopy copy = false := h
    exact finish_require_false (by rw [h, Bool.false_and])
  | fcWrctl reg =>
    have hne : reg.toNat ≠ 1 := fun e => by simp [Instr.wf, okControl, e] at h
    rw [exec_fcWrctl_of_ne hne]
    exact finish_require_false h
  | _ => cases h

/-! ## How a command ends (R100, 60_exceptions.md R452) -/

theorem finishFrame_not_refused (s : State) (r : Res State) (x : Refusal) : finishFrame s r ≠ .refused x := by
  cases r with
  | ok u => simp [finishFrame]
  | error e => cases e <;> simp [finishFrame]

/-- Every command but the two that end as `finishFrame` does and the write of `CR1` raises from the state in which
it began. -/
theorem exec_finish {i : Instr} (hheader : i ≠ .fcHeader) (hframe : i ≠ .fcFrame) (hsize : i ≠ .fcWrctl 1)
    (s : State) : ∃ r, exec i s = finish s r := by
  by_cases hi : writesControl i = false
  · obtain ⟨r, hr, -⟩ := exec_work hi s
    exact ⟨r, hr⟩
  · cases i with
    | fcReset | fcSetmb => exact ⟨.ok _, rfl⟩
    | fcNextmb | fcFramestart | fcFrameend => exact ⟨_, rfl⟩
    | fcWrctl reg =>
      exact ⟨_, exec_fcWrctl_of_ne (fun e => hsize (congrArg _ (BitVec.eq_of_toNat_eq e))) s⟩
    | fcHeader => exact absurd rfl hheader
    | fcFrame => exact absurd rfl hframe
    | _ => exact absurd rfl hi

/-- The write of `CR1` raises from the state in which the allocator, where it is asked, has answered. -/
theorem exec_fcWrctl_one (s : State) : exec (.fcWrctl 1) s =
    finish (s.afterAsk (s.arg 0)) (require (s.sizeGranted (s.arg 0)) .alloc >>= fun _ =>
      .ok ((s.afterAsk (s.arg 0)).setSize (s.arg 0))) := by
  show execFcWrctl 1 s = _
  rw [execFcWrctl, if_pos (by decide)]

/-- Every command ends in one of the two ways. -/
theorem exec_ends (i : Instr) (s : State) :
    (∃ u r, exec i s = finish u r) ∨ ∃ u r, exec i s = finishFrame u r := by
  by_cases hheader : i = .fcHeader
  · subst hheader; exact .inr ⟨_, _, rfl⟩
  by_cases hframe : i = .fcFrame
  · subst hframe; exact .inr ⟨_, _, rfl⟩
  by_cases hsize : i = .fcWrctl 1
  · exact .inl ⟨_, _, hsize ▸ exec_fcWrctl_one s⟩
  · exact .inl ⟨s, exec_finish hheader hframe hsize s⟩

theorem exec_not_refused (i : Instr) (s : State) (x : Refusal) : exec i s ≠ .refused x := by
  rcases exec_ends i s with ⟨u, r, hr⟩ | ⟨u, r, hr⟩
  · exact hr ▸ finish_not_refused u r x
  · exact hr ▸ finishFrame_not_refused u r x

theorem finish_response {s t : State} {r : Res State} (h : finish s r = .next t) :
    t.response = .ok ∨ ∃ c, t.response = .error c := by
  rcases finish_next.1 h with ⟨u, -, rfl⟩ | ⟨c, -, rfl⟩
  · exact .inl rfl
  · exact .inr ⟨c, rfl⟩

theorem finishFrame_response {s t : State} {r : Res State} (h : finishFrame s r = .next t) :
    t.response = .ok ∨ ∃ c, t.response = .error c := by
  rcases finishFrame_next.1 h with ⟨u, -, rfl⟩ | ⟨c, -, rfl⟩
  · exact .inl rfl
  · exact .inr ⟨c, rfl⟩

/-- What answers an error has raised it, and done nothing else. -/
theorem finish_error {s t : State} {r : Res State} {c : ErrCode} (h : finish s r = .next t)
    (hc : t.response = .error c) : r = .error (.raise c) ∧ t = s.raise c := by
  rcases finish_next.1 h with ⟨u, -, rfl⟩ | ⟨d, hr, rfl⟩
  · cases hc
  · obtain rfl : d = c := Response.error.inj hc
    exact ⟨hr, rfl⟩

/-- A refused request is one that was made. -/
theorem afterAsk_of_not_granted {s : State} {v : Word} (h : s.sizeGranted v = false) :
    s.afterAsk v = s.askAllocator.2 := by
  unfold State.sizeGranted at h
  split at h
  · next hs => exact if_pos hs
  · cases h

theorem exec_fcWrctl_one_error {s t : State} {c : ErrCode} (h : exec (.fcWrctl 1) s = .next t)
    (hc : t.response = .error c) : c = .alloc ∧ t = s.askAllocator.2.raise .alloc := by
  rw [exec_fcWrctl_one] at h
  obtain ⟨hr, rfl⟩ := finish_error h hc
  rcases Res.bind_error.1 hr with hreq | ⟨-, -, hok⟩
  · obtain ⟨hg, he⟩ := require_error.1 hreq
    obtain rfl : c = .alloc := Stop.raise.inj he
    exact ⟨rfl, by rw [afterAsk_of_not_granted hg]⟩
  · cases hok

theorem exec_response {i : Instr} {s t : State} (h : exec i s = .next t) :
    t.response = .ok ∨ ∃ c, t.response = .error c := by
  rcases exec_ends i s with ⟨u, r, hr⟩ | ⟨u, r, hr⟩
  · exact finish_response (hr ▸ h)
  · exact finishFrame_response (hr ▸ h)

/-- Settles O9: every command ends as `finish` or `finishFrame` does; but for the write of `CR1` and the two that
end as `finishFrame` does, from the state in which it began. -/
theorem errorLeavesState : Obligations.ErrorLeavesState := by
  unfold Obligations.ErrorLeavesState
  intro i s
  refine ⟨exec_not_refused i s, fun t h => ⟨exec_response h, fun c hheader hframe hc => ?_⟩⟩
  by_cases hsize : i = .fcWrctl 1
  · subst hsize
    obtain ⟨rfl, ht⟩ := exec_fcWrctl_one_error h hc
    exact .inr ⟨rfl, rfl, ht⟩
  · obtain ⟨r, hr⟩ := exec_finish hheader hframe hsize s
    exact .inl (finish_error (hr ▸ h) hc).2

/-! ## Steps (R100, R105 to R107, R110; 20_memory.md R71, R83) -/

section
variable {s : State} {rest : List HostEvent}

theorem step_idle (hq : s.hostq = []) : step s = .next s := by
  unfold step
  rw [hq]

theorem step_writeArg {i : Fin 4} {v : Word} (hq : s.hostq = .writeArg i v :: rest) :
    step s = .next (hostWriteArg i v (s.withQueue rest)) := by
  unfold step
  rw [hq]

theorem step_writeCbuf {a : Word} {b : Byte} (hq : s.hostq = .writeCbuf a b :: rest) :
    step s = .next (hostWriteCbuf a b (s.withQueue rest)) := by
  unfold step
  rw [hq]

theorem step_command {w : Word} {i : Instr} (hq : s.hostq = .command w :: rest) (hw : decode w = .ok i) :
    step s = exec i (s.withQueue rest) := by
  simp only [step, hq, hw]

theorem step_rejected {w : Word} {e : DecodeError} (hq : s.hostq = .command w :: rest)
    (hw : decode w = .error e) : step s = .next (rejectWord e (s.withQueue rest)) := by
  simp only [step, hq, hw]

end

/-- Settles O5: a step decodes the word at the front of the host's list, and `withFetchWord` puts one there. -/
theorem stepRunsDecodedCommand : Obligations.StepRunsDecodedCommand := by
  unfold Obligations.StepRunsDecodedCommand
  exact ⟨fun s w rest i hq hw => step_command hq hw,
    fun s w i hw => step_command (s := s.withFetchWord 32 w) rfl hw⟩

/-- The host's write of a byte touches `CBUF`, and of the instances and the count of changes what the change
touches. -/
theorem hostWriteCbuf_eq (a : Word) (b : Byte) (s : State) : hostWriteCbuf a b s =
    { s with cbuf := Memory.set s.cbuf a.toNat b, rd := (hostWriteCbuf a b s).rd,
             changeCount := (hostWriteCbuf a b s).changeCount } := by
  unfold hostWriteCbuf
  split <;> rfl

theorem cbufByte_set (m : Memory Byte) (a c : Word) (b : Byte) :
    cbufByte (Memory.set m a.toNat b) c = if c = a then b else cbufByte m c := by
  unfold cbufByte
  rw [Memory.find_set]
  by_cases h : c = a
  · simp [h]
  · simp [h, BitVec.toNat_inj]

/-- An instance that reads an address is one of the nine. -/
theorem lt_of_rdAt_reads {s : State} {k : Nat} {a : Word} (h : (s.rdAt k).reads a = true) : k < 9 := by
  by_contra hk
  have hr : s.rdAt k = Rd.reset := by simp [State.rdAt, hk]
  rw [hr] at h
  cases h

theorem reads_iff (r : Rd) (a : Word) : r.reads a = true ↔ r.valid = true ∧ a - r.base < r.size := by
  simp [Rd.reads]

theorem rdAt_hostWriteCbuf_of_change {s : State} {a : Word} {b : Byte} {k : Nat}
    (hr : (s.rdAt k).reads a = true) (hb : Memory.find s.cbuf a.toNat ≠ some b) :
    ∃ n, (hostWriteCbuf a b s).rdAt k = { s.rdAt k with changed := some n } := by
  refine ⟨9 * s.changeCount + k, ?_⟩
  unfold hostWriteCbuf
  rw [if_neg hb, State.rdAt_noteChange, if_pos (lt_of_rdAt_reads hr)]
  exact if_pos hr

theorem rdAt_hostWriteCbuf_of_not_change {s : State} {a : Word} {b : Byte} {k : Nat}
    (h : ¬((s.rdAt k).reads a = true ∧ Memory.find s.cbuf a.toNat ≠ some b)) :
    (hostWriteCbuf a b s).rdAt k = s.rdAt k := by
  unfold hostWriteCbuf
  split
  · rfl
  · next hb =>
    rw [State.rdAt_noteChange]
    split
    · exact if_neg fun hr => h ⟨hr, hb⟩
    · rfl

/-- Settles O6: the step's arm for each head of the host's list, and what the host's write of a byte does. -/
theorem stepTakesHostEvents : Obligations.StepTakesHostEvents := by
  unfold Obligations.StepTakesHostEvents
  refine ⟨fun s w rest hq => ⟨step_rejected hq, step_rejected hq⟩, fun s t h => ⟨fun hq => ?_, ?_, ?_⟩⟩
  · exact (Host.Outcome.next.inj ((step_idle hq).symm.trans h)).symm
  · intro i v rest hq
    obtain rfl := Host.Outcome.next.inj ((step_writeArg hq).symm.trans h)
    exact ⟨rfl, fun j => State.arg_setArg _ i j v i.isLt⟩
  · intro a b rest hq
    obtain rfl := Host.Outcome.next.inj ((step_writeCbuf hq).symm.trans h)
    have ht := hostWriteCbuf_eq a b (s.withQueue rest)
    refine ⟨?_, fun c => ?_, fun k => ⟨fun hk => ?_, fun hk => ?_⟩⟩
    · rw [ht]; rfl
    · rw [ht]; exact cbufByte_set s.cbuf a c b
    · obtain ⟨hv, hlt, hb⟩ := hk
      exact rdAt_hostWriteCbuf_of_change ((reads_iff _ a).2 ⟨hv, hlt⟩) hb
    · refine rdAt_hostWriteCbuf_of_not_change fun ⟨hr, hb⟩ => hk ?_
      obtain ⟨hv, hlt⟩ := (reads_iff _ a).1 hr
      exact ⟨hv, hlt, hb⟩

end Sys2Proof.Machine
end

section
/-! PROOFS. The range decoder (40_range_decoder.md): what each of the five commands answers. -/

namespace Sys2Proof.Machine

variable {s : State} {cbuf : Memory Byte} {r r' : Rd}

/-! ## The state that a read leaves -/

/-- The state that a read from instance `k` leaves: the instance as the read left it, and what it read in `RES0`. -/
def State.afterRead (s : State) (k : Nat) (r : Rd) (v : Word) : State := ((s.setRd k r).setRes 0 v).done

theorem State.setRd_rdAt (s : State) (k : Nat) : s.setRd k (s.rdAt k) = s := by
  have h : s.rd.setIfInBounds k (s.rdAt k) = s.rd := by
    ext i hi
    by_cases hk : k = i
    · subst hk; simp [State.rdAt, hi]
    · simp [hk]
  rw [State.setRd, h]

section
variable (s) (k : Nat) (q : Rd) (v w : Word)

@[simp] theorem State.afterRead_cbuf : (s.afterRead k q v).cbuf = s.cbuf := rfl

@[simp] theorem State.afterRead_result : (s.afterRead k q v).result 0 = v := State.result_setRes_zero _ v

theorem State.afterRead_rdAt (hk : k < 9) : (s.afterRead k q v).rdAt k = q := by
  show (s.setRd k q).rdAt k = q
  rw [State.rdAt_setRd _ _ _ _ hk, if_pos rfl]

/-- Only the instance, `RES0` and the response are written. -/
theorem State.afterRead_frame : onlyRd k s (s.afterRead k q v) ∧ onlyRes [0] s (s.afterRead k q v) ∧
    s.afterRead k q v = { s with rd := (s.afterRead k q v).rd, res := (s.afterRead k q v).res, response := .ok } :=
  ⟨fun _ hj => s.rdAt_setRd_other q hj,
    fun _ hj => (s.setRd k q).result_setRes_other v (List.ne_of_not_mem_cons hj), rfl⟩

theorem State.afterRead_setRes : (s.afterRead k q v).setRes 0 w = s.afterRead k q w := by
  simp [State.afterRead, State.done, State.setRes]

theorem State.afterRead_afterRead (q' : Rd) : (s.afterRead k q v).afterRead k q' w = s.afterRead k q' w := by
  simp [State.afterRead, State.done, State.setRes, State.setRd]

end

/-! ## The checks of the unit's commands (R107, 60_exceptions.md R451) -/

theorem finish_require_true {b : Bool} {c : ErrCode} {f : Unit → Res State} (hb : b = true) :
    finish s (require b c >>= f) = finish s (f ()) := by
  subst hb; rfl

/-- The checks of a command that reads an instance: first its operands, then the instance. -/
theorem finish_require_operands {ok valid : Bool} {f : Res State} (hok : ok = false) :
    finish s (require ok .badOperand >>= fun _ => require valid .rdUninit >>= fun _ => f) =
      .next (s.raise .badOperand) := finish_require_false hok

theorem finish_require_valid {ok valid : Bool} {f : Res State} (hok : ok = true) (hv : valid = false) :
    finish s (require ok .badOperand >>= fun _ => require valid .rdUninit >>= fun _ => f) =
      .next (s.raise .rdUninit) := by
  rw [finish_require_true hok, finish_require_false hv]

theorem finish_require_both {ok valid : Bool} {f : Res State} (hok : ok = true) (hv : valid = true) :
    finish s (require ok .badOperand >>= fun _ => require valid .rdUninit >>= fun _ => f) = finish s f := by
  rw [finish_require_true hok, finish_require_true hv]

theorem okInstance_iff {k : Byte} : okInstance k = true ↔ k.toNat ≤ 8 := decide_eq_true_iff

theorem okInstance_of_gt {k : Byte} (h : 8 < k.toNat) : okInstance k = false := decide_eq_false (by omega)

theorem okLiteral_and_iff {n k : Byte} : (okLiteral n && okInstance k) = true ↔ n.toNat ≤ 32 ∧ k.toNat ≤ 8 := by
  simp [okLiteral, okInstance]

theorem okSignedLiteral_and_iff {n k : Byte} :
    (okSignedLiteral n && okInstance k) = true ↔ n.toNat ≤ 31 ∧ k.toNat ≤ 8 := by
  simp [okSignedLiteral, okInstance]

theorem okTree_and_iff {tree start k : Byte} : (okTree tree start && okInstance k) = true ↔
    tree.toNat ≤ 9 ∧ start.toNat % 2 = 0 ∧ start.toNat < (treeOf tree.toNat).length ∧ k.toNat ≤ 8 := by
  simp [okTree, okInstance, and_assoc]

/-! ## What the commands answer that pass their checks -/

theorem exec_rdBool (p : Byte) {k : Byte} (hk : k.toNat ≤ 8) (hv : s.rdValid k.toNat = true) :
    exec (.rdBool p k) s = .next (s.afterRead k.toNat (readBool s.cbuf p (s.rdAt k.toNat)).2
      (boolWord (readBool s.cbuf p (s.rdAt k.toNat)).1)) :=
  finish_require_both (okInstance_iff.2 hk) hv

theorem exec_rdLit {n k : Byte} (hn : n.toNat ≤ 32) (hk : k.toNat ≤ 8) (hv : s.rdValid k.toNat = true) :
    exec (.rdLit n k) s = .next (s.afterRead k.toNat (readLit s.cbuf n.toNat (s.rdAt k.toNat)).2
      (BitVec.ofNat 32 (readLit s.cbuf n.toNat (s.rdAt k.toNat)).1)) :=
  finish_require_both (okLiteral_and_iff.2 ⟨hn, hk⟩) hv

theorem exec_rdSlit {n k : Byte} (hn : n.toNat ≤ 31) (hk : k.toNat ≤ 8) (hv : s.rdValid k.toNat = true) :
    exec (.rdSlit n k) s = .next (s.afterRead k.toNat (readSlit s.cbuf n.toNat (s.rdAt k.toNat)).2
      (BitVec.ofInt 32 (readSlit s.cbuf n.toNat (s.rdAt k.toNat)).1)) :=
  finish_require_both (okSignedLiteral_and_iff.2 ⟨hn, hk⟩) hv

theorem exec_rdTree {tree start k : Byte} {v : Nat} (hok : (okTree tree start && okInstance k) = true)
    (hv : s.rdValid k.toNat = true)
    (h : readTree s.cbuf (treeOf tree.toNat) (fun i => .ok (s.argProb i)) start.toNat (s.rdAt k.toNat) =
      .ok (v, r)) :
    exec (.rdTree tree start k) s = .next (s.afterRead k.toNat r (BitVec.ofNat 32 v)) := by
  refine (finish_require_both hok hv).trans ?_
  rw [State.getTree, h]
  rfl

/-! ## `RD_INIT` (R131, R136) -/

theorem exec_rdInit {k : Byte} (hk : k.toNat ≤ 8) (hb : bufferOk (s.arg 0) (s.arg 1) = true) :
    exec (.rdInit k) s = .next (s.setRd k.toNat (rdStart s.cbuf (s.arg 0) (s.arg 1))).done :=
  (finish_require_true (okInstance_iff.2 hk)).trans (finish_require_true hb)

/-- Inside the buffer its byte, with the cursor moved on; past the end the fill byte. -/
theorem nextByte_eq (cbuf : Memory Byte) (r : Rd) : nextByte cbuf r =
    (if r.cursor < r.size then r.byte cbuf else 0,
      { r with cursor := if r.cursor < r.size then r.cursor + 1 else r.cursor }) := by
  unfold nextByte
  split <;> rfl

/-- The preload reads a byte at cursor 0 and one more where the first has moved the cursor. -/
theorem rdStart_eq (cbuf : Memory Byte) (base size : Word) : rdStart cbuf base size =
    { value := (if 0 < size.toNat then cbufByte cbuf base else 0) ++
        (if 1 < size.toNat then cbufByte cbuf (base + 1) else 0)
      range := 255, bitCount := 0, cursor := BitVec.ofNat 32 (min 2 size.toNat), base := base, size := size
      valid := true, changed := none } := by
  simp only [rdStart, nextByte_eq, Rd.byte]
  obtain hz | ho | ht : size.toNat = 0 ∨ size.toNat = 1 ∨ 2 ≤ size.toNat := by omega
  · simp [BitVec.lt_def, hz]
  · simp [BitVec.lt_def, ho]
  · have hlt : 0 < size.toNat ∧ 1 < size.toNat := by omega
    simp [BitVec.lt_def, hlt, ht]

/-- Settles O22: the instance is `rdStart` of the buffer. -/
theorem rdInitResult : Obligations.RdInitResult := by
  unfold Obligations.RdInitResult
  refine fun k s => ⟨fun hk => finish_require_false (okInstance_of_gt hk), fun hk hb => ?_, fun hk hb => ?_⟩
  · refine ⟨_, exec_rdInit hk (decide_eq_true hb), ?_⟩
    rw [rdStart_eq]
    refine ⟨rfl, rfl, rfl, rfl, rfl, rfl, ?_, rfl⟩
    show (min 2 (s.arg 1).toNat) % 2 ^ 32 = _
    omega
  · exact (finish_require_true (okInstance_iff.2 hk)).trans (finish_require_false (decide_eq_false (by omega)))

/-! ## `RD_BOOL` (R132, R136, R137) -/

/-- The instance with its interval cut at the split, before the renormalisation. -/
def Rd.cut (r : Rd) (p : Byte) : Rd :=
  if 256 * splitOf r p ≤ r.value.toNat then
    { r with range := r.range - BitVec.ofNat 8 (splitOf r p), value := r.value - BitVec.ofNat 16 (256 * splitOf r p) }
  else { r with range := BitVec.ofNat 8 (splitOf r p) }

theorem readBool_eq (cbuf : Memory Byte) (p : Byte) (r : Rd) : readBool cbuf p r =
    (decide (256 * splitOf r p ≤ r.value.toNat), renorm cbuf 7 (r.cut p)) := by
  unfold readBool Rd.cut
  split <;> simp [*]

/-- The value is cut with the interval, whose part is nonempty: seven turns normalise it (R137 (c)). -/
theorem Rd.cut_toNat (p : Byte) (h : r.Inv) :
    (r.cut p).range.toNat =
      (if 256 * splitOf r p ≤ r.value.toNat then r.range.toNat - splitOf r p else splitOf r p) ∧
    (r.cut p).value.toNat =
      (if 256 * splitOf r p ≤ r.value.toNat then r.value.toNat - 256 * splitOf r p else r.value.toNat) ∧
    128 ≤ 2 ^ 7 * (r.cut p).range.toNat := by
  obtain ⟨h1, h2⟩ := splitOf_bounds r p (by have := h.range; omega)
  have hr := r.range.isLt
  have hv := r.value.isLt
  by_cases hs : 256 * splitOf r p ≤ r.value.toNat
  · simp only [Rd.cut, if_pos hs, BitVec.toNat_sub, BitVec.toNat_ofNat]
    omega
  · simp only [Rd.cut, if_neg hs, BitVec.toNat_ofNat, true_and]
    omega

theorem Rd.cut_buffer (r : Rd) (p : Byte) : Rd.SameBuffer r (r.cut p) := by
  unfold Rd.cut
  split <;> exact ⟨rfl, rfl, rfl, rfl⟩

theorem Rd.cut_position (r : Rd) (p : Byte) : (r.cut p).bitCount = r.bitCount ∧ (r.cut p).cursor = r.cursor := by
  unfold Rd.cut
  split <;> exact ⟨rfl, rfl⟩

/-- The split's multiple has its low eight bits 0, so the bits shifted in stay 0. -/
theorem Rd.cut_tail (p : Byte) (h : r.Inv) : (r.cut p).Tail := by
  obtain ⟨hbit, hcur⟩ := r.cut_position p
  obtain ⟨-, hval, -⟩ := Rd.cut_toNat p h
  have hb := r.bitCount.isLt
  refine ⟨?_, by rw [hcur, (r.cut_buffer p).size]; exact h.cursor⟩
  rw [hval, hbit]
  split
  · exact Nat.mod_eq_zero_of_dvd (Nat.dvd_sub (Nat.dvd_of_mod_eq_zero h.low)
      ((Nat.pow_dvd_pow 2 (n := 8) (by omega)).mul_right _))
  · exact h.low

/-- The value is below the interval, `value < range * 256` (R23, R137 (d)). -/
def Rd.Fits (r : Rd) : Prop := r.value.toNat < 256 * r.range.toNat

theorem Rd.cut_fits (p : Byte) (h : r.Inv) (hf : r.Fits) : (r.cut p).Fits := by
  obtain ⟨hrange, hval, -⟩ := Rd.cut_toNat p h
  unfold Rd.Fits at *
  rw [hrange, hval]
  split <;> omega

/-! ### One turn of the renormalisation -/

/-- The next byte is the same where the buffer and the cursor are. -/
theorem nextByte_congr (hb : Rd.SameBuffer r r') (hc : r'.cursor = r.cursor) :
    (nextByte cbuf r').1 = (nextByte cbuf r).1 ∧ (nextByte cbuf r').2.cursor = (nextByte cbuf r).2.cursor := by
  simp [nextByte_eq, Rd.byte, hc, hb.base, hb.size, hb.changed]

theorem Rd.bitCount_lt_or_eq (r : Rd) : r.bitCount.toNat < 7 ∨ r.bitCount.toNat = 7 := by
  have := r.bitCount.isLt
  omega

theorem renormStep_of_lt (cbuf : Memory Byte) (hb : r.bitCount.toNat < 7) : renormStep cbuf r =
    { r with value := r.value <<< 1, range := r.range <<< 1, bitCount := r.bitCount + 1 } := by
  have hne : r.bitCount + 1 ≠ 0 := by bv_omega
  exact if_neg hne

theorem renormStep_of_eq (cbuf : Memory Byte) (hb : r.bitCount.toNat = 7) : renormStep cbuf r =
    { r with value := r.value <<< 1 ||| (nextByte cbuf r).1.setWidth 16, range := r.range <<< 1, bitCount := 0,
             cursor := (nextByte cbuf r).2.cursor } := by
  have hz : r.bitCount + 1 = 0 := by bv_omega
  simp only [renormStep, hz, nextByte_eq]
  rfl

theorem renormStep_range_toNat (cbuf : Memory Byte) (hr : r.range.toNat < 128) :
    (renormStep cbuf r).range.toNat = r.range.toNat * 2 := by
  rw [renormStep_range, BitVec.toNat_shiftLeft, Nat.shiftLeft_eq]
  omega

/-- A turn before the eighth shifts the window. -/
theorem renormStep_shifts (cbuf : Memory Byte) (hb : r.bitCount.toNat < 7) :
    (renormStep cbuf r).value.toNat = r.value.toNat * 2 % 2 ^ 16 ∧
      (renormStep cbuf r).bitCount.toNat = r.bitCount.toNat + 1 ∧ (renormStep cbuf r).cursor = r.cursor := by
  rw [renormStep_of_lt cbuf hb]
  refine ⟨by rw [BitVec.toNat_shiftLeft, Nat.shiftLeft_eq, pow_one], ?_, rfl⟩
  show (r.bitCount + 1).toNat = _
  bv_omega

/-- The eighth turn also adds a byte: the eight bits that it fills are 0. -/
theorem renormStep_loads (cbuf : Memory Byte) (h : r.Tail) (hb : r.bitCount.toNat = 7) :
    (renormStep cbuf r).value.toNat = (r.value.toNat * 2 + (nextByte cbuf r).1.toNat) % 2 ^ 16 ∧
      (renormStep cbuf r).bitCount.toNat = 0 ∧ (renormStep cbuf r).cursor = (nextByte cbuf r).2.cursor := by
  rw [renormStep_of_eq cbuf hb]
  refine ⟨?_, rfl, rfl⟩
  have hbyte := (nextByte cbuf r).1.isLt
  have hlow := h.low
  rw [hb] at hlow
  have hshift : (r.value <<< 1).toNat = 2 ^ 8 * (r.value.toNat * 2 % 2 ^ 16 / 2 ^ 8) := by
    rw [BitVec.toNat_shiftLeft, Nat.shiftLeft_eq]
    omega
  have hwide : ((nextByte cbuf r).1.setWidth 16).toNat = (nextByte cbuf r).1.toNat :=
    BitVec.toNat_setWidth_of_le (by omega)
  rw [BitVec.toNat_or, hshift, hwide, ← Nat.two_pow_add_eq_or_of_lt hbyte]
  omega

theorem renormStep_fits (cbuf : Memory Byte) (h : r.Tail) (hr : r.range.toNat < 128) (hf : r.Fits) :
    (renormStep cbuf r).Fits := by
  have hrange := renormStep_range_toNat cbuf hr
  have hlow := h.low
  unfold Rd.Fits at *
  obtain hb | hb := r.bitCount_lt_or_eq
  · obtain ⟨hval, -, -⟩ := renormStep_shifts cbuf hb
    omega
  · obtain ⟨hval, -, -⟩ := renormStep_loads cbuf h hb
    have hbyte := (nextByte cbuf r).1.isLt
    rw [hb] at hlow
    omega

/-! ### The renormalisation -/

theorem renorm_fits (cbuf : Memory Byte) (m : Nat) (h : r.Tail) (hf : r.Fits) : (renorm cbuf m r).Fits := by
  induction m generalizing r with
  | zero => exact hf
  | succ m ih =>
    unfold renorm
    split
    · next hr => exact ih (renormStep_tail cbuf h) (renormStep_fits cbuf h hr hf)
    · exact hf

/-- `r'` is `r` after `n` turns: the window shifted by `n`, and the next byte added where eight bits have left. -/
structure Rd.Shifted (cbuf : Memory Byte) (r : Rd) (n : Nat) (r' : Rd) : Prop where
  range : r'.range.toNat = r.range.toNat * 2 ^ n
  bitCount : r'.bitCount.toNat = (r.bitCount.toNat + n) % 8
  shift : r.bitCount.toNat + n < 8 → r'.value.toNat = r.value.toNat * 2 ^ n % 2 ^ 16 ∧ r'.cursor = r.cursor
  load : 8 ≤ r.bitCount.toNat + n →
    r'.value.toNat =
      (r.value.toNat * 2 ^ n + (nextByte cbuf r).1.toNat * 2 ^ (r.bitCount.toNat + n - 8)) % 2 ^ 16 ∧
    r'.cursor = (nextByte cbuf r).2.cursor

theorem Rd.Shifted.zero (cbuf : Memory Byte) (r : Rd) : Rd.Shifted cbuf r 0 r where
  range := by simp
  bitCount := by have := r.bitCount.isLt; omega
  shift _ := ⟨by have := r.value.isLt; omega, rfl⟩
  load h := by have := r.bitCount.isLt; omega

/-- A turn, then `n` more, of which no two load a byte. -/
theorem Rd.Shifted.succ {n : Nat} (hr : r.range.toNat < 128) (ht : r.Tail) (hn : n < 7)
    (h : Rd.Shifted cbuf (renormStep cbuf r) n r') : Rd.Shifted cbuf r (n + 1) r' := by
  have hrange : r'.range.toNat = r.range.toNat * 2 ^ (n + 1) := by
    rw [h.range, renormStep_range_toNat cbuf hr, Nat.pow_succ', Nat.mul_assoc]
  obtain hb | hb := r.bitCount_lt_or_eq
  · obtain ⟨hval, hbit, hcur⟩ := renormStep_shifts cbuf hb
    obtain ⟨hbyte, hnext⟩ := nextByte_congr (cbuf := cbuf) (renormStep_buffer cbuf r) hcur
    have hcount : (renormStep cbuf r).bitCount.toNat + n = r.bitCount.toNat + (n + 1) := by omega
    refine ⟨hrange, by rw [h.bitCount, hcount], fun hlt => ?_, fun hle => ?_⟩
    · obtain ⟨hval', hcur'⟩ := h.shift (hcount ▸ hlt)
      refine ⟨?_, hcur'.trans hcur⟩
      rw [hval', hval, Nat.mod_mul_mod, Nat.mul_assoc, ← Nat.pow_succ']
    · obtain ⟨hval', hcur'⟩ := h.load (hcount ▸ hle)
      refine ⟨?_, hcur'.trans hnext⟩
      rw [hval', hval, hbyte, hcount, ← Nat.mod_add_mod, Nat.mod_mul_mod, Nat.mod_add_mod, Nat.mul_assoc,
        ← Nat.pow_succ']
  · obtain ⟨hval, hbit, hcur⟩ := renormStep_loads cbuf ht hb
    obtain ⟨hval', hcur'⟩ := h.shift (by omega)
    refine ⟨hrange, by rw [h.bitCount]; omega, fun _ => by omega, fun _ => ⟨?_, hcur'.trans hcur⟩⟩
    rw [hval', hval, Nat.mod_mul_mod, Nat.add_mul, Nat.mul_assoc, ← Nat.pow_succ', hb,
      show 7 + (n + 1) - 8 = n by omega]

/-- The loop makes as many turns as the interval needs, and no more. -/
theorem renorm_shifted (cbuf : Memory Byte) {m : Nat} (hm : m ≤ 7) (ht : r.Tail) (h : 128 ≤ 2 ^ m * r.range.toNat) :
    ∃ n ≤ m, Rd.Shifted cbuf r n (renorm cbuf m r) ∧ ∀ j < n, r.range.toNat * 2 ^ j < 128 := by
  induction m generalizing r with
  | zero => exact ⟨0, le_rfl, .zero cbuf r, fun j hj => absurd hj j.not_lt_zero⟩
  | succ m ih =>
    unfold renorm
    split
    · next hr =>
      have hrange := renormStep_range_toNat cbuf hr
      have hwide : 128 ≤ 2 ^ m * (renormStep cbuf r).range.toNat := by
        rwa [hrange, Nat.mul_comm _ 2, ← Nat.mul_assoc, ← Nat.pow_succ]
      obtain ⟨n, hn, hs, hsmall⟩ := ih (by omega) (renormStep_tail cbuf ht) hwide
      refine ⟨n + 1, by omega, hs.succ hr ht (by omega), fun j hj => ?_⟩
      cases j with
      | zero => rwa [pow_zero, Nat.mul_one]
      | succ j =>
        rw [Nat.pow_succ', ← Nat.mul_assoc, ← hrange]
        exact hsmall j (by omega)
    · exact ⟨0, by omega, .zero cbuf r, fun j hj => absurd hj j.not_lt_zero⟩

/-! ### The command -/

theorem Rd.SameBuffer.eq (h : Rd.SameBuffer r r') :
    r' = { r with value := r'.value, range := r'.range, bitCount := r'.bitCount, cursor := r'.cursor } := by
  obtain ⟨hbase, hsize, hvalid, hchanged⟩ := h
  cases r'
  cases hbase; cases hsize; cases hvalid; cases hchanged
  rfl

/-- Settles O23: the bool and the cut of `readBool`, then as many turns as the interval needs. -/
theorem rdBoolResult : Obligations.RdBoolResult := by
  unfold Obligations.RdBoolResult
  refine ⟨fun p k s => ⟨fun hk => finish_require_operands (okInstance_of_gt hk), fun hk hv =>
    finish_require_valid (okInstance_iff.2 hk) hv⟩, fun p k s hk hv hinv => ?_⟩
  intro r split bit range value byte
  obtain ⟨hrange, hvalue, hwide⟩ := Rd.cut_toNat p hinv
  obtain ⟨hbit, hcur⟩ := r.cut_position p
  obtain ⟨hbyte, hnext⟩ := nextByte_congr (cbuf := s.cbuf) (r.cut_buffer p) hcur
  obtain ⟨n, hn, hs, hsmall⟩ := renorm_shifted s.cbuf le_rfl (Rd.cut_tail p hinv) hwide
  replace hrange : (r.cut p).range.toNat = range := by simp only [range, bit, decide_eq_true_eq]; exact hrange
  replace hvalue : (r.cut p).value.toNat = value := by simp only [value, bit, decide_eq_true_eq]; exact hvalue
  replace hbyte : (nextByte s.cbuf (r.cut p)).1.toNat = byte := by
    rw [hbyte, nextByte_eq]
    exact apply_ite BitVec.toNat _ _ _
  have hbool : readBool s.cbuf p r = (bit, renorm s.cbuf 7 (r.cut p)) := readBool_eq s.cbuf p r
  have hsame : Rd.SameBuffer r (renorm s.cbuf 7 (r.cut p)) := (r.cut_buffer p).trans (renorm_buffer ..)
  have hexec := exec_rdBool p hk hv
  rw [hbool] at hexec
  refine ⟨_, n, hexec, hsame.eq, hn, ?_, ?_, ?_, ?_, ?_, ?_, ?_⟩
  · rw [hs.range, hrange]
  · exact renorm_range s.cbuf 7 hwide
  · exact fun h0 => hrange ▸ hsmall (n - 1) (by omega)
  · rw [hs.bitCount, hbit]
  · intro hlt
    have := hs.shift (hbit ▸ hlt)
    rwa [hvalue, hcur] at this
  · intro hle
    have := hs.load (hbit ▸ hle)
    rwa [hvalue, hbit, hbyte, hnext, nextByte_eq] at this
  · exact fun hf => renorm_fits s.cbuf 7 (Rd.cut_tail p hinv) (Rd.cut_fits p hinv hf)

/-! ## `RD_LIT` and `RD_SLIT` (R133, R134) -/

/-- The last bit of a literal stands below the bits before it. -/
theorem readLitFrom_succ (cbuf : Memory Byte) (v n : Nat) (r : Rd) : readLitFrom cbuf v (n + 1) r =
    let m := readLitFrom cbuf v n r
    (2 * m.1 + boolNat (readBool cbuf 128 m.2).1, (readBool cbuf 128 m.2).2) := by
  induction n generalizing v r with
  | zero => rfl
  | succ n ih =>
    rw [readLitFrom]
    exact ih _ _

theorem readLit_succ (cbuf : Memory Byte) (n : Nat) (r : Rd) : readLit cbuf (n + 1) r =
    let m := readLit cbuf n r
    (2 * m.1 + boolNat (readBool cbuf 128 m.2).1, (readBool cbuf 128 m.2).2) := readLitFrom_succ cbuf 0 n r

/-- What is read keeps an instance usable. -/
theorem afterRead_rdValid {k : Nat} {v : Word} (hk : k < 9) (hr : RdSteps s.cbuf (s.rdAt k) r)
    (hv : s.rdValid k = true) : (s.afterRead k r v).rdValid k = true := by
  rw [State.rdValid, State.afterRead_rdAt s k r v hk, hr.buffer.valid]
  exact hv

/-- One bool more, after a read of the same instance. -/
theorem exec_rdBool_afterRead (p : Byte) {k : Byte} (hk : k.toNat ≤ 8) (v : Word)
    (hr : RdSteps s.cbuf (s.rdAt k.toNat) r) (hv : s.rdValid k.toNat = true) :
    exec (.rdBool p k) (s.afterRead k.toNat r v) =
      .next (s.afterRead k.toNat (readBool s.cbuf p r).2 (boolWord (readBool s.cbuf p r).1)) := by
  have hk9 : k.toNat < 9 := by omega
  rw [exec_rdBool p hk (afterRead_rdValid hk9 hr hv), State.afterRead_rdAt _ _ _ _ hk9, State.afterRead_afterRead,
    State.afterRead_cbuf]

theorem boolWord_eq_one {b : Bool} : boolWord b = 1 ↔ b = true := by cases b <;> decide

theorem boolWord_toNat (b : Bool) : (boolWord b).toNat = boolNat b := by cases b <;> rfl

theorem ofNat_two_mul_add_boolNat (m : Nat) (b : Bool) :
    BitVec.ofNat 32 (2 * m + boolNat b) = 2 * BitVec.ofNat 32 m + boolWord b := by
  rw [BitVec.ofNat_add, BitVec.ofNat_mul, ← boolWord_toNat, BitVec.ofNat_toNat, BitVec.setWidth_eq]
  rfl

/-- The literal of one bit more is the literal, a bool, and the two put together. -/
theorem exec_rdLit_succ {n k : Byte} (hn : n.toNat ≤ 31) (hk : k.toNat ≤ 8) (hv : s.rdValid k.toNat = true) :
    let m := readLit s.cbuf n.toNat (s.rdAt k.toNat)
    let x := readBool s.cbuf 128 m.2
    exec (.rdLit (n + 1) k) s =
      .next (s.afterRead k.toNat x.2 (2 * BitVec.ofNat 32 m.1 + boolWord x.1)) := by
  have hn1 : (n + 1).toNat = n.toNat + 1 := by rw [BitVec.toNat_add]; show (n.toNat + 1) % 256 = _; omega
  simp only
  rw [exec_rdLit (by omega) hk hv, hn1, readLit_succ, ofNat_two_mul_add_boolNat]

/-- The value of a signed literal, in a word. -/
theorem ofInt_readSlit (cbuf : Memory Byte) (n : Nat) (r : Rd) :
    let m := readLit cbuf n r
    BitVec.ofInt 32 (readSlit cbuf n r).1 =
      if boolWord (readBool cbuf 128 m.2).1 = 1 then -BitVec.ofNat 32 m.1 else BitVec.ofNat 32 m.1 := by
  simp only [readSlit, boolWord_eq_one]
  split
  · rw [BitVec.ofInt_neg, BitVec.ofInt_natCast]
  · rw [BitVec.ofInt_natCast]

/-- Settles O24: a literal's last bit, and a signed literal's sign, is one bool more after the bits before it. -/
theorem rdLiteralResults : Obligations.RdLiteralResults := by
  unfold Obligations.RdLiteralResults
  refine ⟨fun n k s => ⟨fun h => ?_, fun h => ?_, fun hk hv => ⟨fun hn => ?_, fun hn => ?_⟩⟩,
    fun n k s hk hv => ⟨?_, fun hn => ?_, fun hn => ?_⟩⟩
  · exact finish_require_operands (Bool.eq_false_iff.2 fun hok => by have := okLiteral_and_iff.1 hok; omega)
  · exact finish_require_operands (Bool.eq_false_iff.2 fun hok => by have := okSignedLiteral_and_iff.1 hok; omega)
  · exact finish_require_valid (okLiteral_and_iff.2 ⟨hn, hk⟩) hv
  · exact finish_require_valid (okSignedLiteral_and_iff.2 ⟨hn, hk⟩) hv
  · rw [exec_rdLit (by decide) hk hv]
    show Host.Outcome.next ((s.setRd k.toNat (s.rdAt k.toNat)).setRes 0 0).done = _
    rw [State.setRd_rdAt]
  · refine ⟨_, exec_rdLit hn hk hv, rfl, ?_, State.afterRead_frame ..⟩
    rw [State.afterRead_result, BitVec.toNat_ofNat]
    exact Nat.mod_lt_of_lt (readLit_lt s.cbuf n.toNat _)
  · refine ⟨_, _, exec_rdLit (by omega) hk hv, exec_rdBool_afterRead 128 hk _ (readLit_steps ..) hv, ?_, ?_⟩
    · rw [exec_rdLit_succ hn hk hv, State.afterRead_setRes, State.afterRead_result, State.afterRead_result]
    · rw [exec_rdSlit hn hk hv, ofInt_readSlit, State.afterRead_setRes, State.afterRead_result, State.afterRead_result]
      rfl

/-! ## `RD_TREE` (R135) -/

/-- One turn of the walk: a bool at the node's probability, then the leaf or the rest of the walk. -/
theorem readTree_turn {T : List Int} (hT : TreeOk T) {P : Nat → Res Byte} {p : Byte} {i : Nat}
    (hp : P (i / 2) = .ok p) (hi : i % 2 = 0) (hl : i < T.length) (r : Rd) : readTree cbuf T P i r =
      let x := readBool cbuf p r
      let e := T.getD (i + boolNat x.1) 0
      if e ≤ 0 then .ok ((-e).toNat, x.2) else readTree cbuf T P e.toNat x.2 := by
  obtain ⟨n, hn⟩ : ∃ n, T.length = n + 1 := ⟨T.length - 1, by omega⟩
  have hb := boolNat_le (readBool cbuf p r).1
  have hlt : i + boolNat (readBool cbuf p r).1 < T.length := by have := hT.1; omega
  rw [readTree, hn, readTreeFrom]
  simp only [hp, Res.ok_bind, getD_eq]
  split
  · rfl
  · obtain ⟨h1, h2, h3⟩ := hT.2 _ hlt (by omega)
    exact readTreeFrom_fuel hT h1 h3 (by omega) (by omega) _

theorem argProb_half (s : State) (i : Nat) :
    s.argProb (i / 2) = (s.arg (i / 8)).extractLsb' (8 * (i / 2 % 4)) 8 := by
  rw [State.argProb, Nat.div_div_eq_div_mul]

theorem treeOf_length_le : ∀ n ≤ 9, (treeOf n).length ≤ 22 := by decide

theorem readTree_args_ok (s : State) {tree start : Nat} (ht : tree ≤ 9) (he : start % 2 = 0)
    (hl : start < (treeOf tree).length) (r : Rd) :
    ∃ v r', readTree s.cbuf (treeOf tree) (fun i => .ok (s.argProb i)) start r = .ok (v, r') := by
  obtain ⟨-, v, r', -, -, -, h⟩ := readTree_ok (treeOf_ok tree ht) (fun _ _ => ⟨_, rfl⟩) he hl r
  exact ⟨v, r', h⟩

theorem ofInt_toNat_of_lt {e : Int} (h0 : 0 ≤ e) (h : e.toNat < 256) : (BitVec.ofInt 8 e).toNat = e.toNat := by
  rw [BitVec.toNat_ofInt]
  omega

theorem ofNat_toNat_of_nonneg {e : Int} (h : 0 ≤ e) : BitVec.ofNat 32 e.toNat = BitVec.ofInt 32 e := by
  rw [← BitVec.ofInt_natCast, Int.toNat_of_nonneg h]

section
variable {tree start k : Byte} (ht : tree.toNat ≤ 9) (he : start.toNat % 2 = 0)
  (hl : start.toNat < (treeOf tree.toNat).length) (hk : k.toNat ≤ 8) (hv : s.rdValid k.toNat = true)
include ht he hl hk hv

/-- Where the array names a leaf, the walk ends there. -/
theorem exec_rdTree_leaf :
    let x := readBool s.cbuf (s.argProb (start.toNat / 2)) (s.rdAt k.toNat)
    let e := (treeOf tree.toNat).getD (start.toNat + boolNat x.1) 0
    e ≤ 0 → exec (.rdTree tree start k) s = .next (s.afterRead k.toNat x.2 (BitVec.ofInt 32 (-e))) := by
  intro x e hleaf
  have h := (readTree_turn (cbuf := s.cbuf) (treeOf_ok _ ht) (P := fun i => .ok (s.argProb i)) rfl he hl
    (s.rdAt k.toNat)).trans (if_pos hleaf)
  rw [exec_rdTree (okTree_and_iff.2 ⟨ht, he, hl, hk⟩) hv h, ofNat_toNat_of_nonneg (neg_nonneg.2 hleaf)]

/-- Where it names a node, the rest of the walk is that of the command started at that node. -/
theorem exec_rdTree_node (w : Word) :
    let x := readBool s.cbuf (s.argProb (start.toNat / 2)) (s.rdAt k.toNat)
    let e := (treeOf tree.toNat).getD (start.toNat + boolNat x.1) 0
    0 < e → exec (.rdTree tree start k) s =
      exec (.rdTree tree (BitVec.ofInt 8 e) k) (s.afterRead k.toNat x.2 w) := by
  intro x e hnode
  have hT := treeOf_ok _ ht
  have hlen := treeOf_length_le _ ht
  have hlt : start.toNat + boolNat x.1 < (treeOf tree.toNat).length := by
    have := hT.1
    have := boolNat_le x.1
    omega
  obtain ⟨heven, -, hin⟩ := hT.2 _ hlt hnode
  have hto : (BitVec.ofInt 8 e).toNat = e.toNat := ofInt_toNat_of_lt hnode.le (by omega)
  obtain ⟨v, r', hrest⟩ := readTree_args_ok s ht heven hin x.2
  have hwhole := (readTree_turn (cbuf := s.cbuf) hT (P := fun i => .ok (s.argProb i)) rfl he hl
    (s.rdAt k.toNat)).trans ((if_neg (not_le.2 hnode)).trans hrest)
  have hk9 : k.toNat < 9 := by omega
  rw [exec_rdTree (okTree_and_iff.2 ⟨ht, he, hl, hk⟩) hv hwhole,
    exec_rdTree (r := r') (v := v) (okTree_and_iff.2 ⟨ht, hto ▸ heven, hto ▸ hin, hk⟩)
      (afterRead_rdValid hk9 (.bool ..) hv), State.afterRead_afterRead]
  rw [State.afterRead_rdAt _ _ _ _ hk9, hto]
  exact hrest

end

/-- Settles O25: the command's walk turns as `readTree` does, and the tree is long enough for it to end. -/
theorem rdTreeResult : Obligations.RdTreeResult := by
  unfold Obligations.RdTreeResult
  refine ⟨fun tree start k s => ⟨fun h => ?_, fun hk ht he hl hv => ?_⟩,
    fun tree start k s ht he hl hk hv => ⟨?_, ?_⟩⟩
  · exact finish_require_operands (Bool.eq_false_iff.2 fun hok => by have := okTree_and_iff.1 hok; omega)
  · exact finish_require_valid (okTree_and_iff.2 ⟨ht, he, hl, hk⟩) hv
  · obtain ⟨v, r', h⟩ := readTree_args_ok s ht he hl (s.rdAt k.toNat)
    exact ⟨_, exec_rdTree (okTree_and_iff.2 ⟨ht, he, hl, hk⟩) hv h, rfl, State.afterRead_frame ..⟩
  · rw [← argProb_half]
    refine ⟨_, exec_rdBool _ hk hv, ?_⟩
    simp only [State.afterRead_result, boolWord_toNat, State.afterRead_setRes]
    exact ⟨exec_rdTree_leaf ht he hl hk hv, exec_rdTree_node ht he hl hk hv _⟩

end Sys2Proof.Machine
end

section
/-! PROOFS. The mode decoder (41_mode_decoder.md): what each of its ten commands answers. -/

namespace Sys2Proof.Machine

variable {s t u : State} {i : Instr}

/-! ## The checks of the unit's commands (R160) -/

/-- What the checks of an MD command ask for: a position inside the frame and an initialised instance 0. -/
structure State.MdOk (s : State) : Prop where
  pos : s.posOk = true
  valid : s.rdValid 0 = true

theorem State.MdOk.finish_mdCheck (h : s.MdOk) (f : Res State) :
    finish s (mdCheck s >>= fun _ => f) = finish s f := by
  unfold mdCheck
  rw [h.pos, h.valid]
  rfl

/-- A command whose checks hold completes where its work does. -/
theorem State.MdOk.exec_of_work (h : s.MdOk) {f : Res State} (hi : exec i s = finish s (mdCheck s >>= fun _ => f))
    (hf : f = .ok t) : exec i s = .next t.done := by
  rw [hi, h.finish_mdCheck, hf]
  rfl

/-- MD and MP write neither the position nor the size, and a read leaves its instance initialised. -/
theorem State.MdOk.of_effects (h : s.MdOk) (he : Effects tagsMd s t) : t.MdOk where
  pos := (posOk_of_cr (md_cr he)).trans h.pos
  valid := loop_valid (he.mono ((md_sub_mb 0).trans (mb_sub_loop 0))) h.valid

/-! ## Reads of instance 0 -/

/-- The trees of the modes number their leaves from 0, so the largest is the number of nodes. -/
theorem modeTree_leaf_le : ∀ n ≤ 4, ∀ j < (treeOf n).length, (treeOf n).getD j 0 ≤ 0 →
    (-(treeOf n).getD j 0).toNat ≤ (treeOf n).length / 2 := by decide

/-- A read by one of the mode trees completes where the probabilities of its `m` nodes are given. -/
theorem getTree_modeTree {n m : Nat} {P : Nat → Res Byte} (hP : ∀ j < m, ∃ p, P j = .ok p) (s : State)
    (hn : n ≤ 4 := by decide) (hm : (treeOf n).length = 2 * m ∧ 0 < m := by decide) :
    ∃ v r, readTree s.cbuf (treeOf n) P 0 (s.rdAt 0) = .ok (v, r) ∧ v ≤ m ∧
      s.getTree 0 (treeOf n) P 0 = .ok (v, s.setRd 0 r) := by
  obtain ⟨hlen, hpos⟩ := hm
  have hhalf : (treeOf n).length / 2 = m := by omega
  exact getTree_ok (treeOf_ok n (by omega)) (hhalf ▸ hP) rfl (by omega) (hhalf ▸ modeTree_leaf_le n hn)

theorem State.rdAt_setRd_self (s : State) (r : Rd) : (s.setRd 0 r).rdAt 0 = r :=
  (s.rdAt_setRd 0 0 r (by decide)).trans (if_pos rfl)

theorem State.setRd_setRd (s : State) (k : Nat) (q r : Rd) : (s.setRd k q).setRd k r = s.setRd k r := by
  simp [State.setRd]

theorem probs_zero {p : Byte} {lo : Nat} (h : s.probAt lo = some p) : s.probs lo 0 = .ok p :=
  congrArg (need · Fault.probUnspecified) h

theorem getBoolAt_probs {p : Byte} {lo : Nat} (h : s.probAt lo = some p) : s.getBoolAt 0 (s.probs lo 0) =
    .ok ((readBool s.cbuf p (s.rdAt 0)).1, s.setRd 0 (readBool s.cbuf p (s.rdAt 0)).2) := by
  rw [probs_zero h]
  rfl

/-- A bool read after others, which have left instance 0 as `r`. -/
theorem getBoolAt_probs_setRd {p : Byte} {lo : Nat} (r : Rd) (h : s.probAt lo = some p) :
    (s.setRd 0 r).getBoolAt 0 ((s.setRd 0 r).probs lo 0) =
      .ok ((readBool s.cbuf p r).1, s.setRd 0 (readBool s.cbuf p r).2) := by
  rw [getBoolAt_probs (s := s.setRd 0 r) (p := p) h, State.rdAt_setRd_self, State.setRd_setRd]
  rfl

/-! ## `MD_SEGID` and `MD_SKIP` (R162, R163, R174) -/

theorem readSegid_off (h : (s.crBit 3 0 && s.crBit 3 1) = false) : readSegid s = .ok s := by
  rw [readSegid, h]
  rfl

theorem readSegid_on {v : Nat} {r : Rd} (hon : (s.crBit 3 0 && s.crBit 3 1) = true)
    (h : s.getTree 0 segmentTree (s.probs segidIndex) 0 = .ok (v, s.setRd 0 r)) :
    readSegid s = .ok ((s.setRd 0 r).setSegment (BitVec.ofNat 2 v)) := by
  rw [readSegid, if_pos hon, h]
  rfl

theorem readSkip_off (h : s.crBit 14 0 = false) : readSkip s = .ok (false, s) := by
  rw [readSkip, h]
  rfl

theorem readSkip_on {p : Byte} (hon : s.crBit 14 0 = true) (h : s.probAt mbskipIndex = some p) : readSkip s =
    .ok ((readBool s.cbuf p (s.rdAt 0)).1, s.setRd 0 (readBool s.cbuf p (s.rdAt 0)).2) := by
  rw [readSkip, if_pos hon, getBoolAt_probs h]

/-- The segment just written, as other units see it. -/
theorem seg_setSegment {v : Nat} (hon : s.crBit 3 0 = true) (hv : v ≤ 3) :
    (s.setSegment (BitVec.ofNat 2 v)).seg = v := by
  rw [State.seg, State.setSegment_crBit, if_pos hon, State.segment_setSegment, BitVec.toNat_ofNat]
  omega

theorem mdSegid_of_readSegid (h : readSegid s = .ok t) :
    mdSegid s = .ok (t.setRes 0 (BitVec.ofNat 32 t.seg)) := by
  rw [mdSegid, h]
  rfl

theorem mdSkip_of_readSkip {b : Bool} (h : readSkip s = .ok (b, t)) :
    mdSkip s = .ok ((t.setCur { t.cur with skip := b }).setRes 0 (boolWord b)) := by
  rw [mdSkip, h]
  rfl

/-- Settles O26: each command with its feature off, and on. -/
theorem mdFlagResults : Obligations.MdFlagResults := by
  unfold Obligations.MdFlagResults
  intro s hp hv
  have hok : s.MdOk := ⟨hp, hv⟩
  refine ⟨fun hoff => ?_, fun hon hknown => ?_, fun hoff => ?_, fun p hon hprob => ?_⟩
  · exact hok.exec_of_work rfl (mdSegid_of_readSegid (readSegid_off hoff))
  · obtain ⟨v, r, hread, hle, htree⟩ := getTree_modeTree (n := 0) (probs_ok hknown) s
    have hwork := mdSegid_of_readSegid (readSegid_on hon htree)
    rw [seg_setSegment (s := s.setRd 0 r) (Bool.and_eq_true_iff.1 hon).1 hle] at hwork
    exact ⟨v, r, hread, hle, hok.exec_of_work rfl hwork⟩
  · exact hok.exec_of_work rfl (mdSkip_of_readSkip (readSkip_off hoff))
  · exact hok.exec_of_work rfl (mdSkip_of_readSkip (readSkip_on hon hprob))

/-! ## The intra modes (R164, R165, R168, R169, R173) -/

/-- The sub-modes of a keyframe's luma mode (R164, R173). -/
theorem keyBModes_ofNum (old : Vector BMode 16) : ∀ v ≤ 4, keyBModes (MbMode.ofNum v) old =
    if v = 4 then old else Vector.replicate 16 (match v with | 0 => .dc | 1 => .ve | 2 => .he | _ => .tm) := by
  intro v hv
  interval_cases v <;> rfl

section
variable {v : Nat} {r : Rd}

theorem mdYmodeKf_of_tree (h : s.getTree 0 kfYmodeTree (tableProb kfYmodeProbs) 0 = .ok (v, s.setRd 0 r)) :
    mdYmodeKf s = .ok (((s.setRd 0 r).setCur { s.cur.intra (MbMode.ofNum v) with
      bmode := keyBModes (MbMode.ofNum v) s.cur.bmode }).setRes 0 (BitVec.ofNat 32 v)) := by
  rw [mdYmodeKf, h]
  rfl

theorem mdYmodeIf_of_tree (h : s.getTree 0 ymodeTree (s.probs ymodeIndex) 0 = .ok (v, s.setRd 0 r)) :
    mdYmodeIf s = .ok (((s.setRd 0 r).setCur (s.cur.intra (MbMode.ofNum v))).setRes 0 (BitVec.ofNat 32 v)) := by
  rw [mdYmodeIf, h]
  rfl

theorem mdUvmode_of_tree {P : Nat → Res Byte} (h : s.getTree 0 uvmodeTree P 0 = .ok (v, s.setRd 0 r)) :
    mdUvmode P s = .ok (((s.setRd 0 r).setCur { s.cur with uvmode := UvMode.ofNum v }).setRes 0
      (BitVec.ofNat 32 v)) := by
  rw [mdUvmode, h]
  rfl

end

/-- Settles O27: each tree ends at a leaf, and the command stores the mode of that leaf. -/
theorem mdModeResults : Obligations.MdModeResults := by
  unfold Obligations.MdModeResults
  intro s hp hv
  have hok : s.MdOk := ⟨hp, hv⟩
  refine ⟨?_, fun hknown => ?_, ?_, fun hknown => ?_⟩
  · obtain ⟨v, r, hread, hle, htree⟩ := getTree_modeTree (n := 1) (tableProb_ok kfYmodeProbs 4) s
    have hwork := mdYmodeKf_of_tree htree
    rw [keyBModes_ofNum _ v hle] at hwork
    exact ⟨v, r, hread, hle, hok.exec_of_work rfl hwork⟩
  · obtain ⟨v, r, hread, hle, htree⟩ := getTree_modeTree (n := 2) (probs_ok hknown) s
    exact ⟨v, r, hread, hle, hok.exec_of_work rfl (mdYmodeIf_of_tree htree)⟩
  · obtain ⟨v, r, hread, hle, htree⟩ := getTree_modeTree (n := 3) (tableProb_ok kfUvmodeProbs 3) s
    exact ⟨v, r, hread, hle, hok.exec_of_work rfl (mdUvmode_of_tree htree)⟩
  · obtain ⟨v, r, hread, hle, htree⟩ := getTree_modeTree (n := 3) (probs_ok hknown) s
    exact ⟨v, r, hread, hle, hok.exec_of_work rfl (mdUvmode_of_tree htree)⟩

/-! ## The sixteen sub-modes (R166, R167) -/

/-- The states that a loop over the first numbers passes through, where no step fails. -/
theorem foldlM_range_states {β : Type} {f : β → Nat → Res β} (hf : ∀ a b, ∃ a', f a b = .ok a') (a : β) :
    ∃ x : Nat → β, x 0 = a ∧ (∀ b, f (x b) b = .ok (x (b + 1))) ∧
      ∀ n, (List.range n).foldlM f a = .ok (x n) := by
  choose g hg using hf
  refine ⟨fun n => n.rec a fun b a' => g a' b, rfl, fun b => hg _ b, fun n => ?_⟩
  induction n with
  | zero => rfl
  | succ n ih =>
    rw [List.range_succ, List.foldlM_append, ih, Res.ok_bind, List.foldlM_cons, hg]
    rfl

/-- A canonical memory lists no default. -/
theorem Memory.find_ne_default {α : Type} {m : Memory α} {d : α} (h : Memory.wfD d m) (k : Nat) :
    Memory.find m k ≠ some d := by
  obtain ⟨-, hd⟩ := h
  induction m with
  | nil => simp
  | cons p m ih =>
    obtain ⟨hp, hm⟩ := List.forall_mem_cons.1 hd
    rw [Memory.find_cons]
    split
    · exact fun he => hp (Option.some.inj he)
    · exact ih hm

/-- Writing back what was read changes nothing in a canonical memory. -/
theorem Memory.put_get {α : Type} [DecidableEq α] {m : Memory α} {d : α} (h : Memory.wfD d m) (k : Nat) :
    Memory.put m d k (Memory.get m d k) = m := by
  refine Memory.ext_of_wf (Memory.wfD_put h k _).1 h.1 fun j => ?_
  have hne := Memory.find_ne_default h k
  unfold Memory.put Memory.get
  cases hf : Memory.find m k <;> by_cases hj : j = k <;> simp_all [Memory.find_erase, Memory.find_set]

/-- In canonical memories the record written back changes nothing, and of two records the second stays. -/
theorem State.setCur_cur (hs : s.MemWf) : s.setCur s.cur = s :=
  congrArg (fun m => { s with mbinfo := m }) (Memory.put_get hs.mbinfo _)

theorem State.setCur_setCur (hs : s.MemWf) (q r : MbRec) : (s.setCur q).setCur r = s.setCur r :=
  congrArg (fun m => { s with mbinfo := m }) (Memory.put_put hs.mbinfo _ q r)

/-- The macroblocks above and to the left have other records. -/
theorem State.aboveMb_setCur (s : State) (r : MbRec) : (s.setCur r).aboveMb = s.aboveMb := by
  unfold State.aboveMb
  rw [State.setCur_mbx, State.setCur_mby]
  split
  · rfl
  · next h => exact Memory.get_put_other _ _ _ (by unfold mbKey; omega)

theorem State.leftMb_setCur (s : State) (r : MbRec) : (s.setCur r).leftMb = s.leftMb := by
  unfold State.leftMb
  rw [State.setCur_mbx, State.setCur_mby]
  split
  · rfl
  · next h => exact Memory.get_put_other _ _ _ (by unfold mbKey; omega)

/-- The sub-modes with the first `n` of them replaced by those of `m`. -/
def bmodesUpTo (m : Nat → BMode) (old : Vector BMode 16) (n : Nat) : Vector BMode 16 :=
  Vector.ofFn fun b : Fin 16 => if b < n then m b else old[b]

theorem bmodesUpTo_zero (m : Nat → BMode) (old : Vector BMode 16) : bmodesUpTo m old 0 = old := by
  simp [bmodesUpTo]

theorem bmodesUpTo_all (m : Nat → BMode) (old : Vector BMode 16) :
    bmodesUpTo m old 16 = Vector.ofFn fun b : Fin 16 => m b := by
  simp [bmodesUpTo]

theorem bmodesUpTo_succ (m : Nat → BMode) (old : Vector BMode 16) (n : Nat) :
    (bmodesUpTo m old n).setIfInBounds n (m n) = bmodesUpTo m old (n + 1) := by
  ext b hb
  simp only [bmodesUpTo, Vector.getElem_setIfInBounds, Vector.getElem_ofFn]
  grind

/-- The state after the first `n` sub-modes have been read as `m`, instance 0 then being `r`. -/
def State.withBModes (s : State) (m : Nat → BMode) (r : Rd) (n : Nat) : State :=
  (s.setRd 0 r).setCur { s.cur with bmode := bmodesUpTo m s.cur.bmode n }

section
variable (m : Nat → BMode) (r : Rd) (n : Nat)

theorem State.withBModes_all : s.withBModes m r 16 =
    (s.setRd 0 r).setCur { s.cur with bmode := Vector.ofFn fun b : Fin 16 => m b } := by
  rw [State.withBModes, bmodesUpTo_all]

theorem State.withBModes_zero (hs : s.MemWf) : s.withBModes m (s.rdAt 0) 0 = s := by
  rw [State.withBModes, bmodesUpTo_zero, State.setRd_rdAt]
  exact State.setCur_cur hs

/-- One sub-mode more. -/
theorem State.withBModes_succ (hs : s.MemWf) (q : Rd) :
    ((s.withBModes m r n).setRd 0 q).setBMode n (m n) = s.withBModes m q (n + 1) := by
  have hrd : (s.withBModes m r n).setRd 0 q = s.withBModes m q n :=
    congrArg (State.setCur · { s.cur with bmode := bmodesUpTo m s.cur.bmode n }) (s.setRd_setRd 0 r q)
  rw [hrd, State.setBMode, State.withBModes, State.cur_setCur, State.setCur_setCur (s := s.setRd 0 q) { hs with },
    bmodesUpTo_succ]
  rfl

theorem State.withBModes_bmodeAt {b : Nat} (hb : b < n) (hn : n ≤ 16) :
    (s.withBModes m r n).cur.bmodeAt b = m b := by
  rw [State.withBModes, State.cur_setCur, MbRec.bmodeAt]
  simp [bmodesUpTo, hb, show b < 16 by omega]

/-- The sub-modes that R166 takes as context: those of this macroblock have been read before. -/
theorem State.withBModes_aboveBMode {b : Nat} (hb : b < 16) : (s.withBModes m r b).aboveBMode b =
    if b < 4 then s.aboveMb.bmodeAt (12 + b) else m (b - 4) := by
  unfold State.aboveBMode
  split
  · exact congrArg (MbRec.bmodeAt · _) ((s.setRd 0 r).aboveMb_setCur _)
  · exact State.withBModes_bmodeAt m r b (by omega) hb.le

theorem State.withBModes_leftBMode {b : Nat} (hb : b < 16) : (s.withBModes m r b).leftBMode b =
    if b % 4 = 0 then s.leftMb.bmodeAt (b + 3) else m (b - 1) := by
  unfold State.leftBMode
  split
  · exact congrArg (MbRec.bmodeAt · _) ((s.setRd 0 r).leftMb_setCur _)
  · exact State.withBModes_bmodeAt m r b (by omega) hb.le

end

/-- One turn of the loop: a leaf of the tree, stored as the sub-mode. -/
theorem bmodeStep_reads {P : State → Nat → Nat → Res Byte} (hP : ∀ s b n, ∃ p, P s b n = .ok p) {b : Nat}
    (h : bmodeStep P s b = .ok t) :
    ∃ v ≤ 9, readTree s.cbuf bmodeTree (P s b) 0 (s.rdAt 0) = .ok (v, t.rdAt 0) ∧
      t = (s.setRd 0 (t.rdAt 0)).setBMode b (BMode.ofNum v) := by
  obtain ⟨v, r, hread, hle, htree⟩ := getTree_modeTree (n := 4) (m := 9) (P := P s b) (fun j _ => hP s b j) s
  rw [bmodeStep, show s.getTree 0 bmodeTree (P s b) 0 = _ from htree] at h
  have ht : t = (s.setRd 0 r).setBMode b (BMode.ofNum v) := (Except.ok.inj h).symm
  have hrd : t.rdAt 0 = r := by
    rw [ht]
    exact s.rdAt_setRd_self r
  rw [hrd]
  exact ⟨v, hle, hread, ht⟩

/-- The loop of both commands, whose probabilities `P` may depend on the sub-modes already read. -/
theorem bmodes_read (hs : s.MemWf) {P : State → Nat → Nat → Res Byte} (hP : ∀ s b n, ∃ p, P s b n = .ok p) :
    ∃ (m : Nat → BMode) (r : Nat → Rd), r 0 = s.rdAt 0 ∧
      (∀ b, ∃ v ≤ 9, m b = BMode.ofNum v ∧
        readTree s.cbuf bmodeTree (P (s.withBModes m (r b) b) b) 0 (r b) = .ok (v, r (b + 1))) ∧
      (List.range 16).foldlM (bmodeStep P) s =
        .ok ((s.setRd 0 (r 16)).setCur { s.cur with bmode := Vector.ofFn fun b : Fin 16 => m b }) := by
  obtain ⟨x, hstart, hstep, hfold⟩ := foldlM_range_states (bmodeStep_completes hP) s
  choose v hle hread hnext using fun b => bmodeStep_reads hP (hstep b)
  have hx : ∀ n, x n = s.withBModes (fun b => BMode.ofNum (v b)) ((x n).rdAt 0) n := by
    intro n
    induction n with
    | zero => rw [hstart, State.withBModes_zero _ hs]
    | succ n ih =>
      have h := hnext n
      rw [ih, State.withBModes_succ _ _ n hs] at h
      exact h
  refine ⟨fun b => BMode.ofNum (v b), fun n => (x n).rdAt 0, congrArg (State.rdAt · 0) hstart,
    fun b => ⟨v b, hle b, rfl, ?_⟩, ?_⟩
  · have hcbuf : (x b).cbuf = s.cbuf := by
      rw [hx b]
      rfl
    rw [← hx, ← hcbuf]
    exact hread b
  · exact (hfold 16).trans (congrArg Except.ok ((hx 16).trans (State.withBModes_all ..)))

/-- Settles O28: the loop of each command; on a keyframe its probabilities are those of the sub-modes read before. -/
theorem mdSubModes : Obligations.MdSubModes := by
  unfold Obligations.MdSubModes
  intro s hs hp hv
  have hok : s.MdOk := ⟨hp, hv⟩
  constructor
  · obtain ⟨m, r, hstart, hread, hfold⟩ :=
      bmodes_read hs (P := keyBModeProbs Config.openTables) fun _ _ _ => ⟨_, rfl⟩
    refine ⟨m, r, hstart, fun b hb => ?_, hok.exec_of_work rfl hfold⟩
    obtain ⟨v, hle, hm, htree⟩ := hread b
    unfold keyBModeProbs at htree
    rw [State.withBModes_aboveBMode m _ hb, State.withBModes_leftBMode m _ hb] at htree
    exact ⟨v, hle, hm, htree⟩
  · obtain ⟨m, r, hstart, hread, hfold⟩ :=
      bmodes_read hs (P := fun _ _ => tableProb bmodeProbs) fun _ _ _ => ⟨_, rfl⟩
    exact ⟨m, r, hstart, fun b _ => hread b, hok.exec_of_work rfl hfold⟩

/-! ## `MD_REF` (R170) -/

section
variable {w : State} (h1 : s.getBoolAt 0 (s.probs intraIndex 0) = .ok (true, t))

theorem readRef_current (h1 : s.getBoolAt 0 (s.probs intraIndex 0) = .ok (false, t)) :
    s.readRef = .ok (.current, t) := by
  rw [State.readRef, h1]
  rfl

include h1

theorem readRef_previous (h2 : t.getBoolAt 0 (t.probs lastIndex 0) = .ok (false, u)) :
    s.readRef = .ok (.previous, u) := by
  rw [State.readRef, h1]
  show (t.getBoolAt 0 (t.probs lastIndex 0) >>= _) = _
  rw [h2]
  rfl

theorem readRef_golden_or_altref {b : Bool} (h2 : t.getBoolAt 0 (t.probs lastIndex 0) = .ok (true, u))
    (h3 : u.getBoolAt 0 (u.probs goldenIndex 0) = .ok (b, w)) :
    s.readRef = .ok (if b then .altref else .golden, w) := by
  rw [State.readRef, h1]
  show (t.getBoolAt 0 (t.probs lastIndex 0) >>= _) = _
  rw [h2]
  show (u.getBoolAt 0 (u.probs goldenIndex 0) >>= _) = _
  rw [h3]
  rfl

end

theorem exec_mdRef {r : Rd} {ref : RefTag} (h : s.MdOk) (hr : s.readRef = .ok (ref, s.setRd 0 r)) :
    exec .mdRef s = .next (mdRefNext s r ref) := by
  refine h.exec_of_work rfl ?_
  rw [mdRef, hr]
  rfl

/-- Settles O29: `readRef` stops at the first bool that is 0, and has asked for no later probability. -/
theorem mdRefResult : Obligations.MdRefResult := by
  unfold Obligations.MdRefResult
  intro s pi hp hv hpi x1
  have hread1 : s.getBoolAt 0 (s.probs intraIndex 0) = .ok (x1.1, s.setRd 0 x1.2) := getBoolAt_probs hpi
  refine ⟨fun h1 => exec_mdRef ⟨hp, hv⟩ (readRef_current (h1 ▸ hread1)), fun pl h1 hpl => ?_⟩
  intro x2
  have hread2 : (s.setRd 0 x1.2).getBoolAt 0 ((s.setRd 0 x1.2).probs lastIndex 0) = .ok (x2.1, s.setRd 0 x2.2) :=
    getBoolAt_probs_setRd x1.2 hpl
  rw [h1] at hread1
  refine ⟨fun h2 => exec_mdRef ⟨hp, hv⟩ (readRef_previous hread1 (h2 ▸ hread2)), fun pg h2 hpg => ?_⟩
  rw [h2] at hread2
  exact exec_mdRef ⟨hp, hv⟩ (readRef_golden_or_altref hread1 hread2 (getBoolAt_probs_setRd x2.2 hpg))

/-! ## Programs of commands -/

theorem runCommands_two (i j : Instr) : runCommands [i, j] = fun s => andThen (exec i s) (exec j) := by
  funext s
  rw [runCommands_cons, show runCommands [j] = exec j from funext (runCommands_one j)]

/-- A program does one work, from each state in which `Ok` holds: the checks of its commands hold there, and what
it leaves is such a state. -/
structure Performs (Ok : State → Prop) (F : State → Host.Outcome State Fault Refusal) (f : State → Res State) :
    Prop where
  blind : Blind f
  quiet : ∀ s, Quiet (f s)
  run : ∀ s, Ok s → F s = finish s (f s)
  keeps : ∀ s t, Ok s → f s = .ok t → Ok (t.respond .ok)

section
variable {Ok : State → Prop} {F G : State → Host.Outcome State Fault Refusal} {f g : State → Res State}

theorem Performs.andThen (hF : Performs Ok F f) (hG : Performs Ok G g) :
    Performs Ok (fun s => andThen (F s) G) (fun s => f s >>= g) where
  blind s x := by
    show (f (s.respond x) >>= g) = _
    rw [hF.blind, Res.respond_bind, Res.bind_respond]
    exact congrArg _ (funext fun t => hG.blind t x)
  quiet s := (hF.quiet s).bind hG.quiet
  run s hs := by
    show Machine.andThen (F s) G = _
    rw [hF.run s hs, finish_bind hG.blind (hF.quiet s) hG.quiet]
    exact andThen_finish (hF.quiet s) s fun t ht => hG.run _ (hF.keeps s t hs ht)
  keeps s u hs hu := by
    obtain ⟨t, ht, hg⟩ := Res.bind_ok.1 hu
    have h := hG.keeps (t.respond .ok) (u.respond .ok) (hF.keeps s t hs ht)
    rw [hG.blind, hg] at h
    exact h rfl

theorem Performs.ite (hF : Performs Ok F f) (hG : Performs Ok G g) (c : State → Prop) [DecidablePred c]
    (hc : ∀ s x, c (s.respond x) = c s) :
    Performs Ok (fun s => if c s then F s else G s) (fun s => if c s then f s else g s) where
  blind s x := by
    rw [Res.ite_respond]
    exact if_congr (by rw [hc]) (hF.blind s x) (hG.blind s x)
  quiet s := .ite (hF.quiet s) (hG.quiet s)
  run s hs := by
    split
    · exact hF.run s hs
    · exact hG.run s hs
  keeps s t hs ht := by
    split at ht
    · exact hF.keeps s t hs ht
    · exact hG.keeps s t hs ht

/-- Two commands of which the first is run only where `c` holds. -/
theorem Performs.optional {i j : Instr} (hi : Performs Ok (exec i) f) (hj : Performs Ok (exec j) g)
    (c : State → Prop) [DecidablePred c] (hc : ∀ s x, c (s.respond x) = c s) :
    Performs Ok (fun s => runCommands (if c s then [i, j] else [j]) s)
      (fun s => (if c s then f s else .ok s) >>= g) := by
  have h := (hi.andThen hj).ite hj c hc
  have hF : (fun s => runCommands (if c s then [i, j] else [j]) s) =
      fun s => if c s then Machine.andThen (exec i s) (exec j) else exec j s := by
    funext s
    split
    · exact congrFun (runCommands_two i j) s
    · exact runCommands_one j s
  have hf : (fun s => (if c s then f s else .ok s) >>= g) = fun s => if c s then f s >>= g else g s := by
    funext s
    split <;> rfl
  rwa [hF, hf]

end

/-! ## `MD_MB` as a sequence (R171) -/

/-- One command of MD or MP, of the work `f`. -/
theorem performs_md {f : State → Res State} (hb : Blind f) (hq : ∀ s, Quiet (f s))
    (hrun : ∀ s, exec i s = finish s (mdCheck s >>= fun _ => f s))
    (he : ∀ s t, f s = .ok t → Effects tagsMd s t) : Performs State.MdOk (exec i) f where
  blind := hb
  quiet := hq
  run s hs := (hrun s).trans (hs.finish_mdCheck _)
  keeps s t hs ht := { hs.of_effects (he s t ht) with }

theorem performs_mdSegid : Performs State.MdOk (exec .mdSegid) mdSegid :=
  performs_md blind_mdSegid quiet_mdSegid (fun _ => rfl) fun _ _ => mdSegid_effects

theorem performs_mdSkip : Performs State.MdOk (exec .mdSkip) mdSkip :=
  performs_md blind_mdSkip quiet_mdSkip (fun _ => rfl) fun _ _ => mdSkip_effects

theorem performs_mdYmodeKf : Performs State.MdOk (exec .mdYmodeKf) mdYmodeKf :=
  performs_md blind_mdYmodeKf quiet_mdYmodeKf (fun _ => rfl) fun _ _ => mdYmodeKf_effects

theorem performs_mdYmodeIf : Performs State.MdOk (exec .mdYmodeIf) mdYmodeIf :=
  performs_md blind_mdYmodeIf quiet_mdYmodeIf (fun _ => rfl) fun _ _ => mdYmodeIf_effects

theorem performs_mdBmodesKf : Performs State.MdOk (exec .mdBmodesKf) (mdBmodesKf Config.openTables) :=
  performs_md (blind_mdBmodesKf _) (quiet_mdBmodesKf _) (fun _ => rfl) fun _ _ => mdBmodesKf_effects

theorem performs_mdBmodesIf : Performs State.MdOk (exec .mdBmodesIf) mdBmodesIf :=
  performs_md blind_mdBmodesIf quiet_mdBmodesIf (fun _ => rfl) fun _ _ => mdBmodesIf_effects

theorem performs_mdUvmodeKf : Performs State.MdOk (exec .mdUvmodeKf) mdUvmodeKf :=
  performs_md blind_mdUvmode quiet_mdUvmodeKf (fun _ => rfl) fun _ _ => mdUvmode_effects

theorem performs_mdUvmodeIf : Performs State.MdOk (exec .mdUvmodeIf) mdUvmodeIf :=
  performs_md (fun s x => blind_mdUvmode s x) quiet_mdUvmodeIf (fun _ => rfl) fun _ _ => mdUvmode_effects

theorem performs_mdRef : Performs State.MdOk (exec .mdRef) mdRef :=
  performs_md blind_mdRef quiet_mdRef (fun _ => rfl) fun _ _ => mdRef_effects

/-- The checks of `MP_MB` (R190) are those of MD. -/
theorem performs_mpMb : Performs State.MdOk (exec .mpMb) mpMb :=
  performs_md blind_mpMb quiet_mpMb (fun s => congrArg (finish s) (bind_assoc ..).symm) fun _ _ => mpMb_effects

theorem performs_mdIntraKf : Performs State.MdOk
    (fun s => andThen (exec .mdYmodeKf s) fun t =>
      runCommands (if t.cur.mode = .bPred then [.mdBmodesKf, .mdUvmodeKf] else [.mdUvmodeKf]) t)
    (mdIntraKf Config.openTables) :=
  performs_mdYmodeKf.andThen (performs_mdBmodesKf.optional performs_mdUvmodeKf _ fun _ _ => rfl)

theorem performs_mdIntraIf : Performs State.MdOk
    (fun s => andThen (exec .mdYmodeIf s) fun t =>
      runCommands (if t.cur.mode = .bPred then [.mdBmodesIf, .mdUvmodeIf] else [.mdUvmodeIf]) t) mdIntraIf :=
  performs_mdYmodeIf.andThen (performs_mdBmodesIf.optional performs_mdUvmodeIf _ fun _ _ => rfl)

theorem performs_mdSequence : Performs State.MdOk mdSequence
    fun s => (mdSegid s >>= mdSkip) >>= mdModes Config.openTables := by
  have hmodes := performs_mdIntraKf.ite
    (performs_mdRef.andThen (performs_mdIntraIf.ite performs_mpMb (fun t => t.cur.ref = .current) fun _ _ => rfl))
    (fun s => s.crBit 0 0 = true) fun _ _ => rfl
  have hflags := performs_mdSegid.andThen performs_mdSkip
  rw [← runCommands_two] at hflags
  exact hflags.andThen hmodes

/-- The four results of `MD_MB` (R171). -/
def mdMbResults (w : State) : State :=
  (((w.setRes 0 (BitVec.ofNat 32 w.cur.mode.num)).setRes 1 (BitVec.ofNat 32 w.cur.ref.num)).setRes
    2 (boolWord w.cur.skip)).setRes 3 (BitVec.ofNat 32 w.seg)

theorem mdMb_eq (T : OpenTables) (s : State) :
    mdMb T s = ((mdSegid s >>= mdSkip) >>= mdModes T) >>= fun w => .ok (mdMbResults w) := by
  rw [bind_assoc, bind_assoc]
  rfl

theorem exec_mdMb_eq_sequence (h : s.MdOk) :
    exec .mdMb s = andThen (mdSequence s) fun w => .next (mdMbResults w) := by
  rw [performs_mdSequence.run s h, ← finish_map (performs_mdSequence.quiet s) s (f := mdMbResults) fun _ _ => rfl,
    ← mdMb_eq]
  exact h.finish_mdCheck _

/-! ## The record that `MD_MB` leaves -/

/-- From `s` to `t` the record at `MBPOS` became `r`, and the candidates and the segments stayed. -/
structure Recorded (s t : State) (r : MbRec) : Prop where
  cur : t.cur = r
  cand : t.cand = s.cand
  segmap : t.segmap = s.segmap

theorem Recorded.of_reads (h : Effects {.rd 0} s t) : Recorded s t s.cur where
  cur := rd_cur h
  cand := h.same State.cand fun _ ha _ _ hm => by cases ha; exact hm.cand_eq (by simp) (by simp)
  segmap := h.same State.segmap fun _ ha _ _ hm => by
    cases ha; exact hm.segmap_eq (by simp) (by simp) (by simp) (by simp)

theorem Recorded.of_tree {T : List Int} {P : Nat → Res Byte} {start v : Nat}
    (h : s.getTree 0 T P start = .ok (v, t)) : Recorded s t s.cur :=
  .of_reads (.one rfl (.ofTree h))

section
variable {q r : MbRec} (h : Recorded s t q)
include h

theorem Recorded.setCur (r : MbRec) : Recorded s (t.setCur r) r := ⟨State.cur_setCur _ r, h.cand, h.segmap⟩

theorem Recorded.setRes (n : Nat) (v : Word) : Recorded s (t.setRes n v) q := ⟨h.cur, h.cand, h.segmap⟩

theorem Recorded.trans (g : Recorded t u r) : Recorded s u r :=
  ⟨g.cur, g.cand.trans h.cand, g.segmap.trans h.segmap⟩

end

theorem mdSkip_recorded (h : mdSkip s = .ok t) :
    ∃ b, (s.crBit 14 0 = false → b = false) ∧ Recorded s t { s.cur with skip := b } := by
  obtain ⟨⟨b, w⟩, hread, he⟩ := Res.bind_ok.1 h
  have hw := Recorded.of_reads (readSkip_effects hread)
  refine ⟨b, fun hoff => ?_, ?_⟩
  · rw [readSkip_off hoff] at hread
    cases hread
    rfl
  · cases he
    rw [← hw.cur]
    exact (hw.setCur _).setRes 0 _

theorem mdRef_recorded (h : mdRef s = .ok t) : ∃ ref, Recorded s t { s.cur with ref := ref } := by
  obtain ⟨⟨ref, w⟩, hread, he⟩ := Res.bind_ok.1 h
  have hw := Recorded.of_reads (readRef_effects hread)
  cases he
  rw [← hw.cur]
  exact ⟨ref, (hw.setCur _).setRes 0 _⟩

/-! ### Intra macroblocks -/

/-- The record `r` made intra: one of the five intra modes, any sub-modes and chroma mode. -/
def MbRec.IntraFrom (r r' : MbRec) : Prop :=
  ∃ m V U, MbMode.num m ≤ 4 ∧ r' = { r.intra m with bmode := V, uvmode := U }

/-- From `s` to `t` the record at `MBPOS` was made intra, and the candidates and the segments stayed. -/
def MadeIntra (s t : State) : Prop := ∃ r, s.cur.IntraFrom r ∧ Recorded s t r

theorem mdYmodeKf_intraFrom (h : mdYmodeKf s = .ok t) : MadeIntra s t := by
  obtain ⟨⟨v, w⟩, hread, he⟩ := Res.bind_ok.1 h
  have hw := Recorded.of_tree hread
  cases he
  rw [hw.cur]
  exact ⟨_, ⟨_, _, _, getTree_ymode (.inl rfl) (fun _ _ => ⟨_, rfl⟩) hread, rfl⟩, (hw.setCur _).setRes 0 _⟩

theorem mdYmodeIf_intraFrom (hp : s.ProbKnown ymodeIndex 4) (h : mdYmodeIf s = .ok t) : MadeIntra s t := by
  obtain ⟨⟨v, w⟩, hread, he⟩ := Res.bind_ok.1 h
  have hw := Recorded.of_tree hread
  cases he
  rw [hw.cur]
  exact ⟨_, ⟨_, _, _, getTree_ymode (.inr rfl) (probs_ok hp) hread, rfl⟩, (hw.setCur _).setRes 0 _⟩

theorem MadeIntra.bmodeStep {P : State → Nat → Nat → Res Byte} {b : Nat} (hs : MadeIntra s t)
    (h : bmodeStep P t b = .ok u) : MadeIntra s u := by
  obtain ⟨⟨v, w⟩, hread, he⟩ := Res.bind_ok.1 h
  obtain ⟨_, ⟨m, V, U, hm, rfl⟩, ht⟩ := hs
  have hw := ht.trans (.of_tree hread)
  rw [ht.cur] at hw
  cases he
  rw [State.setBMode, hw.cur]
  exact ⟨_, ⟨m, _, U, hm, rfl⟩, hw.setCur _⟩

theorem MadeIntra.bmodes {P : State → Nat → Nat → Res Byte} {l : List Nat} (hs : MadeIntra s t)
    (h : l.foldlM (Machine.bmodeStep P) t = .ok u) : MadeIntra s u :=
  foldlM_keeps (P := MadeIntra s) (fun _ _ _ hx hy => hx.bmodeStep hy) hs h

theorem MadeIntra.uvmode {P : Nat → Res Byte} (hs : MadeIntra s t) (h : mdUvmode P t = .ok u) : MadeIntra s u := by
  obtain ⟨⟨v, w⟩, hread, he⟩ := Res.bind_ok.1 h
  obtain ⟨_, ⟨m, V, U, hm, rfl⟩, ht⟩ := hs
  have hw := ht.trans (.of_tree hread)
  rw [ht.cur] at hw
  cases he
  rw [hw.cur]
  exact ⟨_, ⟨m, V, _, hm, rfl⟩, (hw.setCur _).setRes 0 _⟩

theorem mdIntraKf_intraFrom {T : OpenTables} (h : mdIntraKf T s = .ok t) : MadeIntra s t := by
  simp only [mdIntraKf, Res.bind_ok] at h
  obtain ⟨w, hy, x, hsub, huv⟩ := h
  refine MadeIntra.uvmode ?_ huv
  unfold mdSubKf at hsub
  split at hsub
  · exact (mdYmodeKf_intraFrom hy).bmodes hsub
  · cases hsub
    exact mdYmodeKf_intraFrom hy

theorem mdIntraIf_intraFrom (hp : s.ProbKnown ymodeIndex 4) (h : mdIntraIf s = .ok t) : MadeIntra s t := by
  simp only [mdIntraIf, Res.bind_ok] at h
  obtain ⟨w, hy, x, hsub, huv⟩ := h
  refine MadeIntra.uvmode ?_ huv
  unfold mdSubIf at hsub
  split at hsub
  · exact (mdYmodeIf_intraFrom hp hy).bmodes hsub
  · cases hsub
    exact mdYmodeIf_intraFrom hp hy

/-! ### Inter macroblocks -/

/-- From `s` to `t` vectors and the split shape of the record were written, and nothing else of it. -/
def MadeVectors (s t : State) : Prop := ∃ v w p, Recorded s t { s.cur with mv := v, bmv := w, split := p }

theorem MadeVectors.refl (s : State) : MadeVectors s s := ⟨_, _, _, rfl, rfl, rfl⟩

section
variable (h : MadeVectors s t)
include h

theorem MadeVectors.reads (g : Effects {.rd 0} t u) : MadeVectors s u := by
  obtain ⟨v, w, p, ht⟩ := h
  exact ⟨v, w, p, ht.trans (ht.cur ▸ .of_reads g)⟩

theorem MadeVectors.setRes (n : Nat) (x : Word) : MadeVectors s (t.setRes n x) := by
  obtain ⟨v, w, p, ht⟩ := h
  exact ⟨v, w, p, ht.setRes n x⟩

theorem MadeVectors.setCur (v : Mv) (w : Vector Mv 16) (p : SplitShape) :
    MadeVectors s (t.setCur { t.cur with mv := v, bmv := w, split := p }) := by
  obtain ⟨_, _, _, ht⟩ := h
  rw [ht.cur]
  exact ⟨v, w, p, ht.setCur _⟩

theorem MadeVectors.splitStep {shape : Nat} {p : Nat × Nat} (g : splitStep shape t p = .ok u) : MadeVectors s u := by
  obtain ⟨⟨v, w⟩, hread, he⟩ := Res.bind_ok.1 g
  cases he
  exact (h.reads (readSub_effects hread)).setCur _ _ _

end

theorem mpSplit_vectors (h : mpSplit s = .ok t) : MadeVectors s t := by
  simp only [mpSplit, Res.bind_ok, Except.ok.injEq] at h
  obtain ⟨⟨v, w⟩, hread, x, hloop, rfl⟩ := h
  have hw : MadeVectors s w := (MadeVectors.refl s).reads (.one rfl (.ofTree hread))
  have hx : MadeVectors s x :=
    foldlM_keeps (P := MadeVectors s) (fun _ _ _ hy hz => hy.splitStep hz) (hw.setCur _ _ _) hloop
  exact (hx.setCur _ _ _).setRes 0 _

theorem mpVector_vectors (h : mpVector s = .ok t) : MadeVectors s t := by
  unfold mpVector at h
  split at h
  case h_3 =>
    obtain ⟨⟨d, w⟩, hread, he⟩ := Res.bind_ok.1 h
    cases he
    exact (((MadeVectors.refl s).reads (readMv_effects hread)).setRes 0 _).setCur _ _ _
  case h_4 => exact mpSplit_vectors h
  all_goals
    cases h
    exact (MadeVectors.refl s).setCur _ _ _

theorem mvrefTree_leaf : ∀ j < mvrefTree.length, mvrefTree.getD j 0 ≤ 0 →
    5 ≤ (MbMode.ofNum (-(mvrefTree.getD j 0)).toNat).num := by decide

theorem mpMode_recorded (h : mpMode s = .ok t) : ∃ m, 5 ≤ MbMode.num m ∧ Recorded s t { s.cur with mode := m } := by
  obtain ⟨v, r, -, hleaf, htree⟩ := getTree_ok (s := s) (k := 0) (treeOf_ok 5 (by decide))
    (P := fun k => .ok (s.cand.modeProb k)) (fun _ _ => ⟨_, rfl⟩) (start := 0) rfl (by decide)
    (Q := fun v => 5 ≤ (MbMode.ofNum v).num) mvrefTree_leaf
  have hw := Recorded.of_tree htree
  rw [mpMode, show s.getTree 0 mvrefTree _ 0 = _ from htree] at h
  cases h
  exact ⟨_, hleaf, hw.cur ▸ (hw.setCur _).setRes 0 _⟩

/-- The record `r` made inter: a reference, a motion mode, any vectors. -/
def MbRec.InterFrom (r r' : MbRec) : Prop :=
  ∃ ref m v w p, ref ≠ .current ∧ 5 ≤ MbMode.num m ∧
    r' = { r with ref := ref, mode := m, mv := v, bmv := w, split := p }

theorem mpNear_segmap (s : State) : (mpNear s).segmap = s.segmap := by simp only [mpNear, State.setRes_segmap]

/-- `MP_MB` gives a motion mode and vectors; it writes the candidates too. -/
theorem mpMb_interFrom (hs : s.cur.ref ≠ .current) (h : mpMb s = .ok t) :
    s.cur.InterFrom t.cur ∧ t.segmap = s.segmap := by
  simp only [mpMb, Res.bind_ok, Except.ok.injEq] at h
  obtain ⟨x, hmode, y, hvec, rfl⟩ := h
  obtain ⟨m, hm, hx⟩ := mpMode_recorded hmode
  obtain ⟨v, w, p, hy⟩ := mpVector_vectors hvec
  rw [hx.cur, mpNear_ref] at hy
  simp only [State.setRes_cur, State.setRes_segmap]
  exact ⟨⟨s.cur.ref, m, v, w, p, hs, hm, hy.cur⟩, hy.segmap.trans (hx.segmap.trans (mpNear_segmap s))⟩

/-- On a keyframe, and where the reference is 0, the record is made intra, else inter. -/
theorem mdModes_recorded {T : OpenTables} (hp : s.crBit 0 0 = false → s.ProbKnown ymodeIndex 4)
    (h : mdModes T s = .ok t) :
    MadeIntra s t ∨ s.crBit 0 0 = false ∧ s.cur.InterFrom t.cur ∧ t.segmap = s.segmap := by
  unfold mdModes at h
  split at h
  · exact .inl (mdIntraKf_intraFrom h)
  · next hkey =>
    have hkey : s.crBit 0 0 = false := by simpa using hkey
    obtain ⟨w, href, hrest⟩ := Res.bind_ok.1 h
    obtain ⟨ref, hw⟩ := mdRef_recorded href
    split at hrest
    · obtain ⟨_, ⟨m, V, U, hm, rfl⟩, ht⟩ :=
        mdIntraIf_intraFrom ((hp hkey).of_prob (md_prob (mdRef_effects href))) hrest
      rw [hw.cur] at ht
      exact .inl ⟨_, ⟨m, V, U, hm, rfl⟩, hw.trans ht⟩
    · next hne =>
      obtain ⟨⟨ref', m, v, b, p, hne', hm, hr⟩, hseg⟩ := mpMb_interFrom hne hrest
      rw [hw.cur] at hr
      exact .inr ⟨hkey, ⟨ref', m, v, b, p, hne', hm, hr⟩, hseg.trans hw.segmap⟩

/-! ### The whole command -/

/-- `MD_SEGID` leaves the record and the candidates, and the segments where the map is not updated. -/
theorem mdSegid_leaves (h : mdSegid s = .ok t) : t.cur = s.cur ∧ t.cand = s.cand ∧
    ((s.crBit 3 0 && s.crBit 3 1) = false → t.segmap = s.segmap) := by
  obtain ⟨w, hread, he⟩ := Res.bind_ok.1 h
  cases he
  unfold readSegid at hread
  split at hread
  · next hon =>
    obtain ⟨⟨v, x⟩, htree, he⟩ := Res.bind_ok.1 hread
    have hx := Recorded.of_tree htree
    cases he
    exact ⟨hx.cur, hx.cand, fun hoff => by rw [hon] at hoff; cases hoff⟩
  · cases hread
    exact ⟨rfl, rfl, fun _ => rfl⟩

theorem md_onlyRd (h : Effects tagsMd s t) : onlyRd 0 s t := fun j hj =>
  h.same (State.rdAt · j) fun a ha _ _ hm => by
    rcases ha with rfl | rfl | rfl | rfl | rfl <;>
      exact hm.rdAt_eq (by simp [Ne.symm hj]) (by simp) (by simp) (by simp)

/-- The record and the segment that MD and MP write are those at `MBPOS`, which they do not move. -/
theorem md_onlyMb (h : Effects tagsMd s t) : onlyMb s t := fun k hk => by
  refine (h.keeps (P := fun x => x.cr = s.cr ∧ Memory.get x.mbinfo MbRec.zero k = Memory.get s.mbinfo MbRec.zero k)
    ?_ ⟨rfl, rfl⟩).2
  rintro _ (rfl | rfl | rfl | rfl | rfl) _ _ hm ⟨hcr, hx⟩ <;> cases hm
  case mb => exact ⟨hcr, (Memory.get_put_other _ _ _ (by rwa [mbx_of_cr hcr, mby_of_cr hcr])).trans hx⟩
  all_goals exact ⟨hcr, hx⟩

theorem md_onlySegment (h : Effects tagsMd s t) : onlySegment s t := fun k hk => by
  refine (h.keeps (P := fun x => x.cr = s.cr ∧ Memory.get x.segmap 0 k = Memory.get s.segmap 0 k)
    ?_ ⟨rfl, rfl⟩).2
  rintro _ (rfl | rfl | rfl | rfl | rfl) _ _ hm ⟨hcr, hx⟩ <;> cases hm
  case seg => exact ⟨hcr, (Memory.get_put_other _ _ _ (by rwa [mbx_of_cr hcr, mby_of_cr hcr])).trans hx⟩
  all_goals exact ⟨hcr, hx⟩

/-- MD and MP write five items of the state. -/
theorem md_frame (h : Effects tagsMd s t) :
    t = { s with rd := t.rd, mbinfo := t.mbinfo, segmap := t.segmap, cand := t.cand, res := t.res } := by
  refine h.keeps (P := fun x => x =
    { s with rd := x.rd, mbinfo := x.mbinfo, segmap := x.segmap, cand := x.cand, res := x.res }) ?_ rfl
  rintro _ (rfl | rfl | rfl | rfl | rfl) x _ hm hx <;> cases hm <;> rw [hx] <;> rfl

@[simp] theorem State.setRes_seg (s : State) (n : Nat) (v : Word) : (s.setRes n v).seg = s.seg := rfl

section
variable (w : State)

@[simp] theorem mdMbResults_cur : (mdMbResults w).cur = w.cur := by simp only [mdMbResults, State.setRes_cur]

@[simp] theorem mdMbResults_seg : (mdMbResults w).seg = w.seg := by simp only [mdMbResults, State.setRes_seg]

@[simp] theorem mdMbResults_cand : (mdMbResults w).cand = w.cand := by simp only [mdMbResults, State.setRes_cand]

@[simp] theorem mdMbResults_segmap : (mdMbResults w).segmap = w.segmap := by
  simp only [mdMbResults, State.setRes_segmap]

end

theorem mdMb_results {T : OpenTables} (h : mdMb T s = .ok t) :
    t.result 0 = BitVec.ofNat 32 t.cur.mode.num ∧ t.result 1 = BitVec.ofNat 32 t.cur.ref.num ∧
      t.result 2 = boolWord t.cur.skip ∧ t.result 3 = BitVec.ofNat 32 t.seg := by
  rw [mdMb_eq] at h
  obtain ⟨w, -, hw⟩ := Res.bind_ok.1 h
  rw [← Except.ok.inj hw, mdMbResults_cur, mdMbResults_seg]
  simp [mdMbResults, State.result_setRes]

/-- What `MD_MB` does to the record, the candidates and the segments (R171). -/
theorem mdMb_record {T : OpenTables} (hp : s.crBit 0 0 = false → s.ProbKnown ymodeIndex 4)
    (h : mdMb T s = .ok t) :
    ((s.crBit 3 0 && s.crBit 3 1) = false → t.segmap = s.segmap) ∧
    ∃ b, (s.crBit 14 0 = false → b = false) ∧
      ({ s.cur with skip := b }.IntraFrom t.cur ∧ t.cand = s.cand ∨
        s.crBit 0 0 = false ∧ { s.cur with skip := b }.InterFrom t.cur) := by
  rw [mdMb_eq] at h
  simp only [Res.bind_ok, Except.ok.injEq] at h
  obtain ⟨y, ⟨x, ⟨w, hsegid, hskip⟩, hmodes⟩, rfl⟩ := h
  obtain ⟨hcur, hcand, hseg⟩ := mdSegid_leaves hsegid
  obtain ⟨b, hb, hx⟩ := mdSkip_recorded hskip
  have he := (mdSegid_effects hsegid).trans (mdSkip_effects hskip)
  have hkey : x.crBit 0 0 = s.crBit 0 0 := crBit_of_cr (md_cr he) 0 0
  rw [hcur] at hx
  rw [crBit_of_cr (md_cr (mdSegid_effects hsegid))] at hb
  rw [mdMbResults_cur, mdMbResults_cand, mdMbResults_segmap]
  obtain ⟨r, hr, hy⟩ | ⟨hk, hr, hy⟩ := mdModes_recorded (fun hk => (hp (hkey ▸ hk)).of_prob (md_prob he)) hmodes
  all_goals rw [hx.cur] at hr
  · rw [hy.cur, hy.cand, hy.segmap, hx.cand, hx.segmap]
    exact ⟨hseg, b, hb, .inl ⟨hr, hcand⟩⟩
  · rw [hy, hx.segmap]
    exact ⟨hseg, b, hb, .inr ⟨hkey ▸ hk, hr⟩⟩

theorem MbRec.IntraFrom.fields {r r' : MbRec} (h : r.IntraFrom r') : r'.skip = r.skip ∧ r'.ref = .current ∧
    r'.mode.num ≤ 4 ∧ r'.mv = Mv.zero ∧ ∀ b < 16, r'.bmvAt b = Mv.zero := by
  obtain ⟨m, V, U, hm, rfl⟩ := h
  exact ⟨rfl, rfl, hm, rfl, fun b hb => by simp [MbRec.bmvAt, MbRec.intra, hb]⟩

theorem MbRec.InterFrom.fields {r r' : MbRec} (h : r.InterFrom r') : r'.skip = r.skip ∧ r'.ref ≠ .current ∧
    5 ≤ r'.mode.num ∧ r'.uvmode = r.uvmode ∧ r'.bmode = r.bmode := by
  obtain ⟨ref, m, v, w, p, href, hm, rfl⟩ := h
  exact ⟨rfl, href, hm, rfl, rfl⟩

/-- Settles O30: its commands' works one after the other are those of `MD_MB`; the record that they leave is made
intra or inter from that before. -/
theorem mdMbResult : Obligations.MdMbResult := by
  unfold Obligations.MdMbResult
  refine ⟨fun s hp hv => exec_mdMb_eq_sequence ⟨hp, hv⟩, fun s hp hv hsegid hskip hinter => ?_⟩
  have hok : s.MdOk := ⟨hp, hv⟩
  obtain ⟨t, ht⟩ := mdMb_completes Config.openTables hsegid hskip hinter
  have he := mdMb_effects ht
  obtain ⟨hseg, b, hb, hrec⟩ := mdMb_record (fun hk => (hinter hk).1) ht
  obtain ⟨h0, h1, h2, h3⟩ := mdMb_results ht
  have hframe := congrArg State.done (md_frame he)
  have hrest := And.intro hseg (And.intro (md_onlyRd he) (And.intro (md_onlyMb he)
    (And.intro (md_onlySegment he) hframe)))
  refine ⟨t.done, hok.exec_of_work rfl ht, h0, h1, h2, h3, ?_⟩
  obtain ⟨hrec, hcand⟩ | ⟨hkey, hrec⟩ := hrec
  · obtain ⟨hflag, href, hmode, hmv, hbmv⟩ := hrec.fields
    exact ⟨fun hoff => hflag.trans (hb hoff), fun _ => href, fun _ => ⟨hmode, hmv, hbmv⟩,
      fun hne => absurd href hne, fun _ => hcand, hrest⟩
  · obtain ⟨hflag, href, hmode, huv, hbmode⟩ := hrec.fields
    have hnot : ¬(s.crBit 0 0 = true ∨ t.cur.ref = .current) := by simp [hkey, href]
    exact ⟨fun hoff => hflag.trans (hb hoff), fun hk => absurd (.inl hk) hnot, fun h => absurd h href,
      fun _ => ⟨hmode, huv, hbmode⟩, fun h => absurd h hnot, hrest⟩

end Sys2Proof.Machine
end

section
/-! PROOFS. The motion predictor (42_motion_predictor.md): what each of its six commands answers. -/

namespace Sys2Proof.Machine

variable {s t u : State} {i : Instr}

/-! ## Vectors between the bounds (R193, R194) -/

theorem clampMv_eq_clampedMv (s : State) (v : Mv) : s.clampMv v = s.clampedMv v := by
  simp only [State.clampMv, State.clampedMv, clamp, neg_mul]

/-- A command that asks for the position alone, and completes where that is inside the frame. -/
theorem finish_posOk (h : s.posOk = true) (t : State) :
    finish s (require s.posOk .badMbpos >>= fun _ => .ok t) = .next t.done := finish_require_true h

/-- Settles O31: the vector of `ARG0` between the bounds. -/
theorem mpClampResult : Obligations.MpClampResult := by
  unfold Obligations.MpClampResult
  refine fun s => ⟨fun h => finish_require_false h, fun h => (finish_posOk h _).trans ?_⟩
  rw [clampMv_eq_clampedMv]
  rfl

/-- The bounds of a component of a macroblock inside the frame contain 0, so a clamped component is a 16-bit
number. -/
theorem toInt_ofInt_clamp {lo hi : Int} (hlo : lo ≤ 0) (hhi : 0 ≤ hi) (x : BitVec 16) :
    (BitVec.ofInt 16 (max lo (min hi x.toInt))).toInt = max lo (min hi x.toInt) := by
  have h1 := x.le_toInt
  have h2 := x.toInt_lt
  exact BitVec.toInt_ofInt_eq_self (by decide) (by omega) (by omega)

theorem clampedMv_bounds (h : s.posOk = true) (v : Mv) :
    -(64 * (s.mbx : Int)) - 64 ≤ (s.clampedMv v).x.toInt ∧
    (s.clampedMv v).x.toInt ≤ 64 * ((s.mbW : Int) - 1 - s.mbx) + 64 ∧
    -(64 * (s.mby : Int)) - 64 ≤ (s.clampedMv v).y.toInt ∧
    (s.clampedMv v).y.toInt ≤ 64 * ((s.mbH : Int) - 1 - s.mby) + 64 := by
  simp only [State.posOk, Bool.and_eq_true, decide_eq_true_eq] at h
  obtain ⟨hx, hy⟩ := h
  simp only [State.clampedMv]
  rw [toInt_ofInt_clamp (by omega) (by omega), toInt_ofInt_clamp (by omega) (by omega)]
  omega

/-! ## The candidate search (R192, R195, R196) -/

/-- The bins of the search, from the weight of the zero vectors and the list of the bins for the others. -/
def binsOf (z : Nat) (l : List (Mv × Nat)) : Bins where
  nm := #v[Mv.zero, (l.getD 0 (Mv.zero, 0)).1, (l.getD 1 (Mv.zero, 0)).1, (l.getD 2 (Mv.zero, 0)).1]
  cnt := #v[z, (l.getD 0 (Mv.zero, 0)).2, (l.getD 1 (Mv.zero, 0)).2, (l.getD 2 (Mv.zero, 0)).2]
  idx := l.length

theorem binsOf_start : Bins.start = binsOf 0 [] := by decide

/-- A neighbour's weight where it counts as a zero vector. -/
def zeroVote (e : MbRec × Nat) : Nat := if e.1.ref ≠ .current ∧ e.1.mv = Mv.zero then e.2 else 0

/-- A neighbour's vector added to the bins where it counts as one that is not zero. -/
def State.castVote (s : State) (l : List (Mv × Nat)) (e : MbRec × Nat) : List (Mv × Nat) :=
  if e.1.ref ≠ .current ∧ e.1.mv ≠ Mv.zero then addVote l (s.nearVector e.1, e.2) else l

theorem foldl_nearVotes (s : State) :
    s.nearVotes.foldl addVote [] = s.nearNeighbours.foldl s.castVote [] := by
  rw [State.nearVotes, List.foldl_filterMap]
  refine congrArg (List.foldl · [] _) (funext fun l => funext fun e => ?_)
  unfold State.castVote
  by_cases h : e.1.ref ≠ .current ∧ e.1.mv ≠ Mv.zero
  · simp only [if_pos h]
  · simp only [if_neg h]

theorem biasedMv_eq_nearVector (s : State) (e : MbRec) : s.biasedMv e = s.nearVector e := by
  have hbias : ∀ r, s.bias r = ((r == .golden && s.crBit 13 5) || (r == .altref && s.crBit 13 6)) := by
    intro r
    cases r <;> simp [State.bias]
  unfold State.biasedMv State.nearVector
  simp only [hbias, bne_iff_ne, ne_eq, ite_not]
  rfl

theorem nearVector_ne_zero {e : MbRec} (h : e.mv ≠ Mv.zero) : s.nearVector e ≠ Mv.zero := by
  unfold State.nearVector
  dsimp only
  split
  · exact h
  · refine fun hz => h ?_
    generalize e.mv = v at hz ⊢
    cases v
    simpa [Mv.zero] using hz

theorem addVote_append (l : List (Mv × Nat)) (b v : Mv × Nat) : addVote (l ++ [b]) v =
    if b.1 = v.1 then l ++ [(b.1, b.2 + v.2)] else l ++ [b] ++ [v] := by
  simp [addVote]

section
variable {b : Bins} {e : MbRec} {v : Mv} {w : Nat} {first : Bool}

/-- A new bin after the last, with a first vector of weight `w`. -/
def Bins.push (b : Bins) (v : Mv) (w : Nat) : Bins :=
  Bins.bump { b with idx := b.idx + 1, nm := b.nm.setIfInBounds (b.idx + 1) v } (b.idx + 1) w

theorem scan_intra (href : e.ref = .current) : b.scan e v w first = b := if_pos href

variable (href : e.ref ≠ .current)
include href

theorem scan_zero (hmv : e.mv = Mv.zero) : b.scan e v w first = b.bump 0 w := by
  rw [Bins.scan, if_neg href, if_pos hmv]

theorem scan_new (hmv : e.mv ≠ Mv.zero) (hv : v ≠ b.mvAt b.idx) : b.scan e v w first = b.push v w := by
  have hnew : (first || v != b.mvAt b.idx) = true := by rw [Bool.or_eq_true, bne_iff_ne]; exact .inr hv
  rw [Bins.scan, if_neg href, if_neg hmv, hnew]
  rfl

theorem scan_same (hmv : e.mv ≠ Mv.zero) (hfirst : first = false) (hv : v = b.mvAt b.idx) :
    b.scan e v w first = b.bump b.idx w := by
  have hsame : (first || v != b.mvAt b.idx) = false := by rw [hfirst, ← hv, Bool.false_or, bne_self_eq_false]
  rw [Bins.scan, if_neg href, if_neg hmv, hsame]
  rfl

end

section
variable (z w : Nat) (v : Mv) {l : List (Mv × Nat)}

theorem bump_zero_binsOf : (binsOf z l).bump 0 w = binsOf (z + w) l := rfl

theorem push_binsOf (hl : l.length < 3) : (binsOf z l).push v w = binsOf z (l ++ [(v, w)]) := by
  match l, hl with
  | [], _ | [_], _ | [_, _], _ => simp [binsOf, Bins.push, Bins.bump, Bins.cntAt]

theorem bump_last_binsOf (b : Mv × Nat) (hl : l.length < 3) :
    (binsOf z (l ++ [b])).bump (binsOf z (l ++ [b])).idx w = binsOf z (l ++ [(b.1, b.2 + w)]) := by
  match l, hl with
  | [], _ | [_], _ | [_, _], _ => simp [binsOf, Bins.bump, Bins.cntAt]

theorem mvAt_last_binsOf (b : Mv × Nat) (hl : l.length < 3) :
    (binsOf z (l ++ [b])).mvAt (binsOf z (l ++ [b])).idx = b.1 := by
  match l, hl with
  | [], _ | [_], _ | [_, _], _ => rfl

end

/-- A vote for a vector that is not zero. Where there is no bin yet, the vector differs from the zero vector that
stands in the place of the last one. -/
theorem scan_vote_binsOf (z : Nat) {l : List (Mv × Nat)} (hl : l.length < 3) {first : Bool}
    (hf : first = true → l = []) {e : MbRec} (href : e.ref ≠ .current) (hmv : e.mv ≠ Mv.zero) {v : Mv}
    (hv : v ≠ Mv.zero) (w : Nat) : (binsOf z l).scan e v w first = binsOf z (addVote l (v, w)) := by
  obtain rfl | ⟨l, b, rfl⟩ := l.eq_nil_or_concat'
  · rw [scan_new href hmv hv, push_binsOf z w v hl]
    rfl
  · have hl' : l.length < 3 := by rw [List.length_append] at hl; omega
    have hlast := mvAt_last_binsOf z b hl'
    have hfirst : first = false := Bool.eq_false_iff.2 fun h => by simpa using hf h
    rw [addVote_append]
    split
    · next hsame =>
      rw [scan_same href hmv hfirst (hsame.symm.trans hlast.symm), bump_last_binsOf z w b hl']
    · next hne =>
      rw [scan_new href hmv fun h => hne (hlast.symm.trans h.symm), push_binsOf z w v hl]

/-- One neighbour more. -/
theorem scan_binsOf (s : State) {z z' : Nat} {l : List (Mv × Nat)} (hl : l.length < 3) {first : Bool}
    (hf : first = true → l = []) (e : MbRec × Nat) (hz : z' = z + zeroVote e) :
    (binsOf z l).scan e.1 (s.biasedMv e.1) e.2 first = binsOf z' (s.castVote l e) := by
  subst hz
  unfold zeroVote State.castVote
  by_cases href : e.1.ref = .current
  · simp [href, scan_intra href]
  by_cases hmv : e.1.mv = Mv.zero
  · simp [href, hmv, scan_zero href hmv, bump_zero_binsOf]
  · rw [biasedMv_eq_nearVector, scan_vote_binsOf z hl hf href hmv (nearVector_ne_zero hmv)]
    simp [href, hmv]

/-! ### The bins of the three neighbours -/

/-- The bins for the vectors that are not zero, after all three neighbours. -/
def State.nearBins (s : State) : List (Mv × Nat) := s.nearVotes.foldl addVote []

/-- `l` holds at most `n` bins, none of weight 0; their weights and that of the zero vectors are at most `m`. -/
structure BinsBound (n m z : Nat) (l : List (Mv × Nat)) : Prop where
  length : l.length ≤ n
  pos : ∀ b ∈ l, 0 < b.2
  weight : z + (l.map Prod.snd).sum ≤ m

theorem BinsBound.addVote {n m z : Nat} {l : List (Mv × Nat)} (h : BinsBound n m z l) {v : Mv × Nat} (hv : 0 < v.2) :
    BinsBound (n + 1) (m + v.2) z (addVote l v) := by
  obtain ⟨hlen, hpos, hsum⟩ := h
  obtain rfl | ⟨l, b, rfl⟩ := l.eq_nil_or_concat'
  · exact ⟨Nat.le_add_left .., List.forall_mem_singleton.2 hv, Nat.add_le_add hsum le_rfl⟩
  · rw [addVote_append]
    simp only [List.forall_mem_append, List.forall_mem_singleton, List.length_append, List.length_singleton,
      List.map_append, List.map_singleton, List.sum_append, List.sum_singleton] at hlen hpos hsum
    obtain ⟨hl, hb⟩ := hpos
    split
    · exact ⟨by simp; omega, List.forall_mem_append.2 ⟨hl, List.forall_mem_singleton.2 (by omega)⟩, by simp; omega⟩
    · exact ⟨by simp; omega, List.forall_mem_append.2 ⟨List.forall_mem_append.2 ⟨hl, List.forall_mem_singleton.2 hb⟩,
        List.forall_mem_singleton.2 hv⟩, by simp; omega⟩

theorem BinsBound.castVote {n m z : Nat} {l : List (Mv × Nat)} (h : BinsBound n m z l) {e : MbRec × Nat}
    (he : 0 < e.2) : BinsBound (n + 1) (m + e.2) (z + zeroVote e) (s.castVote l e) := by
  have hkeep : zeroVote e ≤ e.2 := by unfold zeroVote; split <;> omega
  unfold State.castVote
  split
  · next hv =>
    rw [show zeroVote e = 0 from if_neg fun hz => hv.2 hz.2]
    exact h.addVote (v := (s.nearVector e.1, e.2)) he
  · exact ⟨by have := h.length; omega, h.pos, by have := h.weight; omega⟩

theorem zeroWeight_eq (s : State) : s.zeroWeight =
    0 + zeroVote (s.aboveMb, 2) + zeroVote (s.leftMb, 2) + zeroVote (s.aboveLeftMb, 1) := by
  show zeroVote (s.aboveMb, 2) + (zeroVote (s.leftMb, 2) + (zeroVote (s.aboveLeftMb, 1) + 0)) = _
  omega

theorem nearBins_eq (s : State) : s.nearBins =
    s.castVote (s.castVote (s.castVote [] (s.aboveMb, 2)) (s.leftMb, 2)) (s.aboveLeftMb, 1) := foldl_nearVotes s

theorem binsBound_nil : BinsBound 0 0 0 [] := ⟨le_rfl, by simp, le_rfl⟩

theorem nearBins_bound (s : State) : BinsBound 3 5 s.zeroWeight s.nearBins := by
  rw [zeroWeight_eq, nearBins_eq]
  exact ((binsBound_nil.castVote (e := (_, 2)) two_pos).castVote (e := (_, 2)) two_pos).castVote (e := (_, 1)) one_pos

/-- The search of R196, from the bins of the three neighbours. -/
theorem searchBins_eq (s : State) : s.searchBins =
    ((binsOf s.zeroWeight s.nearBins).mergeThird.countSplit s.aboveMb.mode s.leftMb.mode
      s.aboveLeftMb.mode).sortTwo := by
  have h1 := binsBound_nil.castVote (s := s) (e := (s.aboveMb, 2)) two_pos
  have h2 := h1.castVote (s := s) (e := (s.leftMb, 2)) two_pos
  rw [zeroWeight_eq, nearBins_eq,
    ← scan_binsOf s (Nat.lt_succ_of_le h2.length) (first := false) (by simp) (s.aboveLeftMb, 1) rfl,
    ← scan_binsOf s (Nat.lt_succ_of_lt (Nat.lt_succ_of_le h1.length)) (first := false) (by simp) (s.leftMb, 2) rfl,
    ← scan_binsOf s (l := []) (by decide) (first := true) (fun _ => rfl) (s.aboveMb, 2) rfl, ← binsOf_start]
  rfl

/-! ### The end of the search -/

section
variable (b : Bins)

theorem bump_cntAt (k w : Nat) (hk : k < 4 := by decide) (i : Nat) : (b.bump k w).cntAt i =
    b.cntAt i + if i = k then w else 0 := by
  by_cases h : i = k
  · subst h
    simp [Bins.bump, Bins.cntAt, hk]
  · simp [Bins.bump, Bins.cntAt, h, Ne.symm h]

theorem mergeThird_mvAt (i : Nat) : b.mergeThird.mvAt i = b.mvAt i := by
  unfold Bins.mergeThird
  split <;> rfl

theorem mergeThird_cntAt_one : b.mergeThird.cntAt 1 =
    b.cntAt 1 + if 0 < b.cntAt 3 ∧ b.mvAt 3 = b.mvAt 1 then 1 else 0 := by
  unfold Bins.mergeThird
  split
  · exact bump_cntAt b 1 _ (i := 1)
  · rfl

theorem mergeThird_cntAt_other {i : Nat} (h : i ≠ 1) : b.mergeThird.cntAt i = b.cntAt i := by
  unfold Bins.mergeThird
  split
  · rw [bump_cntAt b 1 _, if_neg h, Nat.add_zero]
  · rfl

variable (A L D : MbMode)

theorem countSplit_mvAt (i : Nat) : (b.countSplit A L D).mvAt i = b.mvAt i := rfl

theorem countSplit_cntAt_three : (b.countSplit A L D).cntAt 3 =
    2 * boolNat (A == .split) + 2 * boolNat (L == .split) + boolNat (D == .split) := by
  rw [← Nat.one_mul (boolNat (D == .split))]
  simp only [Bins.countSplit, Bins.cntAt, Vector.getElem?_setIfInBounds]
  rfl

theorem countSplit_cntAt_other {i : Nat} (h : i ≠ 3) : (b.countSplit A L D).cntAt i = b.cntAt i := by
  simp [Bins.countSplit, Bins.cntAt, Ne.symm h]

theorem sortTwo_mvAt_one : b.sortTwo.mvAt 1 = if b.cntAt 1 < b.cntAt 2 then b.mvAt 2 else b.mvAt 1 := by
  unfold Bins.sortTwo
  split <;> simp [Bins.mvAt]

theorem sortTwo_mvAt_two : b.sortTwo.mvAt 2 = if b.cntAt 1 < b.cntAt 2 then b.mvAt 1 else b.mvAt 2 := by
  unfold Bins.sortTwo
  split <;> simp [Bins.mvAt]

theorem sortTwo_cntAt : b.sortTwo.cntAt 0 = b.cntAt 0 ∧ b.sortTwo.cntAt 1 = max (b.cntAt 1) (b.cntAt 2) ∧
    b.sortTwo.cntAt 2 = min (b.cntAt 1) (b.cntAt 2) ∧ b.sortTwo.cntAt 3 = b.cntAt 3 := by
  unfold Bins.sortTwo
  split
  · refine ⟨?_, ?_, ?_, ?_⟩ <;> simp [Bins.cntAt] at * <;> omega
  · omega

end

theorem getD_third_pos_iff {m z : Nat} {l : List (Mv × Nat)} (h : BinsBound 3 m z l) :
    0 < (l.getD 2 (Mv.zero, 0)).2 ↔ l.length = 3 := by
  obtain ⟨hlen, hpos, -⟩ := h
  match l, hlen with
  | [], _ | [_], _ | [_, _], _ => simp
  | [a, b, c], _ => simpa using hpos c (by simp)

theorem getD_weights_le {m z : Nat} {l : List (Mv × Nat)} (h : BinsBound 3 m z l) :
    z + (l.getD 0 (Mv.zero, 0)).2 + (l.getD 1 (Mv.zero, 0)).2 + (l.getD 2 (Mv.zero, 0)).2 ≤ m := by
  obtain ⟨hlen, -, hsum⟩ := h
  match l, hlen with
  | [], _ | [_], _ | [_, _], _ | [_, _, _], _ => simp at hsum ⊢; omega

/-- The weight of the first bin, with that of a third bin that equals it. -/
def firstWeight (l : List (Mv × Nat)) : Nat :=
  (l.getD 0 (Mv.zero, 0)).2 + if l.length = 3 ∧ (l.getD 2 (Mv.zero, 0)).1 = (l.getD 0 (Mv.zero, 0)).1 then 1 else 0

theorem weights_le {m z : Nat} {l : List (Mv × Nat)} (h : BinsBound 3 m z l) :
    z ≤ m ∧ firstWeight l ≤ m ∧ (l.getD 1 (Mv.zero, 0)).2 ≤ m := by
  have hsum := getD_weights_le h
  have hthird := getD_third_pos_iff h
  refine ⟨by omega, ?_, by omega⟩
  unfold firstWeight
  split <;> omega

/-- The bins before the two first are put in order. -/
theorem merged_binsOf {m z : Nat} {l : List (Mv × Nat)} (h : BinsBound 3 m z l) (A L D : MbMode) :
    let b := (binsOf z l).mergeThird.countSplit A L D
    b.cntAt 0 = z ∧ b.cntAt 1 = firstWeight l ∧ b.cntAt 2 = (l.getD 1 (Mv.zero, 0)).2 ∧
    b.mvAt 1 = (l.getD 0 (Mv.zero, 0)).1 ∧ b.mvAt 2 = (l.getD 1 (Mv.zero, 0)).1 := by
  simp only [countSplit_mvAt, mergeThird_mvAt]
  refine ⟨?_, ?_, ?_, rfl, rfl⟩
  · rw [countSplit_cntAt_other _ _ _ _ (by decide), mergeThird_cntAt_other _ (by decide)]
    rfl
  · rw [countSplit_cntAt_other _ _ _ _ (by decide), mergeThird_cntAt_one, firstWeight]
    simp only [← getD_third_pos_iff h]
    rfl
  · rw [countSplit_cntAt_other _ _ _ _ (by decide), mergeThird_cntAt_other _ (by decide)]
    rfl

/-- The weights that the search leaves, and its two vectors. -/
theorem searchBins_result (s : State) {w1 w2 : Nat} (hw1 : firstWeight s.nearBins = w1)
    (hw2 : (s.nearBins.getD 1 (Mv.zero, 0)).2 = w2) :
    let bin (i : Nat) := s.nearBins.getD i (Mv.zero, 0)
    s.searchBins.cntAt 0 = s.zeroWeight ∧ s.searchBins.cntAt 1 = max w1 w2 ∧ s.searchBins.cntAt 2 = min w1 w2 ∧
    s.searchBins.cntAt 3 = 2 * boolNat (s.aboveMb.mode == .split) + 2 * boolNat (s.leftMb.mode == .split) +
      boolNat (s.aboveLeftMb.mode == .split) ∧
    s.searchBins.mvAt 1 = (if w1 < w2 then (bin 1).1 else (bin 0).1) ∧
    s.searchBins.mvAt 2 = (if w1 < w2 then (bin 0).1 else (bin 1).1) := by
  obtain ⟨h0, h1, h2, hv1, hv2⟩ := merged_binsOf (nearBins_bound s) s.aboveMb.mode s.leftMb.mode s.aboveLeftMb.mode
  obtain ⟨hc0, hc1, hc2, hc3⟩ := sortTwo_cntAt
    ((binsOf s.zeroWeight s.nearBins).mergeThird.countSplit s.aboveMb.mode s.leftMb.mode s.aboveLeftMb.mode)
  rw [searchBins_eq, sortTwo_mvAt_one, sortTwo_mvAt_two, hc0, hc1, hc2, hc3, h0, h1, h2, hv1, hv2, hw1, hw2,
    countSplit_cntAt_three]
  exact ⟨rfl, rfl, rfl, rfl, rfl, rfl⟩

theorem searchBins_cntAt_le (s : State) : ∀ i < 4, s.searchBins.cntAt i ≤ 5 := by
  obtain ⟨h0, h1, h2, h3, -⟩ := searchBins_result s rfl rfl
  obtain ⟨hz, hw1, hw2⟩ := weights_le (nearBins_bound s)
  have := boolNat_le (s.aboveMb.mode == .split)
  have := boolNat_le (s.leftMb.mode == .split)
  have := boolNat_le (s.aboveLeftMb.mode == .split)
  intro i hi
  interval_cases i <;> omega

/-! ### The command -/

theorem extractLsb'_bytes (a b c d : Byte) :
    (a ++ b ++ (c ++ d)).extractLsb' 0 8 = d ∧ (a ++ b ++ (c ++ d)).extractLsb' 8 8 = c ∧
    (a ++ b ++ (c ++ d)).extractLsb' 16 8 = b ∧ (a ++ b ++ (c ++ d)).extractLsb' 24 8 = a :=
  ⟨(BitVec.extractLsb'_append_eq_of_add_le (by decide)).trans BitVec.extractLsb'_append_eq_right,
    (BitVec.extractLsb'_append_eq_of_add_le (by decide)).trans BitVec.extractLsb'_append_eq_left,
    (BitVec.extractLsb'_append_eq_of_le (by decide)).trans BitVec.extractLsb'_append_eq_right,
    (BitVec.extractLsb'_append_eq_of_le (by decide)).trans BitVec.extractLsb'_append_eq_left⟩

theorem Cand.cntAt_lt (c : Cand) (i : Nat) : c.cntAt i < 8 := (c.cnt[i]?.getD 0).isLt

theorem packCnt_byte (c : Cand) : ∀ i < 4, (c.packCnt.extractLsb' (8 * i) 8).toNat = c.cntAt i := by
  have hcnt (j : Nat) : (BitVec.ofNat 8 (c.cntAt j)).toNat = c.cntAt j :=
    (BitVec.toNat_ofNat ..).trans (Nat.mod_eq_of_lt (by have := c.cntAt_lt j; omega))
  obtain ⟨h0, h1, h2, h3⟩ := extractLsb'_bytes (BitVec.ofNat 8 (c.cntAt 3)) (BitVec.ofNat 8 (c.cntAt 2))
    (BitVec.ofNat 8 (c.cntAt 1)) (BitVec.ofNat 8 (c.cntAt 0))
  intro i hi
  interval_cases i
  · exact (congrArg _ h0).trans (hcnt 0)
  · exact (congrArg _ h1).trans (hcnt 1)
  · exact (congrArg _ h2).trans (hcnt 2)
  · exact (congrArg _ h3).trans (hcnt 3)

theorem candOf_cntAt (s : State) (b : Bins) {i : Nat} (hi : i < 4) (h : b.cntAt i ≤ 5) :
    (s.candOf b).cntAt i = b.cntAt i := by
  have hget : (s.candOf b).cntAt i = (BitVec.ofNat 3 (b.cntAt i)).toNat := by
    simp [Cand.cntAt, State.candOf, Bins.cntAt, hi]
  rw [hget, BitVec.toNat_ofNat]
  omega

/-- The candidates `c` in `CAND` and packed in the four RES registers. -/
def State.withCand (s : State) (c : Cand) : State :=
  (((({ s with cand := c } : State).setRes 0 (packMv c.best)).setRes 1 (packMv c.nearest)).setRes 2
    (packMv c.near)).setRes 3 c.packCnt

theorem mpNear_eq (s : State) : mpNear s = s.withCand (s.candOf s.searchBins) := rfl

theorem withCand_result (s : State) (c : Cand) :
    (s.withCand c).result 0 = packMv c.best ∧ (s.withCand c).result 1 = packMv c.nearest ∧
    (s.withCand c).result 2 = packMv c.near ∧ (s.withCand c).result 3 = c.packCnt := by
  refine ⟨?_, ?_, ?_, ?_⟩ <;> simp [State.withCand, State.result_setRes]

theorem withCand_frame (s : State) (c : Cand) : s.withCand c = { s with cand := c, res := (s.withCand c).res } := rfl

/-- What `MP_NEAR` leaves of the search's bins. -/
theorem exec_mpNear (h : s.posOk = true) : ∃ t : State, exec .mpNear s = .next t.done ∧
    t.cand = s.candOf s.searchBins ∧ t.result 0 = packMv t.cand.best ∧ t.result 1 = packMv t.cand.nearest ∧
    t.result 2 = packMv t.cand.near ∧ t.result 3 = t.cand.packCnt ∧
    t = { s with cand := t.cand, res := t.res } := by
  have hexec : exec .mpNear s = .next (mpNear s).done := finish_posOk h _
  rw [mpNear_eq] at hexec
  generalize s.candOf s.searchBins = c at hexec
  obtain ⟨h0, h1, h2, h3⟩ := withCand_result s c
  exact ⟨_, hexec, rfl, h0, h1, h2, h3, withCand_frame s c⟩

/-- Settles O32: the bins of the model's search are those of the three votes, cast one after the other. -/
theorem mpNearResult : Obligations.MpNearResult := by
  unfold Obligations.MpNearResult
  intro s hp bins bin w1 w2 v1 v2
  obtain ⟨h0, h1, h2, h3, hv1, hv2⟩ := searchBins_result s (w1 := w1) (w2 := w2) rfl rfl
  replace hv1 : s.searchBins.mvAt 1 = v1 := hv1
  replace hv2 : s.searchBins.mvAt 2 = v2 := hv2
  have hle := searchBins_cntAt_le s
  obtain ⟨t, hexec, hcand, hr0, hr1, hr2, hr3, hframe⟩ := exec_mpNear hp
  generalize s.searchBins = b at h0 h1 h2 h3 hv1 hv2 hle hcand
  have hcnt : ∀ i < 4, t.cand.cntAt i = b.cntAt i := fun i hi => hcand ▸ candOf_cntAt s b hi (hle i hi)
  have hbest : t.cand.best = s.clampedMv (if s.zeroWeight ≤ max w1 w2 then v1 else Mv.zero) := by
    rw [hcand, ← clampMv_eq_clampedMv, ← h0, ← h1, ← hv1]
    rfl
  have hnearest : t.cand.nearest = s.clampedMv v1 := by
    rw [hcand, ← hv1]
    exact clampMv_eq_clampedMv ..
  have hnear : t.cand.near = s.clampedMv v2 := by
    rw [hcand, ← hv2]
    exact clampMv_eq_clampedMv ..
  refine ⟨t.done, hexec, hbest, hnearest, hnear, (hcnt 0 (by decide)).trans h0, (hcnt 1 (by decide)).trans h1,
    (hcnt 2 (by decide)).trans h2, (hcnt 3 (by decide)).trans h3, hr0, hr1, hr2, fun i hi => ⟨?_, ?_⟩, ?_,
    congrArg State.done hframe⟩
  · exact (hcnt i hi).trans_le (hle i hi)
  · exact (congrArg (fun w : Word => (w.extractLsb' (8 * i) 8).toNat) hr3).trans (packCnt_byte _ i hi)
  · have hclamped : ∀ v ∈ [t.cand.best, t.cand.nearest, t.cand.near], ∃ x, v = s.clampedMv x := by
      rw [hbest, hnearest, hnear]
      simp
    intro v hv
    obtain ⟨x, rfl⟩ := hclamped v hv
    exact clampedMv_bounds hp x

/-! ## `MP_MODE` and `MP_READMV` (R198, R199, R202, R203) -/

/-- The checks of a command that also reads instance 0 (R190) are those of MD. -/
theorem State.MdOk.exec_of_mpWork (h : s.MdOk) {f : Res State}
    (hi : exec i s = finish s (require s.posOk .badMbpos >>= fun _ => require (s.rdValid 0) .rdUninit >>= fun _ => f))
    (hf : f = .ok t) : exec i s = .next t.done :=
  h.exec_of_work (hi.trans (congrArg (finish s) (bind_assoc ..).symm)) hf

theorem mvrefTree_leaf_bounds : ∀ j < mvrefTree.length, mvrefTree.getD j 0 ≤ 0 →
    5 ≤ (-(mvrefTree.getD j 0)).toNat ∧ (-(mvrefTree.getD j 0)).toNat ≤ 9 := by decide

theorem mpMode_reads (s : State) : ∃ v r, readTree s.cbuf mvrefTree (fun k => .ok (s.cand.modeProb k)) 0 (s.rdAt 0) =
    .ok (v, r) ∧ (5 ≤ v ∧ v ≤ 9) ∧ mpMode s = .ok (((s.setRd 0 r).setCur
      { s.cur with mode := MbMode.ofNum v }).setRes 0 (BitVec.ofNat 32 v)) := by
  obtain ⟨v, r, hread, hle, htree⟩ := getTree_ok (s := s) (k := 0) (treeOf_ok 5 (by decide))
    (P := fun k => .ok (s.cand.modeProb k)) (fun _ _ => ⟨_, rfl⟩) (start := 0) rfl (by decide)
    (Q := fun v => 5 ≤ v ∧ v ≤ 9) mvrefTree_leaf_bounds
  refine ⟨v, r, hread, hle, ?_⟩
  rw [mpMode, show s.getTree 0 mvrefTree _ 0 = _ from htree]
  rfl

/-- A walk asks only for the probabilities of the nodes of its tree. -/
theorem readTreeFrom_congr {cbuf : Memory Byte} {T : List Int} (hT : TreeOk T) {P Q : Nat → Res Byte}
    (h : ∀ j < T.length / 2, P j = Q j) (n : Nat) {i : Nat} (hi : i % 2 = 0) (hl : i < T.length) (r : Rd) :
    readTreeFrom cbuf T P n i r = readTreeFrom cbuf T Q n i r := by
  induction n generalizing i r with
  | zero => rfl
  | succ n ih =>
    rw [readTreeFrom, readTreeFrom, h (i / 2) (by omega)]
    refine congrArg _ (funext fun p => ?_)
    have hlt : i + boolNat (readBool cbuf p r).1 < T.length := by
      have := hT.1
      have := boolNat_le (readBool cbuf p r).1
      omega
    simp only [getD_eq]
    split
    · rfl
    · next he =>
      obtain ⟨heven, -, hin⟩ := hT.2 _ hlt (by omega)
      exact ih heven hin _

/-- A bool read after others, which have left instance 0 as `r`. -/
theorem getBoolAt_setRd (s : State) (r : Rd) {P : Res Byte} {b : Byte} (h : P = .ok b) :
    (s.setRd 0 r).getBoolAt 0 P = .ok ((readBool s.cbuf b r).1, s.setRd 0 (readBool s.cbuf b r).2) := by
  subst h
  show Except.ok ((readBool s.cbuf b ((s.setRd 0 r).rdAt 0)).1, (s.setRd 0 r).setRd 0 _) = _
  rw [State.rdAt_setRd_self, State.setRd_setRd]
  rfl

/-- The bits that the long form always reads (R202), and the instance after them. -/
def longBits (cbuf : Memory Byte) (p : Nat → Byte) (r : Rd) : Nat × Rd :=
  readBits cbuf (fun i => p (9 + i)) [0, 1, 2, 9, 8, 7, 6, 5, 4] r

/-- A component's magnitude `a`, read from instance `r` (R202), and the instance `q` after it: the short form, or
the long form with bit 3 implied or read. -/
structure MagnitudeCoded (cbuf : Memory Byte) (p : Nat → Byte) (r : Rd) (a : Nat) (q : Rd) : Prop where
  short : (readBool cbuf (p 0) r).1 = false →
    readTree cbuf smallMvTree (fun n => .ok (p (2 + n))) 0 (readBool cbuf (p 0) r).2 = .ok (a, q)
  implied : (readBool cbuf (p 0) r).1 = true → let bits := longBits cbuf p (readBool cbuf (p 0) r).2
    bits.1 < 16 → a = bits.1 + 8 ∧ q = bits.2
  read : (readBool cbuf (p 0) r).1 = true → let bits := longBits cbuf p (readBool cbuf (p 0) r).2
    16 ≤ bits.1 → a = bits.1 + 8 * boolNat (readBool cbuf (p 12) bits.2).1 ∧ q = (readBool cbuf (p 12) bits.2).2

theorem readBits_le (cbuf : Memory Byte) (p : Nat → Byte) (l : List Nat) (r : Rd) :
    (readBits cbuf p l r).1 ≤ (l.map (2 ^ ·)).sum := by
  induction l generalizing r with
  | nil => exact le_rfl
  | cons i l ih =>
    rw [List.map_cons, List.sum_cons, readBits]
    exact Nat.add_le_add (mul_le_of_le_one_right' (boolNat_le _)) (ih _)

theorem longBits_le (cbuf : Memory Byte) (p : Nat → Byte) (r : Rd) : (longBits cbuf p r).1 ≤ 1015 :=
  (readBits_le ..).trans (by decide)

theorem smallMvTree_leaf_le : ∀ j < smallMvTree.length, smallMvTree.getD j 0 ≤ 0 →
    (-(smallMvTree.getD j 0)).toNat ≤ 7 := by decide

section
variable {p : Nat → Res Byte} {b : Nat → Byte} (hp : ∀ j < 19, p j = .ok (b j)) (s : State) (r : Rd)
include hp

theorem mvBits_setRd {l : List Nat} (hl : ∀ i ∈ l, i < 10) (a : Nat) :
    (s.setRd 0 r).mvBits p l a = .ok (a + (readBits s.cbuf (fun i => b (9 + i)) l r).1,
      s.setRd 0 (readBits s.cbuf (fun i => b (9 + i)) l r).2) := by
  induction l generalizing r a with
  | nil => rfl
  | cons i l ih =>
    obtain ⟨hi, hl⟩ := List.forall_mem_cons.1 hl
    rw [State.mvBits, getBoolAt_setRd s r (hp (9 + i) (by omega)), Res.ok_bind]
    refine (ih _ hl _).trans ?_
    rw [readBits, Nat.add_assoc, Nat.mul_comm (boolNat _)]

/-- The long form: bit 3 is read only where a higher bit is set. -/
theorem mvLong_setRd : let bits := longBits s.cbuf b r
    (bits.1 < 16 → (s.setRd 0 r).mvLong p = .ok (bits.1 + 8, s.setRd 0 bits.2)) ∧
    (16 ≤ bits.1 → (s.setRd 0 r).mvLong p = .ok (bits.1 + 8 * boolNat (readBool s.cbuf (b 12) bits.2).1,
      s.setRd 0 (readBool s.cbuf (b 12) bits.2).2)) := by
  rw [State.mvLong, mvBits_setRd hp s r (by decide), Res.ok_bind, Nat.zero_add]
  refine ⟨fun h => if_pos (Nat.div_eq_of_lt h), fun h => (if_neg (Nat.div_pos h (by decide)).ne').trans ?_⟩
  rw [getBoolAt_setRd s _ (hp 12 (by decide)), Res.ok_bind, Nat.mul_comm]
  rfl

/-- The short form: a leaf of the small tree. -/
theorem mvShort_setRd : ∃ a q,
    readTree s.cbuf smallMvTree (fun n => .ok (b (2 + n))) 0 r = .ok (a, q) ∧ a ≤ 7 ∧
    (s.setRd 0 r).getTree 0 smallMvTree (fun n => p (2 + n)) 0 = .ok (a, s.setRd 0 q) := by
  have hnode : ∀ j < 7, p (2 + j) = .ok (b (2 + j)) := fun j hj => hp (2 + j) (by omega)
  obtain ⟨a, q, hread, hle, htree⟩ := getTree_ok (s := s.setRd 0 r) (k := 0) (treeOf_ok 8 (by decide))
    (P := fun n => p (2 + n)) (fun j hj => ⟨_, hnode j hj⟩) (start := 0) rfl (by decide)
    (Q := fun v => v ≤ 7) smallMvTree_leaf_le
  rw [State.rdAt_setRd_self] at hread
  rw [State.setRd_setRd] at htree
  refine ⟨a, q, .trans ?_ hread, hle, htree⟩
  exact readTreeFrom_congr (treeOf_ok 8 (by decide)) (fun j hj => (hnode j hj).symm) _ rfl (by decide) r

theorem mvMagnitude_setRd : ∃ a q, (s.setRd 0 r).mvMagnitude p = .ok (a, s.setRd 0 q) ∧
    MagnitudeCoded s.cbuf b r a q ∧ a ≤ 1023 := by
  rw [State.mvMagnitude, getBoolAt_setRd s r (hp 0 (by decide)), Res.ok_bind]
  cases hlong : (readBool s.cbuf (b 0) r).1 with
  | false =>
    obtain ⟨a, q, hread, hle, htree⟩ := mvShort_setRd hp s (readBool s.cbuf (b 0) r).2
    exact ⟨a, q, htree, ⟨fun _ => hread, by simp [hlong], by simp [hlong]⟩, by omega⟩
  | true =>
    obtain ⟨himplied, hread⟩ := mvLong_setRd hp s (readBool s.cbuf (b 0) r).2
    have hle := longBits_le s.cbuf b (readBool s.cbuf (b 0) r).2
    obtain hlt | hge := Nat.lt_or_ge (longBits s.cbuf b (readBool s.cbuf (b 0) r).2).1 16
    · exact ⟨_, _, himplied hlt, ⟨by simp [hlong], fun _ _ => ⟨rfl, rfl⟩, fun _ h => absurd hlt (Nat.not_lt.2 h)⟩,
        by omega⟩
    · have hbit := boolNat_le (readBool s.cbuf (b 12) (longBits s.cbuf b (readBool s.cbuf (b 0) r).2).2).1
      exact ⟨_, _, hread hge, ⟨by simp [hlong], fun _ h => absurd hge (Nat.not_le.2 h), fun _ _ => ⟨rfl, rfl⟩⟩,
        by omega⟩

theorem mvComponent_setRd : ∃ d r', (s.setRd 0 r).mvComponent p = .ok (d, s.setRd 0 r') ∧
    MvCoded s.cbuf b r d r' ∧ -1023 ≤ d ∧ d ≤ 1023 := by
  obtain ⟨a, q, hmag, ⟨hshort, himplied, hread⟩, hle⟩ := mvMagnitude_setRd hp s r
  rw [State.mvComponent, hmag, Res.ok_bind]
  by_cases ha : a = 0
  · exact ⟨0, q, if_pos ha, ⟨a, q, hshort, himplied, hread, fun _ => ⟨rfl, rfl⟩, fun h => absurd ha h⟩,
      by decide, by decide⟩
  · refine ⟨_, _, (if_neg ha).trans ?_,
      ⟨a, q, hshort, himplied, hread, fun h => absurd h ha, fun _ => ⟨rfl, rfl⟩⟩, ?_⟩
    · rw [getBoolAt_setRd s q (hp 1 (by decide))]
      rfl
    · split <;> omega

end

theorem probs_mvc (h : s.ProbKnown (mvcIndex 0) 38) {c : Nat} (hc : c < 2) : ∀ j < 19,
    s.probs (mvcIndex c) j = .ok ((s.probAt (mvcIndex c + j)).getD 0) := by
  intro j hj
  have hindex : mvcIndex 0 + (19 * c + j) = mvcIndex c + j := by simp only [mvcIndex]; omega
  obtain ⟨b, hb, hneed⟩ := need_of_isSome .probUnspecified (h (19 * c + j) (by omega))
  rw [hindex] at hb hneed
  rw [hb]
  exact hneed

/-- A vector delta is read where the probabilities of both components are specified. -/
theorem readMv_reads (h : s.ProbKnown (mvcIndex 0) 38) :
    ∃ d r, s.readMv = .ok (d, s.setRd 0 r) ∧ s.DeltaCoded d r := by
  obtain ⟨dy, r, hy, hycoded, hylo, hyhi⟩ := mvComponent_setRd (probs_mvc h (c := 0) (by decide)) s (s.rdAt 0)
  obtain ⟨dx, r', hx, hxcoded, hxlo, hxhi⟩ := mvComponent_setRd (probs_mvc h (c := 1) (by decide)) s r
  rw [State.setRd_rdAt] at hy
  refine ⟨_, r', ?_, ⟨dy, dx, r, hycoded, hxcoded, hylo, hyhi, hxlo, hxhi, rfl⟩⟩
  rw [State.readMv, hy, Res.ok_bind]
  exact congrArg (· >>= _) hx

/-- Settles O33: the leaf of the mode tree; the two components of the delta, one after the other. -/
theorem mpModeReadmvResults : Obligations.MpModeReadmvResults := by
  unfold Obligations.MpModeReadmvResults
  intro s hp hv
  have hok : s.MdOk := ⟨hp, hv⟩
  refine ⟨?_, fun hknown => ?_⟩
  · obtain ⟨v, r, hread, ⟨hlo, hhi⟩, hwork⟩ := mpMode_reads s
    exact ⟨v, r, hread, hlo, hhi, hok.exec_of_mpWork rfl hwork⟩
  · obtain ⟨d, r, hread, hcoded⟩ := readMv_reads hknown
    refine ⟨d, r, hcoded, hok.exec_of_mpWork rfl ?_⟩
    rw [mpReadmv, hread]
    rfl

/-! ## `MP_SPLIT` (R205 to R211) -/

/-- The states that a loop passes through. -/
theorem foldlM_states {α β : Type} {f : β → α → Res β} {l : List α} {a b : β} (h : l.foldlM f a = .ok b) :
    ∃ x : Nat → β, x 0 = a ∧ x l.length = b ∧ ∀ n c, l[n]? = some c → f (x n) c = .ok (x (n + 1)) := by
  induction l generalizing a with
  | nil => exact ⟨fun _ => a, rfl, Except.ok.inj h, fun n c hc => by simp at hc⟩
  | cons d l ih =>
    rw [List.foldlM_cons] at h
    obtain ⟨a', hstep, hrest⟩ := Res.bind_ok.1 h
    obtain ⟨x, hstart, hend, hx⟩ := ih hrest
    refine ⟨fun n => n.casesOn a x, rfl, hend, fun n c hc => ?_⟩
    cases n with
    | zero =>
      obtain rfl : d = c := by simpa using hc
      exact hstep.trans (congrArg _ hstart.symm)
    | succ n => exact hx n c (by simpa using hc)

theorem submvrefTree_leaf_le : ∀ j < submvrefTree.length, submvrefTree.getD j 0 ≤ 0 →
    (-(submvrefTree.getD j 0)).toNat ≤ 3 := by decide

theorem splitTree_leaf_le : ∀ j < splitTree.length, splitTree.getD j 0 ≤ 0 →
    (-(splitTree.getD j 0)).toNat ≤ 3 := by decide

/-- The choice of a sub-vector, and the vector that it makes (R208). -/
theorem readSub_reads (h : s.ProbKnown (mvcIndex 0) 38) (l a : Mv) : ∃ choice r r' v,
    s.readSub l a = .ok (v, s.setRd 0 r') ∧ choice ≤ 3 ∧
    readTree s.cbuf submvrefTree (tableProb (submvProbs[subCtx l a]?.getD [])) 0 (s.rdAt 0) = .ok (choice, r) ∧
    (choice = 0 → v = l ∧ r' = r) ∧ (choice = 1 → v = a ∧ r' = r) ∧ (choice = 2 → v = Mv.zero ∧ r' = r) ∧
    (choice = 3 → ∃ d, (s.setRd 0 r).DeltaCoded d r' ∧ v = s.cand.best.add d) := by
  obtain ⟨choice, r, hread, hle, htree⟩ := getTree_ok (s := s) (k := 0) (treeOf_ok 7 (by decide))
    (P := tableProb (submvProbs[subCtx l a]?.getD [])) (fun _ _ => ⟨_, rfl⟩) (start := 0) rfl (by decide)
    (Q := fun v => v ≤ 3) submvrefTree_leaf_le
  have hsub : s.readSub l a = (s.getTree 0 submvrefTree _ 0 >>= _) := rfl
  rw [show s.getTree 0 submvrefTree _ 0 = _ from htree, Res.ok_bind] at hsub
  obtain rfl | rfl | rfl | rfl : choice = 0 ∨ choice = 1 ∨ choice = 2 ∨ choice = 3 := by omega
  · exact ⟨0, r, r, l, hsub, hle, hread, by simp⟩
  · exact ⟨1, r, r, a, hsub, hle, hread, by simp⟩
  · exact ⟨2, r, r, Mv.zero, hsub, hle, hread, by simp⟩
  · obtain ⟨d, r', hmv, hcoded⟩ := readMv_reads (s := s.setRd 0 r) h
    rw [State.setRd_setRd] at hmv
    exact ⟨3, r, r', s.cand.best.add d, hsub.trans (congrArg (· >>= _) hmv), hle, hread, by simp, by simp, by simp,
      fun _ => ⟨d, hcoded, rfl⟩⟩

theorem splitStep_reads (h : s.ProbKnown (mvcIndex 0) 38) {shape n k : Nat}
    (hstep : splitStep shape s (k, n) = .ok t) : SubVectorRead shape n k s t := by
  obtain ⟨choice, r, r', v, hsub, hle, hread, h0, h1, h2, h3⟩ := readSub_reads h (s.leftSub k) (s.aboveSub k)
  rw [splitStep, hsub, Res.ok_bind] at hstep
  exact ⟨choice, r, r', v, hle, hread, h0, h1, h2, h3, (Except.ok.inj hstep).symm⟩

/-- From `s` to `t` nothing but instance 0 and the record at `MBPOS` was written. -/
structure OnlyCur (s t : State) : Prop where
  rd : onlyRd 0 s t
  mb : onlyMb s t
  frame : t = { s with rd := t.rd, mbinfo := t.mbinfo }

theorem OnlyCur.refl (s : State) : OnlyCur s s := ⟨fun _ _ => rfl, fun _ _ => rfl, rfl⟩

theorem OnlyCur.setRd (h : OnlyCur s t) (r : Rd) : OnlyCur s (t.setRd 0 r) where
  rd j hj := (t.rdAt_setRd_other r hj).trans (h.rd j hj)
  mb := h.mb
  frame := by rw [h.frame]; rfl

theorem OnlyCur.setCur (h : OnlyCur s t) (r : MbRec) : OnlyCur s (t.setCur r) where
  rd := h.rd
  mb k hk := by
    have hcr : t.cr = s.cr := by rw [h.frame]
    exact (Memory.get_put_other _ _ _ (by rwa [mbx_of_cr hcr, mby_of_cr hcr])).trans (h.mb k hk)
  frame := by rw [h.frame]; rfl

/-- The state of a split macroblock's decoding after its first `n` partitions: each of them has one vector. -/
structure SplitUpTo (s : State) (shape n : Nat) (t : State) : Prop where
  only : OnlyCur s t
  cur : t.cur = { s.cur with split := SplitShape.ofNum shape, bmv := t.cur.bmv }
  filled : ∀ a < 16, ∀ b < 16, partOf shape a = partOf shape b → partOf shape a < n → t.cur.bmvAt a = t.cur.bmvAt b

theorem SplitUpTo.zero (s : State) (shape : Nat) (r : Rd) :
    SplitUpTo s shape 0 ((s.setRd 0 r).setCur { s.cur with split := SplitShape.ofNum shape }) where
  only := ((OnlyCur.refl s).setRd r).setCur _
  cur := by rw [State.cur_setCur]
  filled _ _ _ _ _ h := absurd h (Nat.not_lt_zero _)

theorem bmvAt_ofFn (r : MbRec) (f : Fin 16 → Mv) {b : Nat} (hb : b < 16) :
    MbRec.bmvAt { r with bmv := Vector.ofFn f } b = f ⟨b, hb⟩ := by
  simp [MbRec.bmvAt, hb]

/-- One partition more: the others keep their vectors. -/
theorem SplitUpTo.succ {shape n k : Nat} (h : SplitUpTo s shape n t) (hread : SubVectorRead shape n k t u) :
    SplitUpTo s shape (n + 1) u := by
  obtain ⟨-, -, r, v, -, -, -, -, -, -, rfl⟩ := hread
  refine ⟨(h.only.setRd r).setCur _, ?_, fun a ha b hb hab hlt => ?_⟩
  · rw [State.cur_setCur, h.cur]
  · rw [State.cur_setCur, bmvAt_ofFn _ _ ha, bmvAt_ofFn _ _ hb]
    show (if partOf shape a = n then v else _) = if partOf shape b = n then v else _
    rw [← hab]
    split
    · rfl
    · exact h.filled a ha b hb hab (by omega)

/-- The number of each sub-block's partition is below the number of partitions. -/
theorem partOf_lt : ∀ v ≤ 3, ∀ b < 16, partOf v b < (splitFirst.getD v []).length := by decide

/-- The states between the partitions of a shape. -/
theorem split_states (h : s.ProbKnown (mvcIndex 0) 38) {shape : Nat} {r : Rd} {x : Nat → State} {first : List Nat}
    (hstart : x 0 = (s.setRd 0 r).setCur { s.cur with split := SplitShape.ofNum shape })
    (hstep : ∀ n k, first[n]? = some k → splitStep shape (x n) (k, n) = .ok (x (n + 1))) :
    (∀ n k, first[n]? = some k → SubVectorRead shape n k (x n) (x (n + 1))) ∧
      SplitUpTo s shape first.length (x first.length) := by
  have hread : ∀ n k, SplitUpTo s shape n (x n) → first[n]? = some k → SubVectorRead shape n k (x n) (x (n + 1)) :=
    fun n k hn hk => splitStep_reads (h.of_prob (by rw [hn.only.frame])) (hstep n k hk)
  have hupTo : ∀ n ≤ first.length, SplitUpTo s shape n (x n) := by
    intro n
    induction n with
    | zero => exact fun _ => hstart ▸ .zero s shape r
    | succ n ih => exact fun hn => (ih (by omega)).succ (hread n _ (ih (by omega)) (List.getElem?_eq_getElem hn))
  refine ⟨fun n k hk => hread n k (hupTo n ?_) hk, hupTo _ le_rfl⟩
  exact (List.getElem?_eq_some_iff.1 hk).1.le

/-- The work of `MP_SPLIT`: the shape, then the loop over its partitions, which passes through states that each
hold one partition's vector more. -/
theorem mpSplit_reads (h : s.ProbKnown (mvcIndex 0) 38) : ∃ (v : Nat) (r : Rd) (x : Nat → State),
    readTree s.cbuf splitTree (tableProb splitProbs) 0 (s.rdAt 0) = .ok (v, r) ∧ v ≤ 3 ∧
    x 0 = (s.setRd 0 r).setCur { s.cur with split := SplitShape.ofNum v } ∧
    (∀ n k, (splitFirst.getD v [])[n]? = some k → SubVectorRead v n k (x n) (x (n + 1))) ∧
    let w := x (splitFirst.getD v []).length
    mpSplit s = .ok ((w.setCur { w.cur with mv := w.cur.bmvAt 15 }).setRes 0 (BitVec.ofNat 32 v)) ∧
    SplitUpTo s v (splitFirst.getD v []).length w := by
  obtain ⟨v, r, hread, hle, htree⟩ := getTree_ok (s := s) (k := 0) (treeOf_ok 6 (by decide))
    (P := tableProb splitProbs) (fun _ _ => ⟨_, rfl⟩) (start := 0) rfl (by decide) (Q := fun v => v ≤ 3)
    splitTree_leaf_le
  obtain ⟨w, hloop, -⟩ := foldlM_completes (P := fun x : State => x.ProbKnown (mvcIndex 0) 38)
    (f := splitStep v) (l := (splitFirst[v]?.getD []).zipIdx) (fun x hx p _ => splitStep_completes hx v p)
    (s := (s.setRd 0 r).setCur { s.cur with split := SplitShape.ofNum v }) h
  obtain ⟨x, hstart, hend, hstep⟩ := foldlM_states hloop
  rw [List.length_zipIdx] at hend
  obtain ⟨hreads, hupTo⟩ := split_states h (first := splitFirst.getD v []) hstart fun n k hk =>
    hstep n (k, n) (by rw [List.getElem?_zipIdx, show (splitFirst[v]?.getD [])[n]? = some k from hk]; simp)
  refine ⟨v, r, x, hread, hle, hstart, hreads, ?_, hupTo⟩
  rw [mpSplit, show s.getTree 0 splitTree _ 0 = _ from htree, Res.ok_bind]
  refine (congrArg (· >>= _) hloop).trans ?_
  rw [← hend]
  rfl

/-- Settles O34: the loop over the partitions, each of which has one vector in the end. -/
theorem mpSplitResult : Obligations.MpSplitResult := by
  unfold Obligations.MpSplitResult
  intro s hp hv hknown
  have hok : s.MdOk := ⟨hp, hv⟩
  obtain ⟨v, r, x, hread, hle, hstart, hreads, hwork, hupTo⟩ := mpSplit_reads hknown
  exact ⟨v, r, x, hread, hle, hstart, hreads, hok.exec_of_mpWork rfl hwork, fun a ha b hb hab =>
    hupTo.filled a ha b hb hab (partOf_lt v hle a ha), hupTo.cur, hupTo.only.rd, hupTo.only.mb, hupTo.only.frame⟩

/-! ## `MP_MB` as a sequence (R214) -/

theorem State.MdOk.respond (h : s.MdOk) (x : Response) : (s.respond x).MdOk := { h with }

theorem performs_mpNear : Performs State.MdOk (exec .mpNear) fun s => .ok (mpNear s) where
  blind s x := congrArg Except.ok (mpNear_respond s x)
  quiet _ := .ok _
  run _ hs := finish_require_true hs.pos
  keeps s _ hs ht := by
    obtain rfl := Except.ok.inj ht
    exact (hs.of_effects (mpNear_effects s)).respond .ok

/-- One command of MP that also reads instance 0, of the work `f`. -/
theorem performs_mp {f : State → Res State} (hb : Blind f) (hq : ∀ s, Quiet (f s))
    (hrun : ∀ s, exec i s =
      finish s (require s.posOk .badMbpos >>= fun _ => require (s.rdValid 0) .rdUninit >>= fun _ => f s))
    (he : ∀ s t, f s = .ok t → Effects tagsMd s t) : Performs State.MdOk (exec i) f :=
  performs_md hb hq (fun s => (hrun s).trans (congrArg (finish s) (bind_assoc ..).symm)) he

theorem performs_mpMode : Performs State.MdOk (exec .mpMode) mpMode :=
  performs_mp blind_mpMode quiet_mpMode (fun _ => rfl) fun _ _ => mpMode_effects

theorem performs_mpReadmv : Performs State.MdOk (exec .mpReadmv) mpReadmv :=
  performs_mp blind_mpReadmv quiet_mpReadmv (fun _ => rfl) fun _ _ => mpReadmv_effects

theorem performs_mpSplit : Performs State.MdOk (exec .mpSplit) mpSplit :=
  performs_mp blind_mpSplit quiet_mpSplit (fun _ => rfl) fun _ _ => mpSplit_effects

/-- What `MP_MB` runs after `MP_MODE`, by the mode (R200). -/
def mpVectorProgram (a : State) : Host.Outcome State Fault Refusal :=
  match a.cur.mode with
  | .zero => .next (a.withMv Mv.zero)
  | .nearest => .next (a.withMv a.cand.nearest)
  | .near => .next (a.withMv a.cand.near)
  | .new => andThen (exec .mpReadmv a) fun b =>
      .next (b.withMv ⟨b.cand.best.x + (b.result 0).extractLsb' 0 16,
        b.cand.best.y + (b.result 0).extractLsb' 16 16⟩)
  | .split => exec .mpSplit a
  | _ => .next (a.withMv a.cur.mv)

theorem mpSequence_eq (s : State) : mpSequence s = andThen (runCommands [.mpNear, .mpMode] s) mpVectorProgram := rfl

theorem unpackMv_packMv (d : Mv) : unpackMv (packMv d) = d :=
  congrArg₂ Mv.mk BitVec.extractLsb'_append_eq_right BitVec.extractLsb'_append_eq_left

/-- A delta is added to the best candidate from `RES0`, where `MP_READMV` has put it. -/
def State.addDelta (b : State) : State := b.withMv (b.cand.best.add (unpackMv (b.result 0)))

theorem mpReadmv_addDelta (s : State) : (mpReadmv s >>= fun b => .ok b.addDelta) =
    s.readMv >>= fun x => .ok ((x.2.setRes 0 (packMv x.1)).setWholeMv (x.2.cand.best.add x.1)) := by
  rw [mpReadmv, bind_assoc]
  refine congrArg _ (funext fun x => ?_)
  show Except.ok ((x.2.setRes 0 (packMv x.1)).setWholeMv _) = _
  rw [State.result_setRes_zero, unpackMv_packMv]
  rfl

theorem State.done_of_response (h : s.response = .ok) : s.done = s := by
  rw [State.done, ← h]

/-- After a command that has answered `OK`, what `MP_MB` runs is its work. -/
theorem mpVectorProgram_eq (h : s.MdOk) (hr : s.response = .ok) : mpVectorProgram s = finish s (mpVector s) := by
  have hwhole (v : Mv) : Host.Outcome.next (s.withMv v) = finish s (.ok (s.setWholeMv v)) :=
    congrArg Host.Outcome.next (State.done_of_response (s := s.withMv v) hr).symm
  unfold mpVectorProgram mpVector
  cases s.cur.mode
  case new =>
    rw [performs_mpReadmv.run s h]
    exact ((finish_map (f := State.addDelta) (quiet_mpReadmv s) s fun _ _ => rfl).symm.trans
      (congrArg (finish s) (mpReadmv_addDelta s)))
  case split => exact performs_mpSplit.run s h
  all_goals exact hwhole _

/-- The two results of `MP_MB` (R214). -/
def mpMbResults (w : State) : State :=
  (w.setRes 0 (packMv w.cur.mv)).setRes 1 (BitVec.ofNat 32 w.cur.mode.num)

theorem mpMb_eq (s : State) : mpMb s = ((mpMode (mpNear s)) >>= mpVector) >>= fun w => .ok (mpMbResults w) := by
  rw [bind_assoc]
  rfl

theorem exec_mpMb_eq_sequence (h : s.MdOk) :
    exec .mpMb s = andThen (mpSequence s) fun w => .next (mpMbResults w) := by
  have hmode : Performs State.MdOk (runCommands [.mpNear, .mpMode]) fun s => mpMode (mpNear s) := by
    rw [runCommands_two]
    exact performs_mpNear.andThen performs_mpMode
  have hvector : mpSequence s = finish s (mpMode (mpNear s) >>= mpVector) := by
    rw [mpSequence_eq, hmode.run s h, finish_bind blind_mpVector (hmode.quiet s) quiet_mpVector]
    exact andThen_finish (hmode.quiet s) s fun u hu => mpVectorProgram_eq (hmode.keeps s u h hu) rfl
  rw [hvector, ← finish_map ((hmode.quiet s).bind quiet_mpVector) s (f := mpMbResults) fun _ _ => rfl, ← mpMb_eq]
  exact performs_mpMb.run s h

/-! ## The vectors of a macroblock (R200, R214) -/

/-- The vector that each motion mode but SPLIT gives. -/
structure MvByMode (s : State) (v : Mv) : Prop where
  zero : s.cur.mode = .zero → v = Mv.zero
  nearest : s.cur.mode = .nearest → v = s.cand.nearest
  near : s.cur.mode = .near → v = s.cand.near
  new : s.cur.mode = .new → ∃ dx dy : Int, -1023 ≤ dx ∧ dx ≤ 1023 ∧ -1023 ≤ dy ∧ dy ≤ 1023 ∧
    v = ⟨s.cand.best.x + BitVec.ofInt 16 dx, s.cand.best.y + BitVec.ofInt 16 dy⟩

/-- The vectors that the mode of `s` asks for, in `t`: of the record the vectors and the shape were written, of
the RES registers `RES0`. -/
structure VectorsByMode (s t : State) : Prop where
  made : MadeVectors s t
  res : onlyRes [0] s t
  mv : MvByMode s t.cur.mv
  whole : s.cur.mode ≠ .split → t.cur.split = .halves16x8 ∧ ∀ b < 16, t.cur.bmvAt b = t.cur.mv
  split : s.cur.mode = .split → t.cur.mv = t.cur.bmvAt 15

/-- One vector for the whole macroblock. -/
theorem VectorsByMode.setWholeMv {v : Mv} (hmade : MadeVectors s t) (hres : onlyRes [0] s t) (hv : MvByMode s v)
    (hmode : s.cur.mode ≠ .split) : VectorsByMode s (t.setWholeMv v) where
  made := hmade.setCur v _ _
  res := hres
  mv := by rwa [State.setWholeMv, State.cur_setCur]
  whole _ := by
    rw [State.setWholeMv, State.cur_setCur]
    exact ⟨rfl, fun b hb => by simp [MbRec.bmvAt, hb]⟩
  split h := absurd h hmode

theorem mpSplit_vectorsByMode (h : s.ProbKnown (mvcIndex 0) 38) (hmode : s.cur.mode = .split) :
    ∃ t, mpSplit s = .ok t ∧ VectorsByMode s t := by
  obtain ⟨v, r, x, -, -, -, -, hwork, hupTo⟩ := mpSplit_reads h
  have hframe := hupTo.only.frame
  generalize x (splitFirst.getD v []).length = w at hwork hframe
  refine ⟨_, hwork, mpSplit_vectors hwork, fun j hj => ?_, ⟨?_, ?_, ?_, ?_⟩, fun hne => absurd hmode hne, fun _ => ?_⟩
  · rw [State.result_setRes_other _ _ (List.ne_of_not_mem_cons hj), State.setCur_result, hframe]
    rfl
  all_goals simp [hmode]
  rfl

theorem mpVector_vectorsByMode (h : s.ProbKnown (mvcIndex 0) 38) (hm : 5 ≤ s.cur.mode.num) :
    ∃ t, mpVector s = .ok t ∧ VectorsByMode s t := by
  have hwhole {v : Mv} (hv : MvByMode s v) (hmode : s.cur.mode ≠ .split) : VectorsByMode s (s.setWholeMv v) :=
    .setWholeMv (.refl s) (fun _ _ => rfl) hv hmode
  unfold mpVector
  cases hmode : s.cur.mode
  case zero => exact ⟨_, rfl, hwhole (by constructor <;> simp [hmode]) (by simp [hmode])⟩
  case nearest => exact ⟨_, rfl, hwhole (by constructor <;> simp [hmode]) (by simp [hmode])⟩
  case near => exact ⟨_, rfl, hwhole (by constructor <;> simp [hmode]) (by simp [hmode])⟩
  case new =>
    obtain ⟨d, r, hread, dy, dx, -, -, -, hylo, hyhi, hxlo, hxhi, rfl⟩ := readMv_reads h
    refine ⟨_, congrArg (· >>= _) hread, .setWholeMv (((MadeVectors.refl s).reads (readMv_effects hread)).setRes 0 _)
      (fun j hj => State.result_setRes_other _ _ (List.ne_of_not_mem_cons hj)) ?_ (by simp [hmode])⟩
    exact ⟨by simp [hmode], by simp [hmode], by simp [hmode], fun _ => ⟨dx, dy, hxlo, hxhi, hylo, hyhi, rfl⟩⟩
  case split => exact mpSplit_vectorsByMode h hmode
  all_goals
    rw [hmode] at hm
    exact absurd hm (by decide)

theorem mpMode_result (s : State) : ∃ t, mpMode s = .ok t ∧ onlyRes [0] s t := by
  obtain ⟨v, r, -, -, hwork⟩ := mpMode_reads s
  exact ⟨_, hwork, fun j hj => State.result_setRes_other _ _ (List.ne_of_not_mem_cons hj)⟩

theorem mpMbResults_result (w : State) : (mpMbResults w).result 0 = packMv w.cur.mv ∧
    (mpMbResults w).result 1 = BitVec.ofNat 32 w.cur.mode.num ∧ onlyRes [0, 1] w (mpMbResults w) := by
  refine ⟨by simp [mpMbResults, State.result_setRes], by simp [mpMbResults, State.result_setRes], fun j hj => ?_⟩
  obtain ⟨h0, h1⟩ := not_or.1 (List.mem_cons.not.1 hj)
  rw [mpMbResults, State.result_setRes_other _ _ (List.ne_of_not_mem_cons h1), State.result_setRes_other _ _ h0]

/-- Between `MP_NEAR` and its end `MP_MB` writes the mode and the vectors of the record, and of the RES registers
the first two. -/
theorem mpMb_works (h : s.ProbKnown (mvcIndex 0) 38) : ∃ x y, mpMb s = .ok (mpMbResults y) ∧
    (∃ m, 5 ≤ MbMode.num m ∧ Recorded (mpNear s) x { s.cur with mode := m }) ∧ VectorsByMode x y ∧
    onlyRes [0, 1] (mpNear s) (mpMbResults y) := by
  obtain ⟨x, hmode, hxres⟩ := mpMode_result (mpNear s)
  obtain ⟨m, hm, hx⟩ := mpMode_recorded hmode
  have he := (mpNear_effects s).trans (mpMode_effects hmode)
  obtain ⟨y, hvec, hby⟩ := mpVector_vectorsByMode (s := x) (h.of_prob (md_prob he)) (by rw [hx.cur]; exact hm)
  rw [mpNear_ref] at hx
  refine ⟨x, y, ?_, ⟨m, hm, hx⟩, hby, fun j hj => ?_⟩
  · rw [mpMb_eq, hmode, Res.ok_bind, hvec, Res.ok_bind]
  · obtain ⟨-, -, hres⟩ := mpMbResults_result y
    have hj0 : j ∉ [0] := fun h0 => hj (List.mem_cons.2 (.inl (List.mem_singleton.1 h0)))
    rw [hres j hj, hby.res j hj0, hxres j hj0]

/-- Settles O35: the works of its commands one after the other are that of `MP_MB`; the mode that `MP_MODE` leaves
is one of the five that the vectors are made by. -/
theorem mpMbResult : Obligations.MpMbResult := by
  unfold Obligations.MpMbResult
  refine ⟨fun s hp hv => exec_mpMb_eq_sequence ⟨hp, hv⟩, fun s hp hv hknown => ?_⟩
  have hok : s.MdOk := ⟨hp, hv⟩
  have hnear : exec .mpNear s = .next (mpNear s).done := finish_posOk hp _
  have hnearseg := mpNear_segmap s
  obtain ⟨x, y, hwork, ⟨m, hm, hx⟩, ⟨⟨v, w, p, hy⟩, -, hmv, hwhole, hsplit⟩, hres⟩ := mpMb_works hknown
  -- Nothing below looks into the search: its state is known by a name only.
  obtain ⟨n, hn⟩ : ∃ n, mpNear s = n := ⟨_, rfl⟩
  rw [hn] at hnear hnearseg hx hres
  have he := mpMb_effects hwork
  have hcur : (mpMbResults y).cur = y.cur := by simp only [mpMbResults, State.setRes_cur]
  have hcand : (mpMbResults y).cand = x.cand := hy.cand
  have hseg : (mpMbResults y).segmap = s.segmap := hy.segmap.trans (hx.segmap.trans hnearseg)
  obtain ⟨h0, h1, -⟩ := mpMbResults_result y
  generalize mpMbResults y = t at *
  have hmode : t.cur.mode = x.cur.mode := by rw [hcur, hy.cur]
  have hnum : 5 ≤ t.cur.mode.num := by rw [hmode, hx.cur]; exact hm
  have hrec : t.cur = { s.cur with mode := t.cur.mode, mv := t.cur.mv, bmv := t.cur.bmv, split := t.cur.split } := by
    rw [hcur, hy.cur, hx.cur]
  obtain ⟨hzero, hnearest, hnear', hnew⟩ := hmv
  rw [← hcur] at h0 h1 hzero hnearest hnear' hnew hwhole hsplit
  rw [← hmode] at hzero hnearest hnear' hnew hwhole hsplit
  rw [← hcand] at hnearest hnear' hnew
  have hrd : onlyRd 0 s t := md_onlyRd he
  have hmb : onlyMb s t := md_onlyMb he
  have hframe := md_frame he
  rw [hseg] at hframe
  exact ⟨t.done, n.done, hok.exec_of_mpWork rfl hwork, hnear, hcand.trans hx.cand, h0, h1, hres 2 (by decide),
    hres 3 (by decide), hnum, hzero, hnearest, hnear', hnew, hwhole, hsplit, hrec, hrd, hmb,
    congrArg State.done hframe⟩

end Sys2Proof.Machine
end

section
/-! PROOFS. The coefficient decoder (43_coefficient_decoder.md): what each of its three commands answers. -/

namespace Sys2Proof.Machine

variable {s t u : State}

/-! ## `CD_SKIPMB` (R244) -/

theorem nzClear_getElem? (keepDc : Bool) (v : Vector Bool 9) {j : Nat} (hj : j < 9) : (nzClear keepDc v)[j]? =
    if j < 8 ∨ keepDc = false then some false else v[j]? := by
  obtain hlt | rfl : j < 8 ∨ j = 8 := by omega
  · cases keepDc <;> simp [nzClear, nzZero, hlt, hj, Nat.ne_of_gt hlt]
  · cases keepDc <;> simp [nzClear, nzZero]

/-- Settles O38: every coefficient is unlisted, and the flags are those of `nzClear`. -/
theorem cdSkipmbResult : Obligations.CdSkipmbResult := by
  unfold Obligations.CdSkipmbResult
  refine fun s => ⟨fun h => finish_require_false h, fun h => ⟨(cdSkipmb s).done, finish_posOk h _, ?_⟩⟩
  have hflags (v : Vector Bool 9) : ∀ j < 9, (nzClear (!hasY2 s.cur.mode) v)[j]? =
      if j < 8 ∨ hasY2 s.cur.mode = true then some false else v[j]? := fun j hj => by
    simp [nzClear_getElem? _ v hj]
  refine ⟨State.result_setRes_zero _ _, fun _ _ => rfl, fun j hj => ?_, hflags _,
    fun j hj => State.result_setRes_other _ _ (List.ne_of_not_mem_cons hj), fun x hx => Memory.get_put_other _ _ _ hx,
    rfl⟩
  show (Memory.get (Memory.put _ _ _ _) _ _)[j]? = _
  rw [Memory.get_put_self]
  exact hflags _ j hj

/-! ## One token (R236) -/

/-- The value of a token other than EOB and the instance after it: 0 for ZERO, else the magnitude with a sign. -/
def signedToken (cbuf : Memory Byte) (x : Nat × Rd) : Int × Rd :=
  if x.1 = 0 then (0, x.2)
  else
    let m := tokenValue cbuf x.1 x.2
    let sign := readBool cbuf 128 m.2
    (if sign.1 then -(m.1 : Int) else (m.1 : Int), sign.2)

theorem extraValue_lt (cbuf : Memory Byte) (l : List Byte) (e : Nat) (r : Rd) :
    (extraValue cbuf l e r).1 < (e + 1) * 2 ^ l.length := by
  induction l generalizing e r with
  | nil => simp [extraValue]
  | cons q l ih =>
    have hbit := boolNat_le (readBool cbuf q r).1
    calc (extraValue cbuf (q :: l) e r).1 < (2 * e + boolNat (readBool cbuf q r).1 + 1) * 2 ^ l.length := ih _ _
      _ ≤ (2 * (e + 1)) * 2 ^ l.length := Nat.mul_le_mul_right _ (by omega)
      _ = (e + 1) * 2 ^ (q :: l).length := by rw [List.length_cons, Nat.pow_succ', ← Nat.mul_assoc, Nat.mul_comm 2]

theorem category_bounds : ∀ tok ≤ 10, 4 < tok →
    1 ≤ (tokenCategory tok).1 ∧ (tokenCategory tok).1 + 2 ^ (tokenCategory tok).2.length ≤ 2115 := by decide

theorem tokenValue_bounds (cbuf : Memory Byte) {tok : Nat} (hz : tok ≠ 0) (h : tok ≤ 10) (r : Rd) :
    1 ≤ (tokenValue cbuf tok r).1 ∧ (tokenValue cbuf tok r).1 ≤ 2114 := by
  unfold tokenValue
  split
  · omega
  · next hcat =>
    obtain ⟨hlo, hhi⟩ := category_bounds tok h (by omega)
    have hextra := extraValue_lt cbuf (tokenCategory tok).2 0 r
    rw [Nat.zero_add, Nat.one_mul] at hextra
    show 1 ≤ (tokenCategory tok).1 + (extraValue cbuf (tokenCategory tok).2 0 r).1 ∧
      (tokenCategory tok).1 + (extraValue cbuf (tokenCategory tok).2 0 r).1 ≤ 2114
    omega

theorem natAbs_signed (neg : Bool) (m : Nat) : (if neg then -(m : Int) else (m : Int)).natAbs = m := by
  cases neg <;> simp

/-! ## The state between two tokens -/

/-- The state while a block's tokens are read: of instance `k` and of the coefficients it holds `r` and `c`. -/
def State.during (s : State) (k : Nat) (r : Rd) (c : Memory Int) : State := { s.setRd k r with coef := c }

section
variable (s : State) {k : Nat} (r q : Rd) (c : Memory Int)

theorem during_self : s.during k (s.rdAt k) s.coef = s := by
  rw [State.during, State.setRd_rdAt]

theorem during_rdAt (hk : k < 9) : (s.during k r c).rdAt k = r := (s.rdAt_setRd k k r hk).trans (if_pos rfl)

theorem during_setRd : (s.during k r c).setRd k q = s.during k q c :=
  congrArg (fun t : State => { t with coef := c }) (s.setRd_setRd k r q)

theorem during_getBool (hk : k < 9) (p : Byte) : (s.during k r c).getBool k p =
    ((readBool s.cbuf p r).1, s.during k (readBool s.cbuf p r).2 c) := by
  have h : (s.during k r c).getBool k p = ((readBool s.cbuf p ((s.during k r c).rdAt k)).1,
    (s.during k r c).setRd k (readBool s.cbuf p ((s.during k r c).rdAt k)).2) := rfl
  rw [h, during_rdAt s r c hk, during_setRd]

theorem during_extraBits (hk : k < 9) (l : List Byte) (e : Nat) : (s.during k r c).extraBits k l e =
    ((extraValue s.cbuf l e r).1, s.during k (extraValue s.cbuf l e r).2 c) := by
  induction l generalizing e r with
  | nil => rfl
  | cons p l ih =>
    rw [State.extraBits, during_getBool s r c hk]
    exact ih _ _

theorem during_tokenMagnitude (hk : k < 9) (tok : Nat) : (s.during k r c).tokenMagnitude k tok =
    ((tokenValue s.cbuf tok r).1, s.during k (tokenValue s.cbuf tok r).2 c) := by
  unfold State.tokenMagnitude tokenValue
  split
  · rfl
  · rw [during_extraBits s r c hk]
    rfl

theorem during_getTree (hk : k < 9) {T : List Int} {P : Nat → Res Byte} {start : Nat} {x : Nat × Rd}
    (h : readTree s.cbuf T P start r = .ok x) :
    (s.during k r c).getTree k T P start = .ok (x.1, s.during k x.2 c) := by
  show (readTree s.cbuf T P start ((s.during k r c).rdAt k) >>= _) = _
  rw [during_rdAt s r c hk, h]
  exact congrArg (fun t => Except.ok (x.1, t)) (during_setRd s r x.2 c)

theorem during_storeToken (hk : k < 9) {d : DqRec} (hd : Memory.find s.dq s.seg = some d) (ty b i : Nat)
    {tok : Nat} (hz : tok ≠ 0) :
    (s.during k r c).storeToken ty b k i tok = .ok ((signedToken s.cbuf (tok, r)).1.natAbs,
      s.during k (signedToken s.cbuf (tok, r)).2 (Memory.put c 0 (coefKey b (zigzag.getD i 0))
        ((signedToken s.cbuf (tok, r)).1 * (d.factor ty i : Int)))) := by
  rw [State.storeToken, during_tokenMagnitude s r c hk]
  simp only [during_getBool s _ c hk]
  have hdq (q : Rd) : (s.during k q c).dqCur = .ok d := congrArg (need · Fault.dqUnspecified) hd
  rw [hdq, Res.ok_bind, signedToken, if_neg hz, natAbs_signed]
  rfl

/-- One turn of the loop of R240: a token, its value in its place, and the place in the tree and the context of the
next one. -/
theorem cdLoop_turn (hk : k < 9) {d : DqRec} (hd : Memory.find s.dq s.seg = some d) (ty b n : Nat) {i ctx start : Nat}
    (hi : i < 16) {x : Nat × Rd}
    (h : readTree s.cbuf tokenTree (s.probs (tokenIndex ty (bands.getD i 0) ctx)) start r = .ok x) :
    cdLoop ty b k (n + 1) (s.during k r c) i ctx start =
      if x.1 = tokenEob then .ok (i, s.during k x.2 c)
      else
        let v := signedToken s.cbuf x
        cdLoop ty b k n
          (s.during k v.2 (if x.1 = 0 then c
            else Memory.put c 0 (coefKey b (zigzag.getD i 0)) (v.1 * (d.factor ty i : Int))))
          (i + 1) (if x.1 = 0 then 0 else if v.1.natAbs = 1 then 1 else 2) (if x.1 = 0 then 2 else 0) := by
  rw [cdLoop, if_neg (by omega)]
  refine (congrArg (· >>= _) (during_getTree s r c hk h)).trans ?_
  rw [Res.ok_bind]
  by_cases heob : x.1 = tokenEob
  · simp only [if_pos heob]
  · by_cases hz : x.1 = 0
    · simp only [if_neg heob, if_pos hz, signedToken]
    · simp only [if_neg heob, if_neg hz]
      rw [during_storeToken s x.2 c hk hd ty b i hz]
      rfl

end

/-! ## The tokens of a block, position by position (R240) -/

/-- What the reading of a token begins with: the instance, the context, and where in the tree. -/
structure TokenStart where
  rd : Rd
  ctx : Nat
  start : Nat

/-- The token at position `j` of a block of type `ty`, and the instance after it (R232 to R235). -/
def State.tokenFrom (s : State) (ty j : Nat) (p : TokenStart) : Nat × Rd :=
  (readTree s.cbuf tokenTree (s.probs (tokenIndex ty (bands.getD j 0) p.ctx)) p.start p.rd).toOption.getD
    (tokenEob, p.rd)

/-- What the token after that one begins with. -/
def State.tokenNext (s : State) (ty j : Nat) (p : TokenStart) : TokenStart :=
  let x := s.tokenFrom ty j p
  let v := signedToken s.cbuf x
  ⟨v.2, if x.1 = 0 then 0 else if v.1.natAbs = 1 then 1 else 2, if x.1 = 0 then 2 else 0⟩

/-- What the token at a position of block `b` begins with, where EOB has not come before it. -/
def State.tokenStart (s : State) (ty b k : Nat) : Nat → TokenStart
  | 0 => ⟨s.rdAt k, s.tokenContext b, 0⟩
  | j + 1 => if j < firstPos ty then ⟨s.rdAt k, s.tokenContext b, 0⟩ else s.tokenNext ty j (s.tokenStart ty b k j)

/-- The token at a position, and the instance after it. -/
def State.token (s : State) (ty b k j : Nat) : Nat × Rd := s.tokenFrom ty j (s.tokenStart ty b k j)

/-- The value at a position, and the instance after it. -/
def State.tokenSigned (s : State) (ty b k j : Nat) : Int × Rd := signedToken s.cbuf (s.token ty b k j)

/-- The coefficients after the tokens before position `j`. -/
def State.coefsTo (s : State) (ty b k : Nat) (d : DqRec) : Nat → Memory Int
  | 0 => s.coef
  | j + 1 =>
    if firstPos ty ≤ j ∧ (s.token ty b k j).1 ≠ 0 then
      Memory.put (s.coefsTo ty b k d j) 0 (coefKey b (zigzag.getD j 0))
        ((s.tokenSigned ty b k j).1 * (d.factor ty j : Int))
    else s.coefsTo ty b k d j

/-- The instance after a block that stops at position `i`: after EOB, or where position 16 is reached. -/
def State.blockRd (s : State) (ty b k i : Nat) : Rd :=
  if i < 16 then (s.token ty b k i).2 else (s.tokenStart ty b k i).rd

section
variable (s : State) (ty b k : Nat)

theorem firstPos_le : firstPos ty ≤ 1 := by unfold firstPos; split <;> decide

theorem tokenStart_first : s.tokenStart ty b k (firstPos ty) = ⟨s.rdAt k, s.tokenContext b, 0⟩ := by
  obtain h | h : firstPos ty = 0 ∨ firstPos ty = 1 := by have := firstPos_le ty; omega
  · rw [h, State.tokenStart]
  · rw [h, State.tokenStart, if_pos (by omega)]

theorem tokenStart_succ {j : Nat} (hj : firstPos ty ≤ j) :
    s.tokenStart ty b k (j + 1) = s.tokenNext ty j (s.tokenStart ty b k j) := if_neg (Nat.not_lt.2 hj)

theorem tokenNext_bounds (j : Nat) (p : TokenStart) : (s.tokenNext ty j p).ctx ≤ 2 ∧
    ((s.tokenNext ty j p).start = 0 ∨ (s.tokenNext ty j p).start = 2) := by
  unfold State.tokenNext
  by_cases hz : (s.tokenFrom ty j p).1 = 0
  · simp [hz]
  · simp only [hz, if_false]
    exact ⟨by split <;> decide, .inl trivial⟩

theorem tokenStart_bounds (j : Nat) : (s.tokenStart ty b k j).ctx ≤ 2 ∧
    ((s.tokenStart ty b k j).start = 0 ∨ (s.tokenStart ty b k j).start = 2) := by
  have hfirst : s.tokenContext b ≤ 2 := firstCtx_le s b
  cases j with
  | zero => exact ⟨hfirst, .inl rfl⟩
  | succ j =>
    rw [State.tokenStart]
    split
    · exact ⟨hfirst, .inl rfl⟩
    · exact tokenNext_bounds s ty j _

theorem tokenTree_leaf_le : ∀ j < tokenTree.length, tokenTree.getD j 0 ≤ 0 →
    (-(tokenTree.getD j 0)).toNat ≤ 11 := by decide

/-- Where the probabilities of the plane type are specified, the token is a leaf of tree 9. -/
theorem token_reads (hp : s.ProbKnown (264 * ty) 264) {j : Nat} (hj : j < 16) :
    let p := s.tokenStart ty b k j
    readTree s.cbuf tokenTree (s.probs (tokenIndex ty (bands.getD j 0) p.ctx)) p.start p.rd =
      .ok (s.token ty b k j) ∧ (s.token ty b k j).1 ≤ 11 := by
  intro p
  obtain ⟨hctx, hstart⟩ : p.ctx ≤ 2 ∧ (p.start = 0 ∨ p.start = 2) := tokenStart_bounds s ty b k j
  have hband : bands.getD j 0 < 8 := bands_lt j hj
  have hprobs : ∀ m < 11, ∃ q, s.probs (tokenIndex ty (bands.getD j 0) p.ctx) m = .ok q :=
    probs_ok (hp.part (by unfold tokenIndex; omega) (by unfold tokenIndex; omega))
  have hlen : tokenTree.length = 22 := by decide
  obtain ⟨m, v, r, hm, hleaf, rfl, hread⟩ := readTree_ok (cbuf := s.cbuf) (treeOf_ok 9 (by decide))
    (P := s.probs (tokenIndex ty (bands.getD j 0) p.ctx)) (start := p.start) (hlen ▸ hprobs) (by omega)
    (by show p.start < tokenTree.length; omega) p.rd
  have htoken : s.token ty b k j = ((-(tokenTree.getD m 0)).toNat, r) := by
    rw [State.token, State.tokenFrom]
    exact congrArg (fun x => (Except.toOption x).getD _) hread
  rw [htoken]
  exact ⟨hread, tokenTree_leaf_le m hm hleaf⟩

/-- The reading of a block stops at position `i`: at its first EOB, or at position 16. -/
structure State.StopsAt (i : Nat) : Prop where
  first : firstPos ty ≤ i
  le : i ≤ 16
  before : ∀ j, firstPos ty ≤ j → j < i → (s.token ty b k j).1 ≠ tokenEob
  eob : i < 16 → (s.token ty b k i).1 = tokenEob

theorem tokenStart_ctx {j : Nat} (hj : firstPos ty ≤ j) : (s.tokenStart ty b k j).ctx =
    if j = firstPos ty then s.tokenContext b
    else if (s.token ty b k (j - 1)).1 = 0 then 0
    else if (s.tokenSigned ty b k (j - 1)).1.natAbs = 1 then 1 else 2 := by
  cases hj with
  | refl => rw [if_pos rfl, tokenStart_first]
  | step hm =>
    rw [if_neg (Nat.ne_of_gt (Nat.lt_succ_of_le hm)), tokenStart_succ s ty b k hm]
    rfl

theorem tokenStart_start {j : Nat} (hj : firstPos ty ≤ j) : (s.tokenStart ty b k j).start =
    if firstPos ty < j ∧ (s.token ty b k (j - 1)).1 = 0 then 2 else 0 := by
  cases hj with
  | refl => rw [if_neg (fun h => lt_irrefl _ h.1), tokenStart_first]
  | step hm =>
    rw [tokenStart_succ s ty b k hm]
    simp only [Nat.lt_succ_of_le hm, true_and]
    rfl

variable {s ty b k}

/-- The positions up to the stop are read as R240 says. -/
theorem State.StopsAt.tokensRead {i : Nat} (h : s.StopsAt ty b k i) (hp : s.ProbKnown (264 * ty) 264) :
    s.TokensRead ty b (s.rdAt k) i (fun j => (s.token ty b k j).1) (fun j => (s.tokenSigned ty b k j).1)
      (s.blockRd ty b k i) := by
  have hwalk : ∀ j, firstPos ty ≤ j → j < 16 → _ = Except.ok (s.token ty b k j) := fun j hj hj16 =>
    tokenStart_ctx s ty b k hj ▸ tokenStart_start s ty b k hj ▸ (token_reads s ty b k hp hj16).1
  refine ⟨fun j => (s.tokenStart ty b k j).rd, h.first, h.le, ?_, fun j hj hji => ?_, fun hi => ?_, fun hi => ?_⟩
  · exact congrArg TokenStart.rd (tokenStart_first s ty b k)
  · have hj16 : j < 16 := Nat.lt_of_lt_of_le hji h.le
    have hle : (s.token ty b k j).1 ≤ 10 := by
      have hne : _ ≠ 11 := h.before j hj hji
      have := (token_reads s ty b k hp hj16).2
      omega
    have hnext : (s.tokenStart ty b k (j + 1)).rd = (s.tokenSigned ty b k j).2 :=
      congrArg TokenStart.rd (tokenStart_succ s ty b k hj)
    refine ⟨(s.token ty b k j).2, hwalk j hj hj16, hle, fun hz => ?_, fun hz => ?_⟩
    · simp only [hnext, State.tokenSigned, signedToken, if_pos hz, and_self]
    · obtain ⟨hlo, hhi⟩ := tokenValue_bounds s.cbuf hz hle (s.token ty b k j).2
      refine ⟨hlo, hhi, ?_⟩
      simp only [hnext, State.tokenSigned, signedToken, if_neg hz, and_self]
  · have hx : s.token ty b k i = (11, s.blockRd ty b k i) := by
      rw [State.blockRd, if_pos hi]
      exact Prod.ext (h.eob hi) rfl
    rw [← hx]
    exact hwalk i h.first hi
  · rw [State.blockRd, if_neg (by omega), hi]

/-! ## The loop of `CD_BLOCK` (R240) -/

/-- From position `i` on the loop reads the tokens of the block to their end. -/
theorem cdLoop_stops {d : DqRec} (hk : k < 9) (hp : s.ProbKnown (264 * ty) 264)
    (hd : Memory.find s.dq s.seg = some d) {n i : Nat} (hn : 16 ≤ n + i) (hi : i ≤ 16) (hfirst : firstPos ty ≤ i)
    (hbefore : ∀ j, firstPos ty ≤ j → j < i → (s.token ty b k j).1 ≠ tokenEob) :
    let p := s.tokenStart ty b k i
    ∃ j, s.StopsAt ty b k j ∧ cdLoop ty b k n (s.during k p.rd (s.coefsTo ty b k d i)) i p.ctx p.start =
      .ok (j, s.during k (s.blockRd ty b k j) (s.coefsTo ty b k d j)) := by
  induction n generalizing i with
  | zero =>
    obtain rfl : i = 16 := by omega
    exact ⟨16, ⟨hfirst, hi, hbefore, fun h => absurd h (lt_irrefl _)⟩, rfl⟩
  | succ n ih =>
    intro p
    obtain rfl | hi16 := Nat.eq_or_lt_of_le hi
    · exact ⟨16, ⟨hfirst, hi, hbefore, fun h => absurd h (lt_irrefl _)⟩, if_pos le_rfl⟩
    · have hturn := cdLoop_turn s p.rd (s.coefsTo ty b k d i) hk hd ty b n hi16 (token_reads s ty b k hp hi16).1
      by_cases heob : (s.token ty b k i).1 = tokenEob
      · refine ⟨i, ⟨hfirst, hi, hbefore, fun _ => heob⟩, ?_⟩
        rw [hturn, if_pos heob, State.blockRd, if_pos hi16]
      · obtain ⟨j, hstop, hloop⟩ := ih (i := i + 1) (by omega) (by omega) (by omega) fun m hm hmi => by
          obtain hlt | rfl := Nat.lt_succ_iff_lt_or_eq.1 hmi
          · exact hbefore m hm hlt
          · exact heob
        refine ⟨j, hstop, ?_⟩
        rw [hturn, if_neg heob, ← hloop, tokenStart_succ s ty b k hfirst]
        simp only [State.coefsTo, hfirst, true_and, ite_not]
        rfl

/-! ## The coefficients that a block writes (R237, R238) -/

theorem zigzag_lt : ∀ j < 16, zigzag.getD j 0 < 16 := by decide

theorem zigzag_injective : ∀ i < 16, ∀ j < 16, zigzag.getD j 0 = zigzag.getD i 0 → j = i := by decide

theorem zigzag_surjective : ∀ p < 16, ∃ j < 16, zigzag.getD j 0 = p := by decide

theorem coefKey_zigzag_eq_iff {c i j : Nat} (hi : i < 16) (hj : j < 16) :
    coefKey c (zigzag.getD j 0) = coefKey b (zigzag.getD i 0) ↔ c = b ∧ j = i := by
  have hzi := zigzag_lt i hi
  have hzj := zigzag_lt j hj
  refine ⟨fun h => ?_, by rintro ⟨rfl, rfl⟩; rfl⟩
  unfold coefKey at h
  exact ⟨by omega, zigzag_injective i hi j hj (by omega)⟩

theorem coefsTo_first (d : DqRec) {i : Nat} (hi : i ≤ firstPos ty) : s.coefsTo ty b k d i = s.coef := by
  induction i with
  | zero => rfl
  | succ i ih => rw [State.coefsTo, if_neg (by omega), ih (by omega)]

/-- Each value other than 0 stands in its zigzag place, and every other coefficient is as it was. -/
theorem get_coefsTo (d : DqRec) {i : Nat} (hi : i ≤ 16) (c : Nat) {j : Nat} (hj : j < 16) :
    Memory.get (s.coefsTo ty b k d i) 0 (coefKey c (zigzag.getD j 0)) =
      if c = b ∧ firstPos ty ≤ j ∧ j < i ∧ (s.token ty b k j).1 ≠ 0 then
        (s.tokenSigned ty b k j).1 * (d.factor ty j : Int)
      else s.coefAt c (zigzag.getD j 0) := by
  induction i with
  | zero => simp [State.coefsTo, State.coefAt]
  | succ i ih =>
    have hkey := coefKey_zigzag_eq_iff (b := b) (c := c) (i := i) (by omega) hj
    rw [State.coefsTo]
    split
    · next hw =>
      rw [Memory.get_put, ih (by omega)]
      by_cases heq : c = b ∧ j = i
      · obtain ⟨rfl, rfl⟩ := heq
        simp [hw]
      · rw [if_neg (hkey.not.2 heq)]
        exact if_congr (by grind) rfl rfl
    · next hw =>
      rw [ih (by omega)]
      exact if_congr (by grind) rfl rfl

/-- The multipliers of each plane type, at position 0 and after it. -/
theorem factorsOf_eq : ∀ ty ≤ 3, factorsOf ty =
    (if ty = 1 then .y2dc else if ty = 2 then .uvdc else if ty = 3 then .y1dc else .y1ac,
      if ty = 1 then .y2ac else if ty = 2 then .uvac else .y1ac) := by decide

theorem factor_eq (d : DqRec) (hty : ty ≤ 3) (j : Nat) : d.factor ty j =
    if ty = 1 then (if j = 0 then d.y2dc else d.y2ac)
    else if ty = 2 then (if j = 0 then d.uvdc else d.uvac)
    else if ty = 3 ∧ j = 0 then d.y1dc else d.y1ac := by
  rw [DqRec.factor, factorsOf_eq ty hty]
  by_cases h0 : j = 0
  · simp only [h0, if_true, and_true, apply_ite d.get]
    rfl
  · simp only [h0, if_false, and_false, apply_ite d.get]
    rfl

/-! ## `CD_BLOCK` (R240) -/

/-- From `s` to `t` of the RES registers the first two were written, of the instances `k`, of `NZ_ABOVE` the column at
`MBPOS`, and beside these only `NZ_LEFT` and the coefficients. -/
structure CdWrites (k : Nat) (s t : State) : Prop where
  rd : onlyRd k s t
  res : onlyRes [0, 1] s t
  nz : onlyNzColumn s t
  frame : t = { s with rd := t.rd, coef := t.coef, nzAbove := t.nzAbove, nzLeft := t.nzLeft, res := t.res }

/-- The state that the work of `CD_BLOCK` leaves where the reading stops at position `i`. -/
def State.afterBlock (s : State) (ty b k : Nat) (d : DqRec) (i : Nat) : State :=
  (((s.during k (s.blockRd ty b k i) (s.coefsTo ty b k d i)).setNz b (decide (firstPos ty < i))).setRes 0
    (BitVec.ofNat 32 i)).setRes 1 (boolWord (decide (firstPos ty < i)))

theorem cdBlock_stops {d : DqRec} (hk : k < 9) (hp : s.ProbKnown (264 * ty) 264)
    (hd : Memory.find s.dq s.seg = some d) :
    ∃ i, s.StopsAt ty b k i ∧ cdBlock ty b k s = .ok (s.afterBlock ty b k d i) := by
  have hfirst := firstPos_le ty
  obtain ⟨i, hstop, hloop⟩ := cdLoop_stops (b := b) (n := 16) hk hp hd (by omega) (by omega) le_rfl
    fun j hj hji => absurd hj (Nat.not_le.2 hji)
  rw [tokenStart_first, coefsTo_first d le_rfl, during_self] at hloop
  refine ⟨i, hstop, ?_⟩
  rw [cdBlock, cdTokens, show cdLoop ty b k 16 s (firstPos ty) (s.firstCtx b) 0 = _ from hloop]
  rfl

section
variable (s ty b k) (d : DqRec) (i : Nat)

@[simp] theorem afterBlock_coefAt (c j : Nat) :
    (s.afterBlock ty b k d i).coefAt c j = Memory.get (s.coefsTo ty b k d i) 0 (coefKey c j) := rfl

theorem afterBlock_result : (s.afterBlock ty b k d i).result 0 = BitVec.ofNat 32 i ∧
    (s.afterBlock ty b k d i).result 1 = boolWord (decide (firstPos ty < i)) := by
  simp [State.afterBlock, State.result_setRes]

theorem afterBlock_rdAt (hk : k < 9) : (s.afterBlock ty b k d i).rdAt k = s.blockRd ty b k i :=
  during_rdAt s _ (s.coefsTo ty b k d i) hk

theorem afterBlock_nzAbove : Memory.get (s.afterBlock ty b k d i).nzAbove nzZero s.mbx =
    (Memory.get s.nzAbove nzZero s.mbx).setIfInBounds (nzAboveIndex b) (decide (firstPos ty < i)) :=
  Memory.get_put_self _ _ _ _

theorem afterBlock_writes : CdWrites k s (s.afterBlock ty b k d i) where
  rd _ hj := s.rdAt_setRd_other _ hj
  res j hj := by
    obtain ⟨h0, h1⟩ := not_or.1 (List.mem_cons.not.1 hj)
    rw [State.afterBlock, State.result_setRes_other _ _ (List.ne_of_not_mem_cons h1),
      State.result_setRes_other _ _ h0]
    rfl
  nz _ hx := Memory.get_put_other _ _ _ hx
  frame := rfl

end

/-- A coefficient of another block is as it was. -/
theorem afterBlock_coefAt_other {d : DqRec} {i c j : Nat} (hi : i ≤ 16) (hc : c ≠ b) (hj : j < 16) :
    (s.afterBlock ty b k d i).coefAt c j = s.coefAt c j := by
  obtain ⟨m, hm, rfl⟩ := zigzag_surjective j hj
  rw [afterBlock_coefAt, get_coefsTo d hi c hm, if_neg (fun h => hc h.1)]

end

/-- What the checks of `CD_BLOCK` and `CD_MB` on instance `k` ask for: a position inside the frame and an
initialised instance. -/
structure State.CdOk (s : State) (k : Nat) : Prop where
  pos : s.posOk = true
  valid : s.rdValid k = true

section
variable {ty b k : Byte}

theorem State.CdOk.exec_cdBlock (h : s.CdOk k.toNat) (hb : okTypeBlock ty b = true) (hk : k.toNat ≤ 8) :
    exec (.cdBlock ty b k) s = finish s (cdBlock ty.toNat b.toNat k.toNat s) := by
  have hoperands : (okTypeBlock ty b && okInstance k) = true := by rw [hb, okInstance_iff.2 hk]; rfl
  exact (finish_require_true hoperands).trans ((finish_require_true h.pos).trans (finish_require_true h.valid))

theorem okTypeBlock_type_le (h : okTypeBlock ty b = true) : ty.toNat ≤ 3 := by
  unfold okTypeBlock at h
  split at h
  case h_5 => cases h
  all_goals omega

end

/-- Settles O36: the work of `CD_BLOCK` stops at some position with the tokens read, and `afterBlock` says what it
leaves. -/
theorem cdBlockResult : Obligations.CdBlockResult := by
  unfold Obligations.CdBlockResult
  intro ty b k s hb hk hpos hv hp d hd first factor
  have hk9 : k.toNat < 9 := by omega
  obtain ⟨i, hstop, hwork⟩ := cdBlock_stops (b := b.toNat) hk9 hp hd
  have hexec : exec (.cdBlock ty b k) s = .next (s.afterBlock ty.toNat b.toNat k.toNat d i).done :=
    (State.CdOk.exec_cdBlock ⟨hpos, hv⟩ hb hk).trans (congrArg (finish s) hwork)
  obtain ⟨hres0, hres1⟩ := afterBlock_result s ty.toNat b.toNat k.toNat d i
  obtain ⟨honly, hres, hcolumn, hframe⟩ := afterBlock_writes s ty.toNat b.toNat k.toNat d i
  have hcoef : ∀ j < 16, (s.afterBlock ty.toNat b.toNat k.toNat d i).coefAt b.toNat (zigzag.getD j 0) = _ :=
    fun j hj => get_coefsTo d hstop.le b.toNat hj
  refine ⟨_, i, _, _, _, hexec, hstop.tokensRead hp, afterBlock_rdAt s ty.toNat b.toNat k.toNat d i hk9,
    fun j hj => ?_, hres0, hres1, afterBlock_nzAbove s ty.toNat b.toNat k.toNat d i, rfl, fun h0 => ?_,
    fun c j hc hj => afterBlock_coefAt_other hstop.le hc hj, honly, hres, hcolumn, congrArg State.done hframe⟩
  · refine (hcoef j hj).trans ?_
    simp only [true_and]
    refine ite_congr rfl (fun _ => ?_) fun _ => rfl
    rw [factor_eq d (okTypeBlock_type_le hb)]
  · refine (hcoef 0 (by decide)).trans (if_neg fun hw => ?_)
    have hle : firstPos ty.toNat ≤ 0 := hw.2.1
    rw [firstPos, if_pos h0] at hle
    omega

/-! ## The blocks of a macroblock (R242) -/

theorem CdWrites.refl (k : Nat) (s : State) : CdWrites k s s :=
  ⟨fun _ _ => rfl, fun _ _ => rfl, fun _ _ => rfl, rfl⟩

theorem CdWrites.trans {k : Nat} (h : CdWrites k s t) (g : CdWrites k t u) : CdWrites k s u where
  rd j hj := (g.rd j hj).trans (h.rd j hj)
  res j hj := (g.res j hj).trans (h.res j hj)
  nz x hx := by
    have hmbx : t.mbx = s.mbx := mbx_of_cr (by rw [h.frame])
    exact (g.nz x (hmbx ▸ hx)).trans (h.nz x hx)
  frame := g.frame.trans (by rw [h.frame])

/-- The blocks of a macroblock, from the first on, read into `x` from the state `s`: whether one of them had a token,
and the state after them. -/
structure BlocksRead (s : State) (k : Nat) (x : Bool × State) : Prop where
  ok : x.2.CdOk k
  writes : CdWrites k s x.2
  none : x.1 = false → x.2.coef = s.coef
  high : ∀ c j, 25 ≤ c → j < 16 → x.2.coefAt c j = s.coefAt c j
  dc : hasY2 s.cur.mode = false →
    (Memory.get x.2.nzAbove nzZero s.mbx)[8]? = (Memory.get s.nzAbove nzZero s.mbx)[8]? ∧
      x.2.nzLeft[8]? = s.nzLeft[8]? ∧ ∀ j < 16, x.2.coefAt 24 j = s.coefAt 24 j

theorem State.CdOk.of_effects {k : Nat} (h : s.CdOk k) (he : Effects (tagsCd k) s t) : t.CdOk k where
  pos := (posOk_of_cr (cd_cr he)).trans h.pos
  valid := loop_valid (he.mono ((cd_sub_mb 0 k).trans (mb_sub_loop 0))) h.valid

/-- The operands of the blocks' commands fit; without a luma-DC block none has the flags numbered 8. -/
theorem mbBlocks_operands : ∀ y2 : Bool, ∀ e ∈ mbBlocks y2,
    okTypeBlock (BitVec.ofNat 8 e.1) (BitVec.ofNat 8 e.2) = true ∧ (BitVec.ofNat 8 e.1).toNat = e.1 ∧
      (BitVec.ofNat 8 e.2).toNat = e.2 ∧ e.2 < 25 ∧
      (y2 = false → e.2 ≠ 24 ∧ nzAboveIndex e.2 ≠ 8 ∧ nzLeftIndex e.2 ≠ 8) := by decide

theorem boolWord_beq_one (b : Bool) : (boolWord b == 1) = b := by cases b <;> rfl

/-- One block more. -/
theorem BlocksRead.step {k : Nat} (hk : k < 9) {x : Bool × State} (h : BlocksRead s k x) {e : Nat × Nat}
    (he : e ∈ mbBlocks (hasY2 s.cur.mode)) (hp : s.ProbKnown (264 * e.1) 264) (hd : s.DqKnown) :
    ∃ y, cdMbStep k x e = .ok y ∧ BlocksRead s k y := by
  obtain ⟨d, hd⟩ := Option.isSome_iff_exists.1 hd
  obtain ⟨-, -, -, h25, hluma⟩ := mbBlocks_operands _ e he
  obtain ⟨i, hstop, hwork⟩ := cdBlock_stops (s := x.2) (b := e.2) hk (hp.of_prob (by rw [h.writes.frame]))
    (d := d) (by rw [h.writes.frame]; exact hd)
  have hres := (afterBlock_result x.2 e.1 e.2 k d i).2
  have hmbx : x.2.mbx = s.mbx := mbx_of_cr (by rw [h.writes.frame])
  have hnz := afterBlock_nzAbove x.2 e.1 e.2 k d i
  rw [hmbx] at hnz
  refine ⟨_, congrArg (· >>= _) hwork, h.ok.of_effects (cdBlock_effects hwork),
    h.writes.trans (afterBlock_writes ..), fun hany => ?_, fun c j hc hj => ?_, fun hy2 => ?_⟩
  · rw [hres, boolWord_beq_one, Bool.or_eq_false_iff] at hany
    exact (coefsTo_first d (not_lt.1 (of_decide_eq_false hany.2))).trans (h.none hany.1)
  · exact (afterBlock_coefAt_other hstop.le (by omega) hj).trans (h.high c j hc hj)
  · obtain ⟨h24, habove, hleft⟩ := hluma hy2
    obtain ⟨ha, hl, hc⟩ := h.dc hy2
    refine ⟨?_, (Vector.getElem?_setIfInBounds_ne hleft).trans hl,
      fun j hj => (afterBlock_coefAt_other hstop.le (Ne.symm h24) hj).trans (hc j hj)⟩
    rw [hnz, Vector.getElem?_setIfInBounds_ne habove]
    exact ha

/-- A loop passes through states in each of which the property holds that its steps keep. -/
theorem foldlM_passes {α β : Type} {P : β → Prop} {f : β → α → Res β} {l : List α}
    (hf : ∀ x, P x → ∀ a ∈ l, ∃ y, f x a = .ok y ∧ P y) {a : β} (ha : P a) :
    ∃ x : Nat → β, x 0 = a ∧ l.foldlM f a = .ok (x l.length) ∧ (∀ n ≤ l.length, P (x n)) ∧
      ∀ n c, l[n]? = some c → f (x n) c = .ok (x (n + 1)) := by
  obtain ⟨b, hb, -⟩ := foldlM_completes hf ha
  obtain ⟨x, hstart, hend, hstep⟩ := foldlM_states hb
  refine ⟨x, hstart, hend ▸ hb, fun n => ?_, hstep⟩
  induction n with
  | zero => exact fun _ => hstart ▸ ha
  | succ n ih =>
    intro hn
    obtain ⟨y, hy, hP⟩ := hf (x n) (ih (by omega)) l[n] (List.getElem_mem _)
    rw [hstep n l[n] (List.getElem?_eq_getElem hn)] at hy
    exact Except.ok.inj hy ▸ hP

theorem cdMbStep_ok {k : Nat} {x y : Bool × State} {e : Nat × Nat} (h : cdMbStep k x e = .ok y) :
    cdBlock e.1 e.2 k x.2 = .ok y.2 ∧ y.1 = (x.1 || y.2.result 1 == 1) := by
  obtain ⟨t, hwork, hy⟩ := Res.bind_ok.1 h
  obtain rfl := Except.ok.inj hy
  exact ⟨hwork, rfl⟩

/-- Whether any block had a token is what the blocks before have left in `RES1`. -/
theorem any_iff_result_one {k : Nat} {l : List (Nat × Nat)} {x : Nat → Bool × State} (hstart : (x 0).1 = false)
    (hstep : ∀ n e, l[n]? = some e → cdMbStep k (x n) e = .ok (x (n + 1))) :
    ∀ n ≤ l.length, ((x n).1 = true ↔ ∃ m < n, (x (m + 1)).2.result 1 = 1) := by
  intro n
  induction n with
  | zero => simp [hstart]
  | succ n ih =>
    intro hn
    rw [(cdMbStep_ok (hstep n l[n] (List.getElem?_eq_getElem hn))).2, Bool.or_eq_true, beq_iff_eq, ih (by omega)]
    simp only [Nat.lt_succ_iff_lt_or_eq, or_and_right, exists_or, exists_eq_left]

/-- The probabilities that the blocks of a macroblock read. -/
theorem mbBlocks_probs (h1 : hasY2 s.cur.mode = true → s.ProbKnown 0 792)
    (h2 : hasY2 s.cur.mode = false → s.ProbKnown 528 528) :
    ∀ e ∈ mbBlocks (hasY2 s.cur.mode), s.ProbKnown (264 * e.1) 264 := by
  intro e he
  obtain ⟨hluma, hother⟩ := mbBlocks_type _ e he
  cases hy2 : hasY2 s.cur.mode with
  | true => exact (h1 hy2).part (by omega) (by have := hluma hy2; omega)
  | false => exact (h2 hy2).part (by have := hother hy2; omega) (by have := hother hy2; omega)

/-! ## `CD_MB` as a sequence (R242, R243) -/

theorem hasY2_eq (m : MbMode) : decide (m ≠ .bPred ∧ m ≠ .split) = hasY2 m := by cases m <;> rfl

theorem cdSequence_eq (y2 : Bool) (k : Byte) : cdSequence y2 k =
    (mbBlocks y2).map fun e => .cdBlock (BitVec.ofNat 8 e.1) (BitVec.ofNat 8 e.2) k := by cases y2 <;> rfl

theorem mbBlocks_ne_nil : ∀ y2 : Bool, (mbBlocks y2).length ≠ 0 := by decide

/-- The end of `CD_MB`: whether any block had a token in `RES0`, and where none had the macroblock marked skipped. -/
def cdMbEnd (any : Bool) (w : State) : State :=
  (if any then w else w.setCur { w.cur with skip := true }).setRes 0 (boolWord any)

/-- The states between the commands of `CD_MB`'s blocks: each but the first has the response `OK` to one of them. -/
def blockState (x : Nat → Bool × State) (n : Nat) : State :=
  (x n).2.respond (if n = 0 then (x n).2.response else .ok)

/-- A block's command goes from each of these states to the next. -/
theorem exec_cdBlock_blockState {k : Byte} (hk : k.toNat ≤ 8) {x : Nat → Bool × State} {n : Nat} {y2 : Bool}
    {e : Nat × Nat} (he : e ∈ mbBlocks y2) (hok : (x n).2.CdOk k.toNat)
    (hstep : cdMbStep k.toNat (x n) e = .ok (x (n + 1))) :
    exec (.cdBlock (BitVec.ofNat 8 e.1) (BitVec.ofNat 8 e.2) k) (blockState x n) = .next (blockState x (n + 1)) := by
  obtain ⟨hb, hty, hblock, -⟩ := mbBlocks_operands y2 e he
  have hok' : (blockState x n).CdOk k.toNat := { hok with }
  rw [hok'.exec_cdBlock hb hk, hty, hblock, blockState, blind_cdBlock, (cdMbStep_ok hstep).1]
  rfl

theorem cdMbEnd_cur (any : Bool) (w : State) :
    (cdMbEnd any w).cur = if any then w.cur else { w.cur with skip := true } := by
  cases any
  · exact State.cur_setCur w { w.cur with skip := true }
  · rfl

/-- The end of `CD_MB` writes `RES0` and the record at `MBPOS`. -/
theorem cdMbEnd_writes (any : Bool) (w : State) : (cdMbEnd any w).result 0 = boolWord any ∧
    onlyRes [0] w (cdMbEnd any w) ∧ onlyMb w (cdMbEnd any w) ∧
    cdMbEnd any w = { w with mbinfo := (cdMbEnd any w).mbinfo, res := (cdMbEnd any w).res } := by
  refine ⟨State.result_setRes_zero _ _, fun j hj => ?_, fun q hq => ?_, ?_⟩
  · refine (State.result_setRes_other _ _ (List.ne_of_not_mem_cons hj)).trans ?_
    cases any <;> rfl
  · cases any
    · exact Memory.get_put_other w.mbinfo MbRec.zero { w.cur with skip := true } hq
    · rfl
  · cases any <;> rfl

/-- What `CD_MB` leaves, where its blocks are read into `w`: the coefficients and the flags are those of `w`. -/
theorem cdMbEnd_leaves {k : Nat} {any : Bool} {w : State} (h : BlocksRead s.clearCoef k (any, w)) :
    let t := cdMbEnd any w
    t.cur = (if any then s.cur else { s.cur with skip := true }) ∧
    (any = false → ∀ b j, j < 16 → t.coefAt b j = 0) ∧ (∀ b j, 25 ≤ b → j < 16 → t.coefAt b j = 0) ∧
    (hasY2 s.cur.mode = false →
      (Memory.get t.nzAbove nzZero s.mbx)[8]? = (Memory.get s.nzAbove nzZero s.mbx)[8]? ∧
        t.nzLeft[8]? = s.nzLeft[8]? ∧ ∀ j < 16, t.coefAt 24 j = 0) ∧
    onlyRd k s t ∧ onlyRes [0, 1] s t ∧ onlyMb s t ∧ onlyNzColumn s t ∧
    t = { s with rd := t.rd, coef := t.coef, nzAbove := t.nzAbove, nzLeft := t.nzLeft, mbinfo := t.mbinfo
                 res := t.res } := by
  obtain ⟨-, ⟨hrd, hres, hnz, hframe⟩, hnone, hhigh, hdc⟩ := h
  dsimp only at hrd hres hnz hframe hnone hhigh
  obtain ⟨-, hendRes, hendMb, hend⟩ := cdMbEnd_writes any w
  have hcur := cdMbEnd_cur any w
  have hkey : mbKey w.mbx w.mby = mbKey s.mbx s.mby := by rw [hframe]; rfl
  have hwcur : w.cur = s.cur := by rw [hframe]; rfl
  have hmb : w.mbinfo = s.mbinfo := by rw [hframe]; rfl
  have hcoef : (cdMbEnd any w).coef = w.coef := by rw [hend]
  generalize cdMbEnd any w = t at *
  refine ⟨hcur.trans (by rw [hwcur]), fun hfalse b j _ => ?_, ?_, ?_, ?_, fun j hj => ?_, fun q hq => ?_, ?_, ?_⟩
  · rw [State.coefAt, hcoef, hnone hfalse]
    rfl
  · rw [hend]
    exact hhigh
  · rw [hend]
    exact hdc
  · rw [hend]
    exact hrd
  · exact (hendRes j fun h0 => hj (List.mem_cons.2 (.inl (List.mem_singleton.1 h0)))).trans (hres j hj)
  · rw [hendMb q (by rwa [hkey]), hmb]
  · rw [hend]
    exact hnz
  · rw [hend]
    conv_lhs => rw [hframe]
    rfl

/-- Settles O37: the work of `CD_MB` passes through states between the blocks, from each of which the block's command
goes to the next. -/
theorem cdMbResult : Obligations.CdMbResult := by
  unfold Obligations.CdMbResult
  intro k s hk hpos hv hd h1 h2
  have hprobs := mbBlocks_probs h1 h2
  obtain ⟨x, hstart, hwork, hread, hstep⟩ := foldlM_passes (P := BlocksRead s.clearCoef k.toNat)
    (f := cdMbStep k.toNat) (l := mbBlocks (hasY2 s.cur.mode)) (a := (false, s.clearCoef))
    (fun x hx e he => hx.step (by omega) he (hprobs e he) hd)
    ⟨⟨hpos, hv⟩, .refl _ _, fun _ => rfl, fun _ _ _ _ => rfl, fun _ => ⟨rfl, rfl, fun _ _ => rfl⟩⟩
  rw [hasY2_eq, cdSequence_eq]
  simp only [List.length_map, List.getElem?_map]
  have hany := any_iff_result_one (by rw [hstart]) hstep _ le_rfl
  have hlast : blockState x (mbBlocks (hasY2 s.cur.mode)).length = (x (mbBlocks (hasY2 s.cur.mode)).length).2.done :=
    congrArg (State.respond _) (if_neg (mbBlocks_ne_nil _))
  have hend := hread _ le_rfl
  have hexec : exec (.cdMb k) s = finish s (cdMb k.toNat s) :=
    (finish_require_true (okInstance_iff.2 hk)).trans ((finish_require_true hpos).trans (finish_require_true hv))
  rw [cdMb, hwork] at hexec
  generalize x (mbBlocks (hasY2 s.cur.mode)).length = y at hany hlast hend hexec
  obtain ⟨any, w⟩ := y
  obtain ⟨hcur, hnone, hhigh, hdc, hrd, hres, hmb, hnz, hframe⟩ := cdMbEnd_leaves hend
  refine ⟨(cdMbEnd any w).done, any, blockState x, ?_, fun n i hi => ?_, hany, ?_, hexec, hcur, hnone, hhigh, hdc,
    hrd, hres, hmb, hnz, congrArg State.done hframe⟩
  · rw [blockState, hstart]
    rfl
  · obtain ⟨e, he, rfl⟩ := Option.map_eq_some_iff.1 hi
    obtain ⟨hn, -⟩ := List.getElem?_eq_some_iff.1 he
    exact ⟨exec_cdBlock_blockState hk (List.mem_of_getElem? he) (hread n hn.le).ok (hstep n e he), rfl⟩
  · rw [hlast]
    cases any <;> rfl

end Sys2Proof.Machine
end

section
/-! PROOFS. The intra predictor (44_intra_predictor.md): what each of its nineteen commands answers. -/

namespace Sys2Proof.Machine

variable {s t u : State} {i : Instr} {slot p : Nat}

/-! ## Pixels written -/

/-- From `s` to `t` pixels of slot `slot` for which `P` holds were written, and nothing else. -/
structure PixelsWritten (slot : Nat) (P : Nat → Nat → Nat → Prop) (s t : State) : Prop where
  only : onlyPixels slot P s t
  frame : t = { s with fb := t.fb }

section
variable {P Q : Nat → Nat → Nat → Prop}

theorem PixelsWritten.refl (slot : Nat) (P : Nat → Nat → Nat → Prop) (s : State) : PixelsWritten slot P s s :=
  ⟨fun _ _ _ _ _ _ _ => rfl, rfl⟩

theorem PixelsWritten.trans (h : PixelsWritten slot P s t) (g : PixelsWritten slot P t u) :
    PixelsWritten slot P s u where
  only n p x y hp hx hP := (g.only n p x y hp hx hP).trans (h.only n p x y hp hx hP)
  frame := g.frame.trans (by rw [h.frame])

theorem PixelsWritten.mono (h : PixelsWritten slot P s t) (hPQ : ∀ p x y, P p x y → Q p x y) :
    PixelsWritten slot Q s t where
  only n p x y hp hx hQ := h.only n p x y hp hx fun ⟨hn, hP⟩ => hQ ⟨hn, hPQ p x y hP⟩
  frame := h.frame

theorem PixelsWritten.cr (h : PixelsWritten slot P s t) : t.cr = s.cr := by rw [h.frame]

end

section
variable {x0 y0 w h : Nat} (f : Pred) (hn : slot < 4) (hp : p < 3) (hw : x0 + w ≤ 16384)
include hn hp hw

theorem writeBlock_written : PixelsWritten slot (fun q x y => q = p ∧ inBlock x0 y0 w h x y) s
    (s.writeBlock slot p x0 y0 w h f) where
  only _ _ _ _ hq hx hP := (s.pix_writeBlock f hn hp hw hq hx).trans (if_neg hP)
  frame := rfl

theorem pix_writeBlock_inside {r c : Nat} (hr : r < h) (hc : c < w) :
    (s.writeBlock slot p x0 y0 w h f).pix slot p (x0 + c) (y0 + r) = some (f r c) := by
  rw [s.pix_writeBlock f hn hp hw hp (by omega), if_pos ⟨rfl, rfl, by omega⟩, Nat.add_sub_cancel_left,
    Nat.add_sub_cancel_left]

end

/-! ## The checks of the unit's commands (R260) -/

/-- What the checks of an IP command ask for, `slot` being the slot that holds CUR. -/
structure State.IpOk (s : State) (slot : Nat) : Prop where
  pos : s.posOk = true
  cur : s.curSlot = some slot
  topb : s.mby = 0 ∨ (s.topb.valid = true ∧ s.topb.row.toNat + 1 = s.mby)

theorem State.IpOk.slot_lt (h : s.IpOk slot) : slot < 4 := slotOf_lt h.cur

theorem State.IpOk.finish_ipCheck (h : s.IpOk slot) (f : Nat → Res State) :
    finish s (ipCheck s >>= f) = finish s (f slot) := by
  have htopb : s.topbOk = true := by simpa [State.topbOk] using h.topb
  unfold ipCheck
  rw [h.pos, h.cur, htopb]
  rfl

/-- A command whose checks hold completes where its work does. -/
theorem State.IpOk.exec_of_work (h : s.IpOk slot) {f : Nat → Res State} (hi : exec i s = finish s (ipCheck s >>= f))
    (hf : f slot = .ok t) : exec i s = .next t.done := by
  rw [hi, h.finish_ipCheck, hf]
  rfl

theorem State.IpOk.mb_fits (h : s.IpOk slot) (p : Nat) : s.mbX p + mbSize p ≤ 16384 :=
  (Machine.mb_fits h.pos).trans (planeW_le s p)

theorem State.IpOk.sub_fits (h : s.IpOk slot) (b : Nat) : s.subX b + 4 ≤ 16384 :=
  (Machine.sub_fits h.pos b).trans (planeW_le s 0)

/-! ## Neighbours (R261) -/

/-- A neighbour pixel, 0 where it is not specified: the byte whose number is `nbVal`. -/
def State.nbPix (s : State) (slot p : Nat) (q : Int × Int) : Byte := (s.nb slot p q.1 q.2).getD 0

theorem ofInt_nbVal (s : State) (slot p : Nat) (q : Int × Int) :
    BitVec.ofInt 8 (s.nbVal slot p q) = s.nbPix slot p q := by
  rw [BitVec.ofInt_natCast, State.nbVal, BitVec.ofNat_toNat, BitVec.setWidth_eq]
  rfl

theorem nbs_known {l : List (Int × Int)} (h : s.NbKnown slot p l) :
    s.nbs slot p l = .ok (l.map (s.nbPix slot p)) := by
  refine collect_eq_ok.2 ?_
  rw [List.map_map]
  refine List.map_congr_left fun q hq => ?_
  obtain ⟨a, ha⟩ := Option.isSome_iff_exists.1 (h q hq)
  simp [State.nbPix, ha]

theorem pxAt_map_range (f : Nat → Byte) {n k : Nat} (hk : k < n) : pxAt ((List.range n).map f) k = (f k).toNat := by
  simp [pxAt, hk]

theorem pxSum_nbPix (s : State) (slot p : Nat) (l : List (Int × Int)) :
    pxSum (l.map (s.nbPix slot p)) = s.nbSum slot p l := by
  rw [pxSum, List.map_map]
  rfl

/-! ## Predictions -/

/-- A predictor completes, and the pixels that it gives for a block of `n` rows and columns are those of `v`. -/
def Predicts (r : Res Pred) (n : Nat) (v : Nat → Nat → Int) : Prop :=
  ∃ f, r = .ok f ∧ ∀ i j, i < n → j < n → f i j = BitVec.ofInt 8 (v i j)

/-- A prediction written to its block. -/
theorem Predicts.written {r : Res Pred} {n x0 : Nat} {v : Nat → Nat → Int} (h : Predicts r n v) (s : State)
    (y0 : Nat) (hn : slot < 4) (hp : p < 3) (hw : x0 + n ≤ 16384) :
    ∃ f, r = .ok f ∧
      (∀ i j, i < n → j < n →
        (s.writeBlock slot p x0 y0 n n f).pix slot p (x0 + j) (y0 + i) = some (BitVec.ofInt 8 (v i j))) ∧
      PixelsWritten slot (fun q x y => q = p ∧ inBlock x0 y0 n n x y) s (s.writeBlock slot p x0 y0 n n f) := by
  obtain ⟨f, rfl, hf⟩ := h
  exact ⟨f, rfl, fun i j hi hj => hf i j hi hj ▸ pix_writeBlock_inside f hn hp hw hi hj,
    writeBlock_written f hn hp hw⟩

/-! ## The whole-block predictors (R264 to R272) -/

theorem aboveRow_known (h : s.NbKnown slot p (s.aboveAts p)) :
    s.aboveRow slot p = .ok ((s.aboveAts p).map (s.nbPix slot p)) := nbs_known h

theorem leftCol_known (h : s.NbKnown slot p (s.leftAts p)) :
    s.leftCol slot p = .ok ((s.leftAts p).map (s.nbPix slot p)) := nbs_known h

theorem getD_map_aboveAts (f : Int × Int → Byte) {c : Nat} (hc : c < mbSize p) :
    ((s.aboveAts p).map f)[c]?.getD 0 = f (s.aboveAt p c) := by
  simp [State.aboveAts, hc]

theorem getD_map_leftAts (f : Int × Int → Byte) {r : Nat} (hr : r < mbSize p) :
    ((s.leftAts p).map f)[r]?.getD 0 = f (s.leftAt p r) := by
  simp [State.leftAts, hr]

theorem predDc_predicts (h : s.NbKnown slot p (s.wholeReads p .dcPred)) :
    Predicts (predDc s slot p) (mbSize p) (s.wholeVal slot p .dcPred) := by
  have habove (hy : 0 < s.mby) : s.aboveRow slot p = .ok ((s.aboveAts p).map (s.nbPix slot p)) :=
    aboveRow_known (h.sub (by simp [State.wholeReads, hy]))
  have hleft (hx : 0 < s.mbx) : s.leftCol slot p = .ok ((s.leftAts p).map (s.nbPix slot p)) :=
    leftCol_known (h.sub (by simp [State.wholeReads, hx]))
  unfold predDc
  by_cases hy : 0 < s.mby <;> by_cases hx : 0 < s.mbx
  · rw [if_pos hy, if_pos hx, habove hy, hleft hx]
    refine ⟨_, rfl, fun i j _ _ => ?_⟩
    rw [pxSum_nbPix, pxSum_nbPix, ← BitVec.ofInt_natCast, State.wholeVal, if_pos ⟨hy, hx⟩]
  · rw [if_pos hy, if_neg hx, habove hy]
    refine ⟨_, rfl, fun i j _ _ => ?_⟩
    rw [pxSum_nbPix, ← BitVec.ofInt_natCast, State.wholeVal, if_neg fun hh => hx hh.2, if_pos hy]
  · rw [if_neg hy, if_pos hx, hleft hx]
    refine ⟨_, rfl, fun i j _ _ => ?_⟩
    rw [pxSum_nbPix, ← BitVec.ofInt_natCast, State.wholeVal, if_neg fun hh => hy hh.1, if_neg hy, if_pos hx]
  · rw [if_neg hy, if_neg hx]
    refine ⟨_, rfl, fun i j _ _ => ?_⟩
    rw [State.wholeVal, if_neg fun hh => hy hh.1, if_neg hy, if_neg hx]
    rfl

theorem predV_predicts (h : s.NbKnown slot p (s.aboveAts p)) :
    Predicts (predV s slot p) (mbSize p) (s.wholeVal slot p .vPred) := by
  rw [predV, aboveRow_known h]
  exact ⟨_, rfl, fun i j _ hj => (getD_map_aboveAts _ hj).trans (ofInt_nbVal s slot p _).symm⟩

theorem predH_predicts (h : s.NbKnown slot p (s.leftAts p)) :
    Predicts (predH s slot p) (mbSize p) (s.wholeVal slot p .hPred) := by
  rw [predH, leftCol_known h]
  exact ⟨_, rfl, fun i j hi _ => (getD_map_leftAts _ hi).trans (ofInt_nbVal s slot p _).symm⟩

theorem predTm_predicts (h : s.NbKnown slot p (s.wholeReads p .tmPred)) :
    Predicts (predTm s slot p) (mbSize p) (s.wholeVal slot p .tmPred) := by
  have habove := aboveRow_known (h.sub (m := s.aboveAts p) (by simp [State.wholeReads]))
  have hleft := leftCol_known (h.sub (m := s.leftAts p) (by simp [State.wholeReads]))
  obtain ⟨k, hk, hneed⟩ := need_of_isSome .pixelUnspecified (h (s.cornerAt p) (by simp [State.wholeReads]))
  rw [predTm, habove, hleft, hneed]
  refine ⟨_, rfl, fun i j hi hj => ?_⟩
  rw [State.wholeVal, pxAt, pxAt, getD_map_leftAts _ hi, getD_map_aboveAts _ hj,
    show s.nbVal slot p (s.cornerAt p) = k.toNat by rw [State.nbVal, hk]; rfl]
  rfl

theorem predOf_predicts {m : UvMode} (h : s.NbKnown slot p (s.wholeReads p m)) :
    Predicts (predOf m s slot p) (mbSize p) (s.wholeVal slot p m) := by
  cases m with
  | dcPred => exact predDc_predicts h
  | vPred => exact predV_predicts h
  | hPred => exact predH_predicts h
  | tmPred => exact predTm_predicts h

/-- A plane written has no part in what is predicted in another. -/
theorem predOf_writeBlock (m : UvMode) {q n x0 y0 w h : Nat} (f : Pred) (hn : n < 4) (hq : q < 3) (hp : p < 3)
    (hpq : p ≠ q) : predOf m (s.writeBlock n q x0 y0 w h f) slot p = predOf m s slot p := by
  have hnb : (s.writeBlock n q x0 y0 w h f).nb slot p = s.nb slot p := by
    funext x y
    have hplane : (s.writeBlock n q x0 y0 w h f).plane slot p = s.plane slot p :=
      (s.plane_setPlane n q slot p _ hn hq hp).trans (if_neg fun hh => hpq hh.2)
    simp only [State.nb, State.pix, hplane, State.writeBlock_planeW, State.writeBlock_mby, State.writeBlock_topb]
  cases m <;>
    simp only [predOf, predDc, predV, predH, predTm, State.aboveRow, State.leftCol, State.nbs, State.cornerAt, hnb,
      State.writeBlock_mbx, State.writeBlock_mby, show (s.writeBlock n q x0 y0 w h f).aboveAt = s.aboveAt from rfl,
      show (s.writeBlock n q x0 y0 w h f).leftAt = s.leftAt from rfl,
      show (s.writeBlock n q x0 y0 w h f).mbX = s.mbX from rfl,
      show (s.writeBlock n q x0 y0 w h f).mbY = s.mbY from rfl]

theorem exec_y16Instr (m : UvMode) (s : State) :
    exec (y16Instr m) s = finish s (ipCheck s >>= fun slot => ipY16 m slot s) := by cases m <;> rfl

theorem exec_uv8Instr (m : UvMode) (s : State) :
    exec (uv8Instr m) s = finish s (ipCheck s >>= fun slot => ipUv8 m slot s) := by cases m <;> rfl

theorem ipFill_of_predOf {m : UvMode} {f : Pred} (h : predOf m s slot p = .ok f) : ipFill m slot p s =
    .ok (s.writeBlock slot p (s.mbX p) (s.mbY p) (mbSize p) (mbSize p) f) := by
  rw [ipFill, h]
  rfl

/-- Both chroma planes, of which the first written does not change what is predicted in the second. -/
theorem ipUv8_predicts {m : UvMode} (hok : s.IpOk slot) (h1 : s.NbKnown slot 1 (s.wholeReads 1 m))
    (h2 : s.NbKnown slot 2 (s.wholeReads 2 m)) :
    ∃ t, ipUv8 m slot s = .ok t ∧
      (∀ p, p = 1 ∨ p = 2 → ∀ r c, r < 8 → c < 8 →
        t.pix slot p (8 * s.mbx + c) (8 * s.mby + r) = some (BitVec.ofInt 8 (s.wholeVal slot p m r c))) ∧
      PixelsWritten slot (fun q x y => q ≠ 0 ∧ s.inMb q x y) s t := by
  have hn := hok.slot_lt
  obtain ⟨f, hf, hfpix, hfw⟩ := (predOf_predicts h1).written s (s.mbY 1) hn (p := 1) (by decide) (hok.mb_fits 1)
  have hpred := predOf_predicts h2
  rw [← predOf_writeBlock m (x0 := s.mbX 1) (y0 := s.mbY 1) (w := 8) (h := 8) f hn (q := 1) (by decide) (by decide)
    (by decide)] at hpred
  obtain ⟨g, hg, hgpix, hgw⟩ := hpred.written _ (s.mbY 2) hn (p := 2) (by decide) (hok.mb_fits 2)
  refine ⟨_, ?_, fun p hp r c hr hc => ?_, (hfw.mono ?_).trans (hgw.mono ?_)⟩
  · rw [ipUv8, ipFill_of_predOf hf]
    exact ipFill_of_predOf hg
  · obtain rfl | rfl := hp
    · have hx : 8 * s.mbx + 8 ≤ 16384 := hok.mb_fits 1
      exact (hgw.only slot 1 _ _ (by decide) (by omega) (by simp)).trans (hfpix r c hr hc)
    · exact hgpix r c hr hc
  · rintro _ x y ⟨rfl, hxy⟩
    exact ⟨by decide, hxy⟩
  · rintro _ x y ⟨rfl, hxy⟩
    exact ⟨by decide, hxy⟩

/-- Settles O39: what each predictor gives is written to the macroblock's pixels. -/
theorem ipWholeBlockResults : Obligations.IpWholeBlockResults := by
  unfold Obligations.IpWholeBlockResults
  intro m s slot hpos hcur htopb
  have hok : s.IpOk slot := ⟨hpos, hcur, htopb⟩
  refine ⟨fun h => ?_, fun h1 h2 => ?_⟩
  · obtain ⟨f, hf, hpix, hw⟩ := (predOf_predicts h).written s (s.mbY 0) hok.slot_lt (p := 0) (by decide)
      (hok.mb_fits 0)
    exact ⟨_, hok.exec_of_work (exec_y16Instr m s) (ipFill_of_predOf hf), hpix, hw.only,
      congrArg State.done hw.frame⟩
  · obtain ⟨t, ht, hpix, hw⟩ := ipUv8_predicts hok h1 h2
    exact ⟨_, hok.exec_of_work (exec_uv8Instr m s) ht, hpix, hw.only, congrArg State.done hw.frame⟩

/-! ## The 4x4 predictors (R273 to R286) -/

/-- What a 4x4 predictor gives, by the formula of its rule. -/
def State.y4Pixel (s : State) (slot b : Nat) (m : BMode) (i j : Nat) : Int :=
  y4Val (fun n => s.nbVal slot 0 (s.subAboveAt b n)) (fun n => s.nbVal slot 0 (s.subLeftAt b n))
    (fun n => s.nbVal slot 0 (s.subEdgeAt b n)) m i j

theorem nbKnown_map_range {place : Nat → Int × Int} {n : Nat} : s.NbKnown slot p ((List.range n).map place) ↔
    ∀ k < n, (s.nb slot p (place k).1 (place k).2).isSome = true := by
  simp [State.NbKnown]

section
variable {b n : Nat}

/-! The neighbours `A`, `L` and `E` of a sub-block, as lists of pixels. -/

theorem subAbove_known (h : s.NbKnown slot 0 ((List.range n).map (s.subAboveAt b))) :
    s.subAbove slot b n = .ok ((List.range n).map fun k => s.nbPix slot 0 (s.subAboveAt b k)) := by
  rw [State.subAbove, nbs_known h, List.map_map]
  rfl

theorem subLeft_known (h : s.NbKnown slot 0 ((List.range 4).map (s.subLeftAt b))) :
    s.subLeft slot b = .ok ((List.range 4).map fun k => s.nbPix slot 0 (s.subLeftAt b k)) := by
  rw [State.subLeft, nbs_known h, List.map_map]
  rfl

theorem subEdge_known {lo : Nat} (h : s.NbKnown slot 0 ((List.range n).map fun k => s.subEdgeAt b (lo + k))) :
    s.subEdge slot b lo n = .ok ((List.range n).map fun k => s.nbPix slot 0 (s.subEdgeAt b (lo + k))) := by
  rw [State.subEdge, nbs_known h, List.map_map]
  rfl

/-- The edge from its first pixel on. -/
theorem subEdge_zero_known (h : s.NbKnown slot 0 ((List.range n).map (s.subEdgeAt b))) :
    s.subEdge slot b 0 n = .ok ((List.range n).map fun k => s.nbPix slot 0 (s.subEdgeAt b (0 + k))) :=
  subEdge_known (by simpa only [Nat.zero_add] using h)

/-- The corner `P`, which is `E[4]`. -/
theorem subCorner_known (h : (s.nb slot 0 (s.subEdgeAt b 4).1 (s.subEdgeAt b 4).2).isSome = true) :
    s.subEdge slot b 4 1 = .ok [s.nbPix slot 0 (s.subEdgeAt b 4)] :=
  subEdge_known (nbKnown_map_range.2 fun k hk => by rwa [Nat.lt_one_iff.1 hk])

end

/-- A prediction by averages: those of the formula, pixel by pixel. -/
theorem predicts_averages {g : Nat → Nat → Nat} {v : Nat → Nat → Int}
    (h : ∀ i j, i < 4 → j < 4 → (g i j : Int) = v i j) : Predicts (.ok fun i j => BitVec.ofNat 8 (g i j)) 4 v :=
  ⟨_, rfl, fun i j hi hj => by rw [← h i j hi hj, BitVec.ofInt_natCast]⟩

/-- The sixteen pixels of a sub-block, by its rows. -/
def subRows (v : Nat → Nat → Int) : List (List Int) := (List.range 4).map fun i => (List.range 4).map (v i)

theorem predicts_rows {g : Nat → Nat → Nat} {v : Nat → Nat → Int} (h : subRows (fun i j => g i j) = subRows v) :
    Predicts (.ok fun i j => BitVec.ofNat 8 (g i j)) 4 v :=
  predicts_averages fun i j hi hj => by
    have hrow := List.map_inj_left.1 h i (List.mem_range.2 hi)
    exact List.map_inj_left.1 hrow j (List.mem_range.2 hj)

/-! Where the neighbours are known lists, a predictor's rows and its formula's are the same averages. -/

section
variable {b : Nat}

theorem y4Dc_predicts (h : s.NbKnown slot 0 (s.y4Reads b .dc)) :
    Predicts (y4Dc s slot b) 4 (s.y4Pixel slot b .dc) := by
  rw [y4Dc, subAbove_known (h.sub (List.subset_append_left ..)), subLeft_known (h.sub (List.subset_append_right ..))]
  refine predicts_averages fun i j _ _ => ?_
  simp only [pxSum, List.range_succ, List.range_zero, State.y4Pixel, y4Val, State.nbVal, State.nbPix, List.nil_append,
    List.cons_append, List.map_cons, List.map_nil, List.sum_cons, List.sum_nil]
  omega

theorem y4Tm_predicts (h : s.NbKnown slot 0 (s.y4Reads b .tm)) :
    Predicts (y4Tm s slot b) 4 (s.y4Pixel slot b .tm) := by
  have hedge := nbKnown_map_range.1 h
  rw [y4Tm, subAbove_known (nbKnown_map_range.2 (subAbove_of_edge fun k hk => hedge (5 + k) (by omega))),
    subLeft_known (nbKnown_map_range.2 (subLeft_of_edge fun k hk => hedge k (by omega))),
    subCorner_known (hedge 4 (by decide))]
  refine ⟨_, rfl, fun i j hi hj => ?_⟩
  rw [pxAt_map_range _ hi, pxAt_map_range _ hj]
  rfl

theorem y4Ve_predicts (h : s.NbKnown slot 0 (s.y4Reads b .ve)) :
    Predicts (y4Ve s slot b) 4 (s.y4Pixel slot b .ve) := by
  rw [y4Ve, subCorner_known (h _ List.mem_cons_self), subAbove_known (h.sub (List.subset_cons_self ..))]
  exact predicts_rows rfl

theorem y4He_predicts (h : s.NbKnown slot 0 (s.y4Reads b .he)) :
    Predicts (y4He s slot b) 4 (s.y4Pixel slot b .he) := by
  have hedge := nbKnown_map_range.1 h
  rw [y4He, subCorner_known (hedge 4 (by decide)),
    subLeft_known (nbKnown_map_range.2 (subLeft_of_edge fun k hk => hedge k (by omega)))]
  exact predicts_rows rfl

theorem y4Ld_predicts (h : s.NbKnown slot 0 (s.y4Reads b .ld)) :
    Predicts (y4Ld s slot b) 4 (s.y4Pixel slot b .ld) := by
  rw [y4Ld, subAbove_known h]
  exact predicts_rows rfl

theorem y4Rd_predicts (h : s.NbKnown slot 0 (s.y4Reads b .rd)) :
    Predicts (y4Rd s slot b) 4 (s.y4Pixel slot b .rd) := by
  rw [y4Rd, subEdge_zero_known h]
  exact predicts_rows rfl

theorem y4Vr_predicts (h : s.NbKnown slot 0 (s.y4Reads b .vr)) :
    Predicts (y4Vr s slot b) 4 (s.y4Pixel slot b .vr) := by
  rw [y4Vr, subEdge_known (by simpa only [State.y4Reads, Nat.add_comm] using h)]
  exact predicts_rows rfl

theorem y4Vl_predicts (h : s.NbKnown slot 0 (s.y4Reads b .vl)) :
    Predicts (y4Vl s slot b) 4 (s.y4Pixel slot b .vl) := by
  rw [y4Vl, subAbove_known h]
  exact predicts_rows rfl

theorem y4Hd_predicts (h : s.NbKnown slot 0 (s.y4Reads b .hd)) :
    Predicts (y4Hd s slot b) 4 (s.y4Pixel slot b .hd) := by
  rw [y4Hd, subEdge_zero_known h]
  exact predicts_rows rfl

theorem y4Hu_predicts (h : s.NbKnown slot 0 (s.y4Reads b .hu)) :
    Predicts (y4Hu s slot b) 4 (s.y4Pixel slot b .hu) := by
  rw [y4Hu, subLeft_known h]
  exact predicts_rows rfl

theorem y4Of_predicts {m : BMode} (h : s.NbKnown slot 0 (s.y4Reads b m)) :
    Predicts (y4Of m s slot b) 4 (s.y4Pixel slot b m) := by
  cases m with
  | dc => exact y4Dc_predicts h
  | tm => exact y4Tm_predicts h
  | ve => exact y4Ve_predicts h
  | he => exact y4He_predicts h
  | ld => exact y4Ld_predicts h
  | rd => exact y4Rd_predicts h
  | vr => exact y4Vr_predicts h
  | vl => exact y4Vl_predicts h
  | hd => exact y4Hd_predicts h
  | hu => exact y4Hu_predicts h

theorem ipY4_of_y4Of {m : BMode} {f : Pred} (h : y4Of m s slot b = .ok f) :
    ipY4 m slot b s = .ok (s.writeBlock slot 0 (s.subX b) (s.subY b) 4 4 f) := by
  rw [ipY4, h]
  rfl

end

theorem exec_y4Instr (m : BMode) {b : Byte} (hb : b.toNat < 16) (s : State) :
    exec (y4Instr b m) s = finish s (ipCheck s >>= fun slot => ipY4 m slot b.toNat s) := by
  have hcmd : exec (y4Instr b m) s = ipY4Cmd m b s := by cases m <;> rfl
  exact hcmd.trans (finish_require_true (decide_eq_true (by omega)))

/-- Settles O40: what each predictor gives is written to the sub-block's pixels. -/
theorem ipSubBlockResults : Obligations.IpSubBlockResults := by
  unfold Obligations.IpSubBlockResults
  intro m b s slot hb hpos hcur htopb h
  have hok : s.IpOk slot := ⟨hpos, hcur, htopb⟩
  obtain ⟨f, hf, hpix, hw⟩ := (y4Of_predicts h).written s (s.subY b.toNat) hok.slot_lt (p := 0) (by decide)
    (hok.sub_fits b.toNat)
  exact ⟨_, hok.exec_of_work (exec_y4Instr m hb s) (ipY4_of_y4Of hf), hpix, hw.only, congrArg State.done hw.frame⟩

/-! ## What the unit's works write (R260) -/

/-- A work writes pixels of the macroblock at `MBPOS` alone. -/
abbrev MbWritten (slot : Nat) (s t : State) : Prop := PixelsWritten slot (fun q x y => s.inMb q x y) s t

theorem MbWritten.trans (h : MbWritten slot s t) (g : MbWritten slot t u) : MbWritten slot s u :=
  PixelsWritten.trans h (g.mono fun q x y => (inMb_of_cr h.cr q x y).1)

theorem State.IpOk.of_written {P : Nat → Nat → Nat → Prop} (h : s.IpOk slot) (hw : PixelsWritten slot P s t) :
    t.IpOk slot where
  pos := (posOk_of_cr hw.cr).trans h.pos
  cur := (curSlot_of_cr hw.cr).trans h.cur
  topb := by
    rw [hw.frame]
    exact h.topb

section
variable {m : UvMode} {b : Nat} (hok : s.IpOk slot)
include hok

theorem ipFill_written (hp : p < 3) (h : ipFill m slot p s = .ok t) : MbWritten slot s t := by
  obtain ⟨f, -, ht⟩ := Res.bind_ok.1 h
  obtain rfl := Except.ok.inj ht
  refine (writeBlock_written f hok.slot_lt hp (hok.mb_fits p)).mono ?_
  rintro _ x y ⟨rfl, hxy⟩
  exact hxy

theorem ipUv8_written (h : ipUv8 m slot s = .ok t) : MbWritten slot s t := by
  obtain ⟨u, hu, ht⟩ := Res.bind_ok.1 h
  have hw := ipFill_written hok (by decide) hu
  exact hw.trans (ipFill_written (hok.of_written hw) (by decide) ht)

theorem subBlock_written (hb : b < 16) (f : Pred) :
    MbWritten slot s (s.writeBlock slot 0 (s.subX b) (s.subY b) 4 4 f) := by
  refine (writeBlock_written f hok.slot_lt (by decide) (hok.sub_fits b)).mono ?_
  rintro _ x y ⟨rfl, hxy⟩
  exact block_inMb hb hxy

theorem ipY4_written {m : BMode} (hb : b < 16) (h : ipY4 m slot b s = .ok t) : MbWritten slot s t := by
  obtain ⟨f, -, ht⟩ := Res.bind_ok.1 h
  exact Except.ok.inj ht ▸ subBlock_written hok hb f

theorem itIdctAdd_written (hb : b < 16) (h : itIdctAdd slot 0 b s = .ok t) : MbWritten slot s t := by
  obtain ⟨px, -, ht⟩ := Res.bind_ok.1 h
  exact Except.ok.inj ht ▸ subBlock_written hok hb _

theorem ipSubStep_written (hb : b < 16) (h : ipSubStep slot s b = .ok t) : MbWritten slot s t := by
  obtain ⟨u, hu, ht⟩ := Res.bind_ok.1 h
  have hw := ipY4_written hok hb hu
  exact hw.trans (itIdctAdd_written (hok.of_written hw) hb ht)

end

/-- A property that each step of a loop keeps, the step being one for an element of the list. -/
theorem foldlM_keeps_mem {α β : Type} {P : β → Prop} {f : β → α → Res β} {l : List α}
    (hf : ∀ x, P x → ∀ a ∈ l, ∀ y, f x a = .ok y → P y) {x y : β} (hx : P x) (h : l.foldlM f x = .ok y) : P y := by
  induction l generalizing x with
  | nil => exact Except.ok.inj h ▸ hx
  | cons a l ih =>
    obtain ⟨z, hz, hy⟩ := Res.bind_ok.1 ((List.foldlM_cons ..).symm.trans h)
    exact ih (fun x hx a ha => hf x hx a (List.mem_cons_of_mem _ ha)) (hf x hx a List.mem_cons_self z hz) hy

theorem ipLuma_written (hok : s.IpOk slot) (h : ipLuma slot s = .ok t) : MbWritten slot s t := by
  unfold ipLuma at h
  cases hmode : s.cur.mode <;> rw [hmode] at h
  case dcPred | vPred | hPred | tmPred => exact ipFill_written hok (by decide) h
  case bPred =>
    exact foldlM_keeps_mem (P := MbWritten slot s) (fun x hx b hb y hy =>
      hx.trans (ipSubStep_written (hok.of_written hx) (List.mem_range.1 hb) hy)) (.refl slot _ s) h
  all_goals cases h

theorem ipMb_written (hok : s.IpOk slot) (h : ipMb slot s = .ok t) : MbWritten slot s t := by
  obtain ⟨u, hu, ht⟩ := Res.bind_ok.1 h
  have hw := ipLuma_written hok hu
  exact hw.trans (ipUv8_written (hok.of_written hw) ht)

/-! ## The works raise no error -/

theorem Quiet.collect {α : Type} (f : Fault) (l : List (Option α)) : Quiet (collect f l) := by
  induction l with
  | nil => exact .ok _
  | cons o l ih => exact (Quiet.need o f).bind fun _ => ih.bind fun _ => .ok _

theorem quiet_nbs (s : State) (slot p : Nat) (l : List (Int × Int)) : Quiet (s.nbs slot p l) := .collect _ _

theorem quiet_predOf (m : UvMode) (s : State) (slot p : Nat) : Quiet (predOf m s slot p) := by
  have habove : Quiet (s.aboveRow slot p) := quiet_nbs s slot p _
  have hleft : Quiet (s.leftCol slot p) := quiet_nbs s slot p _
  cases m with
  | dcPred =>
    exact .ite (.ite (habove.bind fun _ => hleft.bind fun _ => .ok _) (habove.bind fun _ => .ok _))
      (.ite (hleft.bind fun _ => .ok _) (.ok _))
  | vPred => exact habove.bind fun _ => .ok _
  | hPred => exact hleft.bind fun _ => .ok _
  | tmPred => exact habove.bind fun _ => hleft.bind fun _ => (Quiet.need _ _).bind fun _ => .ok _

theorem quiet_y4Of (m : BMode) (s : State) (slot b : Nat) : Quiet (y4Of m s slot b) := by
  have habove (n : Nat) : Quiet (s.subAbove slot b n) := quiet_nbs s slot 0 _
  have hleft : Quiet (s.subLeft slot b) := quiet_nbs s slot 0 _
  have hedge (lo n : Nat) : Quiet (s.subEdge slot b lo n) := quiet_nbs s slot 0 _
  cases m with
  | dc => exact (habove 4).bind fun _ => hleft.bind fun _ => .ok _
  | tm => exact (habove 4).bind fun _ => hleft.bind fun _ => (hedge 4 1).bind fun _ => .ok _
  | ve => exact (hedge 4 1).bind fun _ => (habove 5).bind fun _ => .ok _
  | he => exact (hedge 4 1).bind fun _ => hleft.bind fun _ => .ok _
  | ld | vl => exact (habove 8).bind fun _ => .ok _
  | rd => exact (hedge 0 9).bind fun _ => .ok _
  | vr => exact (hedge 1 8).bind fun _ => .ok _
  | hd => exact (hedge 0 8).bind fun _ => .ok _
  | hu => exact hleft.bind fun _ => .ok _

theorem quiet_ipFill (m : UvMode) (slot p : Nat) (s : State) : Quiet (ipFill m slot p s) :=
  (quiet_predOf m s slot p).bind fun _ => .ok _

theorem quiet_ipUv8 (m : UvMode) (slot : Nat) (s : State) : Quiet (ipUv8 m slot s) :=
  (quiet_ipFill m slot 1 s).bind fun t => quiet_ipFill m slot 2 t

theorem quiet_ipY4 (m : BMode) (slot b : Nat) (s : State) : Quiet (ipY4 m slot b s) :=
  (quiet_y4Of m s slot b).bind fun _ => .ok _

theorem quiet_itIdctAdd (slot p b : Nat) (s : State) : Quiet (itIdctAdd slot p b s) :=
  (Quiet.collect _ _).bind fun _ => .ok _

/-! ## `IP_MB` as a sequence (R287, R288) -/

theorem runCommands_append (l l' : List Instr) (s : State) :
    runCommands (l ++ l') s = andThen (runCommands l s) (runCommands l') := by
  induction l generalizing s with
  | nil => rfl
  | cons i l ih =>
    rw [List.cons_append, runCommands_cons, runCommands_cons, andThen_assoc]
    exact congrArg _ (funext ih)

/-- The commands of each element of a list, one element after the other. -/
theorem runCommands_flatMap {α : Type} (g : α → List Instr) (l : List α) (s : State) :
    runCommands (l.flatMap g) s = forEach (fun a => runCommands (g a)) l s := by
  induction l generalizing s with
  | nil => rfl
  | cons a l ih =>
    rw [List.flatMap_cons, runCommands_append]
    exact congrArg _ (funext ih)

/-- Programs for the elements of a list, one after the other, do their works one after the other. -/
theorem Performs.forEach {α : Type} {Ok : State → Prop} {F : α → State → Host.Outcome State Fault Refusal}
    {f : State → α → Res State} {l : List α} (hl : l ≠ []) (h : ∀ a ∈ l, Performs Ok (F a) fun s => f s a) :
    Performs Ok (forEach F l) fun s => l.foldlM f s := by
  induction l with
  | nil => exact absurd rfl hl
  | cons a l ih =>
    have ha := h a List.mem_cons_self
    cases l with
    | nil =>
      have hF : Machine.forEach F [a] = F a := funext fun s => andThen_next (F a s)
      have hf : (fun s => [a].foldlM f s) = fun s => f s a := by
        funext s
        rw [List.foldlM_cons]
        exact bind_pure _
      rwa [hF, hf]
    | cons b l =>
      have hrest := ih (List.cons_ne_nil b l) fun c hc => h c (List.mem_cons_of_mem _ hc)
      exact ha.andThen hrest

/-- The checks of the unit's commands hold, and the record of the macroblock is `r`. -/
structure State.IpAt (slot : Nat) (r : MbRec) (s : State) : Prop extends s.IpOk slot where
  record : s.cur = r

section
variable {r : MbRec}

/-- One command of the unit, of the work `f`. -/
theorem performs_ip {f : State → Res State} (hb : Blind f) (hq : ∀ s, Quiet (f s))
    (hrun : ∀ s, s.IpAt slot r → exec i s = finish s (f s))
    (hw : ∀ s t, s.IpOk slot → f s = .ok t → MbWritten slot s t) : Performs (State.IpAt slot r) (exec i) f where
  blind := hb
  quiet := hq
  run := hrun
  keeps s t hs ht := by
    have hst := hw s t hs.toIpOk ht
    have hok := hs.toIpOk.of_written hst
    exact { hok with record := by rw [hst.frame]; exact hs.record }

theorem performs_ipY16 (m : UvMode) : Performs (State.IpAt slot r) (exec (y16Instr m)) (ipY16 m slot) :=
  performs_ip (blind_ipFill m slot 0) (quiet_ipFill m slot 0)
    (fun s hs => (exec_y16Instr m s).trans (hs.finish_ipCheck _)) fun _ _ hok => ipFill_written hok (by decide)

theorem performs_ipUv8 :
    Performs (State.IpAt slot r) (exec (uv8Instr r.uvmode)) fun s => ipUv8 s.cur.uvmode slot s :=
  performs_ip (fun s => blind_ipUv8 s.cur.uvmode slot s) (fun s => quiet_ipUv8 s.cur.uvmode slot s)
    (fun s hs => by rw [exec_uv8Instr, hs.finish_ipCheck, hs.record]) fun _ _ hok => ipUv8_written hok

theorem toNat_ofNat_block {b : Nat} (hb : b < 16) : (BitVec.ofNat 8 b).toNat = b := by
  rw [BitVec.toNat_ofNat]
  omega

theorem performs_ipY4 {b : Nat} (hb : b < 16) : Performs (State.IpAt slot r)
    (exec (y4Instr (BitVec.ofNat 8 b) (r.bmodeAt b))) fun s => ipY4 (s.cur.bmodeAt b) slot b s := by
  have hnum := toNat_ofNat_block hb
  refine performs_ip (fun s => blind_ipY4 (s.cur.bmodeAt b) slot b s) (fun s => quiet_ipY4 (s.cur.bmodeAt b) slot b s)
    (fun s hs => ?_) fun _ _ hok => ipY4_written hok hb
  rw [exec_y4Instr _ (by omega), hs.finish_ipCheck, hs.record, hnum]

theorem exec_itIdctAdd_luma {b : Nat} (hb : b < 16) (h : s.IpOk slot) :
    exec (.itIdctAdd 0 (BitVec.ofNat 8 b)) s = finish s (itIdctAdd slot 0 b s) := by
  have hnum := toNat_ofNat_block hb
  have hfit : okPlaneBlock 0 (BitVec.ofNat 8 b) = true := decide_eq_true (by rw [hnum]; exact Nat.le_of_lt_succ hb)
  refine ((finish_require_true hfit).trans (finish_require_true h.pos)).trans ?_
  rw [h.cur, hnum]
  rfl

theorem performs_itIdctAdd {b : Nat} (hb : b < 16) :
    Performs (State.IpAt slot r) (exec (.itIdctAdd 0 (BitVec.ofNat 8 b))) (itIdctAdd slot 0 b) :=
  performs_ip (blind_itIdctAdd slot 0 b) (quiet_itIdctAdd slot 0 b)
    (fun _ hs => exec_itIdctAdd_luma hb hs.toIpOk) fun _ _ hok => itIdctAdd_written hok hb

/-- The commands of sub-block `b`: its prediction, and its residual. -/
def subCommands (r : MbRec) (b : Nat) : List Instr :=
  [y4Instr (BitVec.ofNat 8 b) (r.bmodeAt b), .itIdctAdd 0 (BitVec.ofNat 8 b)]

theorem performs_subCommands {b : Nat} (hb : b < 16) :
    Performs (State.IpAt slot r) (runCommands (subCommands r b)) fun s => ipSubStep slot s b := by
  rw [subCommands, runCommands_two]
  exact (performs_ipY4 hb).andThen (performs_itIdctAdd hb)

theorem performs_ipSubs : Performs (State.IpAt slot r) (runCommands ((List.range 16).flatMap (subCommands r)))
    fun s => (List.range 16).foldlM (ipSubStep slot) s := by
  rw [show runCommands _ = _ from funext (runCommands_flatMap (subCommands r) (List.range 16))]
  exact .forEach (by decide) fun b hb => performs_subCommands (List.mem_range.1 hb)

/-- Commands before that of the chroma planes: together they do the work of `IP_MB`, where they do that of its luma
part. -/
theorem exec_ipMb_of_luma {l : List Instr} {f : State → Res State} (hs : s.IpAt slot r)
    (hl : Performs (State.IpAt slot r) (runCommands l) f) (hf : ipLuma slot s = f s) :
    exec .ipMb s = runCommands (l ++ [uv8Instr r.uvmode]) s := by
  have huv : runCommands [uv8Instr r.uvmode] = exec (uv8Instr r.uvmode) := funext (runCommands_one _)
  rw [runCommands_append, huv, (hl.andThen performs_ipUv8).run s hs, ← hf]
  exact hs.finish_ipCheck fun slot => ipMb slot s

end

theorem exec_ipMb_eq_sequence (hok : s.IpOk slot) (hm : s.cur.mode.num ≤ 4) :
    exec .ipMb s = runCommands (ipSequence s.cur) s := by
  have hat : s.IpAt slot s.cur := { hok with record := rfl }
  have hwhole (m : UvMode) (hluma : ipLuma slot s = ipY16 m slot s) :
      exec .ipMb s = runCommands ([y16Instr m] ++ [uv8Instr s.cur.uvmode]) s :=
    exec_ipMb_of_luma hat ((funext (runCommands_one (y16Instr m))) ▸ performs_ipY16 m) hluma
  unfold ipSequence
  cases hmode : s.cur.mode
  case dcPred => exact hwhole .dcPred (by rw [ipLuma, hmode])
  case vPred => exact hwhole .vPred (by rw [ipLuma, hmode])
  case hPred => exact hwhole .hPred (by rw [ipLuma, hmode])
  case tmPred => exact hwhole .tmPred (by rw [ipLuma, hmode])
  case bPred => exact exec_ipMb_of_luma hat performs_ipSubs (by rw [ipLuma, hmode])
  all_goals
    rw [hmode] at hm
    exact absurd hm (by decide)

/-- A macroblock that is not intra (R288). -/
theorem ipMb_refuses (hm : 4 < s.cur.mode.num) : ipMb slot s = .error (.raise .badOperand) := by
  unfold ipMb ipLuma
  cases hmode : s.cur.mode
  case dcPred | vPred | hPred | tmPred | bPred =>
    rw [hmode] at hm
    exact absurd hm (by decide)
  all_goals rfl

/-- Settles O41: the works of the sequence's commands, one after the other, are that of `IP_MB`, each of which writes
pixels of the macroblock alone. -/
theorem ipMbResult : Obligations.IpMbResult := by
  unfold Obligations.IpMbResult
  refine ⟨fun s hpos hrole htopb hm => exec_ipMb_eq_sequence ⟨hpos, if_pos hrole, htopb⟩ hm,
    fun s slot hpos hcur htopb => ?_⟩
  have hok : s.IpOk slot := ⟨hpos, hcur, htopb⟩
  refine ⟨fun hm haround => ?_, fun hm => ?_⟩
  · obtain ⟨t, ht, hknown⟩ := ipMb_completes hpos hok.slot_lt hm haround
    have hw := ipMb_written hok ht
    exact ⟨t.done, hok.exec_of_work rfl ht, fun p hp x y hxy => hknown p hp x y ((inMb_of_cr hw.cr p x y).2 hxy),
      hw.only, congrArg State.done hw.frame⟩
  · exact (hok.finish_ipCheck fun slot => ipMb slot s).trans (by rw [ipMb_refuses hm]; rfl)

end Sys2Proof.Machine
end

section
/-! PROOFS. The inter motion compensator (45_inter_motion_compensator.md): the pixels that its three commands write. -/

namespace Sys2Proof.Machine

variable {s t u : State} {src dst p : Nat}

/-! ## The filters (R302 to R304) -/

/-- The pixel that the filters of the profile give for a fraction, `v` being the values at offsets from the place. -/
def State.filtered (s : State) (f : Nat) (v : Int → Int) : Int :=
  if s.profile = 0 then clamp255 (asr (sixSum f (fun i => v (i - 2)) + 64) 7)
  else asr ((128 - 16 * (f : Int)) * v 0 + 16 * f * v 1 + 64) 7

/-- The formula of R304 is the vertical filter over the horizontal one. -/
theorem predVal_eq_filtered (s : State) (src p fx fy : Nat) (x y : Int) : s.predVal src p fx fy x y =
    s.filtered fy fun j => s.filtered fx fun i => s.refVal src p (x + i) (y + j) := by
  unfold State.predVal State.filtered
  split
  · simp only [add_sub_assoc]
  · simp only [add_zero]

/-- A tap sum whose values are all known, a tap of weight 0 adding nothing. -/
theorem tapSum_eq_sum {l : List Int} {g : Nat → Res Int} {v : Nat → Int} (h : ∀ i, g i = .ok (v i)) :
    tapSum l g = .ok (∑ i ∈ Finset.range l.length, l.getD i 0 * v i) := by
  induction l generalizing g v with
  | nil => rfl
  | cons w l ih =>
    rw [List.length_cons, Finset.sum_range_succ', tapSum, ih fun i => h (i + 1), h 0]
    split
    case isTrue hw => simp [hw]
    case isFalse => simp [add_comm]

theorem sixTaps_length : ∀ f < 8, ((sixTaps[f]?).getD []).length = 6 := by decide

theorem bilinearTaps_eq :
    ∀ f : Nat, f < 8 → (bilinearTaps[f]?).getD [] = [128 - 16 * (f : Int), 16 * f] := by decide

/-- The bilinear filter's value lies between the two pixels, so that R304's clamp changes nothing. -/
theorem bilinear_mem {f : Nat} {a b : Int} (hf : f < 8) (ha : 0 ≤ a ∧ a ≤ 255) (hb : 0 ≤ b ∧ b ≤ 255) :
    0 ≤ asr ((128 - 16 * (f : Int)) * a + 16 * f * b + 64) 7 ∧
      asr ((128 - 16 * (f : Int)) * a + 16 * f * b + 64) 7 ≤ 255 := by
  unfold asr
  interval_cases f <;> omega

section
variable {f : Nat} {v : Int → Int} (hf : f < 8) (hv : ∀ i, 0 ≤ v i ∧ v i ≤ 255)
include hf hv

theorem filtered_mem : 0 ≤ s.filtered f v ∧ s.filtered f v ≤ 255 := by
  unfold State.filtered
  split
  · exact ⟨le_clamp _ _ _, clamp_le (by decide)⟩
  · exact bilinear_mem hf (hv 0) (hv 1)

/-- A pass of the model's filter, where the values that its taps stand on are known. -/
theorem tapSum_filtered {g : Nat → Res Int} (hg : ∀ i : Nat, g i = .ok (v (s.kernel.first + i))) :
    ∃ z, tapSum (s.kernel.taps f) g = .ok z ∧ roundTap z = s.filtered f v := by
  refine ⟨_, tapSum_eq_sum hg, ?_⟩
  unfold State.filtered State.kernel Kernel.taps Kernel.first roundTap
  by_cases hprofile : s.profile = 0
  · simp [hprofile, sixTaps_length f hf, sixSum, Finset.sum_range_succ]
  · obtain ⟨hlow, hhigh⟩ := bilinear_mem hf (hv 0) (hv 1)
    simpa [hprofile, clamp255, bilinearTaps_eq f hf, Finset.sum_range_succ] using clamp_of_mem hlow hhigh

end

/-! ## Pixels of a reference plane (R301) -/

theorem refVal_mem (s : State) (src p : Nat) (x y : Int) : 0 ≤ s.refVal src p x y ∧ s.refVal src p x y ≤ 255 := by
  unfold State.refVal
  omega

/-- The plane has pixels, all specified. -/
structure State.RefOk (s : State) (src p : Nat) : Prop where
  width : 0 < s.planeW p
  height : 0 < s.planeH p
  known : s.PlaneKnown src p

section
variable {fx fy : Nat} (h : s.RefOk src p)
include h

theorem refPix_eq (x y : Int) : s.refPix src p x y = .ok (s.refVal src p x y) := by
  obtain ⟨v, hv⟩ := refPix_completes h.width h.height h.known x y
  obtain ⟨b, hb, hbv⟩ := Res.bind_ok.1 hv
  rw [hv, State.refVal, need_ok.1 hb]
  exact hbv.symm

theorem tapRow_eq (hfx : fx < 8) (x y : Int) :
    s.tapRow src p fx x y = .ok (s.filtered fx fun i => s.refVal src p (x + i) y) := by
  obtain ⟨z, hz, hround⟩ := tapSum_filtered (s := s) hfx (fun i => refVal_mem s src p (x + i) y)
    (g := fun i => s.refPix src p (x + s.kernel.first + i) y) fun i => by rw [refPix_eq h, add_assoc]
  rw [State.tapRow, hz, ← hround]
  rfl

theorem tapPixel_eq (hfx : fx < 8) (hfy : fy < 8) (x y : Int) :
    s.tapPixel src p fx fy x y = .ok (BitVec.ofInt 8 (s.predVal src p fx fy x y)) := by
  have hrow (j : Int) := filtered_mem (s := s) hfx fun i => refVal_mem s src p (x + i) (y + j)
  obtain ⟨z, hz, hround⟩ := tapSum_filtered (s := s) hfy hrow
    (g := fun j => s.tapRow src p fx x (y + s.kernel.first + j)) fun j => by rw [tapRow_eq h hfx, add_assoc]
  have hmem := filtered_mem (s := s) hfy hrow
  rw [State.tapPixel, hz, predVal_eq_filtered, ← clamp_of_mem hmem.1 hmem.2, ← hround]
  rfl

end

/-! ## One block (R304, R305) -/

theorem allOk_map {α β : Type} {f : α → Res β} {g : α → β} {l : List α} (h : ∀ a ∈ l, f a = .ok (g a)) :
    allOk (l.map f) = .ok (l.map g) := by
  induction l with
  | nil => rfl
  | cons a l ih =>
    rw [List.map_cons, allOk, h a List.mem_cons_self, ih fun b hb => h b (List.mem_cons_of_mem _ hb)]
    rfl

/-- The entry of a block in raster order. -/
theorem getD_raster {w h r c : Nat} (f : Nat → Nat → Byte) (hr : r < h) (hc : c < w) :
    ((List.range (w * h)).map fun n => f (n / w) (n % w))[r * w + c]?.getD 0 = f r c := by
  have hlt : r * w + c < w * h := by nlinarith
  have hdiv : (r * w + c) / w = r := by
    rw [Nat.mul_comm, Nat.mul_add_div (by omega), Nat.div_eq_of_lt hc, Nat.add_zero]
  have hmod : (r * w + c) % w = c := by rw [Nat.mul_comm, Nat.mul_add_mod, Nat.mod_eq_of_lt hc]
  simp [hlt, hdiv, hmod]

/-- A vector from the start of a block, and the offset in the block after it. -/
theorem place_add_sub {z0 z : Nat} {a : Int} (h : z0 ≤ z) : z0 + a + (z - z0 : Nat) = z + a := by omega

/-- From `s` to `t` a block of plane `p` was written in slot `dst`, each of its pixels as `v` gives it. -/
structure BlockPredicted (dst p : Nat) (b : Block) (v : Nat → Nat → Int) (s t : State) : Prop where
  written : PixelsWritten dst (fun q x y => q = p ∧ inBlock b.x b.y b.w b.h x y) s t
  pixels : ∀ x y, inBlock b.x b.y b.w b.h x y → t.pix dst p x y = some (BitVec.ofInt 8 (v x y))

section
variable {b : Block} (hn : dst < 4) (hp : p < 3) (h : s.RefOk src p) (hb : b.x + b.w ≤ 16384)
include hn hp h hb

theorem mcBlock_predicts {at_ : SubPos} (hfx : at_.fx < 8) (hfy : at_.fy < 8) :
    ∃ t, mcBlock src dst p at_ b s = .ok t ∧ BlockPredicted dst p b (fun x y =>
      s.predVal src p at_.fx at_.fy (at_.xi + (x - b.x : Nat)) (at_.yi + (y - b.y : Nat))) s t := by
  have hpx := allOk_map (l := List.range (b.w * b.h)) fun n _ =>
    tapPixel_eq h hfx hfy (at_.xi + (n % b.w : Nat)) (at_.yi + (n / b.w : Nat))
  refine ⟨_, by rw [mcBlock, State.predictBlock, hpx]; rfl, writeBlock_written _ hn hp hb, fun x y hxy => ?_⟩
  obtain ⟨hx, hxw, hy, hyh⟩ := hxy
  rw [s.pix_writeBlock _ hn hp hb hp (by omega), if_pos ⟨rfl, rfl, hx, hxw, hy, hyh⟩]
  exact congrArg some (getD_raster (fun r c => BitVec.ofInt 8 (s.predVal src p at_.fx at_.fy
    (at_.xi + (c : Nat)) (at_.yi + (r : Nat)))) (by omega) (by omega))

theorem mcChroma_predicts (ux uy : Int) :
    ∃ t, mcChroma src dst p ux uy b s = .ok t ∧ BlockPredicted dst p b (s.chromaVal src p ux uy) s t := by
  obtain ⟨t, ht, hw⟩ := mcBlock_predicts hn hp h hb (at_ := chromaPos ux uy b) (by simp only [chromaPos]; omega)
    (by simp only [chromaPos]; omega)
  refine ⟨t, ht, hw.written, fun x y hxy => (hw.pixels x y hxy).trans ?_⟩
  obtain ⟨hx, -, hy, -⟩ := hxy
  simp only [chromaPos, place_add_sub hx, place_add_sub hy, State.chromaVal]

end

theorem mcLuma_predicts {b : Block} (hn : dst < 4) (h : s.RefOk src 0) (hb : b.x + b.w ≤ 16384) (v : Mv) :
    ∃ t, mcLuma src dst v b s = .ok t ∧ BlockPredicted dst 0 b (s.lumaVal src v) s t := by
  obtain ⟨t, ht, hw⟩ := mcBlock_predicts hn (by decide) h hb (at_ := lumaPos v b) (by simp only [lumaPos]; omega)
    (by simp only [lumaPos]; omega)
  refine ⟨t, ht, hw.written, fun x y hxy => (hw.pixels x y hxy).trans ?_⟩
  obtain ⟨hx, -, hy, -⟩ := hxy
  simp only [lumaPos, place_add_sub hx, place_add_sub hy, State.lumaVal]

/-! ## `MC_LUMA` and `MC_CHROMA` (R308, R309) -/

theorem okRefTag_of_mem {ref : Byte} (h1 : 1 ≤ ref.toNat) (h3 : ref.toNat ≤ 3) : okRefTag ref = true := by
  simp [okRefTag, h1, h3]

theorem okChromaPlane_of_mem {plane : Byte} (h : plane = 1 ∨ plane = 2) : okChromaPlane plane = true := by
  obtain rfl | rfl := h <;> decide

/-- The roles of a command of the unit: its reference, and CUR. -/
theorem finish_slots {ref cur : Option Nat} (hsrc : ref = some src) (hdst : cur = some dst)
    (f : Nat → Nat → Res State) :
    finish s (needSlot ref >>= fun a => needSlot cur >>= fun b => f a b) = finish s (f src dst) := by
  rw [hsrc, hdst]
  rfl

/-- The plane of a block that lies inside it, its rows and columns being at least 4. -/
theorem refOk_of_argBlockInside {sizes : List Nat} (h : s.argBlockInside sizes p) (h0 : 0 ∉ sizes)
    (hknown : s.PlaneKnown src p) : s.RefOk src p := by
  obtain ⟨hw, hh, hx, hy⟩ := h
  have hw0 := ne_of_mem_of_not_mem hw h0
  have hh0 := ne_of_mem_of_not_mem hh h0
  exact ⟨by omega, by omega, hknown⟩

theorem argBlock_fits {sizes : List Nat} (h : s.argBlockInside sizes p) : s.argBlock.x + s.argBlock.w ≤ 16384 :=
  h.2.2.1.trans (planeW_le s p)

/-- Settles O42: the checks one by one; then the block's pixels are those of the vector's place. -/
theorem mcBlockResults : Obligations.McBlockResults := by
  unfold Obligations.McBlockResults
  refine ⟨fun ref s h1 h3 => ?_, fun ref s src dst h1 h3 hsrc hdst => ?_⟩
  · have href := okRefTag_of_mem h1 h3
    refine ⟨fun hin => ?_, fun plane hplane hin => ?_⟩
    · rw [lumaBlock_iff, Bool.not_eq_true] at hin
      exact (finish_require_true href).trans (finish_require_false hin)
    · rw [chromaBlock_iff, Bool.not_eq_true] at hin
      exact (finish_require_true (by rw [href, okChromaPlane_of_mem hplane]; rfl)).trans (finish_require_false hin)
  · have href := okRefTag_of_mem h1 h3
    have hn := slotOf_lt hdst
    refine ⟨fun hin hknown => ?_, fun plane hplane hin hknown => ?_⟩
    · obtain ⟨t, ht, hw⟩ := mcLuma_predicts hn (refOk_of_argBlockInside hin (by decide) hknown) (argBlock_fits hin)
        (unpackMv (s.arg 0))
      refine ⟨t.done, ?_, hw.pixels, hw.written.only, congrArg State.done hw.written.frame⟩
      refine (finish_require_true href).trans ((finish_require_true ((lumaBlock_iff s).1 hin)).trans ?_)
      exact (finish_slots hsrc hdst _).trans (by rw [ht]; rfl)
    · have hp : plane.toNat < 3 := by obtain rfl | rfl := hplane <;> decide
      obtain ⟨t, ht, hw⟩ := mcChroma_predicts hn hp (refOk_of_argBlockInside hin (by decide) hknown)
        (argBlock_fits hin) (unpackMv (s.arg 0)).x.toInt (unpackMv (s.arg 0)).y.toInt
      refine ⟨t.done, ?_, hw.pixels, hw.written.only, congrArg State.done hw.written.frame⟩
      refine (finish_require_true (by rw [href, okChromaPlane_of_mem hplane]; rfl)).trans
        ((finish_require_true ((chromaBlock_iff s _).1 hin)).trans ?_)
      exact (finish_slots hsrc hdst _).trans (by rw [ht]; rfl)

/-! ## A macroblock predicted block by block (R307, R310) -/

/-- What `MC_MB` gives for a pixel of the macroblock: the vector is that of its partition, or of its 4x4 chroma
block. -/
def State.mcVal (s : State) (src p x y : Nat) : Int :=
  if p = 0 then s.lumaVal src (s.cur.lumaMv (4 * (y / 4 % 4) + x / 4 % 4)) x y
  else s.chromaVal src p (s.chromaMv (2 * (y / 4 % 2) + x / 4 % 2) fun m => m.x.toInt)
    (s.chromaMv (2 * (y / 4 % 2) + x / 4 % 2) fun m => m.y.toInt) x y

theorem mcVal_luma {r c : Nat} (hr : r < 16) (hc : c < 16) : s.mcVal src 0 (16 * s.mbx + c) (16 * s.mby + r) =
    s.lumaVal src (s.cur.lumaMv (4 * (r / 4) + c / 4)) (16 * s.mbx + c) (16 * s.mby + r) := by
  rw [State.mcVal, if_pos rfl, show (16 * s.mby + r) / 4 % 4 = r / 4 by omega,
    show (16 * s.mbx + c) / 4 % 4 = c / 4 by omega]

theorem mcVal_chroma {r c : Nat} (hp : p ≠ 0) (hr : r < 8) (hc : c < 8) :
    s.mcVal src p (8 * s.mbx + c) (8 * s.mby + r) =
      s.chromaVal src p (s.chromaMv (2 * (r / 4) + c / 4) fun m => m.x.toInt)
        (s.chromaMv (2 * (r / 4) + c / 4) fun m => m.y.toInt) (8 * s.mbx + c) (8 * s.mby + r) := by
  rw [State.mcVal, if_neg hp, show (8 * s.mby + r) / 4 % 2 = r / 4 by omega,
    show (8 * s.mbx + c) / 4 % 2 = c / 4 by omega]

theorem fullPixel_eq (s : State) (v : Int) : s.fullPixel v = if 3 ≤ s.profile then v - v % 8 else v := by
  unfold State.fullPixel asr
  split <;> omega

theorem chromaMv_whole (hm : s.cur.mode ≠ .split) (j : Nat) (comp : Mv → Int) :
    s.chromaMv j comp = s.fullPixel (comp s.cur.mv) := by
  rw [State.chromaMv, if_neg hm, fullPixel_eq]

theorem chromaMv_split (hm : s.cur.mode = .split) (j : Nat) (comp : Mv → Int) :
    s.chromaMv j comp = s.fullPixel (quarterSum (subSum s.cur j comp)) := by
  rw [State.chromaMv, if_pos hm, fullPixel_eq]
  rfl

theorem profile_of_cr (h : t.cr = s.cr) : t.profile = s.profile := crField_of_cr h _ _ _

section
variable {P : Nat → Nat → Nat → Prop} (h : PixelsWritten dst P s t) (hne : src ≠ dst)
include h hne

/-! Another slot than the one that is written. -/

theorem PixelsWritten.pix_other {x y : Nat} (hp : p < 3) (hx : x < 16384) : t.pix src p x y = s.pix src p x y :=
  h.only src p x y hp hx fun hh => hne hh.1

theorem PixelsWritten.refVal_other (hp : p < 3) (x y : Int) : t.refVal src p x y = s.refVal src p x y := by
  have hwidth := planeW_le s p
  have hcol : (clamp x 0 ((s.planeW p : Int) - 1)).toNat < 16384 := by
    unfold clamp
    omega
  rw [State.refVal, planeW_of_cr h.cr, planeH_of_cr h.cr, h.pix_other hne hp hcol, State.refVal]

theorem PixelsWritten.predVal_other (hp : p < 3) (fx fy : Nat) (x y : Int) :
    t.predVal src p fx fy x y = s.predVal src p fx fy x y := by
  simp only [State.predVal, profile_of_cr h.cr, h.refVal_other hne hp]

theorem PixelsWritten.slotKnown_other (hknown : s.SlotKnown src) : t.SlotKnown src := by
  intro p hp x y hx hy
  rw [planeW_of_cr h.cr] at hx
  rw [planeH_of_cr h.cr] at hy
  rw [h.pix_other hne hp (hx.trans_le (planeW_le s p))]
  exact hknown p hp x y hx hy

end

theorem mcBlock_written {at_ : SubPos} {b : Block} (hn : dst < 4) (hp : p < 3) (hb : b.x + b.w ≤ 16384)
    (h : mcBlock src dst p at_ b s = .ok t) :
    PixelsWritten dst (fun q x y => q = p ∧ inBlock b.x b.y b.w b.h x y) s t := by
  obtain ⟨px, -, ht⟩ := Res.bind_ok.1 h
  exact Except.ok.inj ht ▸ writeBlock_written _ hn hp hb

theorem inMb_offset {r c : Nat} (hr : r < mbSize p) (hc : c < mbSize p) :
    s.inMb p (mbSize p * s.mbx + c) (mbSize p * s.mby + r) := by
  unfold State.inMb inBlock
  omega

/-- The block lies in the part of the macroblock in plane `p`. -/
structure State.BlockInMb (s : State) (p : Nat) (b : Block) : Prop where
  left : mbSize p * s.mbx ≤ b.x
  right : b.x + b.w ≤ mbSize p * s.mbx + mbSize p
  top : mbSize p * s.mby ≤ b.y
  bottom : b.y + b.h ≤ mbSize p * s.mby + mbSize p

theorem State.BlockInMb.inMb {b : Block} (h : s.BlockInMb p b) {x y : Nat} (hxy : inBlock b.x b.y b.w b.h x y) :
    s.inMb p x y := by
  obtain ⟨hx, hxw, hy, hyh⟩ := hxy
  exact ⟨h.left.trans hx, hxw.trans_le h.right, h.top.trans hy, hyh.trans_le h.bottom⟩

theorem State.BlockInMb.fits {b : Block} (h : s.BlockInMb p b) (hpos : s.posOk = true) : b.x + b.w ≤ 16384 :=
  h.right.trans ((mb_fits hpos).trans (planeW_le s p))

/-- The macroblock at `MBPOS` of `s` is predicted so far as `P` says: where the reference slot is not CUR the pixels of
`P` are those of `s.mcVal`; nothing but pixels of the macroblock was written. -/
structure McSoFar (src dst : Nat) (s : State) (P : Nat → Nat → Nat → Prop) (t : State) : Prop where
  written : MbWritten dst s t
  pixels : src ≠ dst → ∀ p < 3, ∀ x y, s.inMb p x y → P p x y →
    t.pix dst p x y = some (BitVec.ofInt 8 (s.mcVal src p x y))

theorem McSoFar.start (src dst : Nat) (s : State) : McSoFar src dst s (fun _ _ _ => False) s where
  written := .refl dst _ s
  pixels _ _ _ _ _ _ hP := hP.elim

section
variable {P Q : Nat → Nat → Nat → Prop} {b : Block} (h : McSoFar src dst s P t)
include h

theorem McSoFar.mono (hQ : ∀ p < 3, ∀ x y, s.inMb p x y → Q p x y → P p x y) : McSoFar src dst s Q t where
  written := h.written
  pixels hne p hp x y hin hxy := h.pixels hne p hp x y hin (hQ p hp x y hin hxy)

/-! What the vectors and places of the next block come from is as before. -/

theorem McSoFar.cur : t.cur = s.cur := by
  rw [h.written.frame]
  rfl

theorem McSoFar.mbx : t.mbx = s.mbx := mbx_of_cr h.written.cr

theorem McSoFar.mby : t.mby = s.mby := mby_of_cr h.written.cr

theorem McSoFar.fullPixel (v : Int) : t.fullPixel v = s.fullPixel v := by
  rw [State.fullPixel, profile_of_cr h.written.cr, State.fullPixel]

variable (hpos : s.posOk = true)
include hpos

theorem McSoFar.refOk (hne : src ≠ dst) (hknown : s.SlotKnown src) (hp : p < 3) : t.RefOk src p where
  width := (planes_pos ((posOk_of_cr h.written.cr).trans hpos) p).1
  height := (planes_pos ((posOk_of_cr h.written.cr).trans hpos) p).2
  known := h.written.slotKnown_other hne hknown p hp

/-- One block more. -/
theorem McSoFar.block (hin : s.BlockInMb p b)
    (hw : PixelsWritten dst (fun q x y => q = p ∧ inBlock b.x b.y b.w b.h x y) t u)
    (hpix : src ≠ dst → ∀ x y, inBlock b.x b.y b.w b.h x y →
      u.pix dst p x y = some (BitVec.ofInt 8 (s.mcVal src p x y))) :
    McSoFar src dst s (fun q x y => P q x y ∨ q = p ∧ inBlock b.x b.y b.w b.h x y) u where
  written := PixelsWritten.trans h.written (hw.mono (by rintro _ x y ⟨rfl, hxy⟩; exact hin.inMb hxy))
  pixels hne q hq x y hmb hxy := by
    by_cases hnew : q = p ∧ inBlock b.x b.y b.w b.h x y
    · obtain ⟨rfl, hnew⟩ := hnew
      exact hpix hne x y hnew
    · have hx : x < 16384 := (hmb.2.1.trans_le (mb_fits hpos)).trans_le (planeW_le s q)
      exact (hw.only dst q x y hq hx fun hh => hnew hh.2).trans
        (h.pixels hne q hq x y hmb (hxy.resolve_right hnew))

variable (hn : dst < 4) (hknown : s.SlotKnown src)
include hn hknown

theorem McSoFar.luma {v : Mv} (hin : s.BlockInMb 0 b) (hrun : mcLuma src dst v b t = .ok u)
    (hv : ∀ x y, inBlock b.x b.y b.w b.h x y → s.cur.lumaMv (4 * (y / 4 % 4) + x / 4 % 4) = v) :
    McSoFar src dst s (fun q x y => P q x y ∨ q = 0 ∧ inBlock b.x b.y b.w b.h x y) u := by
  have hfit := hin.fits hpos
  refine h.block hpos hin (mcBlock_written hn (by decide) hfit hrun) fun hne x y hxy => ?_
  obtain ⟨w, hrun', hw⟩ := mcLuma_predicts hn (h.refOk hpos hne hknown (by decide)) hfit v
  obtain rfl := Except.ok.inj (hrun.symm.trans hrun')
  rw [hw.pixels x y hxy, State.mcVal, if_pos rfl, hv x y hxy, State.lumaVal,
    h.written.predVal_other hne (by decide), State.lumaVal]

theorem McSoFar.chroma {ux uy : Int} (hp : p = 1 ∨ p = 2) (hin : s.BlockInMb p b)
    (hrun : mcChroma src dst p ux uy b t = .ok u)
    (hv : ∀ x y, inBlock b.x b.y b.w b.h x y →
      s.chromaMv (2 * (y / 4 % 2) + x / 4 % 2) (fun m => m.x.toInt) = ux ∧
      s.chromaMv (2 * (y / 4 % 2) + x / 4 % 2) (fun m => m.y.toInt) = uy) :
    McSoFar src dst s (fun q x y => P q x y ∨ q = p ∧ inBlock b.x b.y b.w b.h x y) u := by
  have hfit := hin.fits hpos
  refine h.block hpos hin (mcBlock_written hn (by omega) hfit hrun) fun hne x y hxy => ?_
  obtain ⟨w, hrun', hw⟩ := mcChroma_predicts (p := p) hn (by omega) (h.refOk hpos hne hknown (by omega)) hfit ux uy
  obtain rfl := Except.ok.inj (hrun.symm.trans hrun')
  obtain ⟨hux, huy⟩ := hv x y hxy
  rw [hw.pixels x y hxy, State.mcVal, if_neg (by omega), hux, huy, State.chromaVal,
    h.written.predVal_other hne (by omega), State.chromaVal]

/-- A block of both chroma planes. -/
theorem McSoFar.chromas {ux uy : Int} (hin : s.BlockInMb 1 b)
    (hrun : (mcChroma src dst 1 ux uy b t >>= fun w => mcChroma src dst 2 ux uy b w) = .ok u)
    (hv : ∀ x y, inBlock b.x b.y b.w b.h x y →
      s.chromaMv (2 * (y / 4 % 2) + x / 4 % 2) (fun m => m.x.toInt) = ux ∧
      s.chromaMv (2 * (y / 4 % 2) + x / 4 % 2) (fun m => m.y.toInt) = uy) :
    McSoFar src dst s (fun q x y => P q x y ∨ q ≠ 0 ∧ inBlock b.x b.y b.w b.h x y) u := by
  obtain ⟨w, h1, h2⟩ := Res.bind_ok.1 hrun
  have hfirst := h.chroma hpos hn hknown (.inl rfl) hin h1 hv
  have hin2 : s.BlockInMb 2 b := ⟨hin.left, hin.right, hin.top, hin.bottom⟩
  refine (hfirst.chroma hpos hn hknown (.inr rfl) hin2 h2 hv).mono fun q hq x y _ hxy => ?_
  obtain hP | ⟨hq0, hxy⟩ := hxy
  · exact .inl (.inl hP)
  · obtain rfl | rfl : q = 1 ∨ q = 2 := by omega
    · exact .inl (.inr ⟨rfl, hxy⟩)
    · exact .inr ⟨rfl, hxy⟩

end

/-- A loop whose step for `a` predicts the pixels of `R a`. -/
theorem McSoFar.foldlM {α : Type} {P : Nat → Nat → Nat → Prop} {R : α → Nat → Nat → Nat → Prop}
    {f : State → α → Res State} {l : List α}
    (hf : ∀ a ∈ l, ∀ Q t u, McSoFar src dst s Q t → f t a = .ok u →
      McSoFar src dst s (fun p x y => Q p x y ∨ R a p x y) u)
    (h : McSoFar src dst s P t) (hrun : l.foldlM f t = .ok u) :
    McSoFar src dst s (fun p x y => P p x y ∨ ∃ a ∈ l, R a p x y) u := by
  induction l generalizing P t with
  | nil =>
    obtain rfl := Except.ok.inj hrun
    exact h.mono fun p _ x y _ hxy => by simpa using hxy
  | cons a l ih =>
    obtain ⟨w, hw, hu⟩ := Res.bind_ok.1 ((List.foldlM_cons ..).symm.trans hrun)
    refine (ih (fun b hb => hf b (List.mem_cons_of_mem _ hb)) (hf a List.mem_cons_self P t w h hw) hu).mono
      fun p _ x y _ hxy => ?_
    simpa [or_assoc] using hxy

/-! ## The partitions of a split macroblock (R310) -/

/-- A partition is made of whole sub-blocks, and lies in the macroblock. -/
theorem splitBlocks_aligned : ∀ sh, ∀ e ∈ splitBlocks sh, e.2.x % 4 = 0 ∧ e.2.y % 4 = 0 ∧ e.2.w % 4 = 0 ∧
    e.2.h % 4 = 0 ∧ e.2.x + e.2.w ≤ 16 ∧ e.2.y + e.2.h ≤ 16 := by
  intro sh
  cases sh <;> decide

/-- The vector of a partition is that of the first sub-block of each of its sub-blocks. -/
theorem splitBlocks_first : ∀ sh, ∀ e ∈ splitBlocks sh, ∀ i < 4, ∀ j < 4,
    e.2.x ≤ 4 * j ∧ 4 * j < e.2.x + e.2.w ∧ e.2.y ≤ 4 * i ∧ 4 * i < e.2.y + e.2.h →
    (splitFirst.getD sh.num []).getD (partOf sh.num (4 * i + j)) 0 = e.1 := by
  intro sh
  cases sh <;> decide

theorem lumaMv_splitBlock {e : Nat × Block} (hm : s.cur.mode = .split) (he : e ∈ splitBlocks s.cur.split) {x y : Nat}
    (hxy : inBlock (16 * s.mbx + e.2.x) (16 * s.mby + e.2.y) e.2.w e.2.h x y) :
    s.cur.lumaMv (4 * (y / 4 % 4) + x / 4 % 4) = s.cur.bmvAt e.1 := by
  obtain ⟨hx, hxw, hy, hyh⟩ := hxy
  obtain ⟨hax, hay, haw, hah, hright, hbottom⟩ := splitBlocks_aligned s.cur.split e he
  rw [MbRec.lumaMv, if_pos hm, splitBlocks_first s.cur.split e he (y / 4 % 4) (by omega) (x / 4 % 4) (by omega)
    (by omega)]

/-! ## `MC_MB` (R314) -/

section
variable (hpos : s.posOk = true) (hn : dst < 4) (hknown : s.SlotKnown src)
include hpos hn hknown

theorem mcSplit_predicts (hm : s.cur.mode = .split)
    (h1 : (splitBlocks s.cur.split).foldlM (mcSplitLuma src dst) s = .ok t)
    (h2 : (List.range 4).foldlM (mcSplitChroma src dst) t = .ok u) :
    McSoFar src dst s (fun p x y => s.inMb p x y) u := by
  have hluma := (McSoFar.start src dst s).foldlM
    (R := fun e p x y => p = 0 ∧ inBlock (16 * s.mbx + e.2.x) (16 * s.mby + e.2.y) e.2.w e.2.h x y)
    (fun e he P t u h hrun => by
      obtain ⟨-, -, -, -, hright, hbottom⟩ := splitBlocks_aligned s.cur.split e he
      rw [mcSplitLuma, h.cur, h.mbx, h.mby] at hrun
      refine h.luma hpos hn hknown ?_ hrun fun x y hxy => lumaMv_splitBlock hm he hxy
      constructor <;> simp only [show mbSize 0 = 16 from rfl, Block.shift] <;> omega) h1
  have hchroma := hluma.foldlM
    (R := fun j p x y => p ≠ 0 ∧ inBlock (8 * s.mbx + 4 * (j % 2)) (8 * s.mby + 4 * (j / 2)) 4 4 x y)
    (fun j hj P t u h hrun => by
      have hj := List.mem_range.1 hj
      simp only [mcSplitChroma, h.cur, h.mbx, h.mby, h.fullPixel] at hrun
      refine h.chromas hpos hn hknown ?_ hrun fun x y hxy => ?_
      · constructor <;> simp only [show mbSize 1 = 8 from rfl] <;> omega
      · unfold inBlock at hxy
        simp only at hxy
        rw [show 2 * (y / 4 % 2) + x / 4 % 2 = j by omega]
        exact ⟨chromaMv_split hm j _, chromaMv_split hm j _⟩) h2
  refine hchroma.mono fun p hp x y hxy _ => ?_
  by_cases hp0 : p = 0
  · subst hp0
    unfold State.inMb inBlock mbSize at hxy
    simp only [if_true] at hxy
    obtain ⟨e, he, hb⟩ := splitBlocks_cover s.cur.split (x := x - 16 * s.mbx) (y := y - 16 * s.mby) (by omega)
      (by omega)
    refine .inl (.inr ⟨e, he, rfl, ?_⟩)
    unfold inBlock at hb ⊢
    omega
  · unfold State.inMb inBlock mbSize at hxy
    rw [if_neg hp0] at hxy
    refine .inr ⟨2 * ((y - 8 * s.mby) / 4) + (x - 8 * s.mbx) / 4, List.mem_range.2 (by omega), hp0, ?_⟩
    unfold inBlock
    omega

theorem mcWhole_predicts (hm : s.cur.mode ≠ .split) (h : mcWhole src dst s = .ok u) :
    McSoFar src dst s (fun p x y => s.inMb p x y) u := by
  obtain ⟨t, h1, h2⟩ := Res.bind_ok.1 h
  have hluma := (McSoFar.start src dst s).luma hpos hn hknown ⟨le_rfl, le_rfl, le_rfl, le_rfl⟩ h1
    fun x y _ => if_neg hm
  have hchroma := hluma.chromas hpos hn hknown ⟨le_rfl, le_rfl, le_rfl, le_rfl⟩ h2
    fun x y _ => ⟨chromaMv_whole hm _ _, chromaMv_whole hm _ _⟩
  refine hchroma.mono fun p hp x y hxy _ => ?_
  by_cases hp0 : p = 0
  · subst hp0
    exact .inl (.inr ⟨rfl, hxy⟩)
  · unfold State.inMb mbSize at hxy
    rw [if_neg hp0] at hxy
    exact .inr ⟨hp0, hxy⟩

theorem mcMb_predicts (h : mcMb src dst s = .ok u) : McSoFar src dst s (fun p x y => s.inMb p x y) u := by
  unfold mcMb at h
  split at h
  case isTrue hm =>
    obtain ⟨t, h1, h2⟩ := Res.bind_ok.1 h
    exact mcSplit_predicts hpos hn hknown hm h1 h2
  case isFalse hm => exact mcWhole_predicts hpos hn hknown hm h

end

/-- Settles O43: the blocks of the macroblock one after the other; where the reference is not CUR, none of them changes
a pixel that a later one reads. -/
theorem mcMbResult : Obligations.McMbResult := by
  unfold Obligations.McMbResult
  intro s src dst hpos hdst
  refine ⟨fun href => ?_, fun href hsrc hknown => ?_⟩
  · exact (finish_require_true hpos).trans (finish_require_false (by rw [href]; rfl))
  · have hn := slotOf_lt hdst
    obtain ⟨t, ht, hmb⟩ := mcMb_completes hpos hn hknown
    have hso := mcMb_predicts hpos hn hknown ht
    refine ⟨t.done, ?_, fun hne => ⟨fun r c hr hc => ?_, fun p hp r c hr hc => ?_⟩, fun p hp x y hxy => ?_,
      hso.written.only, congrArg State.done hso.written.frame⟩
    · refine (finish_require_true hpos).trans ((finish_require_true (bne_iff_ne.2 href)).trans ?_)
      exact (finish_slots hsrc hdst _).trans (by rw [ht]; rfl)
    · rw [← mcVal_luma hr hc]
      have hxy : s.inMb 0 (16 * s.mbx + c) (16 * s.mby + r) := inMb_offset hr hc
      exact hso.pixels hne 0 (by decide) _ _ hxy hxy
    · have hp0 : p ≠ 0 := by omega
      rw [← mcVal_chroma hp0 hr hc]
      have hxy : s.inMb p (8 * s.mbx + c) (8 * s.mby + r) := by
        obtain rfl | rfl := hp <;> exact inMb_offset hr hc
      exact hso.pixels hne p (by omega) _ _ hxy hxy
    · exact hmb p hp x y ((inMb_of_cr hso.written.cr p x y).2 hxy)

end Sys2Proof.Machine
end

section
/-! PROOFS. The inverse transform and dequantiser (46_inverse_transform_dequant.md): what each of its four commands
answers. -/

namespace Sys2Proof.Machine

variable {s t : State} {slot p b : Nat}

/-! ## `IT_DQSETUP` (R331 to R333) -/

/-- The place in a multiplier table of an index, clamped to 0..127. -/
def quantIndex (v : Int) : Nat := (max 0 (min 127 v)).toNat

theorem quantIndex_lt (v : Int) : quantIndex v < 128 := by unfold quantIndex; omega

theorem natCast_quantIndex (v : Int) : (quantIndex v : Int) = clampQ v := Int.toNat_of_nonneg (le_max_left 0 _)

theorem dcq_bounds : ∀ n < 128, 4 ≤ dcq.getD n 0 ∧ dcq.getD n 0 ≤ 157 := by decide

theorem acq_bounds : ∀ n < 128, 4 ≤ acq.getD n 0 ∧ acq.getD n 0 ≤ 284 := by decide

theorem dcqAt_bounds (v : Int) : 4 ≤ dcqAt v ∧ dcqAt v ≤ 157 := dcq_bounds _ (quantIndex_lt v)

theorem acqAt_bounds (v : Int) : 4 ≤ acqAt v ∧ acqAt v ≤ 284 := acq_bounds _ (quantIndex_lt v)

/-- The index of a segment, its cases as R333 gives them. -/
theorem segq_eq (s : State) (seg : Nat) :
    s.segq seg = quantIndex (if s.crBit 3 0 = false then (field (s.crRaw 10) 0 7 : Int)
      else if s.crBit 3 3 then sbyte (s.crRaw 4) seg else field (s.crRaw 10) 0 7 + sbyte (s.crRaw 4) seg) := by
  rw [natCast_quantIndex, State.segq]
  cases s.crBit 3 0 <;> rfl

/-- The multipliers stay in the range of their table and clamp (R331, R332). -/
structure DqRec.Bounded (d : DqRec) : Prop where
  y1dc : 4 ≤ d.y1dc ∧ d.y1dc ≤ 157
  y1ac : 4 ≤ d.y1ac ∧ d.y1ac ≤ 284
  y2dc : 8 ≤ d.y2dc ∧ d.y2dc ≤ 314
  y2ac : 8 ≤ d.y2ac ∧ d.y2ac ≤ 440
  uvdc : 4 ≤ d.uvdc ∧ d.uvdc ≤ 132
  uvac : 4 ≤ d.uvac ∧ d.uvac ≤ 284

theorem dqOf_bounded (s : State) (seg : Nat) : (s.dqOf seg).Bounded where
  y1dc := dcqAt_bounds _
  y1ac := acqAt_bounds _
  y2dc := by
    have := dcqAt_bounds (s.segq seg + sbyte (s.crRaw 11) 1)
    simp only [State.dqOf]
    omega
  y2ac := by
    have := acqAt_bounds (s.segq seg + sbyte (s.crRaw 11) 2)
    simp only [State.dqOf]
    omega
  uvdc := by
    have := dcqAt_bounds (s.segq seg + sbyte (s.crRaw 11) 3)
    simp only [State.dqOf]
    omega
  uvac := acqAt_bounds _

theorem exec_itDqsetup {seg : Byte} (hseg : seg.toNat ≤ 3) (s : State) :
    exec (.itDqsetup seg) s = .next (itDqsetup seg.toNat s).done := finish_require_true (decide_eq_true hseg)

/-- Settles O44: the formulas are the model's, on the index of R333, and each multiplier is bounded by its table and
clamp. -/
theorem itDqsetupResult : Obligations.ItDqsetupResult := by
  unfold Obligations.ItDqsetupResult
  refine ⟨fun seg s hseg => finish_require_false (decide_eq_false (by omega)), fun seg s hseg => ?_⟩
  intro base v cl q delta0 d
  have hq : s.segq seg.toNat = q := segq_eq s seg.toNat
  have hd : s.dqOf seg.toNat = d := by
    rw [State.dqOf, hq]
    rfl
  obtain ⟨h1, h2, h3, h4, h5, h6⟩ := hd ▸ dqOf_bounded s seg.toNat
  refine ⟨?_, h1.1, h1.2, h2.1, h2.2, h3.1, h3.2, h4.1, h4.2, h5.1, h5.2, h6⟩
  rw [← hd]
  exact exec_itDqsetup hseg s

/-! ## Transforms (R335, R337) -/

/-- Column `i` of a block of sixteen numbers in raster order. -/
def blockColumn (c : Nat → Int) (i : Nat) : Quad := ⟨c i, c (4 + i), c (8 + i), c (12 + i)⟩

theorem blockColumn_at (c : Nat → Int) {i j : Nat} (hj : j < 4) : (blockColumn c i).at j = c (4 * j + i) := by
  interval_cases j <;> simp [blockColumn, Quad.at]

/-- Row `r` after the vertical pass. -/
def transformRow (pass : Quad → Quad) (c : Nat → Int) (r : Nat) : Quad :=
  ⟨(pass (blockColumn c 0)).at r, (pass (blockColumn c 1)).at r, (pass (blockColumn c 2)).at r,
    (pass (blockColumn c 3)).at r⟩

theorem transformRow_at (pass : Quad → Quad) (c : Nat → Int) (r : Nat) {j : Nat} (hj : j < 4) :
    (transformRow pass c r).at j = (pass (blockColumn c j)).at r := by
  interval_cases j <;> rfl

/-- The output in row `r`, column `k` of a transform. -/
theorem transform_getD (pass : Quad → Quad) (round : Int) (c : Nat → Int) {r k : Nat} (hr : r < 4) (hk : k < 4) :
    (transform pass round c)[4 * r + k]?.getD 0 = asr ((pass (transformRow pass c r)).at k + round) 3 := by
  interval_cases r <;> interval_cases k <;> rfl

/-! ## `IT_WHT` (R335, R336) -/

/-- One pass of the Walsh-Hadamard transform, as a signed sum. -/
theorem whtPass_at (q : Quad) {i : Nat} (hi : i < 4) :
    (whtPass q).at i = ∑ j ∈ Finset.range 4, whtSign i j * q.at j := by
  interval_cases i <;> simp [whtPass, whtSign, Quad.at, Finset.sum_range_succ] <;> ring

/-- Both passes, before rounding. -/
theorem whtPass_transformRow_at (c : Nat → Int) {r k : Nat} (hr : r < 4) (hk : k < 4) :
    (whtPass (transformRow whtPass c r)).at k =
      ∑ i ∈ Finset.range 4, ∑ j ∈ Finset.range 4, whtSign r i * whtSign k j * c (4 * i + j) := by
  have hcol : ∀ j ∈ Finset.range 4, whtSign k j * (transformRow whtPass c r).at j =
      ∑ i ∈ Finset.range 4, whtSign r i * whtSign k j * c (4 * i + j) := fun j hj => by
    rw [transformRow_at _ _ _ (Finset.mem_range.1 hj), whtPass_at _ hr, Finset.mul_sum]
    refine Finset.sum_congr rfl fun i hi => ?_
    rw [blockColumn_at c (Finset.mem_range.1 hi)]
    ring
  rw [whtPass_at _ hk, Finset.sum_congr rfl hcol, Finset.sum_comm]

theorem wht_getD (c : Nat → Int) {r k : Nat} (hr : r < 4) (hk : k < 4) : (wht c)[4 * r + k]?.getD 0 =
    ((∑ i ∈ Finset.range 4, ∑ j ∈ Finset.range 4, whtSign r i * whtSign k j * c (4 * i + j)) + 3) / 8 := by
  rw [wht, transform_getD whtPass 3 c hr hk, whtPass_transformRow_at c hr hk]
  rfl

/-- A read after several writes: the first entry of the address, or what was there. -/
theorem Memory.get_putAll {α : Type} [DecidableEq α] (m : Memory α) (d : α) (ps : List (Nat × α)) (k : Nat) :
    Memory.get (Memory.putAll m d ps) d k = (Memory.find ps k).getD (Memory.get m d k) := by
  induction ps with
  | nil => rfl
  | cons q ps ih =>
    have hput : Memory.putAll m d (q :: ps) = Memory.put (Memory.putAll m d ps) d q.1 q.2 := rfl
    rw [hput, Memory.get_put, ih, Memory.find_cons]
    by_cases h : k = q.1
    · rw [if_pos h, if_pos h.symm]; rfl
    · rw [if_neg h, if_neg (Ne.symm h)]

/-- The DC positions of the luma blocks, given `o`, as a list of addresses and values. -/
theorem find_dcPositions (o : Nat → Int) {j : Nat} (hj : j < 16) (b : Nat) :
    Memory.find ((List.range 16).map fun i => (coefKey i 0, o i)) (coefKey b j) =
      if j = 0 ∧ b < 16 then some (o b) else none := by
  split
  case isTrue h =>
    obtain ⟨rfl, hb⟩ := h
    refine Memory.find_of_mem (List.mem_map.2 ⟨b, List.mem_range.2 hb, rfl⟩) fun q hq hkey => ?_
    obtain ⟨i, -, rfl⟩ := List.mem_map.1 hq
    obtain rfl : i = b := by unfold coefKey at hkey; omega
    rfl
  case isFalse h =>
    refine Memory.find_eq_none fun q hq hkey => h ?_
    obtain ⟨i, hi, rfl⟩ := List.mem_map.1 hq
    have := List.mem_range.1 hi
    unfold coefKey at hkey
    omega

theorem itWht_coefAt (s : State) (b : Nat) {j : Nat} (hj : j < 16) :
    (itWht s).coefAt b j = if j = 0 ∧ b < 16 then (wht (s.coefAt 24))[b]?.getD 0 else s.coefAt b j := by
  refine (Memory.get_putAll ..).trans ?_
  rw [find_dcPositions (fun i => (wht (s.coefAt 24))[i]?.getD 0) hj]
  split <;> rfl

/-- Settles O45: the outputs of the transform go to the DC positions. -/
theorem itWhtResult : Obligations.ItWhtResult := by
  unfold Obligations.ItWhtResult
  refine fun s => ⟨(itWht s).done, rfl, fun r c hr hc => ?_, fun b j hj hb => ?_, rfl⟩
  · exact (itWht_coefAt s _ (by decide)).trans ((if_pos ⟨rfl, by omega⟩).trans (wht_getD _ hr hc))
  · exact (itWht_coefAt s b hj).trans (if_neg (by omega))

/-! ## The residual of a block (R337, R338) -/

/-- The residual in row `r`, column `c` of the block whose coefficients are block `b` of `COEF`. -/
def State.residualAt (s : State) (b r c : Nat) : Int :=
  asr ((idctPass (transformRow idctPass (s.coefAt b) r)).at c + 4) 3

/-- One pass of the inverse DCT, output by output. -/
theorem idctPass_at (q : Quad) (n : Nat) : (idctPass q).at n =
    if n = 0 then q.a + q.c + (mulCos q.b + mulSin q.d)
    else if n = 1 then q.a - q.c + (mulSin q.b - mulCos q.d)
    else if n = 2 then q.a - q.c - (mulSin q.b - mulCos q.d)
    else q.a + q.c - (mulCos q.b + mulSin q.d) := by
  match n with
  | 0 | 1 | 2 | _ + 3 => rfl

/-- A pass spreads a first number that stands alone. -/
theorem idctPass_first (x : Int) : idctPass ⟨x, 0, 0, 0⟩ = ⟨x, x, x, x⟩ := by
  simp [idctPass, mulCos, mulSin, asr]

theorem Quad.at_const (x : Int) (i : Nat) : (⟨x, x, x, x⟩ : Quad).at i = x := by
  match i with
  | 0 | 1 | 2 | _ + 3 => rfl

/-- The first coefficient alone gives the same residual everywhere (R338). -/
theorem residualAt_of_dc (h : ∀ j, 1 ≤ j → j < 16 → s.coefAt b j = 0) (r c : Nat) :
    s.residualAt b r c = (s.coefAt b 0 + 4) / 8 := by
  have hcol0 : blockColumn (s.coefAt b) 0 = ⟨s.coefAt b 0, 0, 0, 0⟩ := by simp [blockColumn, h]
  have hcol {i : Nat} (hi : 1 ≤ i ∧ i < 4) : blockColumn (s.coefAt b) i = ⟨0, 0, 0, 0⟩ := by
    unfold blockColumn
    rw [h i (by omega) (by omega), h (4 + i) (by omega) (by omega), h (8 + i) (by omega) (by omega),
      h (12 + i) (by omega) (by omega)]
  have hrow : transformRow idctPass (s.coefAt b) r = ⟨s.coefAt b 0, 0, 0, 0⟩ := by
    rw [transformRow, hcol0, hcol (by decide), hcol (by decide), hcol (by decide), idctPass_first, idctPass_first,
      Quad.at_const, Quad.at_const]
  rw [State.residualAt, hrow, idctPass_first, Quad.at_const]
  rfl

theorem residualAt_of_zero (h : ∀ j < 16, s.coefAt b j = 0) (r c : Nat) : s.residualAt b r c = 0 := by
  rw [residualAt_of_dc fun j _ hj => h j hj, h 0 (by decide)]
  rfl

theorem toPix_pixInt (q : Byte) : toPix (pixInt q) = q := by
  have hq : clamp255 (pixInt q) = q.toNat := clamp_of_mem (Int.natCast_nonneg _) (by unfold pixInt; omega)
  rw [toPix, hq, BitVec.ofInt_natCast, BitVec.ofNat_toNat, BitVec.setWidth_eq]

/-! ## The work of `IT_IDCT_ADD` (R339 to R341) -/

/-- `b` is the number of a block of plane `p` (R341). -/
abbrev BlockOf (p b : Nat) : Prop := b < if p = 0 then 16 else 4

theorem BlockOf.lt_sixteen (h : BlockOf p b) : b < 16 := h.trans_le (by split <;> decide)

theorem block_fits (hpos : s.posOk = true) (hb : BlockOf p b) : s.blockX p b + 4 ≤ 16384 := by
  have hlast : s.inMb p (s.blockX p b + 3) (s.blockY p b) :=
    block_inMb hb ⟨by omega, by omega, le_rfl, by omega⟩
  have hmb : s.mbX p + mbSize p ≤ 16384 := (mb_fits hpos).trans (planeW_le s p)
  obtain ⟨-, hx, -⟩ := hlast
  unfold State.mbX at hmb
  omega

section
variable (hn : slot < 4) (hp : p < 3) (hfits : s.blockX p b + 4 ≤ 16384)
include hn hp hfits

theorem itIdctAdd_pixelsWritten (h : itIdctAdd slot p b s = .ok t) :
    PixelsWritten slot (fun q x y => q = p ∧ inBlock (s.blockX p b) (s.blockY p b) 4 4 x y) s t := by
  obtain ⟨px, -, ht⟩ := Res.bind_ok.1 h
  exact Except.ok.inj ht ▸ writeBlock_written _ hn hp hfits

/-- A pixel of the block becomes the clamped sum of itself and of its residual. -/
theorem itIdctAdd_pix (h : itIdctAdd slot p b s = .ok t) {r c : Nat} {q : Byte} (hr : r < 4) (hc : c < 4)
    (hq : s.pix slot p (s.blockX p b + c) (s.blockY p b + r) = some q) :
    t.pix slot p (s.blockX p b + c) (s.blockY p b + r) =
      some (toPix (pixInt q + s.residualAt (coefBlock p b) r c)) := by
  obtain ⟨px, hpx, ht⟩ := Res.bind_ok.1 h
  obtain rfl := Except.ok.inj ht
  have hread : px[4 * r + c]? = some q := by
    have hlist := congrArg (·[4 * r + c]?) (collect_eq_ok.1 hpx)
    have hdiv : (4 * r + c) / 4 = r := by omega
    have hmod : (4 * r + c) % 4 = c := by omega
    have hlt : 4 * r + c < 16 := by omega
    simpa [hlt, hdiv, hmod, hq, eq_comm] using hlist
  rw [pix_writeBlock_inside _ hn hp hfits hr hc, addResidual, hread, idct, transform_getD idctPass 4 _ hr hc]
  rfl

end

/-! ## The checks of the unit's commands -/

/-- What the checks of `IT_IDCT_ADD` and `IT_MB` ask for besides the operands, `slot` being the slot that holds CUR. -/
structure State.ItOk (slot : Nat) (s : State) : Prop where
  pos : s.posOk = true
  cur : s.curSlot = some slot

theorem State.ItOk.slot_lt (h : s.ItOk slot) : slot < 4 := slotOf_lt h.cur

theorem State.ItOk.of_cr (h : s.ItOk slot) (hcr : t.cr = s.cr) : t.ItOk slot where
  pos := (posOk_of_cr hcr).trans h.pos
  cur := (curSlot_of_cr hcr).trans h.cur

theorem State.ItOk.finish_checks (h : s.ItOk slot) (f : Nat → Res State) :
    finish s (require s.posOk .badMbpos >>= fun _ => needSlot s.curSlot >>= f) = finish s (f slot) := by
  rw [finish_require_true h.pos, h.cur]
  rfl

theorem exec_itIdctAdd {plane block : Byte} (h : s.ItOk slot) (hplane : plane.toNat < 3)
    (hblock : BlockOf plane.toNat block.toNat) :
    exec (.itIdctAdd plane block) s = finish s (itIdctAdd slot plane.toNat block.toNat s) := by
  have hok : okPlaneBlock plane block = true := by
    have hle : block.toNat ≤ if plane.toNat = 0 then 15 else 3 :=
      Nat.le_of_lt_succ (hblock.trans_eq (by split <;> rfl))
    simp only [okPlaneBlock, Bool.and_eq_true, decide_eq_true_eq]
    exact ⟨Nat.le_of_lt_succ hplane, hle⟩
  exact (finish_require_true hok).trans (h.finish_checks _)

theorem exec_itMb (h : s.ItOk slot) : exec .itMb s = finish s (itMb slot s) := h.finish_checks _

/-- Settles O46: each pixel of the block takes its residual; the two special cases are values of that residual. -/
theorem itIdctAddResult : Obligations.ItIdctAddResult := by
  unfold Obligations.ItIdctAddResult
  intro plane block s slot hplane hblock hpos hcur b x0 y0 m1 m2 pass column residual hknown
  have hok : s.ItOk slot := ⟨hpos, hcur⟩
  have hp : plane.toNat < 3 := by omega
  obtain ⟨t, ht⟩ := itIdctAdd_completes hknown
  have hfits := block_fits hpos hblock
  have hw := itIdctAdd_pixelsWritten hok.slot_lt hp hfits ht
  refine ⟨t.done, (exec_itIdctAdd hok hp hblock).trans (by rw [ht]; rfl), fun r c q hr hc hq => ?_, hw.only,
    congrArg State.done hw.frame⟩
  have hpix : t.done.pix slot plane.toNat (x0 + c) (y0 + r) = some (toPix (pixInt q + s.residualAt b r c)) :=
    itIdctAdd_pix hok.slot_lt hp hfits ht hr hc hq
  have hresidual : residual r c = s.residualAt b r c := by
    simp only [State.residualAt, transformRow, idctPass_at]
    rfl
  refine ⟨?_, fun hdc => ?_, fun hzero => ?_⟩
  · rw [hresidual]
    exact hpix
  · rw [residualAt_of_dc hdc] at hpix
    exact hpix
  · rw [hpix, residualAt_of_zero hzero, Int.add_zero, toPix_pixInt]

/-! ## `IT_MB` as a sequence (R342) -/

/-- The command of a block of the residual. -/
def residualCommand (pb : Nat × Nat) : Instr := .itIdctAdd (BitVec.ofNat 8 pb.1) (BitVec.ofNat 8 pb.2)

theorem itSequence_eq (m : MbMode) :
    itSequence m = (if hasY2 m then [.itWht] else []) ++ (residualBlocks m).map residualCommand := by
  cases m <;> rfl

theorem residualBlocks_ne_nil (m : MbMode) : residualBlocks m ≠ [] := by cases m <;> decide

theorem runCommands_map {α : Type} (g : α → Instr) (l : List α) (s : State) :
    runCommands (l.map g) s = forEach (fun a => exec (g a)) l s := by
  induction l generalizing s with
  | nil => rfl
  | cons a l ih => exact congrArg (andThen (exec (g a) s)) (funext ih)

theorem performs_residualCommand {pb : Nat × Nat} (hp : pb.1 < 3) (hb : BlockOf pb.1 pb.2) :
    Performs (State.ItOk slot) (exec (residualCommand pb)) (itIdctAdd slot pb.1 pb.2) where
  blind := blind_itIdctAdd slot pb.1 pb.2
  quiet := quiet_itIdctAdd slot pb.1 pb.2
  run s hs := by
    have hplane : (BitVec.ofNat 8 pb.1).toNat = pb.1 := toNat_ofNat_block (by omega)
    have hblock : (BitVec.ofNat 8 pb.2).toNat = pb.2 := toNat_ofNat_block hb.lt_sixteen
    rw [residualCommand, exec_itIdctAdd hs (by rwa [hplane]) (by rwa [hplane, hblock]), hplane, hblock]
  keeps s t hs ht := hs.of_cr (itIdctAdd_pixelsWritten hs.slot_lt hp (block_fits hs.pos hb) ht).cr

theorem performs_itWht : Performs (State.ItOk slot) (exec .itWht) fun s => .ok (itWht s) where
  blind _ _ := rfl
  quiet _ := .ok _
  run _ _ := rfl
  keeps s t hs ht := hs.of_cr (by rw [← Except.ok.inj ht]; rfl)

theorem performs_residualBlocks (m : MbMode) :
    Performs (State.ItOk slot) (runCommands ((residualBlocks m).map residualCommand))
      fun s => (residualBlocks m).foldlM (fun u pb => itIdctAdd slot pb.1 pb.2 u) s := by
  rw [show runCommands _ = _ from funext (runCommands_map residualCommand (residualBlocks m))]
  exact .forEach (residualBlocks_ne_nil m) fun pb hpb =>
    performs_residualCommand (residualBlocks_plane hpb) (residualBlocks_lt hpb)

theorem exec_itMb_eq_sequence (h : s.ItOk slot) : exec .itMb s = runCommands (itSequence s.cur.mode) s := by
  have hres := performs_residualBlocks (slot := slot) s.cur.mode
  rw [exec_itMb h, itMb, itSequence_eq]
  cases hasY2 s.cur.mode with
  | true => exact ((performs_itWht.andThen hres).run s h).symm
  | false => exact (hres.run s h).symm

/-! ## The macroblock (R342, R343) -/

theorem itIdctAdd_mbWritten (hok : s.ItOk slot) (hp : p < 3) (hb : BlockOf p b) (h : itIdctAdd slot p b s = .ok t) :
    MbWritten slot s t := by
  refine (itIdctAdd_pixelsWritten hok.slot_lt hp (block_fits hok.pos hb) h).mono ?_
  rintro _ x y ⟨rfl, hxy⟩
  exact block_inMb hb hxy

/-- The state to which `IT_MB` adds the residual, the luma-DC block transformed where there is one. -/
def State.withDcs (s : State) : State := if hasY2 s.cur.mode then itWht s else s

theorem withDcs_eq (s : State) : s.withDcs = { s with coef := s.withDcs.coef } := by
  unfold State.withDcs
  split <;> rfl

theorem itMb_written (hok : s.ItOk slot) (h : itMb slot s = .ok t) : MbWritten slot s.withDcs t := by
  have hstart : s.withDcs.ItOk slot := hok.of_cr (by rw [withDcs_eq])
  exact foldlM_keeps_mem (P := MbWritten slot s.withDcs) (fun x hx pb hpb y hy =>
    hx.trans (itIdctAdd_mbWritten (hstart.of_cr hx.cr) (residualBlocks_plane hpb) (residualBlocks_lt hpb) hy))
    (.refl slot _ _) h

/-- Settles O47: the works of the sequence's commands, one after the other, are that of `IT_MB`, each of which writes
pixels of the macroblock alone. -/
theorem itMbIsItsSequence : Obligations.ItMbIsItsSequence := by
  unfold Obligations.ItMbIsItsSequence
  refine ⟨fun s => ⟨fun hpos => finish_require_false hpos, fun hpos hcur => ?_⟩, fun s slot hpos hcur => ?_⟩
  · refine (finish_require_true hpos).trans ?_
    rw [hcur]
    rfl
  · have hok : s.ItOk slot := ⟨hpos, hcur⟩
    refine ⟨exec_itMb_eq_sequence hok, fun hknown => ?_⟩
    obtain ⟨t, ht⟩ := itMb_completes hknown
    have hw := itMb_written hok ht
    have heffects := itMb_effects ht
    have hcr := (pix_same heffects).cr
    rw [withDcs_eq] at hw
    exact ⟨t.done, (exec_itMb hok).trans (by rw [ht]; rfl),
      fun p hp x y hxy => State.MbKnown.after hknown heffects p hp x y ((inMb_of_cr hcr p x y).2 hxy), hw.only, by
        rw [hw.frame]; rfl⟩

end Sys2Proof.Machine
end

section
/-! PROOFS. The loop filter (47_loop_filter.md): what each of its six commands answers, and the arithmetic of its three
filters. -/

namespace Sys2Proof.Machine

variable {s t u : State} {slot : Nat} {e : Edge} {k : EdgeKind} {lim : Limits} {l m : Line}

/-! ## `LF_PARAMS` (R361 to R368) -/

/-- The table of R362, by the macroblock's reference and mode. -/
theorem modeDelta_eq (s : State) : s.modeDelta =
    if s.cur.ref = .current then (if s.cur.mode = .bPred then sbyte (s.crRaw 8) 0 else 0)
    else if s.cur.mode = .zero then sbyte (s.crRaw 8) 1
    else if s.cur.mode = .split then sbyte (s.crRaw 8) 3
    else if s.cur.mode = .nearest ∨ s.cur.mode = .near ∨ s.cur.mode = .new then sbyte (s.crRaw 8) 2
    else if s.cur.mode = .bPred then Config.freeModeDelta s.cur.ref.num (s.crRaw 8) else 0 := by
  unfold State.modeDelta
  by_cases href : s.cur.ref = .current
  · rw [href]
    cases s.cur.mode <;> rfl
  · have hintra : (s.cur.ref == .current) = false := beq_eq_false_iff_ne.2 href
    rw [if_neg href, bne, hintra]
    cases s.cur.mode <;> rfl

/-- The level as R361 gives it: the segment's value and the deltas, clamped once. -/
theorem lfLevel_eq (s : State) : s.lfLevel = (max 0 (min 63
    (if s.crBit 6 10 then s.segLevel + sbyte (s.crRaw 7) s.cur.ref.num + s.modeDelta else s.segLevel))).toNat := by
  rw [State.lfLevel, clamp]
  split
  · rw [Int.add_assoc]
  · rw [Int.add_zero]

theorem lfLevel_le (s : State) : s.lfLevel ≤ 63 := by
  rw [lfLevel_eq]
  omega

theorem interiorLimit_of_zero (level : Nat) : interiorLimit level 0 = max level 1 := rfl

theorem interiorLimit_of_le {sharp : Nat} (h0 : 0 < sharp) (h : sharp ≤ 4) (level : Nat) :
    interiorLimit level sharp = max (min (level / 2) (9 - sharp)) 1 := by
  rw [interiorLimit, if_neg (Nat.ne_of_gt h0), if_neg (Nat.not_lt.2 h)]

theorem interiorLimit_of_gt {sharp : Nat} (h : 4 < sharp) (level : Nat) :
    interiorLimit level sharp = max (min (level / 4) (9 - sharp)) 1 := by
  rw [interiorLimit, if_neg (Nat.ne_of_gt (Nat.zero_lt_of_lt h)), if_pos h]

theorem interiorLimit_le (level sharp : Nat) : interiorLimit level sharp ≤ max level 9 := by
  simp only [interiorLimit]
  split <;> omega

/-- The steps of R364 on a keyframe. -/
theorem hevThreshold_key (level : Nat) :
    hevThreshold level true = if level < 15 then 0 else if level < 40 then 1 else 2 := by
  show [15, 40].countP _ = _
  simp only [List.countP_cons, List.countP_nil, decide_eq_true_eq]
  split_ifs <;> omega

/-- The steps of R364 on an interframe. -/
theorem hevThreshold_inter (level : Nat) :
    hevThreshold level false = if level < 15 then 0 else if level < 20 then 1 else if level < 40 then 2 else 3 := by
  show [15, 20, 40].countP _ = _
  simp only [List.countP_cons, List.countP_nil, decide_eq_true_eq]
  split_ifs <;> omega

theorem hevThreshold_le (level : Nat) (key : Bool) : hevThreshold level key ≤ 3 := by
  cases key
  · rw [hevThreshold_inter]
    split_ifs <;> decide
  · rw [hevThreshold_key]
    split_ifs <;> decide

/-- Both frame classes, by the ranges of the level. -/
theorem hevThreshold_ranges (level : Nat) (key : Bool) :
    (level < 15 → hevThreshold level key = 0) ∧ (15 ≤ level → level < 20 → hevThreshold level key = 1) ∧
    (20 ≤ level → level < 40 → hevThreshold level key = if key then 1 else 2) ∧
    (40 ≤ level → hevThreshold level key = if key then 2 else 3) := by
  cases key
  · rw [hevThreshold_inter]
    simp only [Bool.false_eq_true, if_false]
    split_ifs <;> omega
  · rw [hevThreshold_key]
    simp only [if_true]
    split_ifs <;> omega

theorem innerEdges_iff (r : MbRec) :
    innerEdges r = true ↔ ¬(r.skip = true ∧ r.mode ≠ .bPred ∧ r.mode ≠ .split) := by
  rw [innerEdges, Bool.not_eq_true', ← Bool.not_eq_true]
  simp only [Bool.and_eq_true, bne_iff_ne, and_assoc]

theorem toNat_append_mul {a b : Nat} (x : BitVec a) (y : BitVec b) : (x ++ y).toNat = 2 ^ b * x.toNat + y.toNat := by
  rw [BitVec.toNat_append, Nat.shiftLeft_eq, Nat.mul_comm, Nat.two_pow_add_eq_or_of_lt y.isLt]

theorem packLfp_eq {r : LfpRec} (hlevel : r.level < 256) (hlimit : r.ilimit < 256) (hhev : r.hev < 256) :
    packLfp r = BitVec.ofNat 32 (r.level + 2 ^ 8 * r.ilimit + 2 ^ 16 * r.hev + 2 ^ 24 * boolNat r.inner) := by
  have hinner : boolNat r.inner < 256 := by cases r.inner <;> decide
  apply BitVec.eq_of_toNat_eq
  simp only [packLfp, toNat_append_mul, BitVec.toNat_ofNat]
  omega

theorem packLfp_lfpOf (s : State) : packLfp s.lfpOf = BitVec.ofNat 32 (s.lfpOf.level + 2 ^ 8 * s.lfpOf.ilimit +
    2 ^ 16 * s.lfpOf.hev + 2 ^ 24 * boolNat s.lfpOf.inner) := by
  have hlevel := lfLevel_le s
  have hlimit := interiorLimit_le s.lfLevel (s.crField 6 7 3)
  have hhev := hevThreshold_le s.lfLevel (s.crBit 0 0)
  exact packLfp_eq (hlevel.trans_lt (by decide)) (by show interiorLimit _ _ < 256; omega)
    (hhev.trans_lt (by decide))

theorem exec_lfParams (hpos : s.posOk = true) (hcur : s.curSlot = some slot) :
    exec .lfParams s = .next (lfParams s).done := State.ItOk.finish_checks ⟨hpos, hcur⟩ fun _ => .ok (lfParams s)

/-- Settles O48: the record is `lfpOf`, each part of which is that of its rule. -/
theorem lfParamsResult : Obligations.LfParamsResult := by
  unfold Obligations.LfParamsResult
  intro s hpos hcur byte base v level1 modeDelta level sharp key
  have hlevel : s.lfLevel = level := by
    rw [lfLevel_eq, modeDelta_eq]
    rfl
  have hlimit : s.lfpOf.ilimit = interiorLimit level sharp := hlevel ▸ rfl
  have hhev : s.lfpOf.hev = hevThreshold level key := hlevel ▸ rfl
  refine ⟨s.lfpOf, ?_, hlevel, fun h => ?_, fun h0 h => ?_, fun h => ?_, ?_⟩
  · rw [exec_lfParams hpos (if_pos hcur), lfParams, packLfp_lfpOf]
  · rw [hlimit, h, interiorLimit_of_zero]
  · rw [hlimit, interiorLimit_of_le h0 h]
  · rw [hlimit, interiorLimit_of_gt h]
  · obtain ⟨h0, h15, h20, h40⟩ := hevThreshold_ranges level key
    rw [hhev]
    exact ⟨h0, h15, h20, h40, innerEdges_iff s.cur⟩

/-! ## The masks (R370) -/

theorem smask_iff : l.smask lim = true ↔ 2 * |l.p0 - l.q0| + |l.p1 - l.q1| / 2 ≤ lim.e := by
  simp only [Line.smask, decide_eq_true_eq, Int.abs_eq_natAbs]
  omega

theorem natAbs_le_iff {v : Int} {n : Nat} : v.natAbs ≤ n ↔ |v| ≤ n := by
  rw [Int.abs_eq_natAbs, Int.ofNat_le]

theorem nmask_iff : l.nmask lim = true ↔ 2 * |l.p0 - l.q0| + |l.p1 - l.q1| / 2 ≤ lim.e ∧ |l.p3 - l.p2| ≤ lim.i ∧
    |l.p2 - l.p1| ≤ lim.i ∧ |l.p1 - l.p0| ≤ lim.i ∧ |l.q1 - l.q0| ≤ lim.i ∧ |l.q2 - l.q1| ≤ lim.i ∧
    |l.q3 - l.q2| ≤ lim.i := by
  simp only [Line.nmask, Bool.and_eq_true, smask_iff, decide_eq_true_eq, natAbs_le_iff, and_assoc]

theorem hev_iff : l.hev lim = true ↔ lim.t < |l.p1 - l.p0| ∨ lim.t < |l.q1 - l.q0| := by
  simp only [Line.hev, Bool.or_eq_true, decide_eq_true_eq, Int.abs_eq_natAbs, Int.ofNat_lt]

/-! ## The cases of the filters (R371, R373) -/

theorem run_simple_of_smask (h : l.smask lim = true) : EdgeKind.simple.run lim l = l.common true := if_pos h

theorem run_simple_of_not_smask (h : ¬l.smask lim = true) : EdgeKind.simple.run lim l = l := if_neg h

theorem run_of_hev (hk : k ≠ .simple) (h : l.nmask lim = true) (hhev : l.hev lim = true) :
    k.run lim l = l.common true := by
  cases k with
  | simple => exact absurd rfl hk
  | mbEdge | inner => exact (if_pos h).trans (if_pos hhev)

theorem run_of_not_nmask (hk : k ≠ .simple) (h : ¬l.nmask lim = true) : k.run lim l = l := by
  cases k with
  | simple => exact absurd rfl hk
  | mbEdge | inner => exact if_neg h

/-- The further adjustment of the inner filter. -/
def Line.innerAdjusted (l : Line) : Line :=
  { l.common false with
    q1 := clamp255 (l.q1 - asr (l.commonF1 false + 1) 1), p1 := clamp255 (l.p1 + asr (l.commonF1 false + 1) 1) }

/-- A tap's share of the macroblock-edge filter. -/
def Line.tapShare (l : Line) (n : Int) : Int := asr (n * c8 (c8 (l.p1 - l.q1) + 3 * (l.q0 - l.p0)) + 63) 7

/-- The adjustments of the macroblock-edge filter. -/
def Line.mbAdjusted (l : Line) : Line :=
  { l with
    q0 := clamp255 (l.q0 - l.tapShare 27), p0 := clamp255 (l.p0 + l.tapShare 27)
    q1 := clamp255 (l.q1 - l.tapShare 18), p1 := clamp255 (l.p1 + l.tapShare 18)
    q2 := clamp255 (l.q2 - l.tapShare 9), p2 := clamp255 (l.p2 + l.tapShare 9) }

theorem run_inner_of_not_hev (h : l.nmask lim = true) (hhev : ¬l.hev lim = true) :
    EdgeKind.inner.run lim l = l.innerAdjusted := (if_pos h).trans (if_neg hhev)

theorem run_mbEdge_of_not_hev (h : l.nmask lim = true) (hhev : ¬l.hev lim = true) :
    EdgeKind.mbEdge.run lim l = l.mbAdjusted := (if_pos h).trans (if_neg hhev)

/-- What a filter can make of a line: by its masks it is left alone, changed in the middle, or adjusted further. -/
theorem run_cases (k : EdgeKind) (lim : Limits) (l : Line) : k.run lim l = l ∨ k.run lim l = l.common true ∨
    k = .inner ∧ k.run lim l = l.innerAdjusted ∨ k = .mbEdge ∧ k.run lim l = l.mbAdjusted := by
  by_cases hk : k = .simple
  · subst hk
    by_cases h : l.smask lim = true
    · exact .inr (.inl (run_simple_of_smask h))
    · exact .inl (run_simple_of_not_smask h)
  · by_cases h : l.nmask lim = true
    · by_cases hhev : l.hev lim = true
      · exact .inr (.inl (run_of_hev hk h hhev))
      · cases k with
        | simple => exact absurd rfl hk
        | inner => exact .inr (.inr (.inl ⟨rfl, run_inner_of_not_hev h hhev⟩))
        | mbEdge => exact .inr (.inr (.inr ⟨rfl, run_mbEdge_of_not_hev h hhev⟩))
    · exact .inl (run_of_not_nmask hk h)

/-! ## Which pixels a filter changes, and into what -/

/-- Each pixel of `m` is that of `l`, or it is one of the places `is` and clamped. -/
def Line.ChangedTo (l : Line) (is : List Nat) (m : Line) : Prop :=
  ∀ i, m.at i = l.at i ∨ i ∈ is ∧ ∃ v, m.at i = clamp255 v

theorem common_changed (outer : Bool) (l : Line) : l.ChangedTo [3, 4] (l.common outer) := by
  intro i
  match i with
  | 3 | 4 => exact .inr ⟨by decide, _, rfl⟩
  | 0 | 1 | 2 | 5 | 6 | _ + 7 => exact .inl rfl

theorem innerAdjusted_changed (l : Line) : l.ChangedTo [2, 3, 4, 5] l.innerAdjusted := by
  intro i
  match i with
  | 2 | 3 | 4 | 5 => exact .inr ⟨by decide, _, rfl⟩
  | 0 | 1 | 6 | _ + 7 => exact .inl rfl

theorem mbAdjusted_changed (l : Line) : l.ChangedTo [1, 2, 3, 4, 5, 6] l.mbAdjusted := by
  intro i
  match i with
  | 1 | 2 | 3 | 4 | 5 | 6 => exact .inr ⟨by decide, _, rfl⟩
  | 0 | _ + 7 => exact .inl rfl

theorem Line.ChangedTo.mono {is js : List Nat} (h : l.ChangedTo is m) (hsub : is ⊆ js) : l.ChangedTo js m :=
  fun i => (h i).imp_right fun hi => ⟨hsub hi.1, hi.2⟩

theorem middle_sub_writes (k : EdgeKind) : [3, 4] ⊆ k.writes := by cases k <;> decide

theorem run_changed (k : EdgeKind) (lim : Limits) (l : Line) : l.ChangedTo k.writes (k.run lim l) := by
  obtain h | h | ⟨rfl, h⟩ | ⟨rfl, h⟩ := run_cases k lim l <;> rw [h]
  · exact fun _ => .inl rfl
  · exact (common_changed true l).mono (middle_sub_writes k)
  · exact innerAdjusted_changed l
  · exact mbAdjusted_changed l

theorem run_at_of_not_writes {i : Nat} (hi : i ∉ k.writes) : (k.run lim l).at i = l.at i :=
  (run_changed k lim l i).resolve_right fun h => hi h.1

theorem run_at_mem {i : Nat} (h : 0 ≤ l.at i ∧ l.at i ≤ 255) :
    0 ≤ (k.run lim l).at i ∧ (k.run lim l).at i ≤ 255 := by
  obtain hsame | ⟨-, v, hv⟩ := run_changed k lim l i
  · rwa [hsame]
  · rw [hv]
    exact ⟨le_clamp v 0 255, clamp_le (by decide)⟩

/-! ## A flat line -/

/-- The line of eight equal pixels. -/
def flatLine (c : Int) : Line := ⟨c, c, c, c, c, c, c, c⟩

theorem flatLine_at (c : Int) (i : Nat) : (flatLine c).at i = c := by
  match i with
  | 0 | 1 | 2 | 3 | 4 | 5 | 6 | _ + 7 => rfl

theorem Line.eq_of_at (h : ∀ i < 8, l.at i = m.at i) : l = m := by
  obtain ⟨p3, p2, p1, p0, q0, q1, q2, q3⟩ := l
  rw [Line.mk.injEq]
  exact ⟨h 0 (by decide), h 1 (by decide), h 2 (by decide), h 3 (by decide), h 4 (by decide), h 5 (by decide),
    h 6 (by decide), h 7 (by decide)⟩

theorem eq_flatLine (h : ∀ i < 8, l.at i = l.p0) : l = flatLine l.p0 :=
  Line.eq_of_at fun i hi => (h i hi).trans (flatLine_at _ i).symm

theorem commonA_flatLine (outer : Bool) (c : Int) : (flatLine c).commonA outer = 0 := by
  cases outer <;> simp [flatLine, Line.commonA, c8, clamp]

theorem tapShare_flatLine {n : Int} (c : Int) : (flatLine c).tapShare n = 0 := by
  simp [flatLine, Line.tapShare, c8, clamp, asr]

section
variable {c : Int} (hc : 0 ≤ c ∧ c ≤ 255)
include hc

/-- A pixel is not changed by an adjustment of 0. -/
theorem clamp255_pixel : clamp255 (c - 0) = c ∧ clamp255 (c + 0) = c := by
  rw [Int.sub_zero, Int.add_zero, and_self]
  exact clamp_of_mem hc.1 hc.2

theorem common_flatLine (outer : Bool) : (flatLine c).common outer = flatLine c := by
  have hf1 : (flatLine c).commonF1 outer = 0 := by rw [Line.commonF1, commonA_flatLine]; rfl
  have hf2 : asr (c8 ((flatLine c).commonA outer + 3)) 3 = 0 := by rw [commonA_flatLine]; rfl
  rw [Line.common, hf1, hf2]
  simp only [flatLine, clamp255_pixel hc]

theorem innerAdjusted_flatLine : (flatLine c).innerAdjusted = flatLine c := by
  have hhalf : asr ((flatLine c).commonF1 false + 1) 1 = 0 := by rw [Line.commonF1, commonA_flatLine]; rfl
  rw [Line.innerAdjusted, common_flatLine hc, hhalf]
  simp only [flatLine, clamp255_pixel hc]

theorem mbAdjusted_flatLine : (flatLine c).mbAdjusted = flatLine c := by
  simp only [Line.mbAdjusted, tapShare_flatLine]
  simp only [flatLine, clamp255_pixel hc]

theorem run_flatLine (k : EdgeKind) (lim : Limits) : k.run lim (flatLine c) = flatLine c := by
  obtain h | h | ⟨-, h⟩ | ⟨-, h⟩ := run_cases k lim (flatLine c) <;> rw [h]
  · exact common_flatLine hc true
  · exact innerAdjusted_flatLine hc
  · exact mbAdjusted_flatLine hc

end

/-- Settles O50: each mask chooses its case of the filter; each case changes pixels of the filter's own into clamped
values, and a flat line into itself. -/
theorem lfFiltersAreBounded : Obligations.LfFiltersAreBounded := by
  unfold Obligations.LfFiltersAreBounded
  intro k lim l hl c8 c255 smask nmask hev a f1 f2 common half w part
  refine ⟨?_, fun hk => ⟨fun hm hh => ?_, fun hm => ?_⟩, ?_, ?_, fun i hi => run_at_mem (hl i hi),
    fun i _ => run_at_of_not_writes, fun hflat => ?_⟩
  · rintro rfl
    exact ⟨fun hm => run_simple_of_smask (smask_iff.2 hm), fun hm => run_simple_of_not_smask (mt smask_iff.1 hm)⟩
  · exact run_of_hev hk (nmask_iff.2 hm) (hev_iff.2 hh)
  · exact run_of_not_nmask hk (mt nmask_iff.1 hm)
  · rintro rfl hm hh
    exact run_inner_of_not_hev (nmask_iff.2 hm) (mt hev_iff.1 hh)
  · rintro rfl hm hh
    exact run_mbEdge_of_not_hev (nmask_iff.2 hm) (mt hev_iff.1 hh)
  · rw [eq_flatLine hflat]
    exact run_flatLine (hl 3 (by decide)) k lim

/-! ## The places of an edge (R369) -/

theorem writes_sub_reads (k : EdgeKind) : k.writes ⊆ k.reads := by cases k <;> decide

section
variable {i j a b : Nat} (hin : s.edgeInside e)
include hin

theorem State.edgeInside.column_lt (hj : j < e.len) (hi : i ∈ e.kind.reads) : e.px j i < 16384 := by
  obtain ⟨-, -, h⟩ := hin
  exact (h j hj i hi).2.1.trans_le (planeW_le s e.p)

/-- No two pixels that the filter reads stand at one place. -/
theorem State.edgeInside.place_inj (hj : j < e.len) (ha : a < e.len) (hi : i ∈ e.kind.reads) (hb : b ∈ e.kind.reads)
    (hx : e.px j i = e.px a b) (hy : e.py j i = e.py a b) : j = a ∧ i = b := by
  obtain ⟨-, -, h⟩ := hin
  have hi := (h j hj i hi).1
  have hb := (h a ha b hb).1
  unfold Edge.px at hx
  unfold Edge.py at hy
  split_ifs at hx hy hi hb <;> omega

end

/-! ## One line (R369) -/

/-- The state after line `j` across the edge was stored as `l`. -/
def State.writeLine (s : State) (slot : Nat) (e : Edge) (j : Nat) (l : Line) : State :=
  s.setPlane slot e.p (Memory.setAll (s.plane slot e.p) (e.stores j l))

theorem pix_setAll {n p q x y : Nat} (ps : List (Nat × Byte)) (hn : slot < 4) (hp : p < 3) (hq : q < 3) :
    (s.setPlane slot p (Memory.setAll (s.plane slot p) ps)).pix n q x y =
      if n = slot ∧ q = p then (Memory.find ps (pixKey x y)).or (s.pix n q x y) else s.pix n q x y := by
  unfold State.pix
  rw [State.plane_setPlane _ _ _ _ _ _ hn hp hq]
  split
  case isTrue h => rw [Memory.find_setAll, h.1, h.2]
  case isFalse => rfl

section
variable {i j : Nat} (hn : slot < 4) (hp : e.p < 3) (hin : s.edgeInside e) (hj : j < e.len)
include hn hp hin hj

theorem pix_writeLine (l : Line) (hi : i ∈ e.kind.writes) :
    (s.writeLine slot e j l).pix slot e.p (e.px j i) (e.py j i) = some (toPix (l.at i)) := by
  have hread := writes_sub_reads e.kind hi
  have hfind : Memory.find (e.stores j l) (pixKey (e.px j i) (e.py j i)) = some (toPix (l.at i)) := by
    refine Memory.find_of_mem (List.mem_map.2 ⟨i, hi, rfl⟩) fun q hq hkey => ?_
    obtain ⟨b, hb, rfl⟩ := List.mem_map.1 hq
    have hbread := writes_sub_reads e.kind hb
    obtain ⟨hx, hy⟩ := pixKey_inj (hin.column_lt hj hbread) (hin.column_lt hj hread) hkey
    rw [(hin.place_inj hj hj hbread hread hx hy).2]
  rw [State.writeLine, pix_setAll _ hn hp hp, if_pos ⟨rfl, rfl⟩, hfind, Option.some_or]

theorem writeLine_written (l : Line) : PixelsWritten slot
    (fun p x y => p = e.p ∧ ∃ i ∈ e.kind.writes, x = e.px j i ∧ y = e.py j i) s (s.writeLine slot e j l) where
  only n p x y hq hx hP := by
    rw [State.writeLine, pix_setAll _ hn hp hq]
    split
    case isTrue h =>
      rw [Memory.find_eq_none, Option.none_or]
      intro q hq hkey
      obtain ⟨i, hi, rfl⟩ := List.mem_map.1 hq
      obtain ⟨hcol, hrow⟩ := pixKey_inj (hin.column_lt hj (writes_sub_reads e.kind hi)) hx hkey
      exact hP ⟨h.1, h.2, i, hi, hcol.symm, hrow.symm⟩
    case isFalse => rfl
  frame := rfl

end

/-! ## The line that a filter sees -/

theorem reads_place (px : List Byte) {i : Nat} (hi : i ∈ k.reads) :
    ∃ n : Nat, k.reads[n]? = some i ∧ (k.line px).at i = pixInt (px[n]?.getD 0) := by
  cases k with
  | simple =>
    refine ⟨i - 2, ?_⟩
    fin_cases hi <;> exact ⟨rfl, rfl⟩
  | mbEdge | inner =>
    refine ⟨i, ?_⟩
    fin_cases hi <;> exact ⟨rfl, rfl⟩

/-- Each pixel that the filter reads is the one at its place. -/
theorem line_at_of_collected {f : Nat → Option Byte} {px : List Byte} (h : k.reads.map f = px.map some) {i : Nat}
    (hi : i ∈ k.reads) : (k.line px).at i = pixInt ((f i).getD 0) := by
  obtain ⟨n, hn, hat⟩ := reads_place px hi
  have hread : some (f i) = px[n]?.map some := by
    rw [← List.getElem?_map, ← h, List.getElem?_map, hn, Option.map_some]
  obtain ⟨v, hv, hf⟩ := Option.map_eq_some_iff.1 hread.symm
  rw [hat, hv, ← hf]

theorem lineAt_at (s : State) (slot : Nat) (e : Edge) (j : Nat) {i : Nat} (hi : i < 8) :
    (s.lineAt slot e j).at i = pixInt ((s.pix slot e.p (e.px j i) (e.py j i)).getD 0) := by
  interval_cases i <;> rfl

/-- A filter looks at the pixels that it reads alone. -/
theorem run_at_congr (h : ∀ i ∈ k.reads, l.at i = m.at i) {i : Nat} (hi : i ∈ k.writes) :
    (k.run lim l).at i = (k.run lim m).at i := by
  cases k with
  | simple =>
    obtain ⟨p3, p2, p1, p0, q0, q1, q2, q3⟩ := m
    obtain rfl := h 2 (by decide)
    obtain rfl := h 3 (by decide)
    obtain rfl := h 4 (by decide)
    obtain rfl := h 5 (by decide)
    show (if l.smask lim then l.common true else l).at i = (if l.smask lim then _ else _ : Line).at i
    split <;> fin_cases hi <;> rfl
  | mbEdge | inner =>
    have hlm : l = m := Line.eq_of_at fun i hi => h i (by interval_cases i <;> decide)
    rw [hlm]

theorem toPix_of_mem {v : Int} (h : 0 ≤ v ∧ v ≤ 255) : toPix v = BitVec.ofInt 8 v :=
  congrArg (BitVec.ofInt 8) (clamp_of_mem h.1 h.2)

theorem pixInt_mem (q : Byte) : 0 ≤ pixInt q ∧ pixInt q ≤ 255 := by unfold pixInt; omega

theorem writes_lt {i : Nat} (hi : i ∈ k.writes) : i < 8 := reads_lt (writes_sub_reads k hi)

theorem toPix_run_lineAt (s : State) (slot : Nat) (e : Edge) (j : Nat) {i : Nat} (hi : i ∈ e.kind.writes) :
    toPix ((e.kind.run e.lim (s.lineAt slot e j)).at i) =
      BitVec.ofInt 8 ((e.kind.run e.lim (s.lineAt slot e j)).at i) := by
  refine toPix_of_mem (run_at_mem ?_)
  rw [lineAt_at _ _ _ _ (writes_lt hi)]
  exact pixInt_mem _

/-! ## One edge (R369, R372, R374) -/

/-- The pixels of line `j` that the filter of the edge reads are specified. -/
def State.LineKnown (s : State) (slot : Nat) (e : Edge) (j : Nat) : Prop :=
  ∀ i ∈ e.kind.reads, (s.pix slot e.p (e.px j i) (e.py j i)).isSome = true

theorem edgeStep_ok {j : Nat} (hknown : s.LineKnown slot e j) :
    ∃ l, edgeStep slot e s j = .ok (s.writeLine slot e j (e.kind.run e.lim l)) ∧
      ∀ i ∈ e.kind.reads, l.at i = (s.lineAt slot e j).at i := by
  obtain ⟨px, hpx, hmap⟩ := collect_ok (f := .pixelUnspecified)
    (l := e.kind.reads.map fun i => s.pix slot e.p (e.px j i) (e.py j i)) (List.forall_mem_map.2 hknown)
  refine ⟨e.kind.line px, by rw [edgeStep, hpx]; rfl, fun i hi => ?_⟩
  rw [line_at_of_collected hmap hi, lineAt_at _ _ _ _ (reads_lt hi)]

theorem edgeFiltered_iff : EdgeFiltered slot e s t ↔ (∀ j < e.len, ∀ i ∈ e.kind.writes,
    t.pix slot e.p (e.px j i) (e.py j i) = some (BitVec.ofInt 8 ((e.kind.run e.lim (s.lineAt slot e j)).at i))) ∧
    PixelsWritten slot (fun p x y => p = e.p ∧ e.writesPixel x y) s t :=
  and_congr_right fun _ => ⟨fun ⟨ho, hf⟩ => ⟨ho, hf⟩, fun ⟨ho, hf⟩ => ⟨ho, hf⟩⟩

/-- The first `n` lines of an edge. -/
def Edge.upTo (e : Edge) (n : Nat) : Edge := { e with len := n }

theorem lfEdge_upTo_succ (slot : Nat) (s : State) (e : Edge) (n : Nat) :
    lfEdge slot s (e.upTo (n + 1)) = lfEdge slot s (e.upTo n) >>= fun u => edgeStep slot e u n := by
  show (List.range (n + 1)).foldlM _ s = _
  rw [List.range_succ, List.foldlM_append]
  refine congrArg _ (funext fun u => ?_)
  rw [List.foldlM_cons]
  exact bind_pure _

theorem State.edgeInside.of_cr (h : s.edgeInside e) (hcr : t.cr = s.cr) : t.edgeInside e := by
  unfold State.edgeInside at h ⊢
  rwa [planeW_of_cr hcr, planeH_of_cr hcr]

section
variable (hn : slot < 4) (hp : e.p < 3) (hin : s.edgeInside e)
include hp hin

/-- The lines before it leave the pixels of a line alone. -/
theorem pix_line_of_filtered {n i : Nat} (hnext : n < e.len) (h : EdgeFiltered slot (e.upTo n) s u)
    (hi : i ∈ e.kind.reads) : u.pix slot e.p (e.px n i) (e.py n i) = s.pix slot e.p (e.px n i) (e.py n i) := by
  refine (edgeFiltered_iff.1 h).2.only slot e.p _ _ hp (hin.column_lt hnext hi) ?_
  rintro ⟨-, -, j, hj, b, hb, hx, hy⟩
  obtain ⟨rfl, -⟩ := hin.place_inj hnext (hj.trans hnext) hi (writes_sub_reads _ hb) hx hy
  exact Nat.lt_irrefl n hj

include hn

/-- One line more. -/
theorem edgeFiltered_succ {n : Nat} (hnext : n < e.len) (h : EdgeFiltered slot (e.upTo n) s u)
    (hl : ∀ i ∈ e.kind.reads, l.at i = (s.lineAt slot e n).at i) :
    EdgeFiltered slot (e.upTo (n + 1)) s (u.writeLine slot e n (e.kind.run e.lim l)) := by
  obtain ⟨hlines, hw⟩ := edgeFiltered_iff.1 h
  have hinu := hin.of_cr hw.cr
  have hwline := writeLine_written hn hp hinu hnext (e.kind.run e.lim l)
  refine edgeFiltered_iff.2 ⟨fun j hj i hi => ?_, (hw.mono ?_).trans (hwline.mono ?_)⟩
  · have hread := writes_sub_reads _ hi
    obtain hlt | rfl := Nat.lt_succ_iff_lt_or_eq.1 hj
    · refine (hwline.only slot e.p _ _ hp (hin.column_lt (hlt.trans hnext) hread) ?_).trans (hlines j hlt i hi)
      rintro ⟨-, -, b, hb, hx, hy⟩
      obtain ⟨rfl, -⟩ := hin.place_inj (hlt.trans hnext) hnext hread (writes_sub_reads _ hb) hx hy
      exact Nat.lt_irrefl j hlt
    · refine (pix_writeLine hn hp hinu hnext _ hi).trans ?_
      rw [run_at_congr hl hi]
      exact congrArg some (toPix_run_lineAt s slot e j hi)
  · rintro _ x y ⟨rfl, j, hj, hplace⟩
    exact ⟨rfl, j, Nat.lt_succ_of_lt hj, hplace⟩
  · rintro _ x y ⟨rfl, hplace⟩
    exact ⟨rfl, n, Nat.lt_succ_self n, hplace⟩

variable (hknown : ∀ j < e.len, s.LineKnown slot e j)
include hknown

theorem lfEdge_upTo_filtered (n : Nat) (hlen : n ≤ e.len) :
    ∃ t, lfEdge slot s (e.upTo n) = .ok t ∧ EdgeFiltered slot (e.upTo n) s t := by
  induction n with
  | zero => exact ⟨s, rfl, edgeFiltered_iff.2 ⟨fun _ hj => absurd hj (Nat.not_lt_zero _), .refl slot _ s⟩⟩
  | succ n ih =>
    obtain ⟨u, hu, hfiltered⟩ := ih (Nat.le_of_succ_le hlen)
    have hsame {i : Nat} := pix_line_of_filtered (i := i) hp hin hlen hfiltered
    obtain ⟨l, hstep, hl⟩ := edgeStep_ok (s := u) fun i hi =>
      (congrArg Option.isSome (hsame hi)).trans (hknown n hlen i hi)
    refine ⟨_, by rw [lfEdge_upTo_succ, hu]; exact hstep, edgeFiltered_succ hn hp hin hlen hfiltered fun i hi => ?_⟩
    rw [hl i hi, lineAt_at _ _ _ _ (reads_lt hi), hsame hi, lineAt_at _ _ _ _ (reads_lt hi)]

theorem lfEdge_filtered : ∃ t, lfEdge slot s e = .ok t ∧ EdgeFiltered slot e s t :=
  lfEdge_upTo_filtered hn hp hin hknown e.len le_rfl

end

/-! ## The three edge commands (R372, R374, R375) -/

/-- An edge command whose operands are in range goes on to the check of its edge. -/
theorem exec_edgeInstr {plane dir : Byte} (hplane : plane.toNat ≤ if k = .simple then 0 else 2)
    (hdir : dir.toNat ≤ 1) (s : State) : exec (edgeInstr k plane dir) s =
    finish s (require (s.okEdge (s.argEdge k plane dir)) .badOperand >>= fun _ =>
      needSlot s.curSlot >>= fun slot => lfEdge slot s (s.argEdge k plane dir)) := by
  cases k with
  | simple =>
    have hfields : okSimpleEdge plane dir = true := by simpa [okSimpleEdge, hdir] using hplane
    exact finish_require_true hfields
  | mbEdge | inner =>
    have hfields : okNormalEdge plane dir = true := by simpa [okNormalEdge, hdir] using hplane
    exact finish_require_true hfields

/-- Settles O49: the lines of the edge one after the other, no line storing a pixel that another one reads. -/
theorem lfEdgeResults : Obligations.LfEdgeResults := by
  unfold Obligations.LfEdgeResults
  intro k plane dir s hplane hdir e
  have hp : e.p < 3 := Nat.lt_succ_of_le (hplane.trans (by split <;> decide))
  have hexec := exec_edgeInstr hplane hdir s
  refine ⟨⟨rfl, rfl, rfl, rfl, rfl, rfl, rfl⟩, fun slot hcur hin hknown => ?_, fun hin => ?_⟩
  · obtain ⟨t, ht, hlines, honly, hframe⟩ := lfEdge_filtered (slotOf_lt hcur) hp hin hknown
    refine ⟨t.done, hexec.trans ((finish_require_true ((edgeInside_iff s e).1 hin)).trans ?_), hlines, honly,
      congrArg State.done hframe⟩
    rw [hcur, needSlot_some, Res.ok_bind, ht]
    rfl
  · rw [edgeInside_iff, Bool.not_eq_true] at hin
    exact hexec.trans (finish_require_false hin)

/-! ## Edges one after the other (R376) -/

theorem EdgesFiltered.append {a b : List Edge} (h : EdgesFiltered slot a s t) (g : EdgesFiltered slot b t u) :
    EdgesFiltered slot (a ++ b) s u := by
  induction a generalizing s with
  | nil => exact h ▸ g
  | cons e a ih =>
    obtain ⟨v, hv, h⟩ := h
    exact ⟨v, hv, ih h⟩

theorem EdgesFiltered.written {es : List Edge} (h : EdgesFiltered slot es s t) :
    PixelsWritten slot (fun p x y => ∃ e ∈ es, p = e.p ∧ e.writesPixel x y) s t := by
  induction es generalizing s with
  | nil =>
    obtain rfl : t = s := h
    exact .refl slot _ t
  | cons e es ih =>
    obtain ⟨u, hu, h⟩ := h
    refine ((edgeFiltered_iff.1 hu).2.mono ?_).trans ((ih h).mono ?_)
    · exact fun p x y hp => ⟨e, List.mem_cons_self, hp⟩
    · rintro p x y ⟨a, ha, hp⟩
      exact ⟨a, List.mem_cons_of_mem _ ha, hp⟩

/-- `run`, begun in `s`, completes and filters the edges `es` in their order; every pixel of the slot is then
specified. -/
def Filters (slot : Nat) (es : List Edge) (s : State) (run : Res State) : Prop :=
  ∃ t, run = .ok t ∧ EdgesFiltered slot es s t ∧ t.SlotKnown slot

theorem Filters.nil (hknown : s.SlotKnown slot) : Filters slot [] s (.ok s) := ⟨s, rfl, rfl, hknown⟩

theorem Filters.bind {a b : List Edge} {run : Res State} {f : State → Res State} (h : Filters slot a s run)
    (hf : ∀ t, t = { s with fb := t.fb } → t.SlotKnown slot → Filters slot b t (f t)) :
    Filters slot (a ++ b) s (run >>= f) := by
  obtain ⟨t, rfl, hes, hknown⟩ := h
  obtain ⟨u, hu, hes', hknown'⟩ := hf t hes.written.frame hknown
  exact ⟨u, hu, hes.append hes', hknown'⟩

theorem lfEdge_filters (hn : slot < 4) (hp : e.p < 3) (hin : s.edgeInside e) (hknown : s.SlotKnown slot) :
    Filters slot [e] s (lfEdge slot s e) := by
  have ⟨_, _, hplaces⟩ := hin
  obtain ⟨t, ht, hfiltered⟩ := lfEdge_filtered hn hp hin fun j hj i hi =>
    hknown e.p hp _ _ (hplaces j hj i hi).2.1 (hplaces j hj i hi).2.2
  exact ⟨t, ht, ⟨t, hfiltered, rfl⟩, hknown.after ((lfEdge_effects hp ht).mono (tagsPlane_sub slot))⟩

theorem lfEdges_filters {es : List Edge} (hn : slot < 4) (hes : ∀ e ∈ es, e.p < 3 ∧ s.edgeInside e)
    (hknown : s.SlotKnown slot) : Filters slot es s (es.foldlM (lfEdge slot) s) := by
  induction es generalizing s with
  | nil => exact .nil hknown
  | cons e es ih =>
    obtain ⟨⟨hp, hin⟩, hrest⟩ := List.forall_mem_cons.1 hes
    rw [List.foldlM_cons]
    refine (lfEdge_filters hn hp hin hknown).bind fun t ht hk => ih (fun a ha => ?_) hk
    exact ⟨(hrest a ha).1, (hrest a ha).2.of_cr (by rw [ht])⟩

/-! ## The edges of a macroblock (R376 to R380) -/

theorem lfSequence_eq (simple : Bool) (r : LfpRec) (mx my : Nat) :
    lfSequence simple r mx my = if r.level = 0 then [] else mbEdges simple r mx my := rfl

/-- The kinds of edges of a macroblock: one on its border, which is not the frame's, or one inside. -/
theorem mem_mbEdges {simple : Bool} {r : LfpRec} {mx my : Nat} (h : e ∈ mbEdges simple r mx my) :
    (∃ dir p, (if dir = 0 then 0 < mx else 0 < my) ∧ e = outerEdge simple r dir mx my p) ∨
      ∃ dir p off, off ∈ innerOffsets p ∧ e = interiorEdge simple r dir mx my p off := by
  have houter {dir : Nat} (h : e ∈ outerEdges simple r dir mx my) : ∃ p, e = outerEdge simple r dir mx my p := by
    obtain ⟨p, -, rfl⟩ := List.mem_map.1 h
    exact ⟨p, rfl⟩
  have hinner {dir : Nat} (h : e ∈ interiorEdges simple r dir mx my) :
      ∃ dir p off, off ∈ innerOffsets p ∧ e = interiorEdge simple r dir mx my p off := by
    obtain ⟨p, -, h⟩ := List.mem_flatMap.1 (List.mem_ite_nil_right.1 h).2
    obtain ⟨off, hoff, rfl⟩ := List.mem_map.1 h
    exact ⟨dir, p, off, hoff, rfl⟩
  simp only [mbEdges, List.mem_append, List.mem_ite_nil_right] at h
  obtain (⟨hpos, h⟩ | h) | ⟨hpos, h⟩ | h := h
  · exact .inl ⟨0, (houter h).imp fun p hp => ⟨hpos, hp⟩⟩
  · exact .inr (hinner h)
  · exact .inl ⟨1, (houter h).imp fun p hp => ⟨hpos, hp⟩⟩
  · exact .inr (hinner h)

theorem lfSize_bounds (p : Nat) : 4 ≤ lfSize p ∧ lfSize p ≤ 16 := by
  unfold lfSize
  split <;> decide

theorem innerOffsets_ge {p off : Nat} (h : off ∈ innerOffsets p) : 4 ≤ off := by
  unfold innerOffsets at h
  split at h <;> fin_cases h <;> decide

/-- An edge of a macroblock starts where its filter finds its pixels, and has a legal length. -/
theorem mbEdges_place {simple : Bool} {r : LfpRec} {mx my : Nat} (h : e ∈ mbEdges simple r mx my) :
    1 ≤ e.len ∧ e.len ≤ 16 ∧ 4 ≤ if e.dir = 0 then e.x else e.y := by
  obtain ⟨dir, p, hpos, rfl⟩ | ⟨dir, p, off, hoff, rfl⟩ := mem_mbEdges h
  · obtain ⟨hge, hle⟩ := lfSize_bounds p
    have hplace {n : Nat} (hn : 0 < n) : 4 ≤ lfSize p * n := hge.trans (Nat.le_mul_of_pos_right _ hn)
    refine ⟨(by decide : 1 ≤ 4).trans hge, hle, ?_⟩
    show 4 ≤ if dir = 0 then lfSize p * mx else lfSize p * my
    split_ifs at hpos ⊢ <;> exact hplace hpos
  · obtain ⟨hge, hle⟩ := lfSize_bounds p
    have hoff := innerOffsets_ge hoff
    refine ⟨(by decide : 1 ≤ 4).trans hge, hle, ?_⟩
    simp only [interiorEdge]
    split <;> omega

theorem mbEdges_edgeInside {simple : Bool} {r : LfpRec} {mx my : Nat} (hx : mx < s.mbW) (hy : my < s.mbH)
    (h : e ∈ mbEdges simple r mx my) : s.edgeInside e := by
  obtain ⟨hlen, hlen', hplace⟩ := mbEdges_place h
  refine ⟨hlen, hlen', fun j hj i hi => ?_⟩
  obtain ⟨hcol, hrow⟩ := mbEdges_inside h hx hj (reads_lt hi)
  have hheight : mbSize e.p * (my + 1) ≤ s.planeH e.p := by
    unfold mbSize State.planeH
    split <;> omega
  exact ⟨hplace.trans (Nat.le_add_right _ i), hcol, hrow.trans_le hheight⟩

/-! ## A macroblock and a row (R380, R382) -/

section
variable {r : LfpRec} {mx my : Nat} (hr : Memory.find s.lfp mx = some r)
include hr

theorem lfMbAt_eq : lfMbAt slot my s mx = (lfSequence (s.crBit 6 0) r mx my).foldlM (lfEdge slot) s := by
  rw [lfMbAt, hr, need_some, Res.ok_bind, lfSequence_eq]
  split <;> rfl

theorem lfMbAt_of_level_zero (h : r.level = 0) : lfMbAt slot my s mx = .ok s := by
  rw [lfMbAt_eq hr, lfSequence_eq, if_pos h]
  rfl

variable (hn : slot < 4) (hy : my < s.mbH) (hknown : s.SlotKnown slot)
include hn hy hknown

theorem lfMbAt_filters (hx : mx < s.mbW) :
    Filters slot (lfSequence (s.crBit 6 0) r mx my) s (lfMbAt slot my s mx) := by
  rw [lfMbAt_eq hr]
  refine lfEdges_filters hn (fun e he => ?_) hknown
  rw [lfSequence_eq, List.mem_ite_nil_left] at he
  exact ⟨mbEdges_plane he.2, mbEdges_edgeInside hx hy he.2⟩

end

theorem lfMbs_filters {r : Nat → LfpRec} {my : Nat} {xs : List Nat} (hn : slot < 4) (hy : my < s.mbH)
    (hxs : ∀ x ∈ xs, x < s.mbW ∧ Memory.find s.lfp x = some (r x)) (hknown : s.SlotKnown slot) :
    Filters slot (xs.flatMap fun x => lfSequence (s.crBit 6 0) (r x) x my) s (xs.foldlM (lfMbAt slot my) s) := by
  induction xs generalizing s with
  | nil => exact .nil hknown
  | cons x xs ih =>
    obtain ⟨⟨hx, hr⟩, hrest⟩ := List.forall_mem_cons.1 hxs
    rw [List.foldlM_cons, List.flatMap_cons]
    refine (lfMbAt_filters hr hn hy hknown hx).bind fun t ht hk => ?_
    have hcr : t.cr = s.cr := by rw [ht]
    have hlfp : t.lfp = s.lfp := by rw [ht]
    rw [← crBit_of_cr hcr]
    exact ih (by rwa [mbH_of_cr hcr]) (by rwa [mbW_of_cr hcr, hlfp]) hk

/-- A row of macroblocks of level 0. -/
theorem lfRow_of_level_zero (h : ∀ x < s.mbW, ∃ r, Memory.find s.lfp x = some r ∧ r.level = 0) :
    lfRow slot s = .ok s := by
  obtain ⟨t, ht, rfl⟩ := foldlM_completes (P := (· = s)) (f := lfMbAt slot s.mby) (l := List.range s.mbW)
    (by
      rintro u rfl x hx
      obtain ⟨r, hr, hlevel⟩ := h x (List.mem_range.1 hx)
      exact ⟨u, lfMbAt_of_level_zero hr hlevel, rfl⟩) rfl
  exact ht

section
variable (hy : s.mby < s.mbH) (hcur : s.curSlot = some slot)
include hy hcur

theorem exec_lfRow : exec .lfRow s = finish s (lfRow slot s) := by
  refine (finish_require_true (decide_eq_true hy)).trans ?_
  rw [hcur]
  rfl

theorem exec_lfMb (hx : s.mbx < s.mbW) : exec .lfMb s = finish s (lfMbAt slot s.mby s s.mbx) := by
  have hpos : s.posOk = true := by simp [State.posOk, hx, hy]
  exact State.ItOk.finish_checks ⟨hpos, hcur⟩ _

end

/-- A command whose work filters the edges `es`. -/
theorem Filters.answers {es : List Edge} {run : Res State} {i : Instr} (h : Filters slot es s run)
    (hexec : exec i s = finish s run) :
    ∃ t, EdgesFiltered slot es s t ∧ exec i s = .next t.done ∧ t.SlotKnown slot ∧
      onlyPixels slot (fun p x y => ∃ e ∈ es, p = e.p ∧ e.writesPixel x y) s t ∧ t = { s with fb := t.fb } := by
  obtain ⟨t, rfl, hes, hknown⟩ := h
  exact ⟨t, hes, hexec, hknown, hes.written.only, hes.written.frame⟩

/-- Settles O51: the work of each command is that of its edges one after the other, none for a macroblock of
level 0. -/
theorem lfRowResults : Obligations.LfRowResults := by
  unfold Obligations.LfRowResults
  intro s slot hy hcur
  have hn := slotOf_lt hcur
  refine ⟨fun r hx hr hlevel => ?_, fun h => ?_, fun r hx hr hknown => ?_, fun r hr hknown => ?_⟩
  · rw [exec_lfMb hy hcur hx, lfMbAt_of_level_zero hr hlevel]
    rfl
  · rw [exec_lfRow hy hcur, lfRow_of_level_zero h]
    rfl
  · exact (lfMbAt_filters hr hn hy hknown hx).answers (exec_lfMb hy hcur hx)
  · exact (lfMbs_filters hn hy (fun x hx => ⟨List.mem_range.1 hx, hr x (List.mem_range.1 hx)⟩) hknown).answers
      (exec_lfRow hy hcur)

end Sys2Proof.Machine
end

section
/-! PROOFS. Errors (60_exceptions.md): what `raise` does, and the checks of the position, the range decoder, the
roles' slots and the row above, each before what it guards. -/

namespace Sys2Proof.Machine

variable {s t : State} {i : Instr}

/-! ## `raise` (R452) -/

/-- Settles O7: `raise` writes `STATUS.ERR` alone, and that where it is 0, and the response. -/
theorem raiseIsSticky : Obligations.RaiseIsSticky := by
  unfold Obligations.RaiseIsSticky
  exact fun s c => ⟨s.raise_errFlag c, s.raise_response c, raise_crBit s c (by decide), raise_crBit s c (by decide),
    fun _ => s.raise_crRaw c, s.raise_eq c⟩

/-! ## The checks, each where those before it hold (R463) -/

section
variable {α : Type}

theorem finish_mdCheck_position {f : Unit → Res State} (h : s.posOk = false) :
    finish s (mdCheck s >>= f) = .next (s.raise .badMbpos) := by
  simp only [mdCheck, h, require_false, Res.error_bind, finish_raise]

theorem finish_mdCheck_decoder {f : Unit → Res State} (hpos : s.posOk = true) (h : s.rdValid 0 = false) :
    finish s (mdCheck s >>= f) = .next (s.raise .rdUninit) := by
  simp only [mdCheck, hpos, h, require_true, require_false, Res.ok_bind, Res.error_bind, finish_raise]

theorem finish_ipCheck_position {f : Nat → Res State} (h : s.posOk = false) :
    finish s (ipCheck s >>= f) = .next (s.raise .badMbpos) := by
  simp only [ipCheck, h, require_false, Res.error_bind, finish_raise]

theorem finish_needSlot_none {o : Option Nat} {f : Nat → Res State} (h : o = none) :
    finish s (needSlot o >>= f) = .next (s.raise .stateNoRef) := by
  subst h; rfl

theorem finish_ipCheck_slot {f : Nat → Res State} (hpos : s.posOk = true) (h : s.curSlot = none) :
    finish s (ipCheck s >>= f) = .next (s.raise .stateNoRef) := by
  unfold ipCheck
  rw [hpos, h]
  rfl

theorem finish_ipCheck_border {f : Nat → Res State} {slot : Nat} (hpos : s.posOk = true)
    (hcur : s.curSlot = some slot) (h : s.topbOk = false) : finish s (ipCheck s >>= f) = .next (s.raise .sequence) := by
  unfold ipCheck
  rw [hpos, hcur, h]
  rfl

/-- A motion compensation looks at its reference's slot and at CUR's. -/
theorem finish_slots_none {ref cur : Option Nat} {f : Nat → Nat → Res State} (h : cur = none ∨ ref = none) :
    finish s (needSlot ref >>= fun src => needSlot cur >>= f src) = .next (s.raise .stateNoRef) := by
  cases ref with
  | none => rfl
  | some src =>
    show finish s (needSlot cur >>= f src) = _
    exact finish_needSlot_none (h.resolve_right nofun)

end

/-! ## The position (R457) -/

/-- Settles O11: the position is looked at right after the operand fields. -/
theorem positionIsChecked : Obligations.PositionIsChecked := by
  unfold Obligations.PositionIsChecked
  refine ⟨fun i s hwf hneeds hpos => ?_, fun i s hi hrow => ?_⟩
  · cases i with
    | mdSegid | mdSkip | mdYmodeKf | mdYmodeIf | mdBmodesKf | mdBmodesIf | mdUvmodeKf | mdUvmodeIf | mdRef | mdMb =>
      exact finish_mdCheck_position hpos
    | mpNear | mpMode | mpReadmv | mpSplit | mpClamp | mpMb | cdSkipmb | mcMb | itMb | lfParams | lfMb | fcNextmb =>
      exact finish_require_false hpos
    | cdBlock | cdMb | itIdctAdd => exact (finish_require_true hwf).trans (finish_require_false hpos)
    | ipY16Dc | ipY16V | ipY16H | ipY16Tm | ipUv8Dc | ipUv8V | ipUv8H | ipUv8Tm | ipMb =>
      exact finish_ipCheck_position hpos
    | ipY4Dc | ipY4Tm | ipY4Ve | ipY4He | ipY4Ld | ipY4Rd | ipY4Vr | ipY4Vl | ipY4Hd | ipY4Hu =>
      exact (finish_require_true hwf).trans (finish_ipCheck_position hpos)
    | _ => cases hneeds
  · have hno : s.rowOk = false := decide_eq_false (Nat.not_lt.2 hrow)
    rcases hi with rfl | rfl
    · exact finish_require_false hno
    · exact finish_require_false hno

/-! ## The range decoder (R453) -/

/-- Settles O12: the decoder is looked at right after the operand fields and the position. -/
theorem decoderIsChecked : Obligations.DecoderIsChecked := by
  unfold Obligations.DecoderIsChecked
  intro i s k hwf hreads hpos hv
  cases i with
  | rdBool | rdLit | rdSlit | rdTree =>
    cases hreads
    exact finish_require_valid hwf hv
  | mdSegid | mdSkip | mdYmodeKf | mdYmodeIf | mdBmodesKf | mdBmodesIf | mdUvmodeKf | mdUvmodeIf | mdRef | mdMb =>
    cases hreads
    exact finish_mdCheck_decoder (hpos rfl) hv
  | mpMode | mpReadmv | mpSplit | mpMb =>
    cases hreads
    exact (finish_require_true (hpos rfl)).trans (finish_require_false hv)
  | cdBlock | cdMb =>
    cases hreads
    exact (finish_require_true hwf).trans ((finish_require_true (hpos rfl)).trans (finish_require_false hv))
  | _ => cases hreads

/-! ## The slots of the roles and the row above (R455, R461) -/

theorem finish_edgeCmd_none {ok : Bool} {e : Edge} (hok : ok = true) (he : s.edgeInside e) (hcur : s.curSlot = none) :
    edgeCmd ok e s = .next (s.raise .stateNoRef) :=
  (finish_require_true hok).trans ((finish_require_true ((edgeInside_iff s e).1 he)).trans (finish_needSlot_none hcur))

/-- A role field above 3 leaves a motion compensation without a slot. -/
theorem slots_none {ref : Nat} (hread : ∀ lo, s.ReadsRole i lo → lo = 4 * ref)
    (h : 3 < s.crField 18 0 3 ∨ ∃ lo, s.ReadsRole i lo ∧ 3 < s.crField 18 lo 3) :
    s.curSlot = none ∨ s.refSlot ref = none :=
  h.imp slotOf_none fun ⟨lo, hlo, hrole⟩ => slotOf_none (f := s.crField 18 (4 * ref) 3) (hread lo hlo ▸ hrole)

theorem readsRole_mcLuma {r : Byte} {lo : Nat} : s.ReadsRole (.mcLuma r) lo ↔ lo = 4 * r.toNat := by
  simp [State.ReadsRole]

theorem readsRole_mcChroma {r p : Byte} {lo : Nat} : s.ReadsRole (.mcChroma r p) lo ↔ lo = 4 * r.toNat := by
  simp [State.ReadsRole]

theorem readsRole_mcMb {lo : Nat} : s.ReadsRole .mcMb lo ↔ lo = 4 * s.cur.ref.num := by
  simp [State.ReadsRole]

/-- Only motion compensations read the slot of another role. -/
theorem curSlot_none (h : 3 < s.crField 18 0 3 ∨ ∃ lo, s.ReadsRole i lo ∧ 3 < s.crField 18 lo 3)
    (hluma : ∀ r, i ≠ .mcLuma r) (hchroma : ∀ r p, i ≠ .mcChroma r p) (hmb : i ≠ .mcMb) : s.curSlot = none := by
  rcases h with h | ⟨lo, ⟨r, hr, -⟩ | ⟨r, p, hr, -⟩ | ⟨hr, -⟩, -⟩
  · exact slotOf_none h
  · exact absurd hr (hluma r)
  · exact absurd hr (hchroma r p)
  · exact absurd hr hmb

theorem topbOk_eq_false (hy : 0 < s.mby) (h : s.topb.valid = false ∨ s.topb.row.toNat ≠ s.mby - 1) :
    s.topbOk = false := by
  unfold State.topbOk
  rcases h with h | h
  · simp [h]; omega
  · simp; omega

/-- Settles O13: the slots come after the operand fields, the position and the ARG registers; the row above after the
CUR slot. -/
theorem slotAndBorderAreChecked : Obligations.SlotAndBorderAreChecked := by
  unfold Obligations.SlotAndBorderAreChecked
  refine ⟨fun i s hwf hneeds hpos hrow hargs hrole => ?_, fun i s hwf hintra hpos hcur hy htop => ?_⟩
  · cases i with
    | ipY16Dc | ipY16V | ipY16H | ipY16Tm | ipUv8Dc | ipUv8V | ipUv8H | ipUv8Tm | ipMb =>
      exact finish_ipCheck_slot (hpos rfl) (curSlot_none hrole nofun nofun nofun)
    | ipY4Dc | ipY4Tm | ipY4Ve | ipY4He | ipY4Ld | ipY4Rd | ipY4Vr | ipY4Vl | ipY4Hd | ipY4Hu =>
      exact (finish_require_true hwf).trans (finish_ipCheck_slot (hpos rfl) (curSlot_none hrole nofun nofun nofun))
    | mcLuma r =>
      have hblock := (lumaBlock_iff s).1 (hargs.mcLuma r rfl)
      have hslots := slots_none (fun _ => readsRole_mcLuma.1) hrole
      exact (finish_require_true hwf).trans ((finish_require_true hblock).trans (finish_slots_none hslots))
    | mcChroma r p =>
      have hblock := (chromaBlock_iff s p.toNat).1 (hargs.mcChroma r p rfl)
      have hslots := slots_none (fun _ => readsRole_mcChroma.1) hrole
      exact (finish_require_true hwf).trans ((finish_require_true hblock).trans (finish_slots_none hslots))
    | mcMb =>
      have href : (s.cur.ref != .current) = true := bne_iff_ne.2 (hargs.mcMb rfl)
      have hslots := slots_none (fun _ => readsRole_mcMb.1) hrole
      exact (finish_require_true (hpos rfl)).trans ((finish_require_true href).trans (finish_slots_none hslots))
    | itIdctAdd =>
      exact (finish_require_true hwf).trans ((finish_require_true (hpos rfl)).trans
        (finish_needSlot_none (curSlot_none hrole nofun nofun nofun)))
    | itMb | lfParams | lfMb =>
      exact (finish_require_true (hpos rfl)).trans (finish_needSlot_none (curSlot_none hrole nofun nofun nofun))
    | lfRow =>
      exact (finish_require_true (decide_eq_true (hrow (.inl rfl)))).trans
        (finish_needSlot_none (curSlot_none hrole nofun nofun nofun))
    | fcRowend =>
      exact (finish_require_true (decide_eq_true (hrow (.inr rfl)))).trans
        (finish_needSlot_none (curSlot_none hrole nofun nofun nofun))
    | lfsEdge p d => exact finish_edgeCmd_none hwf (hargs.lfsEdge p d rfl) (curSlot_none hrole nofun nofun nofun)
    | lfnMbedge p d => exact finish_edgeCmd_none hwf (hargs.lfnMbedge p d rfl) (curSlot_none hrole nofun nofun nofun)
    | lfnInner p d => exact finish_edgeCmd_none hwf (hargs.lfnInner p d rfl) (curSlot_none hrole nofun nofun nofun)
    | fcFrameend => exact finish_needSlot_none (curSlot_none hrole nofun nofun nofun)
    | _ => cases hneeds
  · have hslot : s.curSlot = some (s.crField 18 0 3) := if_pos hcur
    have hborder := topbOk_eq_false hy htop
    cases i with
    | ipY16Dc | ipY16V | ipY16H | ipY16Tm | ipUv8Dc | ipUv8V | ipUv8H | ipUv8Tm | ipMb =>
      exact finish_ipCheck_border hpos hslot hborder
    | ipY4Dc | ipY4Tm | ipY4Ve | ipY4He | ipY4Ld | ipY4Rd | ipY4Vr | ipY4Vl | ipY4Hd | ipY4Hu =>
      exact (finish_require_true hwf).trans (finish_ipCheck_border hpos hslot hborder)
    | _ => cases hintra

/-! ## What an error of `FC_HEADER` and `FC_FRAME` leaves (R452) -/

/-- An error of the two adds to `raise` that every range decoder is invalid and the RES registers hold free values. -/
theorem raiseFrame_eq (s : State) (c : ErrCode) : s.raiseFrame c =
    { s with rd := (s.raiseFrame c).rd, cr := (s.raise c).cr, res := (s.raiseFrame c).res, response := .error c,
             freeCount := s.freeCount + 1 } := by
  unfold State.raiseFrame
  rw [s.raise_eq c]
  rfl

theorem raiseFrame_rdValid (s : State) (c : ErrCode) (k : Nat) : (s.raiseFrame c).rdValid k = false :=
  (s.raise c).rdValid_invalidateRd k

theorem raiseFrame_result (s : State) (c : ErrCode) {j : Nat} (hj : j < 4) :
    (s.raiseFrame c).result j = Config.freeResult s.freeCount j := by
  have hcount : (s.raise c).freeCount = s.freeCount := by rw [s.raise_eq c]
  unfold State.raiseFrame State.freeRes State.result
  simp [hj, hcount]

/-- Where the two commands raise, the allocator may have been asked, and nothing else has changed. -/
theorem headerBase_eq (T : OpenTables) (base length : Word) (s : State) : headerBase T base length s =
    { s with allocAnswers := (headerBase T base length s).allocAnswers
             allocCount := (headerBase T base length s).allocCount } := by
  unfold headerBase
  split
  · unfold State.afterAsk
    split
    · rw [s.askAllocator_eq]
    · rfl
  · rfl

theorem frameBegin_crRaw (s : State) {j : Nat} (hj : j ≠ 16) : s.frameBegin.crRaw j = s.crRaw j := by
  unfold State.frameBegin State.setVisible State.clearErr
  rw [State.crRaw_setCrField_other _ _ _ _ hj, State.crRaw_setCrField_other _ _ _ _ hj]

/-- `FC_FRAME` begins with `STATUS.ERR` and `STATUS.VISIBLE` cleared (R437). -/
theorem frameBegin_status (s : State) : s.frameBegin.errFlag = 0 ∧ s.frameBegin.visible = false ∧
    s.frameBegin.keyframeSeen = s.keyframeSeen := by
  unfold State.frameBegin State.setVisible State.clearErr State.errFlag State.visible State.keyframeSeen
  refine ⟨?_, crBit_setCrField_self (by decide) (by decide) false _, ?_⟩
  · rw [crField_same_reg _ (by decide) (by decide) (by decide), crField_self (by decide) (by decide) (by decide)]
  · rw [crBit_setCrField_other _ (by decide) (by decide) (by decide),
      crBit_setCrField_other _ (by decide) (by decide) (by decide)]

theorem finishFrame_error {r : Res State} {c : ErrCode} (h : finishFrame s r = .next t) (hc : t.response = .error c) :
    r = .error (.raise c) ∧ t = s.raiseFrame c := by
  rcases finishFrame_next.1 h with ⟨u, -, rfl⟩ | ⟨d, hr, rfl⟩
  · cases hc
  · rw [raiseFrame_eq] at hc
    obtain rfl : d = c := Response.error.inj hc
    exact ⟨hr, rfl⟩

/-- The state from which the two commands raise differs from `s` in what the allocator was asked, and in `STATUS`. -/
structure RaisesFrom (s u : State) : Prop where
  frame : u = { s with cr := u.cr, allocAnswers := u.allocAnswers, allocCount := u.allocCount }
  others : ∀ j, j ≠ 16 → u.crRaw j = s.crRaw j
  seen : u.keyframeSeen = s.keyframeSeen

theorem RaisesFrom.header (s : State) (T : OpenTables) (base length : Word) :
    RaisesFrom s (headerBase T base length s) := by
  rw [headerBase_eq]
  exact ⟨rfl, fun _ _ => rfl, rfl⟩

theorem RaisesFrom.frameBegin (h : RaisesFrom s.frameBegin t) : RaisesFrom s t where
  frame := h.frame
  others j hj := (h.others j hj).trans (frameBegin_crRaw s hj)
  seen := h.seen.trans (frameBegin_status s).2.2

theorem crBit_of_headerBase (T : OpenTables) (base length : Word) (s : State) (j b : Nat) :
    (headerBase T base length s).crBit j b = s.crBit j b := by
  rw [headerBase_eq]; rfl

theorem crField_of_headerBase (T : OpenTables) (base length : Word) (s : State) (j lo n : Nat) :
    (headerBase T base length s).crField j lo n = s.crField j lo n := by
  rw [headerBase_eq]; rfl

theorem RaisesFrom.raiseFrame {u : State} (h : RaisesFrom s u) (c : ErrCode) :
    (∀ k, (u.raiseFrame c).rdValid k = false) ∧ (∀ j, j ≠ 16 → (u.raiseFrame c).crRaw j = s.crRaw j) ∧
      (u.raiseFrame c).keyframeSeen = s.keyframeSeen ∧
      (∀ j < 4, (u.raiseFrame c).result j = Config.freeResult s.freeCount j) ∧
      u.raiseFrame c = { s with
        rd := (u.raiseFrame c).rd, cr := (u.raiseFrame c).cr, res := (u.raiseFrame c).res
        response := (u.raiseFrame c).response, allocAnswers := (u.raiseFrame c).allocAnswers
        allocCount := (u.raiseFrame c).allocCount, freeCount := s.freeCount + 1 } := by
  have hcount : u.freeCount = s.freeCount := by rw [h.frame]
  refine ⟨raiseFrame_rdValid u c, fun j hj => ?_, ?_, fun j hj => hcount ▸ raiseFrame_result u c hj, ?_⟩
  · exact (u.raise_crRaw c hj).trans (h.others j hj)
  · exact (raise_crBit u c (by decide)).trans h.seen
  · rw [raiseFrame_eq, h.frame]

/-- Settles O10: each of the two raises from a state in which only what the allocator was asked, and for `FC_FRAME`
`STATUS`, differs from the one it began in. -/
theorem frameErrorLeavesState : Obligations.FrameErrorLeavesState := by
  unfold Obligations.FrameErrorLeavesState
  intro i s t c hi hexec hc
  rcases hi with rfl | rfl
  · obtain ⟨-, rfl⟩ := finishFrame_error hexec hc
    obtain ⟨hrd, hcr, hseen, hres, hframe⟩ := (RaisesFrom.header s _ _ _).raiseFrame c
    refine ⟨hrd, hcr, hseen, fun _ => ⟨?_, ?_⟩, nofun, hres, hframe⟩
    · exact (raise_crBit _ c (by decide)).trans (crBit_of_headerBase _ _ _ s _ _)
    · exact (State.raise_errFlag _ c).trans (by unfold State.errFlag; rw [crField_of_headerBase])
  · obtain ⟨-, rfl⟩ := finishFrame_error hexec hc
    obtain ⟨hrd, hcr, hseen, hres, hframe⟩ := (RaisesFrom.header s.frameBegin _ _ _).frameBegin.raiseFrame c
    obtain ⟨herr, hvisible, -⟩ := frameBegin_status s
    refine ⟨hrd, hcr, hseen, nofun, fun _ => ⟨?_, ?_⟩, hres, hframe⟩
    · exact (raise_crBit _ c (by decide)).trans ((crBit_of_headerBase _ _ _ _ _ _).trans hvisible)
    · refine (State.raise_errFlag _ c).trans (if_pos ?_)
      exact (crField_of_headerBase _ _ _ _ _ _ _).trans herr

end Sys2Proof.Machine
end

section
/-! PROOFS. Frame control (48_frame_control_host.md): the host's primitives, and the start and the end of a frame. -/

namespace Sys2Proof.Machine

variable {s t : State}

/-! ## The position (R441, R442, R443) -/

theorem nextPos_lt (h : s.posOk = true) : s.nextPos.1 < 2048 ∧ s.nextPos.2 < 2048 := by
  have hw := mbW_le s
  have hh := mbH_le s
  simp only [State.posOk, Bool.and_eq_true, decide_eq_true_eq] at h
  unfold State.nextPos
  split
  · exact ⟨by show s.mbx + 1 < 2048; omega, by show s.mby < 2048; omega⟩
  · exact ⟨by show 0 < 2048; omega, by show s.mby + 1 < 2048; omega⟩

/-- Settles O52: the next position is that of the raster order, and it fits `MBPOS` because the frame's sides do. -/
theorem fcPositionResults : Obligations.FcPositionResults := by
  unfold Obligations.FcPositionResults
  refine fun s => ⟨rfl, rfl, fun h => finish_require_false h, fun h => ?_⟩
  obtain ⟨hx, hy⟩ := nextPos_lt h
  refine ⟨(fcNextmb s).done, finish_require_true h, ?_, ?_, ?_, ?_, ?_, ?_, rfl⟩
  · refine (fcNextmb_mbx s).trans ((Nat.mod_eq_of_lt hx).trans ?_)
    unfold State.nextPos
    split <;> rfl
  · refine (fcNextmb_mby s).trans ((Nat.mod_eq_of_lt hy).trans ?_)
    unfold State.nextPos
    split <;> rfl
  · exact (congrArg (· &&& ~~~0x07FF07FF) (fcNextmb_cr s)).trans (posWord_clean _ _)
  · exact State.result_setRes_zero _ _
  · exact fun j hj => State.result_setRes_other _ _ (by simpa using hj)
  · exact fun j hj => State.crRaw_setMbpos_other _ _ _ hj

/-! ## The bottom pixels of a row (R444) -/

theorem bottomRow_reads {slot p : Nat} (h : ∀ x < s.planeW p,
    (s.pix slot p x (mbSize p * s.mby + (mbSize p - 1))).isSome = true) :
    ∃ m, s.bottomRow slot p = .ok m ∧ ∀ x, Memory.find m x =
      if x < s.planeW p then s.pix slot p x (mbSize p * s.mby + (mbSize p - 1)) else none := by
  obtain ⟨px, hpx, hrow⟩ := collect_ok (f := .pixelUnspecified)
    (l := (List.range (s.planeW p)).map fun x => s.pix slot p x (mbSize p * s.mby + (mbSize p - 1)))
    (by simpa using h)
  refine ⟨_, by rw [State.bottomRow, hpx]; rfl, fun x => ?_⟩
  rw [find_indexed, if_pos (Nat.zero_le x), Nat.sub_zero]
  have hx := congrArg (·[x]?) hrow
  by_cases hlt : x < s.planeW p
  · obtain ⟨b, hb, hpix⟩ : ∃ b, px[x]? = some b ∧ some b = s.pix slot p x (mbSize p * s.mby + (mbSize p - 1)) := by
      simpa [hlt] using hx.symm
    rw [if_pos hlt, hb, hpix]
  · rw [if_neg hlt]
    simpa [hlt] using hx.symm

/-- With the bottom pixels of the row specified, the work of `FC_ROWEND` keeps them. -/
theorem fcRowend_keeps {slot : Nat} (h : ∀ p < 3, ∀ x < s.planeW p,
    (s.pix slot p x (mbSize p * s.mby + (mbSize p - 1))).isSome = true) :
    ∃ t, fcRowend slot s = .ok t ∧ t.topb.valid = true ∧ t.topb.row = BitVec.ofNat 11 s.mby ∧
      (∀ p < 3, ∀ x, Memory.find (t.topb.plane p) x =
        if x < s.planeW p then s.pix slot p x (mbSize p * s.mby + (mbSize p - 1)) else none) ∧
      t = { s with topb := t.topb } := by
  obtain ⟨y, hy, ky⟩ := bottomRow_reads (h 0 (by decide))
  obtain ⟨u, hu, ku⟩ := bottomRow_reads (h 1 (by decide))
  obtain ⟨v, hv, kv⟩ := bottomRow_reads (h 2 (by decide))
  refine ⟨_, by rw [fcRowend, hy, hu, hv]; rfl, rfl, rfl, fun p hp => ?_, rfl⟩
  obtain rfl | rfl | rfl : p = 0 ∨ p = 1 ∨ p = 2 := by omega
  · exact ky
  · exact ku
  · exact kv

/-- Settles O53: the work is three reads of a bottom row, each of which succeeds pixel by pixel. -/
theorem fcRowendResult : Obligations.FcRowendResult := by
  unfold Obligations.FcRowendResult
  refine ⟨fun s => ⟨fun h => finish_require_false (decide_eq_false (Nat.not_lt.2 h)), fun h hcur => ?_⟩,
    fun s slot hy hcur hknown => ?_⟩
  · exact (finish_require_true (decide_eq_true h)).trans (finish_needSlot_none hcur)
  · obtain ⟨t, hwork, hvalid, hrow, hfind, hframe⟩ := fcRowend_keeps hknown
    refine ⟨t.done, (finish_require_true (decide_eq_true hy)).trans ?_, hvalid, ?_, fun p hp x hx => ?_,
      fun p hp x hx => ?_, congrArg State.done hframe⟩
    · rw [hcur, needSlot_some, Res.ok_bind, hwork]
      rfl
    · have hh := mbH_le s
      exact (congrArg BitVec.toNat hrow).trans (Nat.mod_eq_of_lt (by omega))
    · exact (hfind p hp x).trans (if_pos hx)
    · exact (hfind p hp x).trans (if_neg (Nat.not_lt.2 hx))

/-! ## Control registers (R439, R440) -/

theorem writeCr_eq (s : State) (i : Nat) (v : Word) : s.writeCr i v = { s with cr := (s.writeCr i v).cr } := by
  unfold State.writeCr
  split <;> rfl

theorem writeCr_crRaw (s : State) {i : Nat} (hi : i < 44) (v : Word) (j : Nat) : (s.writeCr i v).crRaw j =
    if j = i ∧ i ≠ 2 ∧ i ≠ 16 then v &&& crMask i else s.crRaw j := by
  unfold State.writeCr
  by_cases h : i = 2 ∨ i = 16
  · rw [if_pos h, if_neg (by omega)]
  · rw [if_neg h, s.crRaw_setCr _ _ _ hi]
    exact if_congr (by omega) rfl rfl

/-- `CR2` is read from `CR1`, which no write of another register touches. -/
theorem readCr_congr {j : Nat} (h1 : t.crRaw 1 = s.crRaw 1) (hj : t.crRaw j = s.crRaw j) : t.readCr j = s.readCr j := by
  unfold State.readCr State.mbW State.mbH
  rw [h1, hj]

theorem readCr_of_ne (s : State) {j : Nat} (hj : j ≠ 2) : s.readCr j = s.crRaw j := if_neg hj

theorem readCr_eq_zero {j : Nat} (hs : s.CrClean) (hmask : crMask j = 0) (h2 : j ≠ 2) (h16 : j ≠ 16) :
    s.readCr j = 0 := by
  have h := hs j
  rwa [crKeep, if_neg h16, if_neg h2, hmask, show ~~~(0 : Word) = BitVec.allOnes 32 from rfl, BitVec.and_allOnes,
    ← readCr_of_ne s h2] at h

/-! ### A new size (R406) -/

theorem afterAsk_of_change {v : Word} (h : s.sizeChanges v = true) : s.afterAsk v = s.askAllocator.2 := if_pos h

theorem sizeGranted_of_change {v : Word} (h : s.sizeChanges v = true) : s.sizeGranted v = s.askAllocator.1 := if_pos h

theorem setSize_of_change {v : Word} (h : s.sizeChanges v = true) : s.setSize v = s.resize.setCr 1 v := by
  rw [State.setSize, if_pos h]

theorem setSize_of_same {v : Word} (h : s.sizeChanges v = false) : s.setSize v = s.setCr 1 v := by
  rw [State.setSize, if_neg (by simp [h])]

theorem sizeChanges_of_crRaw (h : t.crRaw 1 = s.crRaw 1) (v : Word) : t.sizeChanges v = s.sizeChanges v := by
  unfold State.sizeChanges State.mbW State.mbH
  rw [h]

theorem askAllocator_sizeChanges (s : State) (v : Word) : s.askAllocator.2.sizeChanges v = s.sizeChanges v :=
  sizeChanges_of_crRaw (by rw [s.askAllocator_eq]; rfl) v

/-- Nothing that depends on the size is left after a change of it. -/
structure State.Cleared (t : State) : Prop where
  pix : ∀ n p x y, t.pix n p x y = none
  records : ∀ x y, t.mbRec x y = MbRec.zero
  segments : ∀ k, Memory.get t.segmap 0 k = 0
  flags : ∀ x, Memory.get t.nzAbove nzZero x = nzZero
  border : t.topb.valid = false
  lfp : ∀ x, Memory.find t.lfp x = none

theorem resize_cleared (s : State) : s.resize.Cleared where
  pix n p x y := by
    show Memory.find (((Vector.replicate 4 Frame.empty)[n]?.getD Frame.empty).plane p) _ = none
    exact congrArg (Memory.find · _) (plane_reset n p)
  records _ _ := rfl
  segments _ := rfl
  flags _ := rfl
  border := rfl
  lfp _ := rfl

theorem resize_crRaw (s : State) (j : Nat) : s.resize.crRaw j = if j = 18 then 0x7777 else s.crRaw j :=
  s.crRaw_setCr _ _ _ (by decide)

/-- Settles O54: a write is one masked store, and a write of `CR1` is what `setSize` does after the
allocator's answer. -/
theorem fcControlResults : Obligations.FcControlResults := by
  unfold Obligations.FcControlResults
  intro reg s hreg
  have hcontrol : okControl reg = true := decide_eq_true hreg
  refine ⟨finish_require_true hcontrol, BitVec.eq_of_toNat_eq (field_posWord_x _ _),
    BitVec.eq_of_toNat_eq (field_posWord_y _ _), readCr_eq_zero, fun hne => ?_, fun hsame => ?_,
    fun hchange hgrant => ?_, fun hchange hrefused => ?_⟩
  · have hraw := writeCr_crRaw s (i := reg.toNat) (by omega) (s.arg 0)
    have hone : (s.writeCr reg.toNat (s.arg 0)).crRaw 1 = s.crRaw 1 := (hraw 1).trans (if_neg (by omega))
    refine ⟨(s.writeCr reg.toNat (s.arg 0)).done, (exec_fcWrctl_of_ne hne s).trans (finish_require_true hcontrol), ?_,
      fun j hj => readCr_congr hone ((hraw j).trans (if_neg (by omega))), congrArg State.done (writeCr_eq s _ _)⟩
    split
    · next h => exact readCr_congr hone ((hraw _).trans (if_neg (by omega)))
    · next h => exact (readCr_of_ne _ (by omega)).trans ((hraw _).trans (if_pos (by omega)))
  · have hgrant : s.sizeGranted (s.arg 0) = true := if_neg (by simp [hsame])
    have hask : s.afterAsk (s.arg 0) = s := if_neg (by simp [hsame])
    rw [exec_fcWrctl_one, finish_require_true hgrant, hask, setSize_of_same hsame]
    rfl
  · have hraw := resize_crRaw s.askAllocator.2
    have hcleared := resize_cleared s.askAllocator.2
    refine ⟨(s.askAllocator.2.resize.setCr 1 (s.arg 0)).done, ?_, ?_, ?_, fun j h1 h18 => ?_, hcleared.pix,
      hcleared.records, hcleared.segments, hcleared.flags, hcleared.border, hcleared.lfp, ?_⟩
    · rw [exec_fcWrctl_one, finish_require_true ((sizeGranted_of_change hchange).trans hgrant),
        afterAsk_of_change hchange, setSize_of_change ((askAllocator_sizeChanges s _).trans hchange)]
      rfl
    · exact (State.crRaw_setCr _ _ _ _ (by decide)).trans (if_pos rfl)
    · exact (State.crRaw_setCr_other _ _ (by decide)).trans ((hraw 18).trans (if_pos rfl))
    · refine (State.crRaw_setCr_other _ _ h1).trans ((hraw j).trans ((if_neg h18).trans ?_))
      rw [s.askAllocator_eq]
      rfl
    · rw [s.askAllocator_eq]
      rfl
  · have hno : s.sizeGranted (s.arg 0) = false := (sizeGranted_of_change hchange).trans hrefused
    rw [exec_fcWrctl_one, finish_require_false hno, afterAsk_of_change hchange]

/-! ## The probability contexts and the ARG registers (R445 to R448, R110) -/

theorem okProbIndex_iff : s.okProbIndex = true ↔ (s.arg 0).toNat ≤ 1107 :=
  decide_eq_true_iff.trans Nat.lt_succ_iff

theorem probCopy_toNat (s : State) (copy : Byte) : s.probCopy copy.toNat = if copy = 0 then s.prob else s.probSaved :=
  if_congr (BitVec.toNat_inj (y := (0 : Byte))) rfl rfl

/-- Settles O55: every one of them is one read or write of a memory behind its operands' check. -/
theorem fcTableResults : Obligations.FcTableResults := by
  unfold Obligations.FcTableResults
  intro value copy index s hcopy hindex i
  have hread : exec (.fcRdprob copy) s = finish s (require (okCopy copy && s.okProbIndex) .badOperand >>= fun _ =>
      need (Memory.find (if copy = 0 then s.prob else s.probSaved) i) .probUnspecified >>= fun v =>
        .ok (s.setRes 0 (v.setWidth 32))) := by
    rw [← probCopy_toNat]
    rfl
  have hcopy : okCopy copy = true := decide_eq_true hcopy
  refine ⟨fun hi => ?_, fun v hi hv => ?_, fun hi hnone => ?_, fun hi => ?_, rfl, rfl, ?_⟩
  · refine ⟨(s.setProb i value).done, finish_require_true (okProbIndex_iff.2 hi), Memory.find_set_self _ _ _,
      fun j hj => Memory.find_set_other _ _ hj, rfl⟩
  · rw [hread, finish_require_true (by rw [hcopy, okProbIndex_iff.2 hi]; rfl), hv, need_some, BitVec.ofNat_toNat]
    rfl
  · rw [hread, finish_require_true (by rw [hcopy, okProbIndex_iff.2 hi]; rfl), hnone]
    rfl
  · have hno : s.okProbIndex = false := Bool.eq_false_iff.2 fun h => by have := okProbIndex_iff.1 h; omega
    exact ⟨finish_require_false hno, hread.trans (finish_require_false (by rw [hno, Bool.and_false]))⟩
  · exact ⟨(s.setArg index.toNat (s.result 0)).done, finish_require_true (decide_eq_true hindex),
      fun j => s.arg_setArg _ j _ (by omega), rfl⟩

/-! ## The start of a frame (R431, R435) -/

theorem slotFree_of_lt {m : Nat} (h : m < s.freeSlot) : s.slotFree m = false := by
  by_contra hf
  have hf : s.slotFree m = true := by simpa using hf
  have hlt := freeSlot_lt s
  obtain hm : m = 0 ∨ m = 1 ∨ m = 2 := by omega
  unfold State.freeSlot at h
  rcases hm with rfl | rfl | rfl
  all_goals
    simp only [hf, if_true] at h
    repeat' split at h
    all_goals omega

theorem slotFree_eq (s : State) (n : Nat) : s.slotFree n = true ↔
    n ≠ s.crField 18 4 3 ∧ n ≠ s.crField 18 8 3 ∧ n ≠ s.crField 18 12 3 := by
  simp [State.slotFree, State.roleBits, and_assoc]

theorem fcFramestart_role (s : State) {lo : Nat} (h3 : 3 ≤ lo) (h : lo + 3 ≤ 32) :
    (fcFramestart s).crField 18 lo 3 = s.crField 18 lo 3 := by
  unfold State.crField
  rw [fcFramestart_roles, field_setField_other _ _ (.inr h3) h]

theorem hasSize_iff : s.hasSize = true ↔ s.mbW ≠ 0 ∧ s.mbH ≠ 0 := by simp [State.hasSize]

/-- Settles O56: the slot handed out is the first that passes `slotFree`, and every other clause is one field of
one register. -/
theorem fcFramestartResult : Obligations.FcFramestartResult := by
  unfold Obligations.FcFramestartResult
  refine fun s => ⟨fun hw hh => ?_, fun h => ?_⟩
  · have hfree := (slotFree_eq s _).1 (freeSlot_free s)
    refine ⟨(fcFramestart s).done, s.freeSlot, finish_require_true (hasSize_iff.2 ⟨hw, hh⟩), fcFramestart_curSlot s,
      freeSlot_lt s, fun lo hlo => ⟨?_, fcFramestart_role s (by omega) (by omega)⟩, fun m hm => ?_,
      State.result_setRes_zero _ _, ?_, ?_, fun _ => rfl, fun p x y => ?_,
      fun m p x y hm => fcFramestart_pix s hm p x y,
      fun j hj => State.result_setRes_other _ _ (by simpa using hj), fun j h18 h19 => fcFramestart_crRaw s h18 h19, rfl⟩
    · rcases hlo with rfl | rfl | rfl
      · exact hfree.1
      · exact hfree.2.1
      · exact hfree.2.2
    · by_contra hno
      simp only [not_or] at hno
      exact Bool.false_ne_true ((slotFree_of_lt hm).symm.trans ((slotFree_eq s m).2 hno))
    · exact (congrArg (field · 0 11) (fcFramestart_pos s)).trans (field_posWord_x 0 0)
    · exact (congrArg (field · 16 11) (fcFramestart_pos s)).trans (field_posWord_y 0 0)
    · exact (congrArg (Memory.find · _) (State.plane_clearSlot_self s s.freeSlot p))
  · refine finish_require_false (Bool.eq_false_iff.2 fun hsize => ?_)
    have := hasSize_iff.1 hsize
    omega

/-! ## The end of a frame (R433, R434, R436) -/

theorem selRole_eq_roleAfter (u keep cur prev other : Nat) :
    selRole u keep cur prev other = roleAfter u keep cur prev other := by
  unfold selRole roleAfter
  split <;> simp_all

theorem roleAfter_lt {n u keep cur prev other : Nat} (hkeep : keep < n) (hcur : cur < n) (hprev : prev < n)
    (hother : other < n) : roleAfter u keep cur prev other < n := by
  unfold roleAfter
  repeat' split
  all_goals assumption

theorem crField_lt (s : State) (j lo n : Nat) : s.crField j lo n < 2 ^ n := field_lt _ _ _

/-- The four roles after the reassignment, from their old values (R434). -/
theorem reassign_roles (s : State) :
    s.reassign.crField 18 0 3 = s.crField 18 0 3 ∧
    s.reassign.crField 18 8 3 = roleAfter (s.crField 13 0 2) (s.crField 18 8 3) (s.crField 18 0 3) (s.crField 18 4 3)
      (s.crField 18 12 3) ∧
    s.reassign.crField 18 12 3 = roleAfter (s.crField 13 2 2) (s.crField 18 12 3) (s.crField 18 0 3) (s.crField 18 4 3)
      (s.crField 18 8 3) ∧
    s.reassign.crField 18 4 3 = if s.crBit 13 4 then s.crField 18 0 3 else s.crField 18 4 3 := by
  have hlt (lo : Nat) : s.crField 18 lo 3 < 2 ^ 3 := crField_lt s 18 lo 3
  unfold State.reassign State.roleBits
  simp only [selRole_eq_roleAfter]
  refine ⟨?_, ?_, ?_, ?_⟩
  · simp (disch := decide) only [crField_same_reg]
  · rw [crField_same_reg _ (by decide) (by decide) (by decide), crField_same_reg _ (by decide) (by decide) (by decide),
      crField_self (by decide) (by decide) (roleAfter_lt (hlt _) (hlt _) (hlt _) (hlt _))]
  · rw [crField_same_reg _ (by decide) (by decide) (by decide),
      crField_self (by decide) (by decide) (roleAfter_lt (hlt _) (hlt _) (hlt _) (hlt _))]
  · exact crField_self (by decide) (by decide) (by split <;> exact hlt _) _

theorem reassign_eq (s : State) : s.reassign = { s with cr := s.reassign.cr } := rfl

theorem reassign_crRaw (s : State) {j : Nat} (hj : j ≠ 18) : s.reassign.crRaw j = s.crRaw j := by
  unfold State.reassign
  simp only [State.crRaw_setCrField_other _ _ _ _ hj]

/-- At the end of a frame the two contexts are the same: both the current one or both the committed one (R436). -/
theorem endProbs_eq (s : State) : s.endProbs = { s with
    prob := if s.crBit 13 7 then s.prob else s.probSaved
    probSaved := if s.crBit 13 7 then s.prob else s.probSaved } := by
  unfold State.endProbs
  split <;> rfl

theorem noteKeyframe_eq (s : State) : s.noteKeyframe = { s with cr := s.noteKeyframe.cr } := by
  unfold State.noteKeyframe
  split <;> rfl

theorem noteKeyframe_crRaw (s : State) {j : Nat} (hj : j ≠ 16) : s.noteKeyframe.crRaw j = s.crRaw j := by
  unfold State.noteKeyframe
  split
  · exact State.crRaw_setCrField_other _ _ _ _ hj
  · rfl

theorem noteKeyframe_status (s : State) : s.noteKeyframe.keyframeSeen = (s.keyframeSeen || s.crBit 0 0) ∧
    s.noteKeyframe.errFlag = s.errFlag := by
  unfold State.noteKeyframe
  split
  · next h =>
    rw [h, Bool.or_true]
    exact ⟨crBit_setCrField_self (by decide) (by decide) true _,
      crField_same_reg _ (by decide) (by decide) (by decide) _⟩
  · next h =>
    rw [Bool.eq_false_iff.2 h, Bool.or_false]
    exact ⟨rfl, rfl⟩

/-- The state in which `FC_FRAMEEND` writes `STATUS`. -/
def State.settled (s : State) : State := s.reassign.endProbs

theorem settled_probs (s : State) : s.settled.prob = (if s.crBit 13 7 then s.prob else s.probSaved) ∧
    s.settled.probSaved = if s.crBit 13 7 then s.prob else s.probSaved := by
  unfold State.settled
  rw [endProbs_eq, crBit_of_raw (reassign_crRaw s (by decide))]
  exact ⟨rfl, rfl⟩

/-- Neither the roles nor the probabilities of a frame are anything but registers and the two contexts. -/
theorem settled_eq (s : State) : s.settled = { s with
    cr := s.settled.cr, prob := s.settled.prob, probSaved := s.settled.probSaved } := by
  unfold State.settled
  generalize hr : s.reassign = r
  rw [reassign_eq] at hr
  rw [← hr, endProbs_eq]

theorem settled_crRaw (s : State) (j : Nat) : s.settled.crRaw j = s.reassign.crRaw j := by
  unfold State.settled
  rw [endProbs_eq]
  rfl

theorem fcFrameend_crRaw (s : State) {j : Nat} (hj : j ≠ 16) : (fcFrameend s).crRaw j = s.reassign.crRaw j :=
  (State.crRaw_setCrField_other _ _ _ _ hj).trans ((noteKeyframe_crRaw _ hj).trans (settled_crRaw s j))

theorem fcFrameend_status (s : State) : (fcFrameend s).keyframeSeen = (s.keyframeSeen || s.crBit 0 0) ∧
    (fcFrameend s).visible = s.crBit 0 4 ∧ (fcFrameend s).errFlag = s.errFlag := by
  have hraw {j : Nat} (hj : j ≠ 18) : s.settled.crRaw j = s.crRaw j := (settled_crRaw s j).trans (reassign_crRaw s hj)
  obtain ⟨hseen, herr⟩ := noteKeyframe_status s.settled
  refine ⟨?_, crBit_setCrField_self (by decide) (by decide) _ _, ?_⟩
  · refine (crBit_setCrField_other _ (by decide) (by decide) (by decide) _).trans (hseen.trans ?_)
    unfold State.keyframeSeen
    rw [crBit_of_raw (hraw (by decide)), crBit_of_raw (hraw (by decide))]
  · exact (crField_same_reg _ (by decide) (by decide) (by decide) _).trans
      (herr.trans (crField_of_raw (hraw (by decide))))

theorem fcFrameend_probs (s : State) : (fcFrameend s).prob = (if s.crBit 13 7 then s.prob else s.probSaved) ∧
    (fcFrameend s).probSaved = if s.crBit 13 7 then s.prob else s.probSaved := by
  have h := noteKeyframe_eq s.settled
  obtain ⟨hprob, hsaved⟩ := settled_probs s
  exact ⟨(congrArg State.prob h).trans hprob, (congrArg State.probSaved h).trans hsaved⟩

theorem settled_noteKeyframe_eq (s : State) : s.settled.noteKeyframe = { s with
    cr := s.settled.noteKeyframe.cr, prob := s.settled.prob, probSaved := s.settled.probSaved } := by
  refine (noteKeyframe_eq _).trans ?_
  generalize s.settled.noteKeyframe.cr = c
  exact congrArg (fun u : State => { u with cr := c }) (settled_eq s)

theorem fcFrameend_eq (s : State) : fcFrameend s = { s with
    cr := (fcFrameend s).cr, res := (fcFrameend s).res
    prob := (fcFrameend s).prob, probSaved := (fcFrameend s).probSaved } := by
  have h : ∀ (c : _) (r : _) (p q : _), { s.settled.noteKeyframe with cr := c, res := r, prob := p, probSaved := q } =
      { s with cr := c, res := r, prob := p, probSaved := q } := fun c r p q =>
    congrArg (fun u : State => { u with cr := c, res := r, prob := p, probSaved := q }) (settled_noteKeyframe_eq s)
  exact h _ _ _ _

theorem fcFrameend_result (s : State) (j : Nat) : (fcFrameend s).result j =
    if j = 1 then BitVec.ofNat 32 (s.crField 18 0 3) else if j = 0 then boolWord (s.crBit 0 4) else s.result j := by
  have hcur : (fcFrameend s).crField 18 0 3 = s.crField 18 0 3 :=
    (crField_of_raw (fcFrameend_crRaw s (by decide))).trans (reassign_roles s).1
  have hres : (s.settled.noteKeyframe.setVisible (s.crBit 0 4)).result j = s.result j :=
    (congrArg (fun u : State => u.result j) (settled_noteKeyframe_eq s) :)
  refine (State.result_setRes _ 1 j _ (by decide)).trans (if_congr Iff.rfl (congrArg _ hcur) ?_)
  exact (State.result_setRes _ 0 j _ (by decide)).trans (if_congr Iff.rfl rfl hres)

/-- Settles O57: every role is chosen from the roles before the reassignment, and `noteKeyframe` and `setVisible`
write one bit of `STATUS` each. -/
theorem fcFrameendResult : Obligations.FcFrameendResult := by
  unfold Obligations.FcFrameendResult
  refine ⟨fun s => finish_needSlot_none, fun s c hcur => ?_⟩
  have hc : s.crField 18 0 3 = c := by
    unfold State.curSlot slotOf at hcur
    split at hcur
    · exact Option.some.inj hcur
    · cases hcur
  obtain ⟨rcur, rgold, ralt, rprev⟩ := reassign_roles s
  have hrole (lo : Nat) : (fcFrameend s).crField 18 lo 3 = s.reassign.crField 18 lo 3 :=
    crField_of_raw (fcFrameend_crRaw s (by decide))
  obtain ⟨hseen, hvisible, herr⟩ := fcFrameend_status s
  obtain ⟨hprob, hsaved⟩ := fcFrameend_probs s
  have hres := fcFrameend_result s
  rw [hc] at rcur rgold ralt rprev
  refine ⟨(fcFrameend s).done, ?_, ?_, (hrole 8).trans rgold, (hrole 12).trans ralt, (hrole 4).trans rprev,
    hprob, hsaved, hseen, hvisible, herr, hres 0, ?_, fun j hj => ?_,
    fun j h16 h18 => (fcFrameend_crRaw s h16).trans (reassign_crRaw s h18), congrArg State.done (fcFrameend_eq s)⟩
  · show finish s (needSlot s.curSlot >>= fun _ => .ok (fcFrameend s)) = _
    rw [hcur]
    rfl
  · exact (congrArg slotOf ((hrole 0).trans (reassign_roles s).1)).trans hcur
  · exact (hres 1).trans (congrArg (BitVec.ofNat 32) hc)
  · simp only [List.mem_cons, List.not_mem_nil, or_false, not_or] at hj
    exact (hres j).trans ((if_neg hj.2).trans (if_neg hj.1))

end Sys2Proof.Machine
end

section
/-! PROOFS. The checks of `FC_HEADER` (48_frame_control_host.md R427) and their order. -/

namespace Sys2Proof.Machine

variable {s t : State} {base length : Word}

theorem require_eq_false {α : Type} {b : Bool} {c : ErrCode} {f : Unit → Res α} (hb : b = false) :
    (require b c >>= f) = .error (.raise c) := by
  rw [hb]
  rfl

/-! ## The checks (1) to (7) -/

theorem headerParse_buffer (T : OpenTables) (h : 2 ^ 32 < base.toNat + length.toNat) :
    headerParse T base length s = .error (.raise .badOperand) :=
  require_eq_false (decide_eq_false (Nat.not_le.2 h))

theorem headerParse_checks (T : OpenTables) (hb : base.toNat + length.toNat ≤ 2 ^ 32) {e : Stop}
    (h : s.headerChecks base length = .error e) : headerParse T base length s = .error e := by
  have hbuffer : bufferOk base length = true := decide_eq_true hb
  simp only [headerParse, hbuffer, require_true, Res.ok_bind, h, Res.error_bind]

/-- A header whose fields cannot be read raises from the state as it was. -/
theorem fcHeader_parse_error {c : ErrCode}
    (h : headerParse Config.openTables (s.arg 0) (s.arg 1) s = .error (.raise c)) :
    exec .fcHeader s = .next (s.raiseFrame c) := by
  show finishFrame (headerBase Config.openTables _ _ s) (header Config.openTables _ _ s) = _
  rw [headerBase, header, h]
  rfl

/-- The checks of an interframe behind the tag's. -/
theorem headerChecks_inter (htag : 3 ≤ length.toNat) (hprofile : tagProfile (s.frameTag base) ≤ 3)
    (hkey : tagKey (s.frameTag base) = false) : s.headerChecks base length =
      (require s.keyframeSeen .stateNoKeyframe >>= fun _ =>
        require (3 + tagFirst (s.frameTag base) ≤ length.toNat) .structTruncated) := by
  simp only [State.headerChecks, htag, hprofile, hkey, decide_true, require_true, Res.ok_bind, Bool.false_or,
    Bool.not_false, Bool.true_or]
  rfl

/-- The checks of a keyframe behind the tag's. -/
theorem headerChecks_key (htag : 3 ≤ length.toNat) (hprofile : tagProfile (s.frameTag base) ≤ 3)
    (hkey : tagKey (s.frameTag base) = true) : s.headerChecks base length =
      (require (10 ≤ length.toNat) .structTruncated >>= fun _ =>
        require (s.startCodeOk base) .structStartcode >>= fun _ =>
        require (sizeNonzero (s.frameSize base)) .badSize >>= fun _ =>
        require (10 + tagFirst (s.frameTag base) ≤ length.toNat) .structTruncated) := by
  simp only [State.headerChecks, htag, hprofile, hkey, decide_true, require_true, Res.ok_bind, Bool.true_or,
    Bool.not_true, Bool.false_or]
  rfl

theorem tagKey_eq_false {g : Nat} (h : g % 2 = 1) : tagKey g = false := by simp [tagKey, h]

theorem tagKey_eq_true {g : Nat} (h : g % 2 = 0) : tagKey g = true := by simp [tagKey, h]

theorem startCodeOk_iff : s.startCodeOk base = true ↔
    s.frameByte base 3 = 0x9D ∧ s.frameByte base 4 = 0x01 ∧ s.frameByte base 5 = 0x2A := by
  simp [State.startCodeOk, and_assoc]

theorem frameSize_width (s : State) (base : Word) : field (s.frameSize base) 0 14 = s.frameLe base 6 2 % 2 ^ 14 := by
  refine Nat.eq_of_testBit_eq fun i => ?_
  rw [testBit_field, Nat.testBit_mod_two_pow, State.frameSize, BitVec.getLsbD_append, Nat.zero_add]
  by_cases hi : i < 14
  · have h16 : i < 16 := by omega
    simp [-BitVec.getLsbD_eq_getElem, BitVec.getLsbD_ofNat, hi, h16]
  · simp [hi]

theorem frameSize_height (s : State) (base : Word) : field (s.frameSize base) 16 14 = s.frameLe base 8 2 % 2 ^ 14 := by
  refine Nat.eq_of_testBit_eq fun i => ?_
  rw [testBit_field, Nat.testBit_mod_two_pow, State.frameSize, BitVec.getLsbD_append]
  by_cases hi : i < 14
  · have h16 : i < 16 := by omega
    simp [-BitVec.getLsbD_eq_getElem, BitVec.getLsbD_ofNat, hi, h16]
  · simp [hi]

theorem sizeNonzero_iff : sizeNonzero (s.frameSize base) = true ↔
    s.frameLe base 6 2 % 2 ^ 14 ≠ 0 ∧ s.frameLe base 8 2 % 2 ^ 14 ≠ 0 := by
  rw [← frameSize_width, ← frameSize_height]
  simp [sizeNonzero]

/-- The checks of a frame that passes them, whatever its partitions are. -/
theorem headerChecks_passed (h : s.HeaderOk base length) : s.headerChecks base length = .ok () := by
  have hfirst : hdrLen (tagKey (s.frameTag base)) + tagFirst (s.frameTag base) ≤ length.toNat := h.first
  by_cases hkey : tagKey (s.frameTag base) = true
  · have hsize : sizeNonzero (s.frameSize base) = true := by simp [sizeNonzero, h.size hkey]
    rw [hkey] at hfirst
    simp [headerChecks_key h.tag h.profile hkey, h.header hkey, startCodeOk_iff.2 (h.start hkey), hsize,
      show 10 + tagFirst (s.frameTag base) ≤ length.toNat from hfirst]
  · have hseen : s.keyframeSeen = true := h.keyframe.resolve_left hkey
    have hkey : tagKey (s.frameTag base) = false := Bool.eq_false_iff.2 hkey
    rw [hkey] at hfirst
    simp [headerChecks_inter h.tag h.profile hkey, hseen,
      show 3 + tagFirst (s.frameTag base) ≤ length.toNat from hfirst]

/-! ## The partitions (R426, R427 (8)) -/

/-- Behind the checks (1) to (7) the header is its fields and the partition layout. -/
theorem headerParse_passed (h : s.HeaderOk base length) : headerParse Config.openTables base length s =
    hPartitions base length (s.partTable base)
      (hFields Config.openTables (tagKey (s.frameTag base)) (s.beforeFields base)) := by
  have hbuffer : bufferOk base length = true := decide_eq_true h.buffer
  simp only [headerParse, hbuffer, require_true, Res.ok_bind, headerChecks_passed h]
  rfl

theorem hFields_beforeFields_cbuf (s : State) (base : Word) :
    (hFields Config.openTables (tagKey (s.frameTag base)) (s.beforeFields base)).cbuf = s.cbuf := by
  rw [fields_cbuf (hFields_done _ _ _).effects, parts_cbuf (beforeFields_parts s base)]
  rfl

/-- A partition that ends behind the frame is refused, wherever it stands among those that the table sizes. -/
theorem hParts_refuses {p n i o : Nat} (hi : i + n ≤ 8)
    (h : ∃ k < n, length.toNat <
      o + ((List.range (k + 1)).map fun j => s.frameLe base (p + 3 * (i + j)) 3).sum) :
    hParts base length p n i o s = .error (.raise .structPartition) := by
  induction n generalizing s i o with
  | zero =>
    obtain ⟨k, hk, -⟩ := h
    exact absurd hk (Nat.not_lt_zero k)
  | succ n ih =>
    obtain ⟨k, hk, hlong⟩ := h
    simp only [hParts]
    by_cases hfits : o + s.frameLe base (p + 3 * i) 3 ≤ length.toNat
    · have hcbuf : (s.startPart (1 + i) (base + BitVec.ofNat 32 o)
          (BitVec.ofNat 32 (s.frameLe base (p + 3 * i) 3))).cbuf = s.cbuf :=
        parts_cbuf (startPart_parts s (1 + i) _ _ (by omega))
      rw [decide_eq_true hfits, require_true, Res.ok_bind]
      rw [List.range_succ_eq_map, List.map_cons, List.map_map, List.sum_cons, Nat.add_zero, ← Nat.add_assoc] at hlong
      cases k with
      | zero => exact absurd hlong (Nat.not_lt.2 hfits)
      | succ k =>
        refine ih (by omega) ⟨k, by omega, hlong.trans_eq ?_⟩
        congr 2
        refine List.map_congr_left fun j _ => ?_
        rw [frameLe_of_cbuf hcbuf, Function.comp_apply, show i + Nat.succ j = i + 1 + j by omega]
    · exact require_eq_false (decide_eq_false hfits)

theorem partSize_of_cbuf (h : t.cbuf = s.cbuf) (base : Word) (i : Nat) :
    t.frameLe base (s.partTable base + 3 * i) 3 = s.partSize base i :=
  frameLe_of_cbuf h _ _ _

theorem partStart_succ (s : State) (base : Word) (n i : Nat) :
    s.partStart base n (i + 1) = s.partStart base n i + s.partSize base i := by
  simp only [State.partStart, List.range_succ, List.map_append, List.map_cons, List.map_nil, List.sum_append,
    List.sum_singleton, Nat.add_assoc]

/-- The layout is refused where its table, or one of the partitions that the table sizes, ends behind the frame. -/
theorem headerParse_layout (h : s.HeaderOk base length)
    (hlong : length.toNat < s.partTable base + 3 * (s.headerNpart base - 1) ∨ ∃ i < s.headerNpart base - 1,
      length.toNat < s.partStart base (s.headerNpart base) i + s.partSize base i) :
    headerParse Config.openTables base length s = .error (.raise .structPartition) := by
  rw [headerParse_passed h]
  have hcbuf := hFields_beforeFields_cbuf s base
  have hnpart : s.headerNpart base =
    (hFields Config.openTables (tagKey (s.frameTag base)) (s.beforeFields base)).npart := rfl
  generalize hFields Config.openTables (tagKey (s.frameTag base)) (s.beforeFields base) = u at *
  have hbounds := npart_bounds u
  rw [hnpart] at hlong
  simp only [hPartitions]
  by_cases htable : s.partTable base + 3 * (u.npart - 1) ≤ length.toNat
  · obtain ⟨i, hi, hlong⟩ := hlong.resolve_left (Nat.not_lt.2 htable)
    rw [← partStart_succ, State.partStart] at hlong
    have hparts := hParts_refuses (s := u) (base := base) (length := length) (p := s.partTable base)
      (n := u.npart - 1) (i := 0) (o := s.partTable base + 3 * (u.npart - 1)) (by omega) ⟨i, hi, by
        simpa only [Nat.zero_add, partSize_of_cbuf hcbuf] using hlong⟩
    rw [decide_eq_true htable, require_true, Res.ok_bind, hparts]
    rfl
  · exact require_eq_false (decide_eq_false htable)

theorem layout_of_parts {n parts : Nat} (htable : s.partTable base + 3 * (parts - 1) ≤ n)
    (h : ∀ i < parts - 1, s.partStart base parts i + s.partSize base i ≤ n) :
    s.partStart base parts (parts - 1) ≤ n := by
  cases hm : parts - 1 with
  | zero => simpa [State.partStart, hm] using htable
  | succ m => exact (partStart_succ ..).trans_le (h m (by omega))

/-- The allocator is asked last; what its refusal leaves is raised from the state behind the request. -/
theorem fcHeader_refused (h : s.FrameOk (s.arg 0) (s.arg 1))
    (hrefused : s.sizeGranted (s.wantedSize (s.arg 0)) = false) :
    exec .fcHeader s = .next ((s.afterAsk (s.wantedSize (s.arg 0))).raiseFrame .alloc) := by
  obtain ⟨t, hparse, -⟩ := headerParse_completes h
  show finishFrame (headerBase Config.openTables _ _ s) (header Config.openTables _ _ s) = _
  rw [headerBase, header, hparse, Res.ok_bind, require_eq_false hrefused]
  rfl

/-- Settles O58: each check is one `require` of the header, so the first that fails is its answer. -/
theorem fcHeaderChecks : Obligations.FcHeaderChecks := by
  unfold Obligations.FcHeaderChecks
  refine ⟨fun s => ?_, fun s => ?_⟩
  · intro base n g answers
    have hchecks (hb : base.toNat + n ≤ 2 ^ 32) {c : ErrCode}
        (h : s.headerChecks base (s.arg 1) = .error (.raise c)) : answers c :=
      fcHeader_parse_error (headerParse_checks _ hb h)
    refine ⟨fun hb => fcHeader_parse_error (headerParse_buffer _ hb),
      fun hb hn => hchecks hb (require_eq_false (decide_eq_false (Nat.not_le.2 hn))), fun hb hn hprofile => ?_,
      fun hb hn hprofile => ⟨fun hodd => ?_, fun heven => ?_⟩⟩
    · refine hchecks hb ?_
      rw [State.headerChecks, decide_eq_true hn, require_true, Res.ok_bind]
      exact require_eq_false (decide_eq_false (Nat.not_le.2 hprofile))
    · have hinter := headerChecks_inter hn hprofile (tagKey_eq_false hodd)
      refine ⟨fun hseen => hchecks hb ?_, fun hseen hlong => hchecks hb ?_⟩
      · exact hinter.trans (require_eq_false hseen)
      · rw [hinter, hseen, require_true, Res.ok_bind]
        exact congrArg (require · _) (decide_eq_false (Nat.not_le.2 hlong))
    · have hkeyframe := headerChecks_key hn hprofile (tagKey_eq_true heven)
      refine ⟨fun hshort => hchecks hb ?_, fun hlen hstart => hchecks hb ?_, fun hlen hstart =>
        ⟨fun hsize => hchecks hb ?_, fun hwidth hheight hlong => hchecks hb ?_⟩⟩
      · exact hkeyframe.trans (require_eq_false (decide_eq_false (Nat.not_le.2 hshort)))
      · rw [hkeyframe, decide_eq_true hlen, require_true, Res.ok_bind]
        exact require_eq_false (Bool.eq_false_iff.2 fun h => hstart (startCodeOk_iff.1 h))
      · rw [hkeyframe, decide_eq_true hlen, require_true, Res.ok_bind, startCodeOk_iff.2 hstart, require_true,
          Res.ok_bind]
        exact require_eq_false (Bool.eq_false_iff.2 fun h => by have := sizeNonzero_iff.1 h; omega)
      · rw [hkeyframe, decide_eq_true hlen, require_true, Res.ok_bind, startCodeOk_iff.2 hstart, require_true,
          Res.ok_bind, sizeNonzero_iff.2 ⟨hwidth, hheight⟩, require_true, Res.ok_bind]
        exact congrArg (require · _) (decide_eq_false (Nat.not_le.2 hlong))
  · intro base n parts h
    refine ⟨fun hlong => fcHeader_parse_error (headerParse_layout h hlong),
      fun htable hparts hkey hchange hrefused => ?_⟩
    have hwanted : s.wantedSize base = s.frameSize base := if_pos hkey
    have hanswer := fcHeader_refused ⟨h, layout_of_parts htable hparts⟩
    rw [hwanted, sizeGranted_of_change hchange, afterAsk_of_change hchange] at hanswer
    exact hanswer hrefused

end Sys2Proof.Machine
end

section
/-! PROOFS. What `FC_HEADER` leaves on a frame that passes the checks (48_frame_control_host.md R402 to R429). -/

namespace Sys2Proof.Machine

variable {s t u : State} {base length : Word} {key : Bool}

/-! ## The segment map, which only the reset of a keyframe's header clears -/

theorem foldl_segmap {α : Type} {f : State → α → State} (h : ∀ s a, (f s a).segmap = s.segmap) (l : List α)
    (s : State) : (l.foldl f s).segmap = s.segmap := by
  induction l generalizing s with
  | nil => rfl
  | cons a l ih => exact (ih _).trans (h s a)

theorem hLitTo_segmap (reg lo n : Nat) (s : State) : (hLitTo reg lo n s).segmap = s.segmap := rfl

theorem hProb_segmap (i : Nat) (s : State) : (hProb i s).segmap = s.segmap := rfl

theorem hOptByte_segmap (reg i n : Nat) (s : State) : (hOptByte reg i n s).segmap = s.segmap := by
  unfold hOptByte hOptSigned
  simp only
  split <;> rfl

theorem hKeepByte_segmap (reg i n : Nat) (s : State) : (hKeepByte reg i n s).segmap = s.segmap := by
  unfold hKeepByte
  simp only
  split <;> rfl

theorem hSegProb_segmap (s : State) (i : Nat) : (hSegProb s i).segmap = s.segmap := by
  unfold hSegProb
  simp only
  split <;> rfl

theorem hSegData_segmap (s : State) : (hSegData s).segmap = s.segmap := by
  unfold hSegData
  simp only
  rw [foldl_segmap fun s i => hOptByte_segmap 5 i 6 s, foldl_segmap fun s i => hOptByte_segmap 4 i 7 s]
  rfl

theorem hSegmentation_segmap (s : State) : (hSegmentation s).segmap = s.segmap := by
  unfold hSegmentation
  simp only
  split
  · split <;> split <;> (try rw [foldl_segmap hSegProb_segmap]) <;> (try rw [hSegData_segmap]) <;> rfl
  · rfl

theorem hDeltas_segmap (s : State) : (hDeltas s).segmap = s.segmap := by
  unfold hDeltas
  simp only
  split
  · split
    · rw [foldl_segmap fun s i => hKeepByte_segmap 8 i 6 s, foldl_segmap fun s i => hKeepByte_segmap 7 i 6 s]
      rfl
    · rfl
  · rfl

theorem hQuant_segmap (s : State) : (hQuant s).segmap = s.segmap := by
  unfold hQuant
  simp only
  rw [hOptByte_segmap, foldl_segmap fun s i => hOptByte_segmap 11 i 4 s]
  rfl

theorem hRefField_segmap (lo : Nat) (b : Bool) (s : State) : (hRefField lo b s).segmap = s.segmap := by
  unfold hRefField
  split <;> rfl

theorem hRefs_segmap (s : State) : (hRefs s).segmap = s.segmap :=
  (hRefField_segmap 2 _ _).trans (hRefField_segmap 0 _ _)

theorem hCommit_segmap (s : State) : (hCommit s).segmap = s.segmap := by
  unfold hCommit
  simp only
  split <;> rfl

theorem hTokens_segmap (T : OpenTables) (s : State) : (hTokens T s).segmap = s.segmap :=
  foldl_segmap (fun s i => by
    unfold hTokenUpdate
    simp only
    split <;> rfl) _ s

theorem hSkip_segmap (s : State) : (hSkip s).segmap = s.segmap := by
  unfold hSkip
  simp only
  split <;> rfl

theorem hProbRun_segmap (i n : Nat) (s : State) : (hProbRun i n s).segmap = s.segmap := by
  unfold hProbRun
  simp only
  split
  · exact foldl_segmap (fun x j => (rfl : (hProb (i + j) x).segmap = x.segmap)) _ _
  · rfl

theorem hMvs_segmap (T : OpenTables) (s : State) : (hMvs T s).segmap = s.segmap :=
  foldl_segmap (fun s i => by
    unfold hMvUpdate
    simp only
    split <;> rfl) _ s

theorem hFields_segmap (T : OpenTables) (key : Bool) (s : State) :
    (hFields T key s).segmap = if key then [] else s.segmap := by
  have hstart (x : State) : (hQuant (hPartCount (hDeltas (hFilter (hSegmentation x))))).segmap = x.segmap := by
    rw [hQuant_segmap, hPartCount, hLitTo_segmap, hDeltas_segmap, hFilter, hLitTo_segmap, hLitTo_segmap, hLitTo_segmap,
      hSegmentation_segmap]
  unfold hFields
  cases key with
  | true =>
    simp only [if_true]
    rw [hSkip_segmap, hTokens_segmap, hCommit_segmap, hstart]
    rfl
  | false =>
    simp only [Bool.false_eq_true, if_false]
    rw [hMvs_segmap, hModeProbs, hProbRun_segmap, hProbRun_segmap, hRefProbs, hProb_segmap, hProb_segmap, hProb_segmap,
      hSkip_segmap, hTokens_segmap, hUpdateLast, hLitTo_segmap, hCommit_segmap, hRefs_segmap, hstart]

/-! ## The class of the frame in `CR0`, which the tag sets -/

theorem hColor_frameClass {lo len : Nat} (h : lo + len ≤ 5) (s : State) :
    (hColor s).crField 0 lo len = s.crField 0 lo len := by
  have hbit {lo2 : Nat} (h5 : 5 ≤ lo2) (x : State) : (hLitTo 0 lo2 1 x).crField 0 lo len = x.crField 0 lo len :=
    crField_same_reg _ (by decide) (.inl (by omega)) (by omega) (hLit 1 x).2
  exact (hbit (by decide) _).trans (hbit (by decide) s)

theorem hFields_frameClass (T : OpenTables) (key : Bool) {lo len : Nat} (h : lo + len ≤ 5) (s : State) :
    (hFields T key s).crField 0 lo len = s.crField 0 lo len := by
  have hstart (x : State) : (hQuant (hPartCount (hDeltas (hFilter (hSegmentation x))))).crRaw 0 = x.crRaw 0 := by
    rw [hQuant_leaves _ 0 (by decide), hPartCount, hLitTo_leaves 9 0 2 _ 0 (by decide), hDeltas_leaves _ 0 (by decide),
      hFilter_leaves _ 0 (by decide), hSegmentation_leaves _ 0 (by decide)]
  have hend (x : State) : (hSkip (hTokens T x)).crRaw 0 = x.crRaw 0 := by
    rw [hSkip_leaves _ 0 (by decide), hTokens_leaves T _ 0 (by decide)]
  unfold hFields
  cases key with
  | true =>
    simp only [if_true]
    rw [crField_of_raw (hend _), crField_of_raw (hCommit_leaves _ 0 (by decide)), crField_of_raw (hstart _),
      hColor_frameClass h, crField_of_raw (hKeyReset_leaves T s 0 (by decide))]
  | false =>
    simp only [Bool.false_eq_true, if_false]
    refine crField_of_raw ?_
    rw [hMvs_leaves T _ 0 (by decide), hModeProbs_leaves _ 0 (by decide), hRefProbs_leaves _ 0 (by decide), hend,
      hUpdateLast, hLitTo_leaves 13 4 1 _ 0 (by decide), hCommit_leaves _ 0 (by decide), hRefs_leaves _ 0 (by decide),
      hstart]

theorem boolNat_lt (b : Bool) : boolNat b < 2 ^ 1 := by cases b <;> decide

theorem setFrmCtl_class (s : State) (g : Nat) : (s.setFrmCtl g).crField 0 0 1 = boolNat (tagKey g) ∧
    (s.setFrmCtl g).crField 0 1 3 = tagProfile g ∧ (s.setFrmCtl g).crField 0 4 1 = boolNat (tagShow g) := by
  unfold State.setFrmCtl
  refine ⟨?_, ?_, crField_self (by decide) (by decide) (boolNat_lt _) _⟩
  · rw [crField_same_reg _ (by decide) (by decide) (by decide), crField_same_reg _ (by decide) (by decide) (by decide),
      crField_self (by decide) (by decide) (boolNat_lt _)]
  · rw [crField_same_reg _ (by decide) (by decide) (by decide),
      crField_self (by decide) (by decide) (show tagProfile g < 2 ^ 3 from Nat.mod_lt _ (by decide))]

theorem crBit_of_field {i b : Nat} {v : Bool} (h : s.crField i b 1 = boolNat v) : s.crBit i b = v := by
  unfold State.crBit
  rw [bitAt_eq_field, show field (s.crRaw i) b 1 = boolNat v from h]
  cases v <;> rfl

/-! ## One partition's registers and decoder -/

/-- What the machine holds of partition `k`: where it starts, its length and its range decoder. -/
def State.part (s : State) (k : Nat) : Word × Word × Rd := (s.crRaw (20 + k), s.crRaw (32 + k), s.rdAt k)

theorem part_of_same {k : Nat} (hcr : ∀ j, 20 ≤ j → t.crRaw j = s.crRaw j) (hrd : t.rdAt k = s.rdAt k) :
    t.part k = s.part k := by
  unfold State.part
  rw [hcr _ (by omega), hcr _ (by omega), hrd]

theorem part_setPart {k j : Nat} (hk : k ≤ 8) (hj : j ≤ 8) (s : State) (b l : Word) :
    (s.setPart k b l).part j = if j = k then (b, l, s.rdAt j) else s.part j := by
  have hcr (i : Nat) : (s.setPart k b l).crRaw i = if i = 32 + k then l else if i = 20 + k then b else s.crRaw i := by
    unfold State.setPart
    rw [State.crRaw_setCr _ _ _ _ (by omega), State.crRaw_setCr _ _ _ _ (by omega)]
  unfold State.part
  rw [hcr, hcr, if_neg (by omega)]
  by_cases h : j = k
  · subst h
    simp only [if_true]
    rfl
  · simp only [h, if_false, Nat.add_right_inj]
    rw [if_neg (by omega)]
    rfl

theorem part_setRd {k j : Nat} (hk : k ≤ 8) (s : State) (r : Rd) :
    (s.setRd k r).part j = if j = k then ((s.part j).1, (s.part j).2.1, r) else s.part j := by
  unfold State.part
  rw [s.rdAt_setRd _ _ _ (by omega)]
  split <;> rfl

theorem part_startPart {k j : Nat} (hk : k ≤ 8) (hj : j ≤ 8) (s : State) (b l : Word) :
    (s.startPart k b l).part j = if j = k then (b, l, rdStart s.cbuf b l) else s.part j := by
  unfold State.startPart
  rw [part_setRd hk, part_setPart hk hj]
  split <;> rfl

/-- A partition whose decoder has just been started. -/
def startedPart (cbuf : Memory Byte) (b l : Word) : Word × Word × Rd := (b, l, rdStart cbuf b l)

/-! ## The partition layout (R426) -/

theorem sum_range_succ_shift (f : Nat → Nat) (i m : Nat) : ((List.range (m + 1)).map fun j => f (i + j)).sum =
    f i + ((List.range m).map fun j => f (i + 1 + j)).sum := by
  rw [List.range_succ_eq_map, List.map_cons, List.sum_cons, List.map_map, Nat.add_zero]
  congr 2
  exact List.map_congr_left fun j _ => congrArg f (by simp; omega)

/-- The partitions `i + 1` to `i + n` are started one behind the other; no other one changes. -/
theorem hParts_part {p n i o o' k : Nat} {size : Nat → Nat} (hi : i + n ≤ 8) (hk : k ≤ 8)
    (hsize : ∀ j, s.frameLe base (p + 3 * j) 3 = size j) (h : hParts base length p n i o s = .ok (o', t)) :
    o' = o + ((List.range n).map fun j => size (i + j)).sum ∧
    t.part k = if i < k ∧ k ≤ i + n then startedPart s.cbuf
        (base + BitVec.ofNat 32 (o + ((List.range (k - 1 - i)).map fun j => size (i + j)).sum))
        (BitVec.ofNat 32 (size (k - 1)))
      else s.part k := by
  induction n generalizing s i o with
  | zero =>
    cases h
    exact ⟨rfl, (if_neg (by omega)).symm⟩
  | succ n ih =>
    simp only [hParts, hsize] at h
    obtain ⟨_, -, h⟩ := Res.bind_ok.1 h
    have hcbuf : (s.startPart (1 + i) (base + BitVec.ofNat 32 o) (BitVec.ofNat 32 (size i))).cbuf = s.cbuf := rfl
    obtain ⟨hend, hpart⟩ := ih (by omega) (fun j => (frameLe_of_cbuf hcbuf _ _ _).trans (hsize j)) h
    refine ⟨by rw [hend, sum_range_succ_shift, Nat.add_assoc], hpart.trans ?_⟩
    by_cases hlater : i + 1 < k ∧ k ≤ i + 1 + n
    · obtain ⟨m, rfl⟩ : ∃ m, k = i + 2 + m := ⟨k - (i + 2), by omega⟩
      rw [if_pos hlater, if_pos (by omega), hcbuf, show i + 2 + m - 1 - i = m + 1 by omega,
        show i + 2 + m - 1 - (i + 1) = m by omega, sum_range_succ_shift, Nat.add_assoc]
    · rw [if_neg hlater, part_startPart (by omega) hk]
      by_cases hthis : k = 1 + i
      · subst hthis
        rw [if_pos rfl, if_pos (by omega), show 1 + i - 1 - i = 0 by omega, show 1 + i - 1 = i by omega]
        rfl
      · rw [if_neg hthis, if_neg (by omega)]

theorem part_cleared {n m k : Nat} (hm : n + m ≤ 8) (hk : k ≤ 8) (s : State) :
    ((List.range m).foldl (fun w j => w.setPart (n + 1 + j) 0 0) s).part k =
      if n < k ∧ k ≤ n + m then (0, 0, s.rdAt k) else s.part k := by
  induction m with
  | zero => exact (if_neg (by omega)).symm
  | succ m ih =>
    rw [List.range_succ, List.foldl_append, List.foldl_cons, List.foldl_nil, part_setPart (by omega) hk]
    have ih := ih (by omega)
    generalize (List.range m).foldl (fun w j => w.setPart (n + 1 + j) 0 0) s = w at ih
    by_cases hthis : k = n + 1 + m
    · rw [if_neg (by omega)] at ih
      rw [if_pos hthis, if_pos (by omega), show w.rdAt k = s.rdAt k from congrArg (·.2.2) ih]
    · rw [if_neg hthis, ih]
      exact if_congr (by omega) rfl rfl

/-- What the machine holds of partition `k` after the layout of a frame whose table gives the sizes `size`. -/
theorem hPartitions_part {p k : Nat} {size : Nat → Nat} (hk : k ≤ 8)
    (hsize : ∀ j, s.frameLe base (p + 3 * j) 3 = size j) (h : hPartitions base length p s = .ok t) :
    let start i := p + 3 * (s.npart - 1) + ((List.range i).map size).sum
    t.part k = if k = 0 then s.part 0
      else if k < s.npart then
        startedPart s.cbuf (base + BitVec.ofNat 32 (start (k - 1))) (BitVec.ofNat 32 (size (k - 1)))
      else if k = s.npart then startedPart s.cbuf (base + BitVec.ofNat 32 (start (k - 1)))
        (BitVec.ofNat 32 (length.toNat - start (k - 1)))
      else (0, 0, s.rdAt k) := by
  intro start
  have hn := npart_bounds s
  simp only [hPartitions] at h
  obtain ⟨_, -, h⟩ := Res.bind_ok.1 h
  obtain ⟨⟨o, w⟩, hw, h⟩ := Res.bind_ok.1 h
  cases h
  obtain ⟨hend, hpart⟩ := hParts_part (k := k) (by omega) hk hsize hw
  simp only [Nat.zero_add, Nat.sub_zero] at hend hpart
  have hcbuf : w.cbuf = s.cbuf := (hParts_effects (by omega) hw).cbuf_eq
  have hrd (r : Word × Word × Rd) (hr : w.part k = r) : w.rdAt k = r.2.2 := congrArg (·.2.2) hr
  obtain h0 | hlt | heq | hgt : k = 0 ∨ 0 < k ∧ k < s.npart ∨ k = s.npart ∨ s.npart < k := by omega
  · subst h0
    rw [part_cleared (by omega) hk, part_startPart hn.2 hk, hpart, if_neg (by omega), if_neg (by omega),
      if_neg (by omega), if_pos rfl]
  · rw [part_cleared (by omega) hk, part_startPart hn.2 hk, hpart, if_neg (by omega), if_neg (by omega),
      if_pos (by omega), if_neg (by omega), if_pos hlt.2]
  · rw [part_cleared (by omega) hk, part_startPart hn.2 hk, hcbuf, if_neg (by omega), if_pos heq, if_neg (by omega),
      if_neg (by omega), if_pos heq, hend, heq]
    rfl
  · rw [part_cleared (by omega) hk, if_pos (by omega), if_neg (by omega), if_neg (by omega), if_neg (by omega)]
    rw [if_neg (by omega)] at hpart
    have hrest := (part_startPart hn.2 hk w (base + BitVec.ofNat 32 o) (BitVec.ofNat 32 (length.toNat - o))).trans
      ((if_neg (by omega)).trans hpart)
    exact congrArg (fun r => ((0 : Word), (0 : Word), r)) (congrArg (·.2.2) hrest)

/-! ## The partitions after the whole header -/

theorem fields_rdAt {k : Nat} (hk : k ≠ 0) (h : Effects tagsFields s t) : t.rdAt k = s.rdAt k :=
  h.same (fun x : State => x.rdAt k) fun a ha _ _ hm => by
    rcases ha with rfl | rfl | rfl | rfl | ⟨i, -, -, -, -, rfl⟩ <;> exact hm.rdAt_eq (by simp [hk.symm]) (by simp)
      (by simp) (by simp)

/-- The fields are read by `RD[0]`, which stays on its buffer. -/
theorem fields_sameBuffer (h : Effects tagsFields s t) : (s.rdAt 0).SameBuffer (t.rdAt 0) := by
  refine h.keeps (P := fun x : State => (s.rdAt 0).SameBuffer (x.rdAt 0)) (fun a ha x y hm hx => ?_) (.rfl _)
  have hother (h0 : a ≠ .rd 0) (h1 : a ≠ .rdInit 0) (h2 : a ≠ .rdOff) (h3 : a ≠ .reset) :
      (s.rdAt 0).SameBuffer (y.rdAt 0) := by rwa [hm.rdAt_eq h0 h1 h2 h3]
  rcases ha with rfl | rfl | rfl | rfl | ⟨i, -, -, -, -, rfl⟩
  · cases hm with
    | rd _ _ _ hsteps =>
      rw [State.rdAt_setRd_self]
      exact hx.trans hsteps.buffer
  all_goals exact hother (by simp) (by simp) (by simp) (by simp)

/-- The fields leave every partition but the first as it was, and of the first all but the state of its decoder. -/
theorem hFields_part (T : OpenTables) (key : Bool) (s : State) : (∀ k, k ≠ 0 → (hFields T key s).part k = s.part k) ∧
    ((hFields T key s).part 0).1 = (s.part 0).1 ∧ ((hFields T key s).part 0).2.1 = (s.part 0).2.1 := by
  have hd := hFields_done T key s
  exact ⟨fun k hk => part_of_same (fun j hj => hd.raw j (.inr (by omega))) (fields_rdAt hk hd.effects),
    hd.raw 20 (.inr (by decide)), hd.raw 32 (.inr (by decide))⟩

theorem beforeFields_part (s : State) (base : Word) {k : Nat} (hk : k ≤ 8) : (s.beforeFields base).part k =
    if k = 0 then startedPart s.cbuf (base + BitVec.ofNat 32 (hdrLen (tagKey (s.frameTag base))))
        (BitVec.ofNat 32 (tagFirst (s.frameTag base)))
      else (s.invalidateRd.setFrmCtl (s.frameTag base)).part k :=
  part_startPart (by decide) hk _ _ _

/-- Partition `k`, as the layout of the frame gives it, of `n` partitions (R408, R426). -/
def State.layoutPart (s : State) (base length : Word) (n k : Nat) : Word × Word × Rd :=
  startedPart s.cbuf (base + BitVec.ofNat 32 (s.partStart base n (k - 1)))
    (BitVec.ofNat 32 (if k < n then s.partSize base (k - 1) else length.toNat - s.partStart base n (k - 1)))

/-- The partitions of a header that has been read. -/
structure HeaderParts (s t : State) (base length : Word) : Prop where
  first : t.crRaw 20 = base + BitVec.ofNat 32 (hdrLen (tagKey (s.frameTag base))) ∧
    t.crRaw 32 = BitVec.ofNat 32 (tagFirst (s.frameTag base))
  decoder : (t.rdAt 0).base = t.crRaw 20 ∧ (t.rdAt 0).size = t.crRaw 32 ∧ t.rdValid 0 = true
  part : ∀ k, 0 < k → k ≤ t.npart → t.part k = s.layoutPart base length t.npart k
  none : ∀ k, t.npart < k → k ≤ 8 → t.crRaw (20 + k) = 0 ∧ t.crRaw (32 + k) = 0 ∧ t.rdValid k = false

theorem frameLe_lt (s : State) (base : Word) (i n : Nat) : s.frameLe base i n < 256 ^ n := by
  induction n generalizing i with
  | zero => exact Nat.one_pos
  | succ n ih =>
    have := ih (i + 1)
    have := (s.frameByte base i).isLt
    rw [State.frameLe, Nat.pow_succ]
    omega

/-- Partition `i + 1` is the one that the frame's layout counts from 0 as `i`. -/
theorem HeaderParts.layout (h : HeaderParts s t base length) {i : Nat} (hi : i < t.npart) :
    t.rdAt (1 + i) = rdStart s.cbuf (t.crRaw (21 + i)) (t.crRaw (33 + i)) ∧
    t.crRaw (21 + i) = base + BitVec.ofNat 32 (s.partStart base t.npart i) ∧
    (i + 1 < t.npart → (t.crRaw (33 + i)).toNat = s.partSize base i) ∧
    (i + 1 = t.npart → (t.crRaw (33 + i)).toNat = length.toNat - s.partStart base t.npart i) := by
  have hpart := h.part (1 + i) (by omega) (by omega)
  unfold State.layoutPart at hpart
  rw [show 1 + i - 1 = i by omega] at hpart
  have hb : t.crRaw (21 + i) = _ := (congrArg t.crRaw (by omega)).trans (congrArg (·.1) hpart)
  have hl : t.crRaw (33 + i) = _ := (congrArg t.crRaw (by omega)).trans (congrArg (·.2.1) hpart)
  refine ⟨?_, hb, fun hlt => ?_, fun hlast => ?_⟩
  · rw [hb, hl]
    exact congrArg (·.2.2) hpart
  · have := frameLe_lt s base (s.partTable base + 3 * i) 3
    rw [hl, startedPart, if_pos (by omega)]
    exact Nat.mod_eq_of_lt (by unfold State.partSize; omega)
  · rw [hl, startedPart, if_neg (by omega)]
    exact Nat.mod_eq_of_lt (by omega)

theorem HeaderParts.valid (h : HeaderParts s t base length) {k : Nat} (hk : k ≤ 8) :
    t.rdValid k = decide (k ≤ t.npart) := by
  obtain rfl | hle | hgt : k = 0 ∨ 0 < k ∧ k ≤ t.npart ∨ t.npart < k := by omega
  · exact h.decoder.2.2.trans (decide_eq_true (Nat.zero_le _)).symm
  · rw [decide_eq_true hle.2, State.rdValid, show t.rdAt k = _ from congrArg (·.2.2) (h.part k hle.1 hle.2)]
    exact rdStart_valid _ _ _
  · rw [decide_eq_false (by omega)]
    exact (h.none k hgt hk).2.2

theorem headerParse_parts (h : s.HeaderOk base length)
    (ht : headerParse Config.openTables base length s = .ok t) : HeaderParts s t base length := by
  rw [headerParse_passed h] at ht
  have hcbuf := hFields_beforeFields_cbuf s base
  have hd := hFields_done Config.openTables (tagKey (s.frameTag base)) (s.beforeFields base)
  obtain ⟨hother, hbase, hsize⟩ := hFields_part Config.openTables (tagKey (s.frameTag base)) (s.beforeFields base)
  have hbuffer := fields_sameBuffer hd.effects
  have hbefore := beforeFields_part s base (k := 0) (by decide)
  rw [if_pos rfl] at hbefore
  generalize hFields Config.openTables (tagKey (s.frameTag base)) (s.beforeFields base) = u at *
  have hpart {k : Nat} (hk : k ≤ 8) := hPartitions_part hk (partSize_of_cbuf hcbuf base) ht
  have hnpart : t.npart = u.npart := congrArg (fun e : Header => 2 ^ e.log2Npart) (hPartitions_fields ht)
  have h0 : t.part 0 = u.part 0 := (hpart (Nat.zero_le 8)).trans (if_pos rfl)
  have hrd0 : t.rdAt 0 = u.rdAt 0 := congrArg (·.2.2) h0
  have hfirst := (congrArg (·.1) h0).trans (hbase.trans (congrArg (·.1) hbefore))
  have hfirstSize := (congrArg (·.2.1) h0).trans (hsize.trans (congrArg (·.2.1) hbefore))
  have hstart : (s.beforeFields base).rdAt 0 = _ := congrArg (·.2.2) hbefore
  rw [hstart] at hbuffer
  refine ⟨⟨hfirst, hfirstSize⟩, ?_, fun k h0 hk => ?_, fun k hlt hk => ?_⟩
  · have hstarted (b l : Word) : (rdStart s.cbuf b l).base = b ∧ (rdStart s.cbuf b l).size = l := by
      rw [rdStart_eq]
      exact ⟨rfl, rfl⟩
    rw [State.rdValid, hrd0, hbuffer.base, hbuffer.size, hbuffer.valid]
    exact ⟨(hstarted _ _).1.trans hfirst.symm, (hstarted _ _).2.trans hfirstSize.symm, rdStart_valid _ _ _⟩
  · rw [hnpart] at hk ⊢
    have hn := npart_bounds u
    rw [hpart (by omega), if_neg (by omega), hcbuf]
    unfold State.layoutPart State.partStart
    by_cases hlast : k < u.npart
    · rw [if_pos hlast, if_pos hlast]
    · rw [if_neg hlast, if_neg hlast, if_pos (by omega)]
  · rw [hnpart] at hlt
    have hk0 : k ≠ 0 := by omega
    have hcleared := hpart hk
    simp only [if_neg hk0, if_neg (show ¬k < u.npart by omega), if_neg (show k ≠ u.npart by omega)] at hcleared
    have hrd : t.rdAt k = s.invalidateRd.rdAt k := (congrArg (·.2.2) hcleared).trans
      ((congrArg (·.2.2) (hother k hk0)).trans (congrArg (·.2.2) ((beforeFields_part s base hk).trans (if_neg hk0))))
    exact ⟨congrArg (·.1) hcleared, congrArg (·.2.1) hcleared,
      (congrArg Rd.valid hrd).trans (s.rdValid_invalidateRd k)⟩

/-! ## The end of the header: the new size and the multipliers (R406, R416, R429) -/

/-- What `FC_HEADER` makes of the state `u` in which its fields and partitions have been read. -/
def State.headed (s : State) (base : Word) (u : State) : State :=
  ((u.afterAsk (s.wantedSize base)).takeSize (tagKey (s.frameTag base)) (s.wantedSize base)).setupDq.setRes 0
    (boolWord (tagKey (s.frameTag base)))

theorem header_eq (h : headerParse Config.openTables base length s = .ok u)
    (hgrant : s.sizeGranted (s.wantedSize base) = true) :
    header Config.openTables base length s = .ok (s.headed base u) := by
  rw [header, h, Res.ok_bind, hgrant, require_true, Res.ok_bind]
  rfl

theorem setupDq_eq (s : State) : s.setupDq = { s with dq := s.setupDq.dq } :=
  setupDq_same (fun x : State => { x with dq := s.setupDq.dq }) (fun _ _ => rfl) s

theorem setupDq_dqOf (s : State) {g : Nat} (hg : g < 4) : Memory.find s.setupDq.dq g = some (s.setupDq.dqOf g) := by
  have hsame (x : State) (k : Nat) : (itDqsetup k x).dqOf = x.dqOf := rfl
  rw [setupDq_same (fun x => x.dqOf g) (fun _ _ => rfl)]
  unfold State.setupDq
  simp only [List.range_succ, List.range_zero, List.nil_append, List.cons_append, List.foldl_cons, List.foldl_nil,
    itDqsetup_dq, hsame]
  obtain rfl | rfl | rfl | rfl : g = 0 ∨ g = 1 ∨ g = 2 ∨ g = 3 := by omega
  all_goals simp

theorem headed_resized (hkey : tagKey (s.frameTag base) = true) (hchange : u.sizeChanges (s.frameSize base) = true) :
    s.headed base u = (u.askAllocator.2.resize.setCr 1 (s.frameSize base)).setupDq.setRes 0 (boolWord true) := by
  unfold State.headed State.takeSize
  rw [State.wantedSize, if_pos hkey, if_pos hkey, afterAsk_of_change hchange,
    setSize_of_change ((askAllocator_sizeChanges u _).trans hchange), hkey]

/-- What neither the multipliers nor a result is, is as the new size left it. -/
theorem headed_of_size {β : Type} (f : State → β) (hdq : ∀ (x : State) (d : Memory DqRec), f { x with dq := d } = f x)
    (hres : ∀ (x : State) (v : Word), f (x.setRes 0 v) = f x) : f (s.headed base u) =
      f ((u.afterAsk (s.wantedSize base)).takeSize (tagKey (s.frameTag base)) (s.wantedSize base)) :=
  (hres _ _).trans (setupDq_same f hdq _)

theorem headed_crRaw {j : Nat} (h1 : j ≠ 1) (h18 : j ≠ 18) : (s.headed base u).crRaw j = u.crRaw j :=
  (headed_of_size (fun x : State => x.crRaw j) (fun _ _ => rfl) fun _ _ => rfl).trans
    (((takeSize_same _ _ _).2.2.1 j h1 h18).trans
    (afterAsk_same (fun x : State => x.crRaw j) (fun _ _ _ => rfl) u _))

theorem headed_rd : (s.headed base u).rd = u.rd :=
  (headed_of_size (fun x : State => x.rd) (fun _ _ => rfl) fun _ _ => rfl).trans ((takeSize_same _ _ _).2.1.trans
    (afterAsk_same (fun x : State => x.rd) (fun _ _ _ => rfl) u _))

theorem headed_size : (s.headed base u).crRaw 1 =
    if tagKey (s.frameTag base) then s.frameSize base else u.crRaw 1 := by
  refine (headed_of_size (fun x : State => x.crRaw 1) (fun _ _ => rfl) fun _ _ => rfl).trans ?_
  unfold State.takeSize State.wantedSize
  split
  · exact (State.crRaw_setCr _ _ _ _ (by decide)).trans (if_pos rfl)
  · exact afterAsk_same (fun x : State => x.crRaw 1) (fun _ _ _ => rfl) u _

theorem headed_dq {g : Nat} (hg : g < 4) : Memory.find (s.headed base u).dq g = some ((s.headed base u).dqOf g) := by
  unfold State.headed
  generalize (u.afterAsk (s.wantedSize base)).takeSize (tagKey (s.frameTag base)) (s.wantedSize base) = w
  have hres (r : Word) : (w.setupDq.setRes 0 r).dqOf g = w.setupDq.dqOf g := rfl
  exact (setupDq_dqOf w hg).trans (congrArg some (hres _).symm)

theorem headed_segmap (hseg : tagKey (s.frameTag base) = true → u.segmap = []) :
    (s.headed base u).segmap = u.segmap := by
  refine (headed_of_size (fun x : State => x.segmap) (fun _ _ => rfl) fun _ _ => rfl).trans ?_
  have hask := afterAsk_same (fun x : State => x.segmap) (fun _ _ _ => rfl) u (s.wantedSize base)
  unfold State.takeSize
  split
  · next hkey =>
    unfold State.setSize
    split
    · exact (hseg hkey).symm
    · exact hask
  · exact hask

theorem State.Cleared.rest (h : s.Cleared) (cr : Vector Word 44) (dq : Memory DqRec) (res : Vector Word 4) :
    ({ s with cr := cr, dq := dq, res := res } : State).Cleared :=
  ⟨h.pix, h.records, h.segments, h.flags, h.border, h.lfp⟩

theorem wantedSize_same (h : ¬(tagKey (s.frameTag base) = true ∧ s.sizeChanges (s.frameSize base) = true)) :
    s.sizeChanges (s.wantedSize base) = false := by
  unfold State.wantedSize
  split
  · next hkey => exact Bool.eq_false_iff.2 fun hchange => h ⟨hkey, hchange⟩
  · simp [State.sizeChanges, State.mbW, State.mbH]

theorem headed_roles (hsame : u.sizeChanges (s.wantedSize base) = false) :
    (s.headed base u).crRaw 18 = u.crRaw 18 := by
  refine (headed_of_size (fun x : State => x.crRaw 18) (fun _ _ => rfl) fun _ _ => rfl).trans ?_
  unfold State.takeSize
  rw [show u.afterAsk (s.wantedSize base) = u from if_neg (by simp [hsame]), setSize_of_same hsame]
  split
  · exact State.crRaw_setCr_other _ _ (by decide)
  · rfl

/-- A new size in macroblocks clears what belongs to the old one (R406). -/
theorem headed_cleared (hkey : tagKey (s.frameTag base) = true) (hchange : u.sizeChanges (s.frameSize base) = true) :
    (s.headed base u).Cleared ∧ (s.headed base u).crRaw 18 = 0x7777 := by
  have hcleared := resize_cleared u.askAllocator.2
  have hroles : u.askAllocator.2.resize.crRaw 18 = 0x7777 := (resize_crRaw _ 18).trans (if_pos rfl)
  rw [headed_resized hkey hchange, setupDq_eq]
  generalize u.askAllocator.2.resize = w at *
  generalize (w.setCr 1 (s.frameSize base)).setupDq.dq = d
  exact ⟨hcleared.rest _ d _, (State.crRaw_setCr_other (s := w) (i := 1) (j := 18) _ (by decide)).trans hroles⟩

theorem headed_resized_eq (hkey : tagKey (s.frameTag base) = true)
    (hchange : u.sizeChanges (s.frameSize base) = true) : s.headed base u = { u with
      cr := (s.headed base u).cr, rd := (s.headed base u).rd, prob := (s.headed base u).prob
      probSaved := (s.headed base u).probSaved, dq := (s.headed base u).dq, segmap := (s.headed base u).segmap
      res := (s.headed base u).res, fb := (s.headed base u).fb, mbinfo := (s.headed base u).mbinfo
      nzAbove := (s.headed base u).nzAbove, lfp := (s.headed base u).lfp, topb := (s.headed base u).topb
      allocAnswers := u.allocAnswers.tail, allocCount := u.allocCount + 1 } := by
  rw [headed_resized hkey hchange, setupDq_eq, u.askAllocator_eq]
  rfl

theorem HeaderParts.headed (h : HeaderParts s u base length) : HeaderParts s (s.headed base u) base length := by
  have hcr {j : Nat} (hj : 9 ≤ j ∧ j ≠ 18) : (s.headed base u).crRaw j = u.crRaw j := headed_crRaw (by omega) hj.2
  have hrd (k : Nat) : (s.headed base u).rdAt k = u.rdAt k := by
    unfold State.rdAt
    rw [headed_rd]
  have hnpart : (s.headed base u).npart = u.npart := by
    unfold State.npart
    rw [crField_of_raw (hcr (by omega))]
  have hpart (k : Nat) : (s.headed base u).part k = u.part k := part_of_same (fun j hj => hcr (by omega)) (hrd k)
  obtain ⟨⟨hfirst, hsize⟩, hdecoder, hp, hnone⟩ := h
  refine ⟨⟨(hcr (by omega)).trans hfirst, (hcr (by omega)).trans hsize⟩, ?_, fun k h0 hk => ?_, fun k hlt hk => ?_⟩
  · rwa [State.rdValid, hrd, hcr (by omega), hcr (by omega)]
  · rw [hpart, hnpart]
    exact hp k h0 (hnpart ▸ hk)
  · rw [State.rdValid, hrd, hcr (by omega), hcr (by omega)]
    exact hnone k (hnpart ▸ hlt) hk

/-! ## The state behind the fields and the partitions -/

/-- What reading a frame's header leaves of the state `s` before it. -/
structure HeaderRead (s u : State) (base : Word) : Prop where
  registers : ∀ j, j = 1 ∨ 15 ≤ j ∧ j < 20 → u.crRaw j = s.crRaw j
  segmap : u.segmap = if tagKey (s.frameTag base) then [] else s.segmap
  cls : u.crBit 0 0 = tagKey (s.frameTag base)
  profile : u.crField 0 1 3 = tagProfile (s.frameTag base)
  shown : u.crBit 0 4 = tagShow (s.frameTag base)
  res : u.res = s.res
  rest : u = u.withHeader s

theorem headerParse_read (h : s.FrameOk base length) (hu : headerParse Config.openTables base length s = .ok u) :
    HeaderRead s u base := by
  obtain ⟨v, hv, hd, hp, -, -⟩ := headerParse_completes h
  cases hu.symm.trans hv
  have hbefore := beforeFields_parts s base
  have hclass {lo len : Nat} (hlo : lo + len ≤ 5) :
      u.crField 0 lo len = (s.invalidateRd.setFrmCtl (s.frameTag base)).crField 0 lo len := by
    rw [crField_of_raw (parts_crRaw (by decide) hp), hFields_frameClass _ _ hlo,
      crField_of_raw (parts_crRaw (by decide) hbefore)]
  have hparts {x y : State} (hxy : Effects tagsParts x y) : y.segmap = x.segmap ∧ y.res = x.res := by
    constructor
    · exact hxy.same State.segmap fun a ha _ _ hm => by
        rcases ha with ⟨i, rfl⟩ | ⟨i, -, rfl⟩ <;> cases hm <;> rfl
    · exact hxy.same State.res fun a ha _ _ hm => by
        rcases ha with ⟨i, rfl⟩ | ⟨i, -, rfl⟩ <;> cases hm <;> rfl
  obtain ⟨hkey, hprofile, hshow⟩ := setFrmCtl_class s.invalidateRd (s.frameTag base)
  refine ⟨fun j hj => ?_, ?_, crBit_of_field ((hclass (by decide)).trans hkey), (hclass (by decide)).trans hprofile,
    crBit_of_field ((hclass (by decide)).trans hshow), ?_, ?_⟩
  · rw [parts_crRaw (by omega) hp, hd.raw j (by omega), parts_crRaw (by omega) hbefore,
      setFrmCtl_crRaw _ _ _ (by omega)]
    rfl
  · rw [(hparts hp).1, hFields_segmap, (hparts hbefore).1]
    rfl
  · rw [(hparts hp).2, hd.effects.same State.res fun a ha _ _ hm => by
      rcases ha with rfl | rfl | rfl | rfl | ⟨i, -, -, -, -, rfl⟩ <;> cases hm <;> rfl, (hparts hbefore).2]
    rfl
  · exact (parts_withHeader u hp).trans ((fields_withHeader u hd.effects).trans (beforeFields_withHeader u base))

theorem headed_result {j : Nat} (hj : j ≠ 0) (hres : u.res = s.res) : (s.headed base u).result j = s.result j := by
  have hsize : (u.afterAsk (s.wantedSize base)).res = s.res :=
    (afterAsk_same State.res (fun _ _ _ => rfl) u _).trans hres
  refine (headed_of_size (fun x : State => x.result j) (fun _ _ => rfl)
    fun _ _ => State.result_setRes_other _ _ hj).trans ?_
  generalize u.afterAsk (s.wantedSize base) = w at *
  unfold State.takeSize State.setSize State.result
  rw [← hsize]
  split
  · split <;> rfl
  · rfl

/-- The default entries of `mvc`, `ymode` and `uvmode`, one behind the other as `PROB` holds them (R409). -/
def keyBytes : List Byte :=
  [162, 128, 225, 146, 172, 147, 214, 39, 156, 128, 129, 132, 75, 145, 178, 206, 239, 254, 254,
    164, 128, 204, 170, 119, 235, 140, 230, 228, 128, 130, 130, 74, 148, 180, 203, 236, 254, 254,
    112, 86, 140, 37, 162, 101, 204]

/-- Through a keyframe's header the entries of `mvc`, `ymode` and `uvmode` keep their defaults (R409). -/
theorem keyDefaults_kept (old : Nat → Option Byte) :
    (∀ i < 19, keyDefaults old (mvcIndex 0 + i) = ([162, 128, 225, 146, 172, 147, 214, 39, 156, 128, 129, 132,
      75, 145, 178, 206, 239, 254, 254] : List Byte)[i]?) ∧
    (∀ i < 19, keyDefaults old (mvcIndex 1 + i) = ([164, 128, 204, 170, 119, 235, 140, 230, 228, 128, 130, 130,
      74, 148, 180, 203, 236, 254, 254] : List Byte)[i]?) ∧
    (∀ i < 4, keyDefaults old (ymodeIndex + i) = ([112, 86, 140, 37] : List Byte)[i]?) ∧
    (∀ i < 3, keyDefaults old (uvmodeIndex + i) = ([162, 101, 204] : List Byte)[i]?) := by
  have hdefault (i : Nat) (h0 : 1056 ≤ i) (h1 : i < 1101) : keyDefaults old i = keyBytes[i - 1056]? :=
    (if_neg (by omega)).trans (if_pos h1)
  have h0 : ∀ i < 19, keyBytes[mvcIndex 0 + i - 1056]? = ([162, 128, 225, 146, 172, 147, 214, 39, 156, 128, 129, 132,
      75, 145, 178, 206, 239, 254, 254] : List Byte)[i]? := by decide
  have h1 : ∀ i < 19, keyBytes[mvcIndex 1 + i - 1056]? = ([164, 128, 204, 170, 119, 235, 140, 230, 228, 128, 130, 130,
      74, 148, 180, 203, 236, 254, 254] : List Byte)[i]? := by decide
  have h2 : ∀ i < 4, keyBytes[ymodeIndex + i - 1056]? = ([112, 86, 140, 37] : List Byte)[i]? := by decide
  have h3 : ∀ i < 3, keyBytes[uvmodeIndex + i - 1056]? = ([162, 101, 204] : List Byte)[i]? := by decide
  unfold mvcIndex ymodeIndex uvmodeIndex at *
  exact ⟨fun i hi => (hdefault _ (by omega) (by omega)).trans (h0 i hi),
    fun i hi => (hdefault _ (by omega) (by omega)).trans (h1 i hi),
    fun i hi => (hdefault _ (by omega) (by omega)).trans (h2 i hi),
    fun i hi => (hdefault _ (by omega) (by omega)).trans (h3 i hi)⟩

/-- What the fields of a keyframe's header keep of the reset (R409). -/
theorem parse_key_kept (c : Memory Byte) (r : Rd) (x : Header) :
    (∀ i, 1056 ≤ i → i < 1101 → (x.parse c true r).prob i = keyDefaults x.prob i) ∧
    (x.parse c true r).updGolden = 1 ∧ (x.parse c true r).updAltref = 1 ∧ (x.parse c true r).updLast = true ∧
    (x.parse c true r).biasGolden = false ∧ (x.parse c true r).biasAltref = false := by
  have hkept (i : Nat) (h0 : 1056 ≤ i) (h1 : i < 1101) := parseKey_kept (c := c) h0 h1 { x with rd := r }
  rw [show x.parse c true r = ({ x with rd := r } : Header).parseKey c from if_pos rfl]
  generalize ({ x with rd := r } : Header).parseKey c = y at *
  unfold Header.kept Header.keyReset at hkept
  simp only [Prod.mk.injEq] at hkept
  exact ⟨fun i h0 h1 => (hkept i h0 h1).1, (hkept 1056 (by decide) (by decide)).2⟩

/-- Settles O59: the header is read as `headerParse_read`, `header_fields` and `headerParse_parts` say, and then the
size and the multipliers follow. -/
theorem fcHeaderResult : Obligations.FcHeaderResult := by
  unfold Obligations.FcHeaderResult
  intro s base length key resized hok hgrant
  obtain ⟨u, hu, -⟩ := headerParse_completes hok
  have hheader := header_eq hu hgrant
  obtain ⟨t, ht, hdone⟩ := header_completes hok hgrant
  cases hheader.symm.trans ht
  have hread := headerParse_read hok hu
  have hparts := (headerParse_parts hok.toHeaderOk hu).headed
  have hfields := header_fields hheader
  have hchanges (v : Word) : u.sizeChanges v = s.sizeChanges v := sizeChanges_of_crRaw (hread.registers 1 (.inl rfl)) v
  have hcleared (h : resized) := headed_cleared h.1 ((hchanges _).trans h.2)
  have hresized (h : resized) := headed_resized_eq h.1 ((hchanges _).trans h.2)
  have hsame (h : ¬resized) := header_withHeader hok h hheader
  have hcr {j : Nat} (h1 : j ≠ 1) (h18 : j ≠ 18) := headed_crRaw (s := s) (base := base) (u := u) h1 h18
  have hroles : ¬resized → (s.headed base u).crRaw 18 = s.crRaw 18 := fun h =>
    (headed_roles ((hchanges _).trans (wantedSize_same h))).trans (hread.registers 18 (.inr (by decide)))
  have hwidth := headed_size (s := s) (base := base) (u := u)
  have hdq {g : Nat} (hg : g < 4) := headed_dq (s := s) (base := base) (u := u) hg
  have hseg := headed_segmap (s := s) (base := base) (u := u) fun hkey => hread.segmap.trans (if_pos hkey)
  have hres0 : (s.headed base u).result 0 = boolWord key := State.result_setRes_zero _ _
  have hres {j : Nat} (hj : j ≠ 0) := headed_result (base := base) hj hread.res
  have hexec : exec .fcHeader s = .next (s.headed base u).done := by
    show finishFrame _ (header Config.openTables base length s) = _
    rw [hheader]
    rfl
  generalize s.headed base u = t at *
  have hn := npart_bounds t
  obtain ⟨hbase, hsize⟩ := hparts.first
  obtain ⟨hrdBase, hrdSize, hvalid⟩ := hparts.decoder
  refine ⟨t.done, hexec, rfl, hres0, fun j hj => hres (by simpa using hj), hdone.cls,
    (crField_of_raw (hcr (by decide) (by decide))).trans hread.profile,
    (crBit_of_raw (hcr (by decide) (by decide))).trans hread.shown, ?_, hdone.others, fun h => (hcleared h).2, hroles,
    hbase, hsize, hrdBase, hrdSize, fun i hi => hparts.layout hi, fun k hk => hparts.valid hk, fun i h0 h8 => ?_,
    fun g hg => hdq hg, ?_, fun hkey => ?_, fun hkey => ?_, fun h => congrArg State.done (hsame h), fun h => ?_⟩
  · rw [← hread.registers 1 (.inl rfl)]
    exact hwidth
  · have h0 : t.npart ≤ i := h0
    obtain ⟨hb, hl, -⟩ := hparts.none (1 + i) (by omega) (by omega)
    exact ⟨(congrArg t.crRaw (by omega)).trans hb, (congrArg t.crRaw (by omega)).trans hl⟩
  · exact hfields.trans (by rw [← hbase, ← hsize]; rfl)
  · obtain ⟨hentries, hgolden, haltref, hlast, hbiasG, hbiasA⟩ :=
      parse_key_kept s.cbuf (rdStart s.cbuf (t.crRaw 20) (t.crRaw 32)) s.headerFields
    have hfields : t.headerFields = s.headerFields.parse s.cbuf true (rdStart s.cbuf (t.crRaw 20) (t.crRaw 32)) := by
      rw [hbase, hsize, ← hkey]
      exact hfields
    rw [← hfields] at hentries hgolden haltref hlast hbiasG hbiasA
    obtain ⟨hmv0, hmv1, hymode, huvmode⟩ := keyDefaults_kept s.headerFields.prob
    refine ⟨hdone.tokens (.inl hkey), fun k => ?_, fun i hi => ?_, fun i hi => ?_, fun i hi => ?_, fun i hi => ?_,
      hgolden, haltref, hlast, hbiasG, hbiasA⟩
    · show Memory.get t.segmap 0 k = 0
      rw [hseg, hread.segmap, if_pos hkey]
      rfl
    · exact (hentries _ (by unfold mvcIndex; omega) (by unfold mvcIndex; omega)).trans (hmv0 i hi)
    · exact (hentries _ (by unfold mvcIndex; omega) (by unfold mvcIndex; omega)).trans (hmv1 i hi)
    · exact (hentries _ (by unfold ymodeIndex; omega) (by unfold ymodeIndex; omega)).trans (hymode i hi)
    · exact (hentries _ (by unfold uvmodeIndex; omega) (by unfold uvmodeIndex; omega)).trans (huvmode i hi)
  · exact hseg.trans (hread.segmap.trans (if_neg (by rw [show tagKey _ = false from hkey]; decide)))
  · have hclear := (hcleared h).1
    refine ⟨hclear.pix, hclear.records, hclear.flags, hclear.lfp, hclear.border, ?_⟩
    refine (congrArg State.done (hresized h)).trans ?_
    rw [hread.rest]
    rfl

end Sys2Proof.Machine
end

section
/-! PROOFS. `FC_FRAME` as the sequence of its commands (48_frame_control_host.md R430, R437). -/

namespace Sys2Proof.Machine

variable {s t u : State}

/-! ## Programs of commands, whatever the response before them -/

/-- The program leads from `s` to `t`, whatever the responses are. -/
def Leads (F : State → Host.Outcome State Fault Refusal) (s t : State) : Prop :=
  ∀ x, ∃ y, F (s.respond x) = .next (t.respond y)

namespace Leads

variable {F G : State → Host.Outcome State Fault Refusal}

theorem exec {i : Instr} {r : State → Res State} (hb : Blind r) (he : ∀ s, Machine.exec i s = finish s (r s))
    (h : r s = .ok t) : Leads (Machine.exec i) s t := fun x => ⟨.ok, by rw [he, hb, h]; rfl⟩

/-- A command that the state names, by what the response does not change. -/
theorem named {g : State → Instr} (hg : ∀ x, g (s.respond x) = g s) (h : Leads (Machine.exec (g s)) s t) :
    Leads (fun a => Machine.exec (g a) a) s t := fun x => by
  simp only [hg]
  exact h x

theorem andThen (hF : Leads F s u) (hG : Leads G u t) : Leads (fun a => Machine.andThen (F a) G) s t := fun x => by
  obtain ⟨y, hy⟩ := hF x
  simp only [hy]
  exact hG y

theorem nil (s : State) : Leads (runCommands []) s s := fun x => ⟨x, rfl⟩

theorem cons {i : Instr} {l : List Instr} (hi : Leads (Machine.exec i) s u) (hl : Leads (runCommands l) u t) :
    Leads (runCommands (i :: l)) s t := hi.andThen hl

/-- A loop whose steps lead on, and keep what they need. -/
theorem forEach {α : Type} {P : State → Prop} {F : α → State → Host.Outcome State Fault Refusal}
    {f : State → α → Res State} (hf : ∀ a s t, P s → f s a = .ok t → Leads (F a) s t ∧ P t) {l : List α} (hs : P s)
    (h : l.foldlM f s = .ok t) : Leads (Machine.forEach F l) s t := by
  induction l generalizing s with
  | nil =>
    cases h
    exact fun x => ⟨x, rfl⟩
  | cons a l ih =>
    rw [List.foldlM_cons] at h
    obtain ⟨v, hv, h⟩ := Res.bind_ok.1 h
    obtain ⟨hstep, hkeeps⟩ := hf a s v hs hv
    exact hstep.andThen (ih hkeeps h)

end Leads

/-! ## One macroblock -/

theorem frameCoefs_leads (h : frameCoefs s = .ok t) : Leads (fun a => exec (if a.cur.skip then .cdSkipmb
    else .cdMb (BitVec.ofNat 8 (1 + a.mby % 2 ^ a.crField 9 0 2))) a) s t := by
  refine .named (fun _ => rfl) ?_
  unfold frameCoefs at h
  obtain ⟨_, hpos, h⟩ := Res.bind_ok.1 h
  split at h
  · next hskip =>
    rw [if_pos hskip]
    refine .exec (r := fun a => require a.posOk .badMbpos >>= fun _ => .ok (cdSkipmb a)) (fun a x => ?_)
      (fun _ => rfl) ?_
    · rw [Res.bind_respond]
      rfl
    · rw [hpos]
      exact h
  · next hskip =>
    rw [if_neg hskip]
    have hn : 1 + s.mby % s.npart ≤ 8 := by
      have := npart_bounds s
      have := Nat.mod_lt s.mby (show 0 < s.npart by omega)
      omega
    have hk : (BitVec.ofNat 8 (1 + s.mby % s.npart)).toNat = 1 + s.mby % s.npart :=
      Nat.mod_eq_of_lt (by omega)
    have hinstance : okInstance (BitVec.ofNat 8 (1 + s.mby % s.npart)) = true := by
      unfold okInstance
      rw [hk]
      exact decide_eq_true hn
    refine .exec (r := fun a => require (okInstance (BitVec.ofNat 8 (1 + s.mby % s.npart))) .badOperand >>= fun _ =>
      require a.posOk .badMbpos >>= fun _ =>
      require (a.rdValid (BitVec.ofNat 8 (1 + s.mby % s.npart)).toNat) .rdUninit >>= fun _ =>
      cdMb (BitVec.ofNat 8 (1 + s.mby % s.npart)).toNat a) (fun a x => ?_) (fun _ => rfl) ?_
    · simp only [Res.bind_respond, ← blind_cdMb _ a x]
      rfl
    · simp only [hk, hinstance, require_true, Res.ok_bind, hpos]
      exact h

theorem frameCoefs_cr (h : frameCoefs s = .ok t) : t.cr = s.cr := by
  unfold frameCoefs at h
  obtain ⟨_, -, h⟩ := Res.bind_ok.1 h
  split at h
  · cases h
    exact mb_cr ((cdSkipmb_effects s 0).mono (cd_sub_mb 0 0))
  · obtain ⟨_, -, h⟩ := Res.bind_ok.1 h
    exact mb_cr ((cdMb_effects h).mono (cd_sub_mb 0 _))

theorem framePredict_leads (h : framePredict s = .ok t) :
    Leads (fun a => exec (if a.cur.ref = .current then .ipMb else .mcMb) a) s t := by
  refine .named (fun _ => rfl) ?_
  unfold framePredict at h
  split at h
  · next href =>
    rw [if_pos href]
    refine .exec (r := fun a => ipCheck a >>= fun slot => ipMb slot a) (fun a x => ?_) (fun _ => rfl) h
    simp only [Res.bind_respond, ← blind_ipMb _ a x]
    rfl
  · next href =>
    rw [if_neg href]
    obtain ⟨_, hpos, h⟩ := Res.bind_ok.1 h
    refine .exec (r := fun a => require a.posOk .badMbpos >>= fun _ =>
      require (a.cur.ref != .current) .badOperand >>= fun _ => needSlot (a.refSlot a.cur.ref.num) >>= fun src =>
      needSlot a.curSlot >>= fun dst => mcMb src dst a) (fun a x => ?_) (fun _ => rfl) ?_
    · simp only [Res.bind_respond, ← blind_mcMb _ _ a x]
      rfl
    · rw [hpos, show (s.cur.ref != .current) = true by simpa using href]
      exact h

theorem framePredict_cr (h : framePredict s = .ok t) : t.cr = s.cr := by
  unfold framePredict at h
  split at h
  · obtain ⟨slot, -, h⟩ := Res.bind_ok.1 h
    exact (plane_same (ipMb_effects h)).cr
  · obtain ⟨_, -, h⟩ := Res.bind_ok.1 h
    obtain ⟨src, -, h⟩ := Res.bind_ok.1 h
    obtain ⟨dst, -, h⟩ := Res.bind_ok.1 h
    exact (plane_same (mcMb_effects h)).cr

/-- The residual and the filter's parameters, which need the same checks. -/
theorem frameResidual_leads (h : frameResidual s = .ok t) :
    Leads (runCommands [.itMb, .lfParams]) s (lfParams t) ∧ t.cr = s.cr := by
  have hwork := h
  unfold frameResidual at h
  obtain ⟨_, hpos, h⟩ := Res.bind_ok.1 h
  obtain ⟨slot, hslot, h⟩ := Res.bind_ok.1 h
  have hcr : t.cr = s.cr := (pix_same (itMb_effects h)).cr
  refine ⟨.cons (.exec (r := frameResidual) (fun a x => ?_) (fun _ => rfl) hwork) (.cons (.exec
    (r := fun a => require a.posOk .badMbpos >>= fun _ => needSlot a.curSlot >>= fun _ => .ok (lfParams a))
    (fun a x => ?_) (fun _ => rfl) ?_) (.nil _)), hcr⟩
  · simp only [frameResidual, Res.bind_respond, ← blind_itMb _ a x]
    rfl
  · simp only [Res.bind_respond]
    rfl
  · rw [posOk_of_cr hcr, curSlot_of_cr hcr, hpos, hslot]
    rfl

theorem frameMb_leads (h : frameMb Config.openTables s = .ok t) :
    Leads frameMacroblock s t ∧ t.cr = s.cr ∧ s.posOk = true := by
  unfold frameMb at h
  obtain ⟨a, ha, h⟩ := Res.bind_ok.1 h
  obtain ⟨b, hb, h⟩ := Res.bind_ok.1 h
  obtain ⟨c, hc, h⟩ := Res.bind_ok.1 h
  obtain ⟨d, hd, h⟩ := Res.bind_ok.1 h
  cases h
  obtain ⟨hresidual, hdcr⟩ := frameResidual_leads hd
  have hmodes : Leads (exec .mdMb) s a := by
    refine .exec (r := stepRes mdCheck (mdMb Config.openTables)) (fun v x => ?_) (fun _ => rfl) ha
    simp only [stepRes, Res.bind_respond, ← blind_mdMb _ v x]
    rfl
  obtain ⟨_, hcheck, ha⟩ := Res.bind_ok.1 ha
  obtain ⟨_, hpos, -⟩ := Res.bind_ok.1 hcheck
  refine ⟨hmodes.andThen ((frameCoefs_leads hb).andThen ((framePredict_leads hc).andThen hresidual)), ?_,
    require_ok.1 hpos⟩
  show d.cr = s.cr
  rw [hdcr, framePredict_cr hc, frameCoefs_cr hb, mb_cr ((mdMb_effects ha).mono (md_sub_mb 0))]

/-! ## One row -/

theorem fcNextmb_leads (h : s.posOk = true) : Leads (exec .fcNextmb) s (fcNextmb s) := by
  refine .exec (r := fun a => require a.posOk .badMbpos >>= fun _ => .ok (fcNextmb a)) (fun a x => ?_) (fun _ => rfl) ?_
  · rw [Res.bind_respond]
    rfl
  · rw [h]
    rfl

/-- Column `mx` of a row, as the sequence of its commands. -/
theorem frameCol_leads {mx : Nat} (h : frameCol Config.openTables s mx = .ok t) :
    Leads (fun a => andThen (frameMacroblock a) fun b => if mx + 1 < b.mbW then exec .fcNextmb b else .next b) s t ∧
    t.mbW = s.mbW ∧ (s.mbW = mx + 1 → t.posOk = true) := by
  unfold frameCol at h
  obtain ⟨u, hu, h⟩ := Res.bind_ok.1 h
  cases h
  obtain ⟨hmb, hcr, hpos⟩ := frameMb_leads hu
  have hpos : u.posOk = true := (posOk_of_cr hcr).trans hpos
  have hwidth := mbW_of_cr hcr
  split
  · next hlt =>
    refine ⟨hmb.andThen fun x => ?_, ?_, fun hlast => by omega⟩
    · rw [if_pos (show mx + 1 < (u.respond x).mbW from hlt)]
      exact fcNextmb_leads hpos x
    · rw [← hwidth]
      unfold State.mbW
      rw [show (fcNextmb u).crRaw 1 = u.crRaw 1 from State.crRaw_setMbpos_other _ _ _ (by decide)]
  · next hge =>
    refine ⟨hmb.andThen fun x => ?_, hwidth, fun _ => hpos⟩
    rw [if_neg (show ¬mx + 1 < (u.respond x).mbW from hge)]
    exact ⟨x, rfl⟩

theorem frameCols_mbW {l : List Nat} (h : l.foldlM (frameCol Config.openTables) s = .ok t) : t.mbW = s.mbW :=
  foldlM_keeps (P := fun x : State => x.mbW = s.mbW) (fun _ _ _ hx hy => (frameCol_leads hy).2.1.trans hx) rfl h

/-- Behind the last column the position is still inside the frame. -/
theorem frameCols_posOk {n : Nat} (hn : s.mbW = n + 1)
    (h : (List.range (n + 1)).foldlM (frameCol Config.openTables) s = .ok t) : t.posOk = true := by
  rw [List.range_succ, List.foldlM_append] at h
  obtain ⟨u, hu, h⟩ := Res.bind_ok.1 h
  rw [List.foldlM_cons] at h
  obtain ⟨v, hv, h⟩ := Res.bind_ok.1 h
  cases h
  exact (frameCol_leads hv).2.2 ((frameCols_mbW hu).trans hn)

/-- The filter's level is 0, or the row is filtered. -/
theorem frameFilter_leads {slot : Nat} (hcur : s.curSlot = some slot) (hrow : s.rowOk = true) (hpos : s.posOk = true)
    (h : frameFilter slot s = .ok t) :
    Leads (fun c => runCommands (if c.crField 6 1 6 = 0 then [.fcNextmb] else [.lfRow, .fcNextmb]) c) s
      (fcNextmb t) := by
  unfold frameFilter at h
  intro x
  show ∃ y, runCommands (if s.crField 6 1 6 = 0 then _ else _) (s.respond x) = _
  split at h
  · next hlevel =>
    cases h
    rw [if_pos hlevel]
    exact Leads.cons (fcNextmb_leads hpos) (.nil _) x
  · next hlevel =>
    rw [if_neg hlevel]
    have hnext := fcNextmb_leads ((posOk_of_cr (plane_same (lfRow_effects h)).cr).trans hpos)
    refine Leads.cons (.exec (r := fun a => require a.rowOk .badMbpos >>= fun _ => needSlot a.curSlot >>= fun n =>
      lfRow n a) (fun a x => ?_) (fun _ => rfl) ?_) (.cons hnext (.nil _)) x
    · simp only [Res.bind_respond, ← blind_lfRow _ a x]
      rfl
    · rw [hrow, hcur]
      exact h

theorem fcNextmb_mbW (s : State) : (fcNextmb s).mbW = s.mbW := by
  unfold State.mbW
  rw [show (fcNextmb s).crRaw 1 = s.crRaw 1 from State.crRaw_setMbpos_other _ _ _ (by decide)]

theorem fcRowend_cr {slot : Nat} (h : fcRowend slot s = .ok t) : t.cr = s.cr :=
  (fcRowend_effects h).same (fun x : State => x.cr) fun e he _ _ hm => by
    cases Set.mem_singleton_iff.1 he
    exact hm.cr_eq (by simp) (by simp) (by simp)

theorem frameFilter_cr {slot : Nat} (h : frameFilter slot s = .ok t) : t.cr = s.cr := by
  unfold frameFilter at h
  split at h
  · cases h
    rfl
  · exact (plane_same (lfRow_effects h)).cr

theorem frameRowEnd_leads (hpos : s.posOk = true) (h : frameRowEnd s = .ok t) :
    Leads (fun b => andThen (exec .fcRowend b) fun c =>
      runCommands (if c.crField 6 1 6 = 0 then [.fcNextmb] else [.lfRow, .fcNextmb]) c) s t ∧ t.mbW = s.mbW := by
  unfold frameRowEnd at h
  obtain ⟨slot, hslot, h⟩ := Res.bind_ok.1 h
  obtain ⟨a, ha, h⟩ := Res.bind_ok.1 h
  obtain ⟨b, hb, h⟩ := Res.bind_ok.1 h
  cases h
  have hrow : s.rowOk = true := by
    unfold State.posOk at hpos
    exact (Bool.and_eq_true_iff.1 hpos).2
  have hcr := fcRowend_cr ha
  refine ⟨.andThen (.exec (r := fun c => require c.rowOk .badMbpos >>= fun _ => needSlot c.curSlot >>= fun n =>
    fcRowend n c) (fun c x => ?_) (fun _ => rfl) ?_) (frameFilter_leads ?_ ?_ ?_ hb),
    (fcNextmb_mbW b).trans (mbW_of_cr ((frameFilter_cr hb).trans hcr))⟩
  · simp only [Res.bind_respond, ← blind_fcRowend _ c x]
    rfl
  · rw [hrow, require_true, Res.ok_bind, hslot]
    exact ha
  · exact (curSlot_of_cr hcr).trans (needSlot_ok.1 hslot)
  · unfold State.rowOk
    rw [mby_of_cr hcr, mbH_of_cr hcr]
    exact hrow
  · exact (posOk_of_cr hcr).trans hpos

/-- One row of the loop, as the sequence of its commands. -/
theorem frameRow_leads {my : Nat} (hwidth : s.mbW ≠ 0) (h : frameRow Config.openTables s my = .ok t) :
    Leads frameRowProgram s t ∧ t.mbW ≠ 0 := by
  unfold frameRow at h
  obtain ⟨u, hu, h⟩ := Res.bind_ok.1 h
  obtain ⟨n, hn⟩ : ∃ n, s.mbW = n + 1 := Nat.exists_eq_succ_of_ne_zero hwidth
  have hpos : u.posOk = true := frameCols_posOk (s := fcRowstart s) hn (by rw [← hn]; exact hu)
  have hkeeps : u.mbW = s.mbW := frameCols_mbW (s := fcRowstart s) hu
  have hstart : Leads (exec .fcRowstart) s (fcRowstart s) :=
    .exec (r := fun a => .ok (fcRowstart a)) (fun _ _ => rfl) (fun _ => rfl) rfl
  have hcols := Leads.forEach (P := fun _ => True) (fun mx a b _ hab => ⟨(frameCol_leads (mx := mx) hab).1, trivial⟩)
    trivial hu
  obtain ⟨hend, hendWidth⟩ := frameRowEnd_leads hpos h
  exact ⟨hstart.andThen fun x => (hcols.andThen hend) x, by rw [hendWidth, hkeeps]; exact hwidth⟩

/-! ## The whole frame -/

theorem fcFrameend_respond (s : State) (x : Response) : fcFrameend (s.respond x) = (fcFrameend s).respond x := by
  have hprobs (a : State) : (a.respond x).endProbs = a.endProbs.respond x := by
    unfold State.endProbs
    rw [crBit_respond]
    split <;> rfl
  have hnote (a : State) : (a.respond x).noteKeyframe = a.noteKeyframe.respond x := by
    unfold State.noteKeyframe
    rw [crBit_respond]
    split <;> rfl
  unfold fcFrameend
  rw [show (s.respond x).reassign = s.reassign.respond x from rfl, hprobs, hnote]
  rfl

/-- A loop over the frame that completes is the program of its commands (R430). -/
theorem frameProgram_eq {n : Nat} (hsize : s.hasSize = true)
    (h : frameLoop Config.openTables (fcFramestart s) = .ok t) (hcur : t.curSlot = some n) (x : Response) :
    frameProgram (s.respond x) = .next (fcFrameend t).done := by
  have hstart : Leads (exec .fcFramestart) s (fcFramestart s) := by
    refine .exec (r := fun a => require a.hasSize .badSize >>= fun _ => .ok (fcFramestart a)) (fun a x => ?_)
      (fun _ => rfl) ?_
    · rw [Res.bind_respond]
      rfl
    · rw [hsize]
      rfl
  have hwidth : (fcFramestart s).mbW ≠ 0 := by
    unfold State.mbW
    rw [fcFramestart_crRaw s (by decide) (by decide)]
    exact (hasSize_iff.1 hsize).1
  have hrows := Leads.forEach (P := fun a : State => a.mbW ≠ 0) (F := fun _ => frameRowProgram)
    (fun my a b ha hab => frameRow_leads ha hab) hwidth h
  obtain ⟨y, hy⟩ := (hstart.andThen fun z => hrows z :
    Leads (fun a => andThen (exec .fcFramestart a) fun b =>
      forEach (fun _ => frameRowProgram) (List.range b.mbH) b) s t) x
  have hend : exec .fcFrameend (t.respond y) = .next (fcFrameend t).done := by
    show finish _ (needSlot t.curSlot >>= fun _ => .ok (fcFrameend (t.respond y))) = _
    rw [hcur, needSlot_some, Res.ok_bind, fcFrameend_respond]
    rfl
  have hassoc (a : State) : frameProgram a = andThen (andThen (exec .fcFramestart a) fun b =>
      forEach (fun _ => frameRowProgram) (List.range b.mbH) b) (exec .fcFrameend) := by
    unfold frameProgram
    cases exec .fcFramestart a <;> rfl
  rw [hassoc]
  exact (congrArg (andThen · _) hy).trans hend

/-! ## The result of `FC_FRAME` -/

theorem discard_iff (s : State) : s.discard = true ↔ s.discards := by
  have hpolicy : s.crField 17 0 2 < 4 := crField_lt s 17 0 2
  unfold State.discard State.discards
  obtain h | h | h | h : s.crField 17 0 2 = 0 ∨ s.crField 17 0 2 = 1 ∨ s.crField 17 0 2 = 2 ∨ s.crField 17 0 2 = 3 := by
    omega
  all_goals simp [h]
  · tauto
  · tauto

theorem exec_fcFrame (hheader : header Config.openTables (s.arg 0) (s.arg 1) s.frameBegin = .ok t)
    (hbody : frameBody Config.openTables t = .ok u) : exec .fcFrame s = .next u.done := by
  show finishFrame _ (frame Config.openTables (s.arg 0) (s.arg 1) s) = _
  rw [frame, hheader, Res.ok_bind, hbody]
  rfl

theorem askAllocator_answer (hanswers : t.allocAnswers = s.allocAnswers) (hcount : t.allocCount = s.allocCount) :
    t.askAllocator.1 = s.askAllocator.1 := by
  unfold State.askAllocator
  rw [hanswers, hcount]
  split <;> rfl

theorem frameBegin_sizeGranted (s : State) (base : Word) :
    s.frameBegin.sizeGranted (s.frameBegin.wantedSize base) = s.sizeGranted (s.wantedSize base) := by
  have hone := frameBegin_crRaw s (j := 1) (by decide)
  have hwanted : s.frameBegin.wantedSize base = s.wantedSize base := by
    unfold State.wantedSize
    rw [hone]
    rfl
  rw [hwanted]
  unfold State.sizeGranted
  rw [sizeChanges_of_crRaw hone, askAllocator_answer (s := s) (t := s.frameBegin) rfl rfl]

/-- A header's error is the frame's, and leaves the same. -/
theorem fcFrame_header_error {c : ErrCode} (hheader : exec .fcHeader s.frameBegin = .next t)
    (herror : t.response = .error c) : exec .fcFrame s = .next t := by
  obtain ⟨hfails, ht⟩ := finishFrame_error hheader herror
  show finishFrame _ (frame Config.openTables (s.arg 0) (s.arg 1) s) = _
  rw [frame, show header Config.openTables (s.arg 0) (s.arg 1) s.frameBegin = _ from hfails, ht]
  rfl

/-- The state behind the loop over the frame, whose header left `s`. -/
structure Looped (s t : State) : Prop where
  loop : frameLoop Config.openTables (fcFramestart s) = .ok t
  known : t.SlotKnown s.freeSlot
  effects : Effects (tagsLoop s.freeSlot) (fcFramestart s) t

theorem Looped.crRaw (h : Looped s t) {j : Nat} (h18 : j ≠ 18) (h19 : j ≠ 19) : t.crRaw j = s.crRaw j :=
  (loop_crRaw h19 h.effects).trans (fcFramestart_crRaw s h18 h19)

theorem Looped.roles (h : Looped s t) : t.crField 18 0 3 = s.freeSlot ∧ t.curSlot = some s.freeSlot ∧
    ∀ lo, 3 ≤ lo → lo + 3 ≤ 32 → t.crField 18 lo 3 = s.crField 18 lo 3 := by
  have hraw := loop_crRaw (i := 18) (by decide) h.effects
  have hcur : t.curSlot = some s.freeSlot := by
    rw [State.curSlot, crField_of_raw hraw]
    exact fcFramestart_curSlot s
  refine ⟨?_, hcur, fun lo h3 h32 => (crField_of_raw hraw).trans (fcFramestart_role s h3 h32)⟩
  unfold State.curSlot slotOf at hcur
  split at hcur
  · exact Option.some.inj hcur
  · cases hcur

theorem Looped.probs (h : Looped s t) : t.prob = s.prob ∧ t.probSaved = s.probSaved := by
  have hsaved : t.probSaved = (fcFramestart s).probSaved :=
    h.effects.same (fun x : State => x.probSaved) fun a ha _ _ hm => hm.probSaved_eq
      (by rintro rfl; rcases ha with ⟨h | h | h | h | h | h | h | h | h⟩ | h | h | h <;> simp at h)
      (mem_loop ha).1
  have hprob : t.prob = (fcFramestart s).prob := loop_prob h.effects
  exact ⟨hprob, hsaved⟩

theorem Looped.pix (h : Looped s t) : (∀ p < 3, ∀ x y, x < s.planeW p → y < s.planeH p →
    (t.pix s.freeSlot p x y).isSome = true) ∧ ∀ n p x y, n ≠ s.freeSlot → t.pix n p x y = s.pix n p x y := by
  have hone := h.crRaw (j := 1) (by decide) (by decide)
  refine ⟨fun p hp x y hx hy => h.known p hp x y ?_ ?_, fun n p x y hn => ?_⟩
  · rwa [planeW_of_raw hone]
  · rwa [planeH_of_raw hone]
  · exact (loop_other hn h.effects).trans (fcFramestart_pix s hn p x y)

/-- A frame that is not discarded is decoded, and returned where it is shown (R437). -/
theorem frameBody_decodes (hkeep : s.discard = false) (hsize : s.hasSize = true) (h : Looped s t) :
    frameBody Config.openTables s =
      .ok (if s.crBit 0 4 then fcFrameend t else (fcFrameend t).noFrame) := by
  have hshown : (fcFrameend t).crBit 0 4 = s.crBit 0 4 := crBit_of_raw
    ((fcFrameend_crRaw t (by decide)).trans ((reassign_crRaw t (by decide)).trans (h.crRaw (by decide) (by decide))))
  unfold frameBody
  rw [hkeep, hsize, require_true, Res.ok_bind, h.loop, Res.ok_bind, h.roles.2.1, needSlot_some, Res.ok_bind]
  exact congrArg (fun b : Bool => (.ok (if b then fcFrameend t else (fcFrameend t).noFrame) : Res State)) hshown

/-- What decoding a frame leaves, whose header left `s` (R433 to R436). -/
structure Decoded (s t : State) : Prop where
  visible : t.visible = s.crBit 0 4
  error : t.errFlag = s.errFlag
  seen : t.keyframeSeen = (s.keyframeSeen || s.crBit 0 0)
  cur : t.curSlot = some s.freeSlot
  prev : t.crField 18 4 3 = if s.crBit 13 4 then s.freeSlot else s.crField 18 4 3
  golden : t.crField 18 8 3 = roleAfter (s.crField 13 0 2) (s.crField 18 8 3) s.freeSlot (s.crField 18 4 3)
    (s.crField 18 12 3)
  altref : t.crField 18 12 3 = roleAfter (s.crField 13 2 2) (s.crField 18 12 3) s.freeSlot (s.crField 18 4 3)
    (s.crField 18 8 3)
  prob : t.prob = if s.crBit 13 7 then s.prob else s.probSaved
  saved : t.probSaved = t.prob
  known : ∀ p < 3, ∀ x y, x < s.planeW p → y < s.planeH p → (t.pix s.freeSlot p x y).isSome = true
  other : ∀ n p x y, n ≠ s.freeSlot → t.pix n p x y = s.pix n p x y
  results : t.result 0 = boolWord (s.crBit 0 4) ∧ t.result 1 = BitVec.ofNat 32 s.freeSlot

theorem Looped.decoded (h : Looped s t) : Decoded s (fcFrameend t) := by
  obtain ⟨hcurField, -, hroles⟩ := h.roles
  obtain ⟨hprob, hsaved⟩ := h.probs
  obtain ⟨hknown, hother⟩ := h.pix
  obtain ⟨rcur, rgold, ralt, rprev⟩ := reassign_roles t
  have hraw {j : Nat} (h18 : j ≠ 18) (h19 : j ≠ 19) := h.crRaw h18 h19
  have hbit {j : Nat} (b : Nat) (h18 : j ≠ 18) (h19 : j ≠ 19) : t.crBit j b = s.crBit j b := crBit_of_raw (hraw h18 h19)
  have hupdate (lo : Nat) : t.crField 13 lo 2 = s.crField 13 lo 2 := crField_of_raw (hraw (by decide) (by decide))
  have hrole (lo : Nat) : (fcFrameend t).crField 18 lo 3 = t.reassign.crField 18 lo 3 :=
    crField_of_raw (fcFrameend_crRaw t (by decide))
  obtain ⟨hseen, hvisible, herr⟩ := fcFrameend_status t
  obtain ⟨hendProb, hendSaved⟩ := fcFrameend_probs t
  have hpix (n p x y : Nat) : (fcFrameend t).pix n p x y = t.pix n p x y :=
    (congrArg (fun v : State => v.pix n p x y) (fcFrameend_eq t) :)
  rw [hcurField, hroles 4 (by decide) (by decide), hroles 8 (by decide) (by decide), hroles 12 (by decide) (by decide),
    hupdate] at rgold ralt
  rw [hcurField] at rcur
  rw [hcurField, hroles 4 (by decide) (by decide), hbit _ (by decide) (by decide)] at rprev
  rw [hprob, hsaved, hbit _ (by decide) (by decide)] at hendProb hendSaved
  have hseen0 : t.keyframeSeen = s.keyframeSeen := hbit _ (by decide) (by decide)
  refine ⟨hvisible.trans (hbit _ (by decide) (by decide)),
    herr.trans (crField_of_raw (hraw (by decide) (by decide))),
    ?_, ?_, (hrole 4).trans rprev, (hrole 8).trans rgold, (hrole 12).trans ralt, hendProb,
    hendSaved.trans hendProb.symm,
    fun p hp x y hx hy => ?_, fun n p x y hn => (hpix n p x y).trans (hother n p x y hn), ?_, ?_⟩
  · rw [hseen, hseen0, hbit _ (by decide) (by decide)]
  · unfold State.curSlot slotOf
    have := freeSlot_lt s
    rw [hrole, rcur, if_pos (by omega)]
  · rw [hpix]
    exact hknown p hp x y hx hy
  · exact (fcFrameend_result t 0).trans (congrArg boolWord (hbit _ (by decide) (by decide)))
  · exact (fcFrameend_result t 1).trans (congrArg (BitVec.ofNat 32) hcurField)

/-- Behind the header of a frame that passes the checks the loop completes, where an interframe finds what only
earlier frames specify. -/
theorem looped_of_header {key : Bool} (hdone : HeaderDone key s.frameBegin t)
    (hone : key = false → t.crRaw 1 = s.crRaw 1) (hsize : t.hasSize = true) (hinter : key = false → s.ProbKnown 0 1101 ∧
      ∀ ref, 1 ≤ ref → ref ≤ 3 → ∃ slot, s.refSlot ref = some slot ∧ s.SlotKnown slot) : ∃ u, Looped t u := by
  obtain ⟨u, hloop, hknown, heffects⟩ := frameLoop_after_header Config.openTables hdone
    (by cases key with
      | true => exact .inl rfl
      | false => exact .inr (hinter rfl).1) (hasSize_iff.1 hsize).1 fun hkey ref h1 h3 => by
    obtain ⟨slot, href, hslot⟩ := (hinter hkey).2 ref h1 h3
    obtain ⟨hroles, hfb⟩ := hdone.slots hkey
    have hplanes := hone hkey
    refine ⟨slot, ?_, fun p hp x y hx hy => ?_⟩
    · rw [← href]
      unfold State.refSlot
      rw [crField_of_raw (hroles.trans (frameBegin_crRaw s (by decide)))]
    · rw [planeW_of_raw hplanes] at hx
      rw [planeH_of_raw hplanes] at hy
      have hpix := hslot p hp x y hx hy
      unfold State.pix State.plane at hpix ⊢
      rwa [hfb]
  exact ⟨u, hloop, hknown, heffects⟩

/-- The frame's size is set behind its header: by a keyframe itself, and before an interframe. -/
theorem header_hasSize {base length : Word} (hok : s.HeaderOk base length) (hsize : t.crRaw 1 =
      if tagKey (s.frameTag base) then s.frameSize base else s.crRaw 1)
    (hinter : tagKey (s.frameTag base) = false → s.mbW ≠ 0 ∧ s.mbH ≠ 0) : t.hasSize = true := by
  rw [hasSize_iff]
  unfold State.mbW State.mbH
  rw [hsize]
  split
  · next hkey =>
    obtain ⟨hw, hh⟩ := hok.size hkey
    refine ⟨?_, ?_⟩
    · unfold sizeMbW mbCount
      omega
    · unfold sizeMbH mbCount
      omega
  · next hkey => exact hinter (Bool.eq_false_iff.2 hkey)

/-- Settles O60: the header is `FC_HEADER`'s, the loop completes, and each of its commands leads on from any response,
so the frame is the program of its commands; what it leaves is what the loop leaves and `FC_FRAMEEND` makes of it. -/
theorem fcFrameResult : Obligations.FcFrameResult := by
  unfold Obligations.FcFrameResult
  refine ⟨?_, fun s h c hheader herror => fcFrame_header_error hheader herror⟩
  intro s base key hok hgrant hinter
  have hgrant := (frameBegin_sizeGranted s base).trans hgrant
  obtain ⟨a, ha, hdone⟩ := header_completes hok hgrant
  have hexec : exec .fcHeader s.frameBegin = .next a.done := by
    show finishFrame _ (header Config.openTables base (s.arg 1) s.frameBegin) = _
    rw [ha]
    rfl
  obtain ⟨h, hh, -, -, -, hcls, -, hshow, hone, hstatus, -⟩ := fcHeaderResult s.frameBegin hok hgrant
  cases hexec.symm.trans hh
  refine ⟨a.done, hexec, rfl, fun hdiscard => ?_, fun hkeep => ?_⟩
  · have hbody : frameBody Config.openTables a = .ok a.endProbs.noFrame := if_pos ((discard_iff a).2 hdiscard)
    rw [exec_fcFrame ha hbody, endProbs_eq]
    rfl
  · have hkeep : a.discard = false := Bool.eq_false_iff.2 fun h => hkeep ((discard_iff a).1 h)
    have hkeyframe : s.frameBegin.crRaw 1 = s.crRaw 1 := frameBegin_crRaw s (by decide)
    have hsize : a.hasSize = true := header_hasSize hok.toHeaderOk hone fun hkey => by
      obtain ⟨-, hw, hh, -⟩ := hinter hkey
      unfold State.mbW State.mbH
      rw [hkeyframe]
      exact ⟨hw, hh⟩
    obtain ⟨u, hu⟩ := looped_of_header hdone
      (fun hkey => hone.trans ((if_neg (Bool.eq_false_iff.1 hkey)).trans hkeyframe)) hsize
      fun hkey => ⟨(hinter hkey).1, (hinter hkey).2.2.2⟩
    have hshow : a.crBit 0 4 = tagShow (s.frameTag base) := hshow
    have hframe := exec_fcFrame ha (frameBody_decodes hkeep hsize hu)
    have hprogram : frameProgram a.done = .next (fcFrameend u).done := frameProgram_eq hsize hu.loop hu.roles.2.1 .ok
    have hdecoded := hu.decoded
    have hroles := (slotFree_eq a _).1 (freeSlot_free a)
    rw [hshow] at hframe
    generalize fcFrameend u = w at *
    obtain ⟨t, ht⟩ : ∃ t, t = if tagShow (s.frameTag base) = true then w.done else (w.done.setRes 0 0).setRes 1 7 :=
      ⟨_, rfl⟩
    obtain ⟨r, hr⟩ : ∃ r, t = { w with res := r, response := .ok } := by
      rw [ht]
      split <;> exact ⟨_, rfl⟩
    have hresult : t.result 0 = boolWord (tagShow (s.frameTag base)) ∧
        t.result 1 = if tagShow (s.frameTag base) then BitVec.ofNat 32 a.freeSlot else 7 := by
      rw [ht]
      cases hs : tagShow (s.frameTag base) with
      | true =>
        exact ⟨hdecoded.results.1.trans (congrArg boolWord (hshow.trans hs)), hdecoded.results.2⟩
      | false =>
        exact ⟨(State.result_setRes_other _ _ (by decide)).trans (State.result_setRes_zero _ _),
          State.result_setRes _ 1 1 _ (by decide)⟩
    refine ⟨t, w.done, a.freeSlot, hprogram, ht, ?_, ?_⟩
    · rw [hframe, ht]
      congr 1
      split <;> rfl
    · rw [hr] at hresult ⊢
      have hseen : a.keyframeSeen = s.keyframeSeen :=
        (crBit_of_raw (hstatus 16 (.inl rfl))).trans (frameBegin_status s).2.2
      have herror : a.errFlag = 0 := (crField_of_raw (hstatus 16 (.inl rfl))).trans (frameBegin_status s).1
      refine ⟨rfl, hresult.1, hresult.2, hdecoded.visible.trans hshow, hdecoded.error.trans herror, ?_,
        hdecoded.cur, ?_, hdecoded.prev, hdecoded.golden, hdecoded.altref, hdecoded.prob, hdecoded.saved,
        hdecoded.known, hdecoded.other⟩
      · exact hdecoded.seen.trans (by rw [hseen, show a.crBit 0 0 = key from hcls])
      · rintro lo (rfl | rfl | rfl)
        · exact hroles.1
        · exact hroles.2.1
        · exact hroles.2.2

end Sys2Proof.Machine
end
